-- ==== Sys2Proof/Word.lean ====
section
/-! DEFINITION. The word types of the machine: a word is 32 bits, a halfword 16, a byte 8, a doubleword 64; a
register specifier is 5 bits and a condition-flag number 3 bits (R4, R105). -/

namespace Sys2Proof

/-- A byte, 8 bits (R4). -/
abbrev Byte := BitVec 8

/-- A halfword, 16 bits (R4). -/
abbrev Half := BitVec 16

/-- A word, 32 bits (R4): the width of a general register, of the pc and of an address. -/
abbrev Word := BitVec 32

/-- A doubleword, 64 bits (R4): a double-precision value or the pair `hi ++ lo`. -/
abbrev Dword := BitVec 64

/-- A general register specifier, 5 bits (R4, R20). -/
abbrev Reg := BitVec 5

/-- A floating-point register specifier, 5 bits (R32, R105). -/
abbrev FReg := BitVec 5

/-- A floating-point condition-flag number, 0..7 (R29, R105). -/
abbrev CC := BitVec 3

end Sys2Proof
end

