-- ==== Sys2Proof/Syntax.lean ====
section
/-! DEFINITION. The instructions: one constructor per row of spec/opcode_table.json (R116), its operands in the order of
the row's syntax (R10), each operand the bits of its field (R101, R105). -/

namespace Sys2Proof

/-- One instruction of the processor (R3, R116). The `code` fields of the register traps, `syscall` and `break`
(R105) and the `rt` field of `clo`/`clz` (R149) are operands here, since a word may hold any value there. -/
inductive Instr where
  -- Arithmetic and logic (40_arith_logic.md)
  /-- `add rd, rs, rt` (R143). -/
  | add (rd rs rt : Reg)
  /-- `addu rd, rs, rt` (R144). -/
  | addu (rd rs rt : Reg)
  /-- `addi rt, rs, imm` (R145). -/
  | addi (rt rs : Reg) (imm : Half)
  /-- `addiu rt, rs, imm` (R146). -/
  | addiu (rt rs : Reg) (imm : Half)
  /-- `and rd, rs, rt` (R147). -/
  | and (rd rs rt : Reg)
  /-- `andi rt, rs, imm` (R148). -/
  | andi (rt rs : Reg) (imm : Half)
  /-- `clo rd, rs` (R149). -/
  | clo (rd rs rt : Reg)
  /-- `clz rd, rs` (R150). -/
  | clz (rd rs rt : Reg)
  /-- `div rs, rt` (R152). -/
  | div (rs rt : Reg)
  /-- `divu rs, rt` (R153). -/
  | divu (rs rt : Reg)
  /-- `mult rs, rt` (R156). -/
  | mult (rs rt : Reg)
  /-- `multu rs, rt` (R157). -/
  | multu (rs rt : Reg)
  /-- `mul rd, rs, rt` (R160). -/
  | mul (rd rs rt : Reg)
  /-- `madd rs, rt` (R163). -/
  | madd (rs rt : Reg)
  /-- `maddu rs, rt` (R164). -/
  | maddu (rs rt : Reg)
  /-- `msub rs, rt` (R165). -/
  | msub (rs rt : Reg)
  /-- `msubu rs, rt` (R166). -/
  | msubu (rs rt : Reg)
  /-- `nor rd, rs, rt` (R169). -/
  | nor (rd rs rt : Reg)
  /-- `or rd, rs, rt` (R171). -/
  | or (rd rs rt : Reg)
  /-- `ori rt, rs, imm` (R172). -/
  | ori (rt rs : Reg) (imm : Half)
  /-- `sll rd, rt, shamt` (R175). -/
  | sll (rd rt : Reg) (shamt : BitVec 5)
  /-- `sllv rd, rt, rs` (R176). -/
  | sllv (rd rt rs : Reg)
  /-- `sra rd, rt, shamt` (R177). -/
  | sra (rd rt : Reg) (shamt : BitVec 5)
  /-- `srav rd, rt, rs` (R178). -/
  | srav (rd rt rs : Reg)
  /-- `srl rd, rt, shamt` (R179). -/
  | srl (rd rt : Reg) (shamt : BitVec 5)
  /-- `srlv rd, rt, rs` (R180). -/
  | srlv (rd rt rs : Reg)
  /-- `sub rd, rs, rt` (R183). -/
  | sub (rd rs rt : Reg)
  /-- `subu rd, rs, rt` (R184). -/
  | subu (rd rs rt : Reg)
  /-- `xor rd, rs, rt` (R185). -/
  | xor (rd rs rt : Reg)
  /-- `xori rt, rs, imm` (R186). -/
  | xori (rt rs : Reg) (imm : Half)
  -- Constants and comparisons (41_const_compare.md)
  /-- `lui rt, imm` (R200). -/
  | lui (rt : Reg) (imm : Half)
  /-- `slt rd, rs, rt` (R202). -/
  | slt (rd rs rt : Reg)
  /-- `sltu rd, rs, rt` (R203). -/
  | sltu (rd rs rt : Reg)
  /-- `slti rt, rs, imm` (R204). -/
  | slti (rt rs : Reg) (imm : Half)
  /-- `sltiu rt, rs, imm` (R205). -/
  | sltiu (rt rs : Reg) (imm : Half)
  -- Branches and jumps (42_branch_jump.md)
  /-- `bc1f cc, label` (R236). -/
  | bc1f (cc : CC) (imm : Half)
  /-- `bc1t cc, label` (R237). -/
  | bc1t (cc : CC) (imm : Half)
  /-- `beq rs, rt, label` (R238). -/
  | beq (rs rt : Reg) (imm : Half)
  /-- `bgez rs, label` (R239). -/
  | bgez (rs : Reg) (imm : Half)
  /-- `bgezal rs, label` (R240). -/
  | bgezal (rs : Reg) (imm : Half)
  /-- `bgtz rs, label` (R241). -/
  | bgtz (rs : Reg) (imm : Half)
  /-- `blez rs, label` (R242). -/
  | blez (rs : Reg) (imm : Half)
  /-- `bltzal rs, label` (R243). -/
  | bltzal (rs : Reg) (imm : Half)
  /-- `bltz rs, label` (R244). -/
  | bltz (rs : Reg) (imm : Half)
  /-- `bne rs, rt, label` (R245). -/
  | bne (rs rt : Reg) (imm : Half)
  /-- `j target` (R256). -/
  | j (target : BitVec 26)
  /-- `jal target` (R257). -/
  | jal (target : BitVec 26)
  /-- `jalr rs, rd` (R258). -/
  | jalr (rs rd : Reg)
  /-- `jr rs` (R259). -/
  | jr (rs : Reg)
  -- Traps (43_trap.md)
  /-- `teq rs, rt` (R281). -/
  | teq (rs rt : Reg) (code : BitVec 10)
  /-- `teqi rs, imm` (R282). -/
  | teqi (rs : Reg) (imm : Half)
  /-- `tne rs, rt` (R283). -/
  | tne (rs rt : Reg) (code : BitVec 10)
  /-- `tnei rs, imm` (R284). -/
  | tnei (rs : Reg) (imm : Half)
  /-- `tge rs, rt` (R285). -/
  | tge (rs rt : Reg) (code : BitVec 10)
  /-- `tgeu rs, rt` (R286). -/
  | tgeu (rs rt : Reg) (code : BitVec 10)
  /-- `tgei rs, imm` (R287). -/
  | tgei (rs : Reg) (imm : Half)
  /-- `tgeiu rs, imm` (R288). -/
  | tgeiu (rs : Reg) (imm : Half)
  /-- `tlt rs, rt` (R289). -/
  | tlt (rs rt : Reg) (code : BitVec 10)
  /-- `tltu rs, rt` (R290). -/
  | tltu (rs rt : Reg) (code : BitVec 10)
  /-- `tlti rs, imm` (R291). -/
  | tlti (rs : Reg) (imm : Half)
  /-- `tltiu rs, imm` (R292). -/
  | tltiu (rs : Reg) (imm : Half)
  -- Loads and stores (44_load_store.md)
  /-- `lb rt, offset(rs)` (R303). -/
  | lb (rt rs : Reg) (imm : Half)
  /-- `lbu rt, offset(rs)` (R304). -/
  | lbu (rt rs : Reg) (imm : Half)
  /-- `lh rt, offset(rs)` (R305). -/
  | lh (rt rs : Reg) (imm : Half)
  /-- `lhu rt, offset(rs)` (R306). -/
  | lhu (rt rs : Reg) (imm : Half)
  /-- `lw rt, offset(rs)` (R307). -/
  | lw (rt rs : Reg) (imm : Half)
  /-- `lwc1 ft, offset(rs)` (R308). -/
  | lwc1 (ft : FReg) (rs : Reg) (imm : Half)
  /-- `lwl rt, offset(rs)` (R309). -/
  | lwl (rt rs : Reg) (imm : Half)
  /-- `lwr rt, offset(rs)` (R310). -/
  | lwr (rt rs : Reg) (imm : Half)
  /-- `ldc1 ft, offset(rs)` (R316). -/
  | ldc1 (ft : FReg) (rs : Reg) (imm : Half)
  /-- `ll rt, offset(rs)` (R331). -/
  | ll (rt rs : Reg) (imm : Half)
  /-- `sb rt, offset(rs)` (R320). -/
  | sb (rt rs : Reg) (imm : Half)
  /-- `sh rt, offset(rs)` (R321). -/
  | sh (rt rs : Reg) (imm : Half)
  /-- `sw rt, offset(rs)` (R322). -/
  | sw (rt rs : Reg) (imm : Half)
  /-- `swc1 ft, offset(rs)` (R323). -/
  | swc1 (ft : FReg) (rs : Reg) (imm : Half)
  /-- `sdc1 ft, offset(rs)` (R324). -/
  | sdc1 (ft : FReg) (rs : Reg) (imm : Half)
  /-- `swl rt, offset(rs)` (R325). -/
  | swl (rt rs : Reg) (imm : Half)
  /-- `swr rt, offset(rs)` (R326). -/
  | swr (rt rs : Reg) (imm : Half)
  /-- `sc rt, offset(rs)` (R332). -/
  | sc (rt rs : Reg) (imm : Half)
  -- Data movement (45_data_move.md)
  /-- `mfhi rd` (R351). -/
  | mfhi (rd : Reg)
  /-- `mflo rd` (R352). -/
  | mflo (rd : Reg)
  /-- `mthi rs` (R353). -/
  | mthi (rs : Reg)
  /-- `mtlo rs` (R354). -/
  | mtlo (rs : Reg)
  /-- `mfc0 rt, rd` (R355). -/
  | mfc0 (rt rd : Reg)
  /-- `mfc1 rt, fs` (R356). -/
  | mfc1 (rt : Reg) (fs : FReg)
  /-- `mtc0 rt, rd` (R358). -/
  | mtc0 (rt rd : Reg)
  /-- `mtc1 rt, fs` (R359). -/
  | mtc1 (rt : Reg) (fs : FReg)
  /-- `movn rd, rs, rt` (R360). -/
  | movn (rd rs rt : Reg)
  /-- `movz rd, rs, rt` (R361). -/
  | movz (rd rs rt : Reg)
  /-- `movf rd, rs, cc` (R362). -/
  | movf (rd rs : Reg) (cc : CC)
  /-- `movt rd, rs, cc` (R363). -/
  | movt (rd rs : Reg) (cc : CC)
  -- Floating point (46_float.md)
  /-- `abs.d fd, fs` (R383). -/
  | absD (fd fs : FReg)
  /-- `abs.s fd, fs` (R384). -/
  | absS (fd fs : FReg)
  /-- `add.d fd, fs, ft` (R385). -/
  | addD (fd fs ft : FReg)
  /-- `add.s fd, fs, ft` (R386). -/
  | addS (fd fs ft : FReg)
  /-- `ceil.w.d fd, fs` (R387). -/
  | ceilWD (fd fs : FReg)
  /-- `ceil.w.s fd, fs` (R388). -/
  | ceilWS (fd fs : FReg)
  /-- `c.eq.d cc, fs, ft` (R389). -/
  | cEqD (cc : CC) (fs ft : FReg)
  /-- `c.eq.s cc, fs, ft` (R390). -/
  | cEqS (cc : CC) (fs ft : FReg)
  /-- `c.le.d cc, fs, ft` (R391). -/
  | cLeD (cc : CC) (fs ft : FReg)
  /-- `c.le.s cc, fs, ft` (R392). -/
  | cLeS (cc : CC) (fs ft : FReg)
  /-- `c.lt.d cc, fs, ft` (R393). -/
  | cLtD (cc : CC) (fs ft : FReg)
  /-- `c.lt.s cc, fs, ft` (R394). -/
  | cLtS (cc : CC) (fs ft : FReg)
  /-- `cvt.d.s fd, fs` (R395). -/
  | cvtDS (fd fs : FReg)
  /-- `cvt.d.w fd, fs` (R396). -/
  | cvtDW (fd fs : FReg)
  /-- `cvt.s.d fd, fs` (R397). -/
  | cvtSD (fd fs : FReg)
  /-- `cvt.s.w fd, fs` (R398). -/
  | cvtSW (fd fs : FReg)
  /-- `cvt.w.d fd, fs` (R399). -/
  | cvtWD (fd fs : FReg)
  /-- `cvt.w.s fd, fs` (R400). -/
  | cvtWS (fd fs : FReg)
  /-- `div.d fd, fs, ft` (R401). -/
  | divD (fd fs ft : FReg)
  /-- `div.s fd, fs, ft` (R402). -/
  | divS (fd fs ft : FReg)
  /-- `floor.w.d fd, fs` (R403). -/
  | floorWD (fd fs : FReg)
  /-- `floor.w.s fd, fs` (R404). -/
  | floorWS (fd fs : FReg)
  /-- `mov.d fd, fs` (R407). -/
  | movD (fd fs : FReg)
  /-- `mov.s fd, fs` (R408). -/
  | movS (fd fs : FReg)
  /-- `movf.d fd, fs, cc` (R409). -/
  | movfD (fd fs : FReg) (cc : CC)
  /-- `movf.s fd, fs, cc` (R410). -/
  | movfS (fd fs : FReg) (cc : CC)
  /-- `movt.d fd, fs, cc` (R411). -/
  | movtD (fd fs : FReg) (cc : CC)
  /-- `movt.s fd, fs, cc` (R412). -/
  | movtS (fd fs : FReg) (cc : CC)
  /-- `movn.d fd, fs, rt` (R413). -/
  | movnD (fd fs : FReg) (rt : Reg)
  /-- `movn.s fd, fs, rt` (R414). -/
  | movnS (fd fs : FReg) (rt : Reg)
  /-- `movz.d fd, fs, rt` (R415). -/
  | movzD (fd fs : FReg) (rt : Reg)
  /-- `movz.s fd, fs, rt` (R416). -/
  | movzS (fd fs : FReg) (rt : Reg)
  /-- `mul.d fd, fs, ft` (R417). -/
  | mulD (fd fs ft : FReg)
  /-- `mul.s fd, fs, ft` (R418). -/
  | mulS (fd fs ft : FReg)
  /-- `neg.d fd, fs` (R419). -/
  | negD (fd fs : FReg)
  /-- `neg.s fd, fs` (R420). -/
  | negS (fd fs : FReg)
  /-- `round.w.d fd, fs` (R421). -/
  | roundWD (fd fs : FReg)
  /-- `round.w.s fd, fs` (R422). -/
  | roundWS (fd fs : FReg)
  /-- `sqrt.d fd, fs` (R423). -/
  | sqrtD (fd fs : FReg)
  /-- `sqrt.s fd, fs` (R424). -/
  | sqrtS (fd fs : FReg)
  /-- `sub.d fd, fs, ft` (R427). -/
  | subD (fd fs ft : FReg)
  /-- `sub.s fd, fs, ft` (R428). -/
  | subS (fd fs ft : FReg)
  /-- `trunc.w.d fd, fs` (R429). -/
  | truncWD (fd fs : FReg)
  /-- `trunc.w.s fd, fs` (R430). -/
  | truncWS (fd fs : FReg)
  -- Exception instructions (47_exception_instr.md)
  /-- `eret` (R450). -/
  | eret
  /-- `syscall` (R451). -/
  | syscall (code : BitVec 20)
  /-- `break code` (R452). -/
  | brk (code : BitVec 20)
  /-- `nop` (R453). -/
  | nop
deriving DecidableEq, Repr

end Sys2Proof
end

