-- ==== Sys2Proof/WellFormed.lean ====
section
/-! DEFINITION. What a well-formed instruction is: `Instr.wf` says which terms a decoded word can be (R120), and
`Instr.operandsOk` states the operand constraints that R121 checks after a row has matched. -/

namespace Sys2Proof

/-- The terms that a word decodes to: every one but `sll $0, $0, 0`, whose word, the all-zero word, is `nop`
(R120, R453). -/
def Instr.wf : Instr → Bool
  | .sll rd rt shamt => !(rd == 0 && rt == 0 && shamt == 0)
  | .add _ _ _ | .addu _ _ _ | .addi _ _ _ | .addiu _ _ _ | .and _ _ _ | .andi _ _ _ | .clo _ _ _ | .clz _ _ _
  | .div _ _ | .divu _ _ | .mult _ _ | .multu _ _ | .mul _ _ _ | .madd _ _ | .maddu _ _ | .msub _ _ | .msubu _ _
  | .nor _ _ _ | .or _ _ _ | .ori _ _ _ | .sllv _ _ _ | .sra _ _ _ | .srav _ _ _ | .srl _ _ _ | .srlv _ _ _
  | .sub _ _ _ | .subu _ _ _ | .xor _ _ _ | .xori _ _ _ | .lui _ _ | .slt _ _ _ | .sltu _ _ _ | .slti _ _ _
  | .sltiu _ _ _ | .bc1f _ _ | .bc1t _ _ | .beq _ _ _ | .bgez _ _ | .bgezal _ _ | .bgtz _ _ | .blez _ _
  | .bltzal _ _ | .bltz _ _ | .bne _ _ _ | .j _ | .jal _ | .jalr _ _ | .jr _ | .teq _ _ _ | .teqi _ _ | .tne _ _ _
  | .tnei _ _ | .tge _ _ _ | .tgeu _ _ _ | .tgei _ _ | .tgeiu _ _ | .tlt _ _ _ | .tltu _ _ _ | .tlti _ _
  | .tltiu _ _ | .lb _ _ _ | .lbu _ _ _ | .lh _ _ _ | .lhu _ _ _ | .lw _ _ _ | .lwc1 _ _ _ | .lwl _ _ _
  | .lwr _ _ _ | .ldc1 _ _ _ | .ll _ _ _ | .sb _ _ _ | .sh _ _ _ | .sw _ _ _ | .swc1 _ _ _ | .sdc1 _ _ _
  | .swl _ _ _ | .swr _ _ _ | .sc _ _ _ | .mfhi _ | .mflo _ | .mthi _ | .mtlo _ | .mfc0 _ _ | .mfc1 _ _ | .mtc0 _ _
  | .mtc1 _ _ | .movn _ _ _ | .movz _ _ _ | .movf _ _ _ | .movt _ _ _ | .absD _ _ | .absS _ _ | .addD _ _ _
  | .addS _ _ _ | .ceilWD _ _ | .ceilWS _ _ | .cEqD _ _ _ | .cEqS _ _ _ | .cLeD _ _ _ | .cLeS _ _ _ | .cLtD _ _ _
  | .cLtS _ _ _ | .cvtDS _ _ | .cvtDW _ _ | .cvtSD _ _ | .cvtSW _ _ | .cvtWD _ _ | .cvtWS _ _ | .divD _ _ _
  | .divS _ _ _ | .floorWD _ _ | .floorWS _ _ | .movD _ _ | .movS _ _ | .movfD _ _ _ | .movfS _ _ _ | .movtD _ _ _
  | .movtS _ _ _ | .movnD _ _ _ | .movnS _ _ _ | .movzD _ _ _ | .movzS _ _ _ | .mulD _ _ _ | .mulS _ _ _
  | .negD _ _ | .negS _ _ | .roundWD _ _ | .roundWS _ _ | .sqrtD _ _ | .sqrtS _ _ | .subD _ _ _ | .subS _ _ _
  | .truncWD _ _ | .truncWS _ _ | .eret | .syscall _ | .brk _ | .nop => true

/-- A floating-point register that can hold a double: an even number (R33). -/
def evenReg (r : FReg) : Bool := r.toNat % 2 == 0

/-- The operand constraints of R121: even registers for double operands (R33), a modelled coprocessor 0 register (R36),
`jalr` with `rd` different from `rs` (R258), a link branch that does not read register 31 (R240, R243), and the `rt`
field of `clo`/`clz` equal to `rd` or 0 (R149, R150). -/
def Instr.operandsOk : Instr → Bool
  | .clo rd _ rt | .clz rd _ rt => rt == rd || rt == 0
  | .bgezal rs _ | .bltzal rs _ => rs != 31
  | .jalr rs rd => rd != rs
  | .mfc0 _ rd | .mtc0 _ rd => rd == 8 || rd == 12 || rd == 13 || rd == 14
  | .ldc1 ft _ _ | .sdc1 ft _ _ => evenReg ft
  | .absD fd fs | .movD fd fs | .movfD fd fs _ | .movtD fd fs _ | .movnD fd fs _ | .movzD fd fs _ | .negD fd fs
  | .sqrtD fd fs => evenReg fd && evenReg fs
  | .addD fd fs ft | .divD fd fs ft | .mulD fd fs ft | .subD fd fs ft => evenReg fd && evenReg fs && evenReg ft
  | .ceilWD _ fs | .cvtSD _ fs | .cvtWD _ fs | .floorWD _ fs | .roundWD _ fs | .truncWD _ fs => evenReg fs
  | .cEqD _ fs ft | .cLeD _ fs ft | .cLtD _ fs ft => evenReg fs && evenReg ft
  | .cvtDS fd _ | .cvtDW fd _ => evenReg fd
  | .add _ _ _ | .addu _ _ _ | .addi _ _ _ | .addiu _ _ _ | .and _ _ _ | .andi _ _ _ | .div _ _ | .divu _ _
  | .mult _ _ | .multu _ _ | .mul _ _ _ | .madd _ _ | .maddu _ _ | .msub _ _ | .msubu _ _ | .nor _ _ _ | .or _ _ _
  | .ori _ _ _ | .sll _ _ _ | .sllv _ _ _ | .sra _ _ _ | .srav _ _ _ | .srl _ _ _ | .srlv _ _ _ | .sub _ _ _
  | .subu _ _ _ | .xor _ _ _ | .xori _ _ _ | .lui _ _ | .slt _ _ _ | .sltu _ _ _ | .slti _ _ _ | .sltiu _ _ _
  | .bc1f _ _ | .bc1t _ _ | .beq _ _ _ | .bgez _ _ | .bgtz _ _ | .blez _ _ | .bltz _ _ | .bne _ _ _ | .j _ | .jal _
  | .jr _ | .teq _ _ _ | .teqi _ _ | .tne _ _ _ | .tnei _ _ | .tge _ _ _ | .tgeu _ _ _ | .tgei _ _ | .tgeiu _ _
  | .tlt _ _ _ | .tltu _ _ _ | .tlti _ _ | .tltiu _ _ | .lb _ _ _ | .lbu _ _ _ | .lh _ _ _ | .lhu _ _ _ | .lw _ _ _
  | .lwc1 _ _ _ | .lwl _ _ _ | .lwr _ _ _ | .ll _ _ _ | .sb _ _ _ | .sh _ _ _ | .sw _ _ _ | .swc1 _ _ _
  | .swl _ _ _ | .swr _ _ _ | .sc _ _ _ | .mfhi _ | .mflo _ | .mthi _ | .mtlo _ | .mfc1 _ _ | .mtc1 _ _
  | .movn _ _ _ | .movz _ _ _ | .movf _ _ _ | .movt _ _ _ | .absS _ _ | .addS _ _ _ | .ceilWS _ _ | .cEqS _ _ _
  | .cLeS _ _ _ | .cLtS _ _ _ | .cvtSW _ _ | .cvtWS _ _ | .divS _ _ _ | .floorWS _ _ | .movS _ _ | .movfS _ _ _
  | .movtS _ _ _ | .movnS _ _ _ | .movzS _ _ _ | .mulS _ _ _ | .negS _ _ | .roundWS _ _ | .sqrtS _ _ | .subS _ _ _
  | .truncWS _ _ | .eret | .syscall _ | .brk _ | .nop => true

end Sys2Proof
end

