-- ==== Sys2Proof/Decode.lean ====
section
/-! DEFINITION. Decoding and encoding: the fields of a word (R101), the decoder by major opcode, `funct`, `rt` and `fmt`
(R110 to R115) with strict must-be-zero fields (R120), refusing by name a word that is no instruction (R123); then the
encoder, from the table of R116; and the bit-field and sign-extension helpers that the machine uses (R8). -/

namespace Sys2Proof

/-! ### Bit helpers (R8) -/

/-- `sext_32` of a 16-bit immediate (R8, R104). -/
def sext32 (imm : Half) : Word := imm.signExtend 32

/-- `zext_32` of a 16-bit immediate (R8, R104). -/
def zext32 (imm : Half) : Word := imm.zeroExtend 32

/-- `v` with the field of `n` bits at `lo` replaced by `f`; every other bit is kept. -/
def setField {n : Nat} (v : Word) (lo : Nat) (f : BitVec n) : Word :=
  (v &&& ~~~((BitVec.allOnes n).zeroExtend 32 <<< lo)) ||| (f.zeroExtend 32 <<< lo)

/-! ### The fields of a word (R101) -/

/-- `op`, bits 31:26. -/
def opOf (w : Word) : BitVec 6 := w.extractLsb' 26 6
/-- `rs`, bits 25:21; the `sub` and `fmt` field of the coprocessor formats. -/
def rsOf (w : Word) : BitVec 5 := w.extractLsb' 21 5
/-- `rt`, bits 20:16; `ft` of the floating-point formats. -/
def rtOf (w : Word) : BitVec 5 := w.extractLsb' 16 5
/-- `rd`, bits 15:11; `fs` of the floating-point formats. -/
def rdOf (w : Word) : BitVec 5 := w.extractLsb' 11 5
/-- `shamt`, bits 10:6; `fd` of the floating-point formats. -/
def shamtOf (w : Word) : BitVec 5 := w.extractLsb' 6 5
/-- `funct`, bits 5:0. -/
def functOf (w : Word) : BitVec 6 := w.extractLsb' 0 6
/-- `imm`, bits 15:0. -/
def immOf (w : Word) : Half := w.extractLsb' 0 16
/-- `target`, bits 25:0. -/
def targetOf (w : Word) : BitVec 26 := w.extractLsb' 0 26
/-- `code` of the register traps, bits 15:6. -/
def trapCodeOf (w : Word) : BitVec 10 := w.extractLsb' 6 10
/-- `code` of `syscall` and `break`, bits 25:6. -/
def sysCodeOf (w : Word) : BitVec 20 := w.extractLsb' 6 20
/-- `cc`, bits 20:18, of the formats MOVCI, FB and FMC. -/
def ccOf (w : Word) : CC := w.extractLsb' 18 3
/-- Bits 17:16 of the formats MOVCI, FB and FMC: bit 17 must be 0, bit 16 is `tf`. -/
def tfOf (w : Word) : BitVec 2 := w.extractLsb' 16 2
/-- `cc`, bits 10:8, of the format FC. -/
def fcOf (w : Word) : CC := w.extractLsb' 8 3
/-- Bits 7:6 of the format FC, which must be 0. -/
def fcZeroOf (w : Word) : BitVec 2 := w.extractLsb' 6 2

/-! ### The decoder -/

/-- `i` where the must-be-zero fields hold (R120). -/
def when (fixed : Bool) (i : Instr) : Option Instr := if fixed then some i else none

/-- SPECIAL, `op` = 0: selected by `funct` (R111). -/
def decodeSpecial (w : Word) : Option Instr :=
  let rs := rsOf w
  let rt := rtOf w
  let rd := rdOf w
  let sh := shamtOf w
  match functOf w with
  | 0x00#6 => if w == 0 then some .nop else when (rs == 0) (.sll rd rt sh)
  | 0x01#6 =>
    match tfOf w with
    | 0#2 => when (sh == 0) (.movf rd rs (ccOf w))
    | 1#2 => when (sh == 0) (.movt rd rs (ccOf w))
    | _ => none
  | 0x02#6 => when (rs == 0) (.srl rd rt sh)
  | 0x03#6 => when (rs == 0) (.sra rd rt sh)
  | 0x04#6 => when (sh == 0) (.sllv rd rt rs)
  | 0x06#6 => when (sh == 0) (.srlv rd rt rs)
  | 0x07#6 => when (sh == 0) (.srav rd rt rs)
  | 0x08#6 => when (rt == 0 && rd == 0 && sh == 0) (.jr rs)
  | 0x09#6 => when (rt == 0 && sh == 0) (.jalr rs rd)
  | 0x0a#6 => when (sh == 0) (.movz rd rs rt)
  | 0x0b#6 => when (sh == 0) (.movn rd rs rt)
  | 0x0c#6 => some (.syscall (sysCodeOf w))
  | 0x0d#6 => some (.brk (sysCodeOf w))
  | 0x10#6 => when (rs == 0 && rt == 0 && sh == 0) (.mfhi rd)
  | 0x11#6 => when (rt == 0 && rd == 0 && sh == 0) (.mthi rs)
  | 0x12#6 => when (rs == 0 && rt == 0 && sh == 0) (.mflo rd)
  | 0x13#6 => when (rt == 0 && rd == 0 && sh == 0) (.mtlo rs)
  | 0x18#6 => when (rd == 0 && sh == 0) (.mult rs rt)
  | 0x19#6 => when (rd == 0 && sh == 0) (.multu rs rt)
  | 0x1a#6 => when (rd == 0 && sh == 0) (.div rs rt)
  | 0x1b#6 => when (rd == 0 && sh == 0) (.divu rs rt)
  | 0x20#6 => when (sh == 0) (.add rd rs rt)
  | 0x21#6 => when (sh == 0) (.addu rd rs rt)
  | 0x22#6 => when (sh == 0) (.sub rd rs rt)
  | 0x23#6 => when (sh == 0) (.subu rd rs rt)
  | 0x24#6 => when (sh == 0) (.and rd rs rt)
  | 0x25#6 => when (sh == 0) (.or rd rs rt)
  | 0x26#6 => when (sh == 0) (.xor rd rs rt)
  | 0x27#6 => when (sh == 0) (.nor rd rs rt)
  | 0x2a#6 => when (sh == 0) (.slt rd rs rt)
  | 0x2b#6 => when (sh == 0) (.sltu rd rs rt)
  | 0x30#6 => some (.tge rs rt (trapCodeOf w))
  | 0x31#6 => some (.tgeu rs rt (trapCodeOf w))
  | 0x32#6 => some (.tlt rs rt (trapCodeOf w))
  | 0x33#6 => some (.tltu rs rt (trapCodeOf w))
  | 0x34#6 => some (.teq rs rt (trapCodeOf w))
  | 0x36#6 => some (.tne rs rt (trapCodeOf w))
  | _ => none

/-- REGIMM, `op` = 1: selected by `rt` (R112). -/
def decodeRegimm (w : Word) : Option Instr :=
  match rtOf w with
  | 0x00#5 => some (.bltz (rsOf w) (immOf w))
  | 0x01#5 => some (.bgez (rsOf w) (immOf w))
  | 0x08#5 => some (.tgei (rsOf w) (immOf w))
  | 0x09#5 => some (.tgeiu (rsOf w) (immOf w))
  | 0x0a#5 => some (.tlti (rsOf w) (immOf w))
  | 0x0b#5 => some (.tltiu (rsOf w) (immOf w))
  | 0x0c#5 => some (.teqi (rsOf w) (immOf w))
  | 0x0e#5 => some (.tnei (rsOf w) (immOf w))
  | 0x10#5 => some (.bltzal (rsOf w) (immOf w))
  | 0x11#5 => some (.bgezal (rsOf w) (immOf w))
  | _ => none

/-- SPECIAL2, `op` = 0x1c: selected by `funct` (R113). -/
def decodeSpecial2 (w : Word) : Option Instr :=
  let rs := rsOf w
  let rt := rtOf w
  let rd := rdOf w
  let sh := shamtOf w
  match functOf w with
  | 0x00#6 => when (rd == 0 && sh == 0) (.madd rs rt)
  | 0x01#6 => when (rd == 0 && sh == 0) (.maddu rs rt)
  | 0x02#6 => when (sh == 0) (.mul rd rs rt)
  | 0x04#6 => when (rd == 0 && sh == 0) (.msub rs rt)
  | 0x05#6 => when (rd == 0 && sh == 0) (.msubu rs rt)
  | 0x20#6 => when (sh == 0) (.clz rd rs rt)
  | 0x21#6 => when (sh == 0) (.clo rd rs rt)
  | _ => none

/-- COP0, `op` = 0x10: `mfc0`, `mtc0` with bits 10:0 zero (`sel` must be 0, D31), and the one word of `eret` (R114). -/
def decodeCop0 (w : Word) : Option Instr :=
  match rsOf w with
  | 0x00#5 => when (shamtOf w == 0 && functOf w == 0) (.mfc0 (rtOf w) (rdOf w))
  | 0x04#5 => when (shamtOf w == 0 && functOf w == 0) (.mtc0 (rtOf w) (rdOf w))
  | _ => when (w == 0x42000018#32) .eret

/-- COP1 with `fmt` = single: selected by `funct` (R115). -/
def decodeFpS (w : Word) : Option Instr :=
  let ft := rtOf w
  let fs := rdOf w
  let fd := shamtOf w
  match functOf w with
  | 0x00#6 => some (.addS fd fs ft)
  | 0x01#6 => some (.subS fd fs ft)
  | 0x02#6 => some (.mulS fd fs ft)
  | 0x03#6 => some (.divS fd fs ft)
  | 0x04#6 => when (ft == 0) (.sqrtS fd fs)
  | 0x05#6 => when (ft == 0) (.absS fd fs)
  | 0x06#6 => when (ft == 0) (.movS fd fs)
  | 0x07#6 => when (ft == 0) (.negS fd fs)
  | 0x0c#6 => when (ft == 0) (.roundWS fd fs)
  | 0x0d#6 => when (ft == 0) (.truncWS fd fs)
  | 0x0e#6 => when (ft == 0) (.ceilWS fd fs)
  | 0x0f#6 => when (ft == 0) (.floorWS fd fs)
  | 0x11#6 =>
    match tfOf w with
    | 0#2 => some (.movfS fd fs (ccOf w))
    | 1#2 => some (.movtS fd fs (ccOf w))
    | _ => none
  | 0x12#6 => some (.movzS fd fs ft)
  | 0x13#6 => some (.movnS fd fs ft)
  | 0x21#6 => when (ft == 0) (.cvtDS fd fs)
  | 0x24#6 => when (ft == 0) (.cvtWS fd fs)
  | 0x32#6 => when (fcZeroOf w == 0) (.cEqS (fcOf w) fs ft)
  | 0x3c#6 => when (fcZeroOf w == 0) (.cLtS (fcOf w) fs ft)
  | 0x3e#6 => when (fcZeroOf w == 0) (.cLeS (fcOf w) fs ft)
  | _ => none

/-- COP1 with `fmt` = double: selected by `funct` (R115). -/
def decodeFpD (w : Word) : Option Instr :=
  let ft := rtOf w
  let fs := rdOf w
  let fd := shamtOf w
  match functOf w with
  | 0x00#6 => some (.addD fd fs ft)
  | 0x01#6 => some (.subD fd fs ft)
  | 0x02#6 => some (.mulD fd fs ft)
  | 0x03#6 => some (.divD fd fs ft)
  | 0x04#6 => when (ft == 0) (.sqrtD fd fs)
  | 0x05#6 => when (ft == 0) (.absD fd fs)
  | 0x06#6 => when (ft == 0) (.movD fd fs)
  | 0x07#6 => when (ft == 0) (.negD fd fs)
  | 0x0c#6 => when (ft == 0) (.roundWD fd fs)
  | 0x0d#6 => when (ft == 0) (.truncWD fd fs)
  | 0x0e#6 => when (ft == 0) (.ceilWD fd fs)
  | 0x0f#6 => when (ft == 0) (.floorWD fd fs)
  | 0x11#6 =>
    match tfOf w with
    | 0#2 => some (.movfD fd fs (ccOf w))
    | 1#2 => some (.movtD fd fs (ccOf w))
    | _ => none
  | 0x12#6 => some (.movzD fd fs ft)
  | 0x13#6 => some (.movnD fd fs ft)
  | 0x20#6 => when (ft == 0) (.cvtSD fd fs)
  | 0x24#6 => when (ft == 0) (.cvtWD fd fs)
  | 0x32#6 => when (fcZeroOf w == 0) (.cEqD (fcOf w) fs ft)
  | 0x3c#6 => when (fcZeroOf w == 0) (.cLtD (fcOf w) fs ft)
  | 0x3e#6 => when (fcZeroOf w == 0) (.cLeD (fcOf w) fs ft)
  | _ => none

/-- COP1 with `fmt` = word: the two conversions from an integer (R115). -/
def decodeFpW (w : Word) : Option Instr :=
  match functOf w with
  | 0x20#6 => when (rtOf w == 0) (.cvtSW (shamtOf w) (rdOf w))
  | 0x21#6 => when (rtOf w == 0) (.cvtDW (shamtOf w) (rdOf w))
  | _ => none

/-- COP1, `op` = 0x11: selected by bits 25:21 (R115). -/
def decodeCop1 (w : Word) : Option Instr :=
  match rsOf w with
  | 0x00#5 => when (shamtOf w == 0 && functOf w == 0) (.mfc1 (rtOf w) (rdOf w))
  | 0x04#5 => when (shamtOf w == 0 && functOf w == 0) (.mtc1 (rtOf w) (rdOf w))
  | 0x08#5 =>
    match tfOf w with
    | 0#2 => some (.bc1f (ccOf w) (immOf w))
    | 1#2 => some (.bc1t (ccOf w) (immOf w))
    | _ => none
  | 0x10#5 => decodeFpS w
  | 0x11#5 => decodeFpD w
  | 0x14#5 => decodeFpW w
  | _ => none

/-- The instruction of a word, if it is one: selected by the major opcode (R110, R120). -/
def decodeOp (w : Word) : Option Instr :=
  match opOf w with
  | 0x00#6 => decodeSpecial w
  | 0x01#6 => decodeRegimm w
  | 0x02#6 => some (.j (targetOf w))
  | 0x03#6 => some (.jal (targetOf w))
  | 0x04#6 => some (.beq (rsOf w) (rtOf w) (immOf w))
  | 0x05#6 => some (.bne (rsOf w) (rtOf w) (immOf w))
  | 0x06#6 => when (rtOf w == 0) (.blez (rsOf w) (immOf w))
  | 0x07#6 => when (rtOf w == 0) (.bgtz (rsOf w) (immOf w))
  | 0x08#6 => some (.addi (rtOf w) (rsOf w) (immOf w))
  | 0x09#6 => some (.addiu (rtOf w) (rsOf w) (immOf w))
  | 0x0a#6 => some (.slti (rtOf w) (rsOf w) (immOf w))
  | 0x0b#6 => some (.sltiu (rtOf w) (rsOf w) (immOf w))
  | 0x0c#6 => some (.andi (rtOf w) (rsOf w) (immOf w))
  | 0x0d#6 => some (.ori (rtOf w) (rsOf w) (immOf w))
  | 0x0e#6 => some (.xori (rtOf w) (rsOf w) (immOf w))
  | 0x0f#6 => when (rsOf w == 0) (.lui (rtOf w) (immOf w))
  | 0x10#6 => decodeCop0 w
  | 0x11#6 => decodeCop1 w
  | 0x1c#6 => decodeSpecial2 w
  | 0x20#6 => some (.lb (rtOf w) (rsOf w) (immOf w))
  | 0x21#6 => some (.lh (rtOf w) (rsOf w) (immOf w))
  | 0x22#6 => some (.lwl (rtOf w) (rsOf w) (immOf w))
  | 0x23#6 => some (.lw (rtOf w) (rsOf w) (immOf w))
  | 0x24#6 => some (.lbu (rtOf w) (rsOf w) (immOf w))
  | 0x25#6 => some (.lhu (rtOf w) (rsOf w) (immOf w))
  | 0x26#6 => some (.lwr (rtOf w) (rsOf w) (immOf w))
  | 0x28#6 => some (.sb (rtOf w) (rsOf w) (immOf w))
  | 0x29#6 => some (.sh (rtOf w) (rsOf w) (immOf w))
  | 0x2a#6 => some (.swl (rtOf w) (rsOf w) (immOf w))
  | 0x2b#6 => some (.sw (rtOf w) (rsOf w) (immOf w))
  | 0x2e#6 => some (.swr (rtOf w) (rsOf w) (immOf w))
  | 0x30#6 => some (.ll (rtOf w) (rsOf w) (immOf w))
  | 0x31#6 => some (.lwc1 (rtOf w) (rsOf w) (immOf w))
  | 0x35#6 => some (.ldc1 (rtOf w) (rsOf w) (immOf w))
  | 0x38#6 => some (.sc (rtOf w) (rsOf w) (immOf w))
  | 0x39#6 => some (.swc1 (rtOf w) (rsOf w) (immOf w))
  | 0x3d#6 => some (.sdc1 (rtOf w) (rsOf w) (immOf w))
  | _ => none

/-- Why bytes are no instruction. -/
inductive DecodeError where
  /-- A word that matches no row of the table (R123, R124): `refuse(no_such_instruction)`. -/
  | noSuchInstruction (w : Word)
  /-- Not the four bytes that every instruction has (R100). -/
  | notFourBytes (n : Nat)
deriving DecidableEq, Repr

/-- Decodes a word (R120). -/
def decode (w : Word) : Except DecodeError Instr :=
  match decodeOp w with
  | some i => .ok i
  | none => .error (.noSuchInstruction w)

/-- The word of four bytes in address order, in the byte order of the run (R62, R63). -/
def joinWord (bigEndian : Bool) (b0 b1 b2 b3 : Byte) : Word :=
  if bigEndian then b0 ++ b1 ++ b2 ++ b3 else b3 ++ b2 ++ b1 ++ b0

/-- The four bytes of a word in address order, in the byte order of the run (R62). -/
def splitWord (bigEndian : Bool) (w : Word) : List Byte :=
  let b (k : Nat) : Byte := w.extractLsb' (8 * k) 8
  if bigEndian then [b 3, b 2, b 1, b 0] else [b 0, b 1, b 2, b 3]

/-- Decodes an instruction's bytes as memory holds them (R63, R100); total on any bytes. -/
def decodeBytes (bigEndian : Bool) : List Byte → Except DecodeError Instr
  | [b0, b1, b2, b3] => decode (joinWord bigEndian b0 b1 b2 b3)
  | bytes => .error (.notFourBytes bytes.length)

/-! ### The encoder -/

/-- Formats R, R2, MOVCI, C0, FM, FR, FRG, FC and FMC: `op | rs | rt | rd | shamt | funct` (R101). -/
def encodeR (op : BitVec 6) (rs rt rd shamt : BitVec 5) (funct : BitVec 6) : Word :=
  op ++ rs ++ rt ++ rd ++ shamt ++ funct
/-- Formats I, RI, FI and FB: `op | rs | rt | imm` (R101). -/
def encodeI (op : BitVec 6) (rs rt : BitVec 5) (imm : Half) : Word := op ++ rs ++ rt ++ imm
/-- Format J: `op | target` (R101). -/
def encodeJ (op : BitVec 6) (target : BitVec 26) : Word := op ++ target
/-- Format TR: `op | rs | rt | code | funct` (R101). -/
def encodeTR (op : BitVec 6) (rs rt : BitVec 5) (code : BitVec 10) (funct : BitVec 6) : Word :=
  op ++ rs ++ rt ++ code ++ funct
/-- Format SYS: `op | code | funct` (R101). -/
def encodeSYS (op : BitVec 6) (code : BitVec 20) (funct : BitVec 6) : Word := op ++ code ++ funct
/-- Bits 20:16 of the formats MOVCI, FB and FMC: `cc | 0 | tf` (R101). -/
def encodeCC (cc : CC) (tf : Bool) : BitVec 5 := cc ++ 0#1 ++ BitVec.ofBool tf
/-- Bits 10:6 of the format FC: `cc | 00` (R101). -/
def encodeFC (cc : CC) : BitVec 5 := cc ++ 0#2

/-- The word of an instruction (R116); the `code`, `rt` (of `clo`/`clz`) and operand fields as the term holds them. -/
def encode : Instr → Word
  | .add rd rs rt => encodeR 0x00#6 rs rt rd 0#5 0x20#6
  | .addu rd rs rt => encodeR 0x00#6 rs rt rd 0#5 0x21#6
  | .addi rt rs imm => encodeI 0x08#6 rs rt imm
  | .addiu rt rs imm => encodeI 0x09#6 rs rt imm
  | .and rd rs rt => encodeR 0x00#6 rs rt rd 0#5 0x24#6
  | .andi rt rs imm => encodeI 0x0c#6 rs rt imm
  | .clo rd rs rt => encodeR 0x1c#6 rs rt rd 0#5 0x21#6
  | .clz rd rs rt => encodeR 0x1c#6 rs rt rd 0#5 0x20#6
  | .div rs rt => encodeR 0x00#6 rs rt 0#5 0#5 0x1a#6
  | .divu rs rt => encodeR 0x00#6 rs rt 0#5 0#5 0x1b#6
  | .mult rs rt => encodeR 0x00#6 rs rt 0#5 0#5 0x18#6
  | .multu rs rt => encodeR 0x00#6 rs rt 0#5 0#5 0x19#6
  | .mul rd rs rt => encodeR 0x1c#6 rs rt rd 0#5 0x02#6
  | .madd rs rt => encodeR 0x1c#6 rs rt 0#5 0#5 0x00#6
  | .maddu rs rt => encodeR 0x1c#6 rs rt 0#5 0#5 0x01#6
  | .msub rs rt => encodeR 0x1c#6 rs rt 0#5 0#5 0x04#6
  | .msubu rs rt => encodeR 0x1c#6 rs rt 0#5 0#5 0x05#6
  | .nor rd rs rt => encodeR 0x00#6 rs rt rd 0#5 0x27#6
  | .or rd rs rt => encodeR 0x00#6 rs rt rd 0#5 0x25#6
  | .ori rt rs imm => encodeI 0x0d#6 rs rt imm
  | .sll rd rt shamt => encodeR 0x00#6 0#5 rt rd shamt 0x00#6
  | .sllv rd rt rs => encodeR 0x00#6 rs rt rd 0#5 0x04#6
  | .sra rd rt shamt => encodeR 0x00#6 0#5 rt rd shamt 0x03#6
  | .srav rd rt rs => encodeR 0x00#6 rs rt rd 0#5 0x07#6
  | .srl rd rt shamt => encodeR 0x00#6 0#5 rt rd shamt 0x02#6
  | .srlv rd rt rs => encodeR 0x00#6 rs rt rd 0#5 0x06#6
  | .sub rd rs rt => encodeR 0x00#6 rs rt rd 0#5 0x22#6
  | .subu rd rs rt => encodeR 0x00#6 rs rt rd 0#5 0x23#6
  | .xor rd rs rt => encodeR 0x00#6 rs rt rd 0#5 0x26#6
  | .xori rt rs imm => encodeI 0x0e#6 rs rt imm
  | .lui rt imm => encodeI 0x0f#6 0#5 rt imm
  | .slt rd rs rt => encodeR 0x00#6 rs rt rd 0#5 0x2a#6
  | .sltu rd rs rt => encodeR 0x00#6 rs rt rd 0#5 0x2b#6
  | .slti rt rs imm => encodeI 0x0a#6 rs rt imm
  | .sltiu rt rs imm => encodeI 0x0b#6 rs rt imm
  | .bc1f cc imm => encodeI 0x11#6 0x08#5 (encodeCC cc false) imm
  | .bc1t cc imm => encodeI 0x11#6 0x08#5 (encodeCC cc true) imm
  | .beq rs rt imm => encodeI 0x04#6 rs rt imm
  | .bgez rs imm => encodeI 0x01#6 rs 0x01#5 imm
  | .bgezal rs imm => encodeI 0x01#6 rs 0x11#5 imm
  | .bgtz rs imm => encodeI 0x07#6 rs 0x00#5 imm
  | .blez rs imm => encodeI 0x06#6 rs 0x00#5 imm
  | .bltzal rs imm => encodeI 0x01#6 rs 0x10#5 imm
  | .bltz rs imm => encodeI 0x01#6 rs 0x00#5 imm
  | .bne rs rt imm => encodeI 0x05#6 rs rt imm
  | .j target => encodeJ 0x02#6 target
  | .jal target => encodeJ 0x03#6 target
  | .jalr rs rd => encodeR 0x00#6 rs 0#5 rd 0#5 0x09#6
  | .jr rs => encodeR 0x00#6 rs 0#5 0#5 0#5 0x08#6
  | .teq rs rt code => encodeTR 0x00#6 rs rt code 0x34#6
  | .teqi rs imm => encodeI 0x01#6 rs 0x0c#5 imm
  | .tne rs rt code => encodeTR 0x00#6 rs rt code 0x36#6
  | .tnei rs imm => encodeI 0x01#6 rs 0x0e#5 imm
  | .tge rs rt code => encodeTR 0x00#6 rs rt code 0x30#6
  | .tgeu rs rt code => encodeTR 0x00#6 rs rt code 0x31#6
  | .tgei rs imm => encodeI 0x01#6 rs 0x08#5 imm
  | .tgeiu rs imm => encodeI 0x01#6 rs 0x09#5 imm
  | .tlt rs rt code => encodeTR 0x00#6 rs rt code 0x32#6
  | .tltu rs rt code => encodeTR 0x00#6 rs rt code 0x33#6
  | .tlti rs imm => encodeI 0x01#6 rs 0x0a#5 imm
  | .tltiu rs imm => encodeI 0x01#6 rs 0x0b#5 imm
  | .lb rt rs imm => encodeI 0x20#6 rs rt imm
  | .lbu rt rs imm => encodeI 0x24#6 rs rt imm
  | .lh rt rs imm => encodeI 0x21#6 rs rt imm
  | .lhu rt rs imm => encodeI 0x25#6 rs rt imm
  | .lw rt rs imm => encodeI 0x23#6 rs rt imm
  | .lwc1 ft rs imm => encodeI 0x31#6 rs ft imm
  | .lwl rt rs imm => encodeI 0x22#6 rs rt imm
  | .lwr rt rs imm => encodeI 0x26#6 rs rt imm
  | .ldc1 ft rs imm => encodeI 0x35#6 rs ft imm
  | .ll rt rs imm => encodeI 0x30#6 rs rt imm
  | .sb rt rs imm => encodeI 0x28#6 rs rt imm
  | .sh rt rs imm => encodeI 0x29#6 rs rt imm
  | .sw rt rs imm => encodeI 0x2b#6 rs rt imm
  | .swc1 ft rs imm => encodeI 0x39#6 rs ft imm
  | .sdc1 ft rs imm => encodeI 0x3d#6 rs ft imm
  | .swl rt rs imm => encodeI 0x2a#6 rs rt imm
  | .swr rt rs imm => encodeI 0x2e#6 rs rt imm
  | .sc rt rs imm => encodeI 0x38#6 rs rt imm
  | .mfhi rd => encodeR 0x00#6 0#5 0#5 rd 0#5 0x10#6
  | .mflo rd => encodeR 0x00#6 0#5 0#5 rd 0#5 0x12#6
  | .mthi rs => encodeR 0x00#6 rs 0#5 0#5 0#5 0x11#6
  | .mtlo rs => encodeR 0x00#6 rs 0#5 0#5 0#5 0x13#6
  | .mfc0 rt rd => encodeR 0x10#6 0x00#5 rt rd 0#5 0x00#6
  | .mfc1 rt fs => encodeR 0x11#6 0x00#5 rt fs 0#5 0x00#6
  | .mtc0 rt rd => encodeR 0x10#6 0x04#5 rt rd 0#5 0x00#6
  | .mtc1 rt fs => encodeR 0x11#6 0x04#5 rt fs 0#5 0x00#6
  | .movn rd rs rt => encodeR 0x00#6 rs rt rd 0#5 0x0b#6
  | .movz rd rs rt => encodeR 0x00#6 rs rt rd 0#5 0x0a#6
  | .movf rd rs cc => encodeR 0x00#6 rs (encodeCC cc false) rd 0#5 0x01#6
  | .movt rd rs cc => encodeR 0x00#6 rs (encodeCC cc true) rd 0#5 0x01#6
  | .absD fd fs => encodeR 0x11#6 0x11#5 0#5 fs fd 0x05#6
  | .absS fd fs => encodeR 0x11#6 0x10#5 0#5 fs fd 0x05#6
  | .addD fd fs ft => encodeR 0x11#6 0x11#5 ft fs fd 0x00#6
  | .addS fd fs ft => encodeR 0x11#6 0x10#5 ft fs fd 0x00#6
  | .ceilWD fd fs => encodeR 0x11#6 0x11#5 0#5 fs fd 0x0e#6
  | .ceilWS fd fs => encodeR 0x11#6 0x10#5 0#5 fs fd 0x0e#6
  | .cEqD cc fs ft => encodeR 0x11#6 0x11#5 ft fs (encodeFC cc) 0x32#6
  | .cEqS cc fs ft => encodeR 0x11#6 0x10#5 ft fs (encodeFC cc) 0x32#6
  | .cLeD cc fs ft => encodeR 0x11#6 0x11#5 ft fs (encodeFC cc) 0x3e#6
  | .cLeS cc fs ft => encodeR 0x11#6 0x10#5 ft fs (encodeFC cc) 0x3e#6
  | .cLtD cc fs ft => encodeR 0x11#6 0x11#5 ft fs (encodeFC cc) 0x3c#6
  | .cLtS cc fs ft => encodeR 0x11#6 0x10#5 ft fs (encodeFC cc) 0x3c#6
  | .cvtDS fd fs => encodeR 0x11#6 0x10#5 0#5 fs fd 0x21#6
  | .cvtDW fd fs => encodeR 0x11#6 0x14#5 0#5 fs fd 0x21#6
  | .cvtSD fd fs => encodeR 0x11#6 0x11#5 0#5 fs fd 0x20#6
  | .cvtSW fd fs => encodeR 0x11#6 0x14#5 0#5 fs fd 0x20#6
  | .cvtWD fd fs => encodeR 0x11#6 0x11#5 0#5 fs fd 0x24#6
  | .cvtWS fd fs => encodeR 0x11#6 0x10#5 0#5 fs fd 0x24#6
  | .divD fd fs ft => encodeR 0x11#6 0x11#5 ft fs fd 0x03#6
  | .divS fd fs ft => encodeR 0x11#6 0x10#5 ft fs fd 0x03#6
  | .floorWD fd fs => encodeR 0x11#6 0x11#5 0#5 fs fd 0x0f#6
  | .floorWS fd fs => encodeR 0x11#6 0x10#5 0#5 fs fd 0x0f#6
  | .movD fd fs => encodeR 0x11#6 0x11#5 0#5 fs fd 0x06#6
  | .movS fd fs => encodeR 0x11#6 0x10#5 0#5 fs fd 0x06#6
  | .movfD fd fs cc => encodeR 0x11#6 0x11#5 (encodeCC cc false) fs fd 0x11#6
  | .movfS fd fs cc => encodeR 0x11#6 0x10#5 (encodeCC cc false) fs fd 0x11#6
  | .movtD fd fs cc => encodeR 0x11#6 0x11#5 (encodeCC cc true) fs fd 0x11#6
  | .movtS fd fs cc => encodeR 0x11#6 0x10#5 (encodeCC cc true) fs fd 0x11#6
  | .movnD fd fs rt => encodeR 0x11#6 0x11#5 rt fs fd 0x13#6
  | .movnS fd fs rt => encodeR 0x11#6 0x10#5 rt fs fd 0x13#6
  | .movzD fd fs rt => encodeR 0x11#6 0x11#5 rt fs fd 0x12#6
  | .movzS fd fs rt => encodeR 0x11#6 0x10#5 rt fs fd 0x12#6
  | .mulD fd fs ft => encodeR 0x11#6 0x11#5 ft fs fd 0x02#6
  | .mulS fd fs ft => encodeR 0x11#6 0x10#5 ft fs fd 0x02#6
  | .negD fd fs => encodeR 0x11#6 0x11#5 0#5 fs fd 0x07#6
  | .negS fd fs => encodeR 0x11#6 0x10#5 0#5 fs fd 0x07#6
  | .roundWD fd fs => encodeR 0x11#6 0x11#5 0#5 fs fd 0x0c#6
  | .roundWS fd fs => encodeR 0x11#6 0x10#5 0#5 fs fd 0x0c#6
  | .sqrtD fd fs => encodeR 0x11#6 0x11#5 0#5 fs fd 0x04#6
  | .sqrtS fd fs => encodeR 0x11#6 0x10#5 0#5 fs fd 0x04#6
  | .subD fd fs ft => encodeR 0x11#6 0x11#5 ft fs fd 0x01#6
  | .subS fd fs ft => encodeR 0x11#6 0x10#5 ft fs fd 0x01#6
  | .truncWD fd fs => encodeR 0x11#6 0x11#5 0#5 fs fd 0x0d#6
  | .truncWS fd fs => encodeR 0x11#6 0x10#5 0#5 fs fd 0x0d#6
  | .eret => 0x42000018#32
  | .syscall code => encodeSYS 0x00#6 code 0x0c#6
  | .brk code => encodeSYS 0x00#6 code 0x0d#6
  | .nop => 0x00000000#32

/-- The instruction the decoder reads from an instruction whose bits are `w`, numbered as spec/opcode_table.json numbers
them, `nbits` of them; every bit from `nbits` up is 0. The four bytes are laid out and read back in one byte order, so
the answer is the same in either (R63). -/
def decodeTableWord (nbits w : Nat) : Option Instr :=
  match decodeBytes true (splitWord true (BitVec.ofNat 32 (w % 2 ^ nbits))) with
  | .ok i => some i
  | .error _ => none

end Sys2Proof
end

