-- ==== Sys2Proof/Config.lean ====
section
/-! DEFINITION. What an implementation fixes (R5): the run arguments that the spec leaves open, and the free values,
opaque constants without a body, so that no proof can see what they are. -/

namespace Sys2Proof

/-- A range of byte addresses backed by memory: `base`, …, `base + size - 1` (R61 `MEM_REGIONS`). -/
structure Region where
  base : Nat
  size : Nat
deriving DecidableEq, Repr

/-- For a parameter that the spec leaves to the machine and for which it recommends one instance (`FPU` R381, R382;
`SDIV_NEG` R151): the recommended instance, or the implementation's own, of which nothing is known. -/
inductive Instance where
  | recommended
  | implementation
deriving DecidableEq, Repr

/-- The arguments of a run that the spec leaves open (R5). They are plain data and no instruction changes them; a
statement about every state therefore holds for every choice. -/
structure Params where
  /-- `BIGENDIAN` (R62, D1). -/
  bigEndian : Bool
  /-- `MEM_REGIONS` (R61, D11). -/
  regions : List Region
  /-- `FPU` (R381, R382, D19). -/
  fpu : Instance
  /-- `SDIV_NEG` (R151, D16). -/
  sdivNeg : Instance
  /-- `SC_SPURIOUS_FAIL` (R332, D15). -/
  scSpuriousFail : Bool
deriving DecidableEq, Repr

/-- The record of total functions on bit patterns that gives the floating-point results (R381). -/
structure FPU where
  addS : Word → Word → Word
  subS : Word → Word → Word
  mulS : Word → Word → Word
  divS : Word → Word → Word
  addD : Dword → Dword → Dword
  subD : Dword → Dword → Dword
  mulD : Dword → Dword → Dword
  divD : Dword → Dword → Dword
  sqrtS : Word → Word
  absS : Word → Word
  negS : Word → Word
  sqrtD : Dword → Dword
  absD : Dword → Dword
  negD : Dword → Dword
  cvtDS : Word → Dword
  cvtSD : Dword → Word
  cvtSW : Word → Word
  cvtDW : Word → Dword
  cvtWS : Word → Word
  roundWS : Word → Word
  truncWS : Word → Word
  ceilWS : Word → Word
  floorWS : Word → Word
  cvtWD : Dword → Word
  roundWD : Dword → Word
  truncWD : Dword → Word
  ceilWD : Dword → Word
  floorWD : Dword → Word
  eqS : Word → Word → Bool
  ltS : Word → Word → Bool
  leS : Word → Word → Bool
  eqD : Dword → Dword → Bool
  ltD : Dword → Dword → Bool
  leD : Dword → Dword → Bool
deriving Inhabited

namespace Config

/-- `RESET_PC` (R5, R45, R520). -/
def resetPc : Word := 0xBFC00000#32

/-- The run arguments of `State.reset`. DESIGN CHOICE (log entries 3 to 6): the spec leaves `BIGENDIAN`, `MEM_REGIONS`,
`FPU` and `SDIV_NEG` open. The regions leave out 0x9FC00000..0xBFBFFFFF, so that no two backed addresses alias on a
part that maps 0x80000000..0x9FFFFFFF and 0xA0000000..0xBFFFFFFF onto the same memory (R71, U15). -/
def defaultParams : Params where
  bigEndian := true
  regions := [⟨0x00000000, 0x9FC00000⟩, ⟨0xBFC00000, 0x40400000⟩]
  fpu := .recommended
  sdivNeg := .recommended
  scSpuriousFail := false

/-- The n-th unspecified 32-bit value of a run (`unspecified_32`, R9): a free value; two draws need not agree. -/
opaque unspecified32 : Nat → Word

/-- An implementation's own quotient of a signed division with a negative operand (`SDIV_NEG`, R151): a free value.
The remainder follows from `q*b + r = a` modulo 2^32. -/
opaque sdivQuotient : Word → Word → Word

/-- An implementation's own floating-point functions (R381): a free value. -/
opaque fpu : FPU

/-- Whether the n-th draw of a run makes an `sc` fail spuriously (R332): a free value, read only when
`SC_SPURIOUS_FAIL` is true. -/
opaque scFails : Nat → Bool

end Config

end Sys2Proof
end

