-- ==== Sys2Proof/Machine/State.lean ====
section
/-! DEFINITION. The state of the machine (10_state.md), the reasons a step can stop, and the state after reset. -/

namespace Sys2Proof.Machine

/-- Memory (R42, R60): a list of address and byte pairs in one canonical form, `Memory.wf` of Machine/Ops.lean. -/
abbrev Memory := List Host.Cell

/-- The state of the machine: the tuple of 10_state.md, the arguments and inputs of a run (R5), and the model's own
`draws`. Plain data. -/
structure State where
  /-- `x[0..31]` (R20). `x[0]` is the constant 0 (R21): slot 0 is never written and its reads are overridden
  (log entry 15). -/
  gpr : Vector Word 32
  /-- `f[0..31]` (R32). -/
  fpr : Vector Word 32
  /-- `fcc[0..7]`, the floating-point condition flags (R29). -/
  fcc : Vector Bool 8
  /-- `hi` (R30). -/
  hi : Word
  /-- `lo` (R30). -/
  lo : Word
  /-- The address of the instruction being executed (R24). -/
  pc : Word
  /-- The address of the instruction that executes after it (R25). -/
  npc : Word
  /-- The instruction at `pc` is in a delay slot (R26). -/
  ds : Bool
  /-- Coprocessor 0 register 12, `Status` (R37): software reads and writes it as a word. -/
  status : Word
  /-- Coprocessor 0 register 13, `Cause` (R38): software reads and writes it as a word. -/
  cause : Word
  /-- Coprocessor 0 register 14, `EPC` (R39). -/
  epc : Word
  /-- Coprocessor 0 register 8, `BadVAddr` (R39). -/
  badVAddr : Word
  /-- The link flag of `ll` and `sc` (R40). -/
  llbit : Bool
  /-- The address of the last `ll`, meaningful while `llbit` holds (R40). -/
  lladdr : Word
  /-- `Mem` (R42, R60). -/
  mem : Memory
  /-- The byte addresses that a store has written since the load image was placed (R76), strictly rising. -/
  stored : List Nat
  /-- The arguments of the run that the spec leaves open (R5); no instruction changes them. -/
  params : Params
  /-- The samples of `IRQ[5..0]` of the next steps, the next one first (R473); no line is asserted once it is empty.
  DESIGN CHOICE (log entry 7). -/
  irqInput : List (BitVec 6)
  /-- The model's own: how many unspecified values the run has drawn (R9 `unspecified_32`, R332 `spurious_fail`).
  DESIGN CHOICE (log entry 8). -/
  draws : Nat
deriving DecidableEq, Repr

/-- Why the machine stops with a fault. -/
inductive Fault where
  /-- A fetch, load or store of a byte outside `MEM_REGIONS` (R61 `refuse(no_memory_at_address)`); raised by
  `checkedAccess` (every load and store) and by `fetchInstr`. Safe: the spec gives the access no
  meaning, and the model goes no further. DESIGN CHOICE: a fault and not a refusal (log entry 11). -/
  | noMemoryAtAddress (a : Word)
deriving DecidableEq, Repr

/-- Why an instruction has no meaning: each a `refuse(reason)` of the spec (R9), under the spec's own name. All are
safe: the model goes no further where the spec gives no effect. -/
inductive Refusal where
  /-- An instruction that is not modelled yet; raised by arms of `exec` only. Safe. -/
  | notModelled (mnemonic : String)
  /-- A fetched word that matches no row of the opcode table (R123, R124); raised by `fetchInstr`. Safe. -/
  | noSuchInstruction (w : Word)
  /-- A branch, a jump or `eret` in a delay slot (R233); raised by every branch and jump and by `eret`. Safe. -/
  | branchInDelaySlot
  /-- An odd register named as a double-precision operand (R33, R380); raised by the floating-point instructions,
  `ldc1` and `sdc1`. Safe. -/
  | oddDoubleRegister (r : FReg)
  /-- A coprocessor 0 register other than 8, 12, 13 and 14 (R36); raised by `mfc0` and `mtc0`. Safe. -/
  | cp0RegisterNotModelled (r : BitVec 5)
  /-- A 1 written to a bit of `Status` that the spec does not implement (R37, R358); raised by `mtc0`. Safe. -/
  | statusBitNotModelled (v : Word)
  /-- A 1 written to bit 23 or 22 of `Cause` (R38, R358); raised by `mtc0`. Safe. -/
  | causeBitNotModelled (v : Word)
  /-- A fetch of a word any byte of which a store has written (R66, R76); raised by `fetchInstr`. Safe. -/
  | fetchOfStoredCode (a : Word)
  /-- An `sc` while `llbit` holds, to an address that is not `lladdr` (R332); raised by `sc`. Safe. -/
  | scAddressDiffersFromLl (a : Word)
  /-- A `jalr` with `rd = rs` (R258); raised by `jalr`. Safe. -/
  | jalrRdEqualsRs
  /-- A `bgezal` or `bltzal` with `rs = 31` (R240, R243); raised by them. Safe. -/
  | linkBranchReadsRa
  /-- A `clo` or `clz` whose `rt` field is neither `rd` nor 0 (R149, R150); raised by them. Safe. -/
  | cloClzRtField
deriving DecidableEq, Repr

/-- The outcome of an instruction. -/
abbrev Result := Host.Outcome State Fault Refusal

/-- The machine after reset with `RESET_PC = start`, the arguments `params` and a load image (R5, R45, R520, R521). The
registers to which R45 gives no value are 0: DESIGN CHOICE (log entry 1). -/
def State.boot (start : Word) (params : Params) (image : Memory) : State where
  gpr := Vector.replicate 32 0#32
  fpr := Vector.replicate 32 0#32
  fcc := Vector.replicate 8 false
  hi := 0#32
  lo := 0#32
  pc := start
  npc := start + 4#32
  ds := false
  status := 0#32
  cause := 0#32
  epc := 0#32
  badVAddr := 0#32
  llbit := false
  lladdr := 0#32
  mem := image
  stored := []
  params := params
  irqInput := []
  draws := 0

/-- The machine right after reset (R45, R520), with nothing loaded: log entries 1 to 7 and 10. -/
def State.reset : State := State.boot Config.resetPc Config.defaultParams []

end Sys2Proof.Machine
end

