-- ==== Sys2Proof/Machine/Cp0.lean ====
section
/-! DEFINITION. Coprocessor 0 (R35 to R39): the fields of `Status` and `Cause`, the modes (R490), and the exceptions
with their codes (R461). -/

namespace Sys2Proof.Machine

/-! ### `Status` (R37) -/

/-- `Status.IE`: interrupts may be taken (R37). -/
def State.ie (s : State) : Bool := s.status.getLsbD 0
/-- `Status.EXL`: exception level (R37). -/
def State.exl (s : State) : Bool := s.status.getLsbD 1
/-- `Status.UM`: user mode when `EXL = 0` (R37). -/
def State.um (s : State) : Bool := s.status.getLsbD 4
/-- `Status.IM7..IM0`: the interrupt mask (R37). -/
def State.im (s : State) : Byte := s.status.extractLsb' 8 8
/-- `Status.CU1`: coprocessor 1 is usable (R37, R492). -/
def State.cu1 (s : State) : Bool := s.status.getLsbD 29
/-- User mode: `UM = 1` and `EXL = 0` (R490). -/
def State.userMode (s : State) : Bool := s.um && !s.exl

/-- The bits of `Status` that the spec does not implement: 31:30, 28:16, 7:5 and 3:2 (R37, R358). -/
def statusUnimplemented : Word := 0xDFFF00EC#32

/-! ### `Cause` (R38) -/

/-- `Cause.ExcCode`: the code of the last exception taken (R38). -/
def State.excCode (s : State) : BitVec 5 := s.cause.extractLsb' 2 5
/-- `Cause.IP7..IP0`: the interrupt requests (R38, R475). -/
def State.ip (s : State) : Byte := s.cause.extractLsb' 8 8
/-- `Cause.CE`: the coprocessor of the last `CpU` exception (R38). -/
def State.ce (s : State) : BitVec 2 := s.cause.extractLsb' 28 2
/-- `Cause.BD`: the last exception taken with `EXL = 0` hit a delay slot (R38). -/
def State.bd (s : State) : Bool := s.cause.getLsbD 31

/-- `Cause.IP1:IP0 <- v`, the software interrupt requests. -/
def State.setSoftIp (s : State) (v : BitVec 2) : State := { s with cause := setField s.cause 8 v }
/-- `Cause.IP7:IP2 <- v`, the external interrupt lines. -/
def State.setHardIp (s : State) (v : BitVec 6) : State := { s with cause := setField s.cause 10 v }

/-! ### Exceptions (R460, R461) -/

/-- The exceptions of R461, with what each records. -/
inductive Exc where
  /-- An interrupt, before an instruction (R475). -/
  | int
  /-- An address error on a load or an instruction fetch (R462). -/
  | adEL (a : Word)
  /-- An address error on a store (R463). -/
  | adES (a : Word)
  /-- A system call (R464). -/
  | sys
  /-- A breakpoint (R465). -/
  | bp
  /-- A coprocessor that the current state does not allow (R466). -/
  | cpU (n : BitVec 2)
  /-- A signed overflow (R467). -/
  | ov
  /-- A trap (R468). -/
  | tr
deriving DecidableEq, Repr

/-- The code that entry writes to `Cause.ExcCode` (R461). -/
def excCodeOf : Exc → BitVec 5
  | .int => 0#5
  | .adEL _ => 4#5
  | .adES _ => 5#5
  | .sys => 8#5
  | .bp => 9#5
  | .cpU _ => 11#5
  | .ov => 12#5
  | .tr => 13#5

/-- `EXC_VECTOR`, where every exception is taken (R5, R470). -/
def excVector : Word := 0x80000180#32

end Sys2Proof.Machine
end

