-- ==== Sys2Proof/Machine/Ops.lean ====
section
/-! DEFINITION. The named operations that the meanings share: memory, registers, the three ways an instruction ends
(R9), taking an exception and returning from one (R450, R470), the checks, and the fetch (R473). -/

namespace Sys2Proof.Machine

/-! ### Memory (R42, R60, R62) -/

/-- What a byte that memory does not list reads as: DESIGN CHOICE (log entry 2). -/
def Memory.unlisted : Byte := 0#8

/-- The byte at an address. -/
def Memory.read : Memory → Nat → Byte
  | [], _ => Memory.unlisted
  | c :: rest, a => if a = c.1 then c.2 else Memory.read rest a

/-- The memory with an entry put in at its place, over the entry that the address has. -/
def Memory.insert : Memory → Nat → Byte → Memory
  | [], a, b => [(a, b)]
  | c :: rest, a, b =>
    if a < c.1 then (a, b) :: c :: rest
    else if a = c.1 then (a, b) :: rest
    else c :: Memory.insert rest a b

/-- The memory without the entry of an address. -/
def Memory.erase (m : Memory) (a : Nat) : Memory := m.filter fun c => c.1 != a

/-- The memory with one byte written; the canonical form stays (`Memory.write_wf` of Laws/Memory.lean). -/
def Memory.write (m : Memory) (a : Nat) (b : Byte) : Memory :=
  if b = Memory.unlisted then Memory.erase m a else Memory.insert m a b

/-- The memory with several bytes written, the first first. -/
def Memory.writeCells : Memory → List Host.Cell → Memory
  | m, [] => m
  | m, c :: cells => Memory.writeCells (Memory.write m c.1 c.2) cells

/-- The canonical form: addresses strictly rising, each a 32-bit address (R42), and no entry equal to what an unlisted
address reads as. -/
abbrev Memory.wf (m : Memory) : Prop :=
  m.Pairwise (fun c d => c.1 < d.1) ∧ ∀ c ∈ m, c.1 < 2 ^ 32 ∧ c.2 ≠ Memory.unlisted

/-- The addresses of `n` bytes from `a` on, modulo 2^32 (R62). -/
def addrsFrom (a : Word) : Nat → List Nat
  | 0 => []
  | n + 1 => a.toNat :: addrsFrom (a + 1#32) n

/-- The bytes to write from `a` on, with their addresses modulo 2^32 (R62). -/
def cellsAt (a : Word) : List Byte → List Host.Cell
  | [] => []
  | b :: bytes => (a.toNat, b) :: cellsAt (a + 1#32) bytes

/-- The byte of the state's memory at an address, `MemByte(a)` (R9). -/
def State.readByte (s : State) (a : Word) : Byte := Memory.read s.mem a.toNat

/-- `MemRead(a, 2)` in the byte order of the run (R62). -/
def State.readHalf (s : State) (a : Word) : Half :=
  if s.params.bigEndian then s.readByte a ++ s.readByte (a + 1#32) else s.readByte (a + 1#32) ++ s.readByte a

/-- `MemRead(a, 4)` in the byte order of the run (R62). -/
def State.readWord (s : State) (a : Word) : Word :=
  joinWord s.params.bigEndian (s.readByte a) (s.readByte (a + 1#32)) (s.readByte (a + 2#32)) (s.readByte (a + 3#32))

/-- `MemRead(a, 8)` in the byte order of the run (R62). -/
def State.readDword (s : State) (a : Word) : Dword :=
  if s.params.bigEndian then s.readWord a ++ s.readWord (a + 4#32) else s.readWord (a + 4#32) ++ s.readWord a

/-- The bytes of a halfword in address order, in the byte order of the run (R62). -/
def splitHalf (bigEndian : Bool) (v : Half) : List Byte :=
  let lowByte : Byte := v.extractLsb' 0 8
  let highByte : Byte := v.extractLsb' 8 8
  if bigEndian then [highByte, lowByte] else [lowByte, highByte]

/-- The bytes of a doubleword in address order, in the byte order of the run (R62). -/
def splitDword (bigEndian : Bool) (v : Dword) : List Byte :=
  let lowWord := splitWord bigEndian (v.extractLsb' 0 32)
  let highWord := splitWord bigEndian (v.extractLsb' 32 32)
  if bigEndian then highWord ++ lowWord else lowWord ++ highWord

/-- The bytes of a byte, halfword, word or doubleword store, with their addresses: `MemWrite(a, n, v)` (R62). -/
def byteCells (a : Word) (v : Byte) : List Host.Cell := cellsAt a [v]
/-- `MemWrite(a, 2, v)` (R62). -/
def halfCells (bigEndian : Bool) (a : Word) (v : Half) : List Host.Cell := cellsAt a (splitHalf bigEndian v)
/-- `MemWrite(a, 4, v)` (R62). -/
def wordCells (bigEndian : Bool) (a : Word) (v : Word) : List Host.Cell := cellsAt a (splitWord bigEndian v)
/-- `MemWrite(a, 8, v)` (R62). -/
def dwordCells (bigEndian : Bool) (a : Word) (v : Dword) : List Host.Cell := cellsAt a (splitDword bigEndian v)

/-- Adds an address to a strictly rising list. -/
def insertAddr : List Nat → Nat → List Nat
  | [], a => [a]
  | x :: rest, a => if a < x then a :: x :: rest else if a = x then x :: rest else x :: insertAddr rest a

/-- Adds several addresses to a strictly rising list. -/
def insertAddrs : List Nat → List Nat → List Nat
  | xs, [] => xs
  | xs, a :: rest => insertAddrs (insertAddr xs a) rest

/-- A store of some bytes: memory changes, and their addresses are marked as stored to (R76). -/
def State.store (s : State) (cells : List Host.Cell) : State :=
  { s with mem := Memory.writeCells s.mem cells, stored := insertAddrs s.stored (cells.map Prod.fst) }

/-- Whether an address is backed by memory (R61). -/
def inRegions (p : Params) (a : Nat) : Bool :=
  p.regions.any fun r => decide (r.base ≤ a) && decide (a < r.base + r.size)

/-- The first of some addresses that no memory backs (R61). -/
def firstMissing (p : Params) (addrs : List Nat) : Option Nat := addrs.find? fun a => !inRegions p a

/-! ### Registers -/

/-- `x[r]` (R9, R20): `x[0]` reads 0 (R21). -/
def State.readGpr (s : State) (r : Reg) : Word := if r = 0#5 then 0 else s.gpr[r.toNat]'r.isLt

/-- `x[r] <- v` (R9): a write to `x[0]` is discarded (R21). -/
def State.writeGpr (s : State) (r : Reg) (v : Word) : State :=
  { s with gpr := if r = 0#5 then s.gpr else s.gpr.set r.toNat v r.isLt }

/-- `f[r]` (R9, R32). -/
def State.readFpr (s : State) (r : FReg) : Word := s.fpr[r.toNat]'r.isLt

/-- `f[r] <- v` (R9, R32). -/
def State.writeFpr (s : State) (r : FReg) (v : Word) : State := { s with fpr := s.fpr.set r.toNat v r.isLt }

/-- `fd64(r)` for even `r`: `f[r+1] ++ f[r]` (R9, R33). -/
def State.readDouble (s : State) (r : FReg) : Dword := s.readFpr (r + 1#5) ++ s.readFpr r

/-- `fd64(r) <- v` for even `r` (R9, R33). -/
def State.writeDouble (s : State) (r : FReg) (v : Dword) : State :=
  (s.writeFpr r (v.extractLsb' 0 32)).writeFpr (r + 1#5) (v.extractLsb' 32 32)

/-- The 64-bit value `hi ++ lo` (R30, R158). -/
def State.readHiLo (s : State) : Dword := s.hi ++ s.lo

/-- Writes the pair `hi ++ lo` (R30, R158). -/
def State.writeHiLo (s : State) (v : Dword) : State := { s with hi := v.extractLsb' 32 32, lo := v.extractLsb' 0 32 }

/-- `hi <- unspecified_32; lo <- unspecified_32` (R151, R160): two draws of a free value (log entry 8). -/
def State.forgetHiLo (s : State) : State :=
  { s with
    hi := Config.unspecified32 s.draws
    lo := Config.unspecified32 (s.draws + 1)
    draws := s.draws + 2 }

/-! ### How an instruction ends (R9, R27, R230) -/

/-- `advance` (R9, R27). -/
def State.advance (s : State) : State := { s with pc := s.npc, npc := s.npc + 4#32, ds := false }

/-- `branch_to(T)` (R9, R230). -/
def State.branchTo (s : State) (target : Word) : State := { s with pc := s.npc, npc := target, ds := true }

/-- `branch_not_taken` (R9, R230). -/
def State.branchNotTaken (s : State) : State := { s with pc := s.npc, npc := s.npc + 4#32, ds := true }

/-- `branch_to(T)` if the condition holds, else `branch_not_taken` (R236 to R245). -/
def State.branchIf (s : State) (taken : Bool) (target : Word) : State :=
  if taken then s.branchTo target else s.branchNotTaken

/-! ### Taking an exception and returning from one -/

/-- `EPC` after an exception (R470): the instruction at `pc`, or the branch before it when it is in a delay slot;
unchanged when `EXL` was 1 (R481). -/
def entryEpc (s : State) : Word := if s.exl then s.epc else if s.ds then s.pc - 4#32 else s.pc

/-- `Cause` after an exception (R470): `BD` unless `EXL` was 1, `ExcCode`, and `CE` for `CpU`. -/
def entryCause (e : Exc) (s : State) : Word :=
  let withBd := if s.exl then s.cause else setField s.cause 31 (BitVec.ofBool s.ds)
  let withCode := setField withBd 2 (excCodeOf e)
  match e with
  | .cpU n => setField withCode 28 n
  | .int | .adEL _ | .adES _ | .sys | .bp | .ov | .tr => withCode

/-- `BadVAddr` after an exception (R470): the bad address of `AdEL` and `AdES`. -/
def entryBadVAddr (e : Exc) (s : State) : Word :=
  match e with
  | .adEL a | .adES a => a
  | .int | .sys | .bp | .cpU _ | .ov | .tr => s.badVAddr

/-- Exception entry (R470), the one operation that takes every exception. -/
def enterException (e : Exc) (s : State) : State :=
  { s with
    epc := entryEpc s
    cause := entryCause e s
    badVAddr := entryBadVAddr e s
    status := setField s.status 1 1#1
    llbit := false
    pc := excVector
    npc := excVector + 4#32
    ds := false }

/-- The entry of an address error of the fetch (R66, R462): `BadVAddr = pc`, and `EPC = pc` and `BD = 0`, since it is taken
with `ds = false`. With `EXL = 1` these two stay (R481): DEDUCED (log entry 9). -/
def enterFetchError (s : State) : State := enterException (.adEL s.pc) { s with ds := false }

/-- Return from an exception (R450, R480): `EXL` and `llbit` cleared, and control at `EPC` at once. -/
def returnFromException (s : State) : State :=
  { s with
    status := setField s.status 1 0#1
    llbit := false
    pc := s.epc
    npc := s.epc + 4#32
    ds := false }

/-- `raise E` (R9): the instruction ends in exception entry, with nothing else written (R471). -/
def raise (e : Exc) (s : State) : Result := .next (enterException e s)

/-! ### The checks of an instruction, in the order of R472 -/

/-- A branch, a jump or `eret` in a delay slot is refused before any other effect (R233). -/
def outsideDelaySlot (s : State) (k : Result) : Result := if s.ds then .refused .branchInDelaySlot else k

/-- Coprocessor 1 must be usable (R380, R466, R492). -/
def withCp1 (s : State) (k : Result) : Result := if s.cu1 then k else raise (.cpU 1#2) s

/-- Coprocessor 0 may not be used in user mode (R466, R491). -/
def withCp0 (s : State) (k : Result) : Result := if s.userMode then raise (.cpU 0#2) s else k

/-- A register that holds a double must be even (R33, R121, R380). -/
def withEven (r : FReg) (k : Result) : Result := if evenReg r then k else .refused (.oddDoubleRegister r)

/-- The checks of a data access at `a` (R64): alignment (R65), then user mode (R67), both raising `e`, then that memory
backs every byte touched (R61). -/
def checkedAccess (e : Exc) (a : Word) (align : Nat) (touched : List Nat) (s : State) (k : Result) : Result :=
  if a.toNat % align ≠ 0 then raise e s
  else if s.userMode && a.msb then raise e s
  else
    match firstMissing s.params touched with
    | some m => .fault (.noMemoryAtAddress (BitVec.ofNat 32 m))
    | none => k

/-- The checks of a load of `n` bytes at `a` (R64, R65, R462). -/
def checkedLoad (a : Word) (n : Nat) (s : State) (k : Result) : Result :=
  checkedAccess (.adEL a) a n (addrsFrom a n) s k

/-- The checks of a store of `n` bytes at `a` (R64, R65, R463). -/
def checkedStore (a : Word) (n : Nat) (s : State) (k : Result) : Result :=
  checkedAccess (.adES a) a n (addrsFrom a n) s k

/-! ### Ends shared by whole families -/

/-- `x[r] <- v; advance`. -/
def setGpr (r : Reg) (v : Word) (s : State) : Result := .next (s.writeGpr r v).advance

/-- `f[r] <- v; advance`. -/
def setFpr (r : FReg) (v : Word) (s : State) : Result := .next (s.writeFpr r v).advance

/-- `fd64(r) <- v; advance`. -/
def setDouble (r : FReg) (v : Dword) (s : State) : Result := .next (s.writeDouble r v).advance

/-- `hi ++ lo <- v; advance`. -/
def setHiLo (v : Dword) (s : State) : Result := .next (s.writeHiLo v).advance

/-- A store of some bytes, then `advance`. -/
def storeCells (cells : List Host.Cell) (s : State) : Result := .next (s.store cells).advance

/-! ### The step (R473) -/

/-- Step 1 (R473): `Cause.IP[7:2] <- irq[5:0]`, the next sample of the input; no line is asserted once the input is
used up (log entry 7). -/
def sampleIrq (s : State) : State :=
  match s.irqInput with
  | [] => s.setHardIp 0#6
  | irq :: rest => { s.setHardIp irq with irqInput := rest }

/-- Step 2 (R473, R475): an enabled interrupt is requested. -/
def interruptPending (s : State) : Bool := s.ie && !s.exl && (s.ip &&& s.im) != 0#8

/-- Step 3 (R66, R67, R473): the fetch at `pc` raises `AdEL`. -/
def fetchAddressBad (s : State) : Bool := s.pc.extractLsb' 0 2 != 0#2 || (s.userMode && s.pc.msb)

/-- Steps 4 and 5 (R66, R473): the instruction at `pc`, or why there is none. -/
def fetchInstr (s : State) : Host.Outcome Instr Fault Refusal :=
  match firstMissing s.params (addrsFrom s.pc 4) with
  | some m => .fault (.noMemoryAtAddress (BitVec.ofNat 32 m))
  | none =>
    if (addrsFrom s.pc 4).any s.stored.contains then .refused (.fetchOfStoredCode s.pc)
    else
      match decode (s.readWord s.pc) with
      | .ok i => .next i
      | .error _ => .refused (.noSuchInstruction (s.readWord s.pc))

/-- Steps 2 to 6 (R473), with `run` the meaning of an instruction. -/
def stepSampled (run : Instr → State → Result) (s : State) : Result :=
  if interruptPending s then raise .int s
  else if fetchAddressBad s then .next (enterFetchError s)
  else
    match fetchInstr s with
    | .next i => run i s
    | .fault f => .fault f
    | .refused r => .refused r

/-- One step of the machine (R473), with `run` the meaning of an instruction. -/
def stepWith (run : Instr → State → Result) (s : State) : Result := stepSampled run (sampleIrq s)

/-! ### Placing an instruction from outside -/

/-- The arguments of a run with memory at `a` too, where no region backs it. -/
def backAddress (p : Params) (a : Nat) : Params :=
  if inRegions p a then p else { p with regions := ⟨a, 1⟩ :: p.regions }

/-- The arguments of a run with memory at several addresses too. -/
def backAddresses : Params → List Nat → Params
  | p, [] => p
  | p, a :: rest => backAddresses (backAddress p a) rest

/-- Places an instruction word at `pc` as a load image would (log entry 10): its bytes in the byte order of the run, no
longer marked as stored to (R76), and backed by memory (R61). -/
def placeWord (s : State) (w : Word) : State :=
  { s with
    mem := Memory.writeCells s.mem (wordCells s.params.bigEndian s.pc w)
    stored := s.stored.filter fun a => !(addrsFrom s.pc 4).contains a
    params := backAddresses s.params (addrsFrom s.pc 4) }

end Sys2Proof.Machine
end

