-- ==== Sys2Proof/Machine/Flags.lean ====
section
/-! DEFINITION. The integer unit has no flags (R28): overflow raises an exception and comparisons write 0 or 1. The
floating-point unit has the eight condition flags `fcc` (R29). -/

namespace Sys2Proof.Machine

/-- The 33-bit sum `sext_33(a) + sext_33(b)` (R141). -/
def sum33 (a b : Word) : BitVec 33 := a.signExtend 33 + b.signExtend 33

/-- The 33-bit difference `sext_33(a) - sext_33(b)` (R141, R183). -/
def difference33 (a b : Word) : BitVec 33 := a.signExtend 33 - b.signExtend 33

/-- Signed overflow of a 33-bit result: `t[32] != t[31]` (R141). -/
def overflows (t : BitVec 33) : Bool := t.getLsbD 32 != t.getLsbD 31

/-- A comparison's result in a general register: 1 or 0 (R28, R202). -/
def boolWord (b : Bool) : Word := if b then 1#32 else 0#32

/-- `x[r] <- t[31:0]`, or `Ov` when the 33-bit result overflows (R141): the register then keeps its value. -/
def setGprOrOverflow (r : Reg) (t : BitVec 33) (s : State) : Result :=
  if overflows t then raise .ov s else setGpr r (t.extractLsb' 0 32) s

/-- `Tr` when the condition holds, else `advance` (R280). -/
def trapIf (c : Bool) (s : State) : Result := if c then raise .tr s else .next s.advance

/-- `fcc[c]` (R9, R29). -/
def State.readFcc (s : State) (c : CC) : Bool := s.fcc[c.toNat]'c.isLt

/-- `fcc[c] <- b` (R9, R29): the other seven flags keep their values. -/
def State.writeFcc (s : State) (c : CC) (b : Bool) : State := { s with fcc := s.fcc.set c.toNat b c.isLt }

/-- `fcc[c] <- b; advance` (R389). -/
def setFcc (c : CC) (b : Bool) (s : State) : Result := .next (s.writeFcc c b).advance

/-- How many of the bits `i - 1`, `i - 2`, … of a word are equal to `bit`, up to the first that is not. -/
def runBelow (bit : Bool) (w : Word) : Nat → Nat
  | 0 => 0
  | i + 1 => if w.getLsbD i == bit then runBelow bit w i + 1 else 0

/-- The number of ones (or zeros, for `bit = false`) at the top of a word, from bit 31 down (R149, R150). -/
def leadingCount (bit : Bool) (w : Word) : Nat := runBelow bit w 32

end Sys2Proof.Machine
end

