-- ==== Sys2Proof/Machine/Operands.lean ====
section
/-! DEFINITION. The operand forms: immediates, shift distances, effective addresses (R300), branch and jump targets
(R231, R232), link values (R234), and the bytes that the unaligned loads and stores move (R317). -/

namespace Sys2Proof.Machine

/-- `sext_32(imm)` (R8). -/
def immSigned (imm : Half) : Word := sext32 imm

/-- `zext_32(imm)` (R8). -/
def immUnsigned (imm : Half) : Word := zext32 imm

/-- `imm ++ 0x0000` (R200). -/
def immUpper (imm : Half) : Word := imm ++ 0#16

/-- The effective address: `x[rs] + sext_32(imm)` modulo 2^32 (R300). -/
def effectiveAddress (s : State) (rs : Reg) (imm : Half) : Word := s.readGpr rs + immSigned imm

/-- The target of a conditional branch: `(pc + 4) + (sext_32(imm) << 2)` (R231). -/
def branchTarget (s : State) (imm : Half) : Word := (s.pc + 4#32) + (immSigned imm <<< 2)

/-- The target of `j` and `jal`: `(pc + 4)[31:28] ++ target ++ 00` (R232). -/
def jumpTarget (s : State) (target : BitVec 26) : Word := (s.pc + 4#32).extractLsb' 28 4 ++ target ++ 0#2

/-- The return address that a link saves: `pc + 8` (R234). -/
def linkValue (s : State) : Word := s.pc + 8#32

/-- The distance of a variable shift: `x[rs][4:0]` (R176, R187). -/
def variableDistance (s : State) (rs : Reg) : BitVec 5 := (s.readGpr rs).extractLsb' 0 5

/-! ### The unaligned loads and stores (R317) -/

/-- The register `w` with byte `k` (bits `8k+7:8k`) replaced. -/
def setByte (w : Word) (k : Nat) (b : Byte) : Word := setField w (8 * k) b

/-- Byte `k` (bits `8k+7:8k`) of a register. -/
def getByte (w : Word) (k : Nat) : Byte := w.extractLsb' (8 * k) 8

/-- The position of an address in its aligned word: `a[1:0]` (R317). -/
def wordOffset (a : Word) : Nat := a.toNat % 4

/-- Whether an unaligned access goes up from the effective address (`EA + i`) or down (`EA - i`): the left ones up and
the right ones down when big-endian, the other way round when little-endian (R317). -/
def goesUp (bigEndian left : Bool) : Bool := bigEndian == left

/-- How many bytes an unaligned access moves: `4 - b` going up, `b + 1` going down (R317). -/
def unalignedCount (bigEndian left : Bool) (a : Word) : Nat :=
  if goesUp bigEndian left then 4 - wordOffset a else wordOffset a + 1

/-- The address of the `i`-th byte moved (R317). -/
def unalignedAddr (bigEndian left : Bool) (a : Word) (i : Nat) : Word :=
  if goesUp bigEndian left then a + BitVec.ofNat 32 i else a - BitVec.ofNat 32 i

/-- The register byte of the `i`-th byte moved: `3 - i` for the left ones, `i` for the right ones (R317). -/
def unalignedByte (left : Bool) (i : Nat) : Nat := if left then 3 - i else i

/-- The addresses that an unaligned access touches, in the order of R317. -/
def unalignedAddrs (bigEndian left : Bool) (a : Word) : List Nat :=
  (List.range (unalignedCount bigEndian left a)).map fun i => (unalignedAddr bigEndian left a i).toNat

/-- The register after the first `n` bytes of an unaligned load (R317). -/
def unalignedMerge (s : State) (left : Bool) (a old : Word) : Nat → Word
  | 0 => old
  | i + 1 =>
    setByte (unalignedMerge s left a old i) (unalignedByte left i)
      (s.readByte (unalignedAddr s.params.bigEndian left a i))

/-- The register after an unaligned load (R317). -/
def unalignedLoad (s : State) (left : Bool) (a old : Word) : Word :=
  unalignedMerge s left a old (unalignedCount s.params.bigEndian left a)

/-- The bytes that an unaligned store writes, with their addresses (R317). -/
def unalignedCells (bigEndian left : Bool) (a v : Word) : List Host.Cell :=
  (List.range (unalignedCount bigEndian left a)).map fun i =>
    ((unalignedAddr bigEndian left a i).toNat, getByte v (unalignedByte left i))

end Sys2Proof.Machine
end

