-- ==== Sys2Proof/Machine/Arith.lean ====
section
/-! DEFINITION. The meanings of arithmetic and logical instructions without `hi` and `lo` (R140 to R150, R169 to
R187). Sources are read before the destination is written, a destination of 0 discards the result, and none is
privileged (R140). -/

namespace Sys2Proof.Machine

/-- `add` (R143): `x[rs] + x[rt]`, or `Ov` (R141). -/
def execAdd (rd rs rt : Reg) (s : State) : Result :=
  setGprOrOverflow rd (sum33 (s.readGpr rs) (s.readGpr rt)) s

/-- `addu` (R144): `x[rs] + x[rt]` modulo 2^32. -/
def execAddu (rd rs rt : Reg) (s : State) : Result := setGpr rd (s.readGpr rs + s.readGpr rt) s

/-- `addi` (R145): `x[rs] + sext_32(imm)`, or `Ov` (R141). -/
def execAddi (rt rs : Reg) (imm : Half) (s : State) : Result :=
  setGprOrOverflow rt (sum33 (s.readGpr rs) (immSigned imm)) s

/-- `addiu` (R146): `x[rs] + sext_32(imm)` modulo 2^32; the immediate is sign-extended. -/
def execAddiu (rt rs : Reg) (imm : Half) (s : State) : Result := setGpr rt (s.readGpr rs + immSigned imm) s

/-- `and` (R147). -/
def execAnd (rd rs rt : Reg) (s : State) : Result := setGpr rd (s.readGpr rs &&& s.readGpr rt) s

/-- `andi` (R148): the immediate is zero-extended. -/
def execAndi (rt rs : Reg) (imm : Half) (s : State) : Result := setGpr rt (s.readGpr rs &&& immUnsigned imm) s

/-- `clo` (R149): the number of leading ones, 32 when there is nothing else; an `rt` field that is neither
`rd` nor 0 is refused (R121). -/
def execClo (rd rs rt : Reg) (s : State) : Result :=
  if rt = rd ∨ rt = 0#5 then setGpr rd (BitVec.ofNat 32 (leadingCount true (s.readGpr rs))) s
  else .refused .cloClzRtField

/-- `clz` (R150): the number of leading zeros, 32 when there is nothing else; an `rt` field that is neither
`rd` nor 0 is refused (R121). -/
def execClz (rd rs rt : Reg) (s : State) : Result :=
  if rt = rd ∨ rt = 0#5 then setGpr rd (BitVec.ofNat 32 (leadingCount false (s.readGpr rs))) s
  else .refused .cloClzRtField

/-- `nor` (R169). -/
def execNor (rd rs rt : Reg) (s : State) : Result := setGpr rd (~~~(s.readGpr rs ||| s.readGpr rt)) s

/-- `or` (R171). -/
def execOr (rd rs rt : Reg) (s : State) : Result := setGpr rd (s.readGpr rs ||| s.readGpr rt) s

/-- `ori` (R172): the immediate is zero-extended. -/
def execOri (rt rs : Reg) (imm : Half) (s : State) : Result := setGpr rt (s.readGpr rs ||| immUnsigned imm) s

/-- `sll` (R175). -/
def execSll (rd rt : Reg) (shamt : BitVec 5) (s : State) : Result := setGpr rd (s.readGpr rt <<< shamt) s

/-- `sllv` (R176): the distance is `x[rs][4:0]`. -/
def execSllv (rd rt rs : Reg) (s : State) : Result := setGpr rd (s.readGpr rt <<< variableDistance s rs) s

/-- `sra` (R177): copies of `x[rt][31]` enter at the left. -/
def execSra (rd rt : Reg) (shamt : BitVec 5) (s : State) : Result :=
  setGpr rd ((s.readGpr rt).sshiftRight shamt.toNat) s

/-- `srav` (R178): the distance is `x[rs][4:0]`. -/
def execSrav (rd rt rs : Reg) (s : State) : Result :=
  setGpr rd ((s.readGpr rt).sshiftRight (variableDistance s rs).toNat) s

/-- `srl` (R179): zeros enter at the left. -/
def execSrl (rd rt : Reg) (shamt : BitVec 5) (s : State) : Result := setGpr rd (s.readGpr rt >>> shamt) s

/-- `srlv` (R180): the distance is `x[rs][4:0]`. -/
def execSrlv (rd rt rs : Reg) (s : State) : Result := setGpr rd (s.readGpr rt >>> variableDistance s rs) s

/-- `sub` (R183): `x[rs] - x[rt]`, or `Ov` (R141). -/
def execSub (rd rs rt : Reg) (s : State) : Result :=
  setGprOrOverflow rd (difference33 (s.readGpr rs) (s.readGpr rt)) s

/-- `subu` (R184): `x[rs] - x[rt]` modulo 2^32. -/
def execSubu (rd rs rt : Reg) (s : State) : Result := setGpr rd (s.readGpr rs - s.readGpr rt) s

/-- `xor` (R185). -/
def execXor (rd rs rt : Reg) (s : State) : Result := setGpr rd (s.readGpr rs ^^^ s.readGpr rt) s

/-- `xori` (R186): the immediate is zero-extended. -/
def execXori (rt rs : Reg) (imm : Half) (s : State) : Result := setGpr rt (s.readGpr rs ^^^ immUnsigned imm) s

end Sys2Proof.Machine
end

