-- ==== Sys2Proof/Machine/Branch.lean ====
section
/-! DEFINITION. The meanings of the branches and jumps (R230 to R259). Each is
refused in a delay slot before any other effect (R233). -/

namespace Sys2Proof.Machine

/-- `bc1f` (R236): taken when `fcc[cc]` is 0. -/
def execBc1f (cc : CC) (imm : Half) (s : State) : Result :=
  outsideDelaySlot s (withCp1 s (.next (s.branchIf (!s.readFcc cc) (branchTarget s imm))))

/-- `bc1t` (R237): taken when `fcc[cc]` is 1. -/
def execBc1t (cc : CC) (imm : Half) (s : State) : Result :=
  outsideDelaySlot s (withCp1 s (.next (s.branchIf (s.readFcc cc) (branchTarget s imm))))

/-- `beq` (R238): taken when `x[rs] = x[rt]`. -/
def execBeq (rs rt : Reg) (imm : Half) (s : State) : Result :=
  outsideDelaySlot s (.next (s.branchIf (s.readGpr rs == s.readGpr rt) (branchTarget s imm)))

/-- `bgez` (R239): taken when `x[rs] >=s 0`. -/
def execBgez (rs : Reg) (imm : Half) (s : State) : Result :=
  outsideDelaySlot s (.next (s.branchIf ((0#32).sle (s.readGpr rs)) (branchTarget s imm)))

/-- `bgezal` (R240): taken when `x[rs] >=s 0`; the link is written taken or not, and `rs = 31` is refused. -/
def execBgezal (rs : Reg) (imm : Half) (s : State) : Result :=
  outsideDelaySlot s
    (if rs = 31#5 then .refused .linkBranchReadsRa
     else .next ((s.writeGpr 31#5 (linkValue s)).branchIf ((0#32).sle (s.readGpr rs)) (branchTarget s imm)))

/-- `bgtz` (R241): taken when `x[rs] >s 0`. -/
def execBgtz (rs : Reg) (imm : Half) (s : State) : Result :=
  outsideDelaySlot s (.next (s.branchIf ((0#32).slt (s.readGpr rs)) (branchTarget s imm)))

/-- `blez` (R242): taken when `x[rs] <=s 0`. -/
def execBlez (rs : Reg) (imm : Half) (s : State) : Result :=
  outsideDelaySlot s (.next (s.branchIf ((s.readGpr rs).sle 0#32) (branchTarget s imm)))

/-- `bltzal` (R243): taken when `x[rs] <s 0`; the link is written taken or not, and `rs = 31` is refused. -/
def execBltzal (rs : Reg) (imm : Half) (s : State) : Result :=
  outsideDelaySlot s
    (if rs = 31#5 then .refused .linkBranchReadsRa
     else .next ((s.writeGpr 31#5 (linkValue s)).branchIf ((s.readGpr rs).slt 0#32) (branchTarget s imm)))

/-- `bltz` (R244): taken when `x[rs] <s 0`. -/
def execBltz (rs : Reg) (imm : Half) (s : State) : Result :=
  outsideDelaySlot s (.next (s.branchIf ((s.readGpr rs).slt 0#32) (branchTarget s imm)))

/-- `bne` (R245): taken when `x[rs] != x[rt]`. -/
def execBne (rs rt : Reg) (imm : Half) (s : State) : Result :=
  outsideDelaySlot s (.next (s.branchIf (s.readGpr rs != s.readGpr rt) (branchTarget s imm)))

/-- `j` (R256). -/
def execJ (target : BitVec 26) (s : State) : Result :=
  outsideDelaySlot s (.next (s.branchTo (jumpTarget s target)))

/-- `jal` (R257): the link goes to register 31. -/
def execJal (target : BitVec 26) (s : State) : Result :=
  outsideDelaySlot s (.next ((s.writeGpr 31#5 (linkValue s)).branchTo (jumpTarget s target)))

/-- `jalr` (R258): to `x[rs]`, the link in `rd`; `rd = rs` is refused. The target is checked when it is fetched. -/
def execJalr (rs rd : Reg) (s : State) : Result :=
  outsideDelaySlot s
    (if rd = rs then .refused .jalrRdEqualsRs
     else .next ((s.writeGpr rd (linkValue s)).branchTo (s.readGpr rs)))

/-- `jr` (R259): to `x[rs]`. -/
def execJr (rs : Reg) (s : State) : Result := outsideDelaySlot s (.next (s.branchTo (s.readGpr rs)))

end Sys2Proof.Machine
end

