-- ==== Sys2Proof/Machine/ConstCompare.lean ====
section
/-! DEFINITION. The meanings of the constant and comparison instructions (R200 to R205). -/

namespace Sys2Proof.Machine

/-- `lui` (R200): `imm ++ 0x0000`. -/
def execLui (rt : Reg) (imm : Half) (s : State) : Result := setGpr rt (immUpper imm) s

/-- `slt` (R202): signed. -/
def execSlt (rd rs rt : Reg) (s : State) : Result :=
  setGpr rd (boolWord ((s.readGpr rs).slt (s.readGpr rt))) s

/-- `sltu` (R203): unsigned. -/
def execSltu (rd rs rt : Reg) (s : State) : Result :=
  setGpr rd (boolWord ((s.readGpr rs).ult (s.readGpr rt))) s

/-- `slti` (R204): signed. -/
def execSlti (rt rs : Reg) (imm : Half) (s : State) : Result :=
  setGpr rt (boolWord ((s.readGpr rs).slt (immSigned imm))) s

/-- `sltiu` (R205): the immediate is sign-extended, the comparison unsigned. -/
def execSltiu (rt rs : Reg) (imm : Half) (s : State) : Result :=
  setGpr rt (boolWord ((s.readGpr rs).ult (immSigned imm))) s

end Sys2Proof.Machine
end

