-- ==== Sys2Proof/Machine/DataMove.lean ====
section
/-! DEFINITION. The meanings of the data movement instructions (R351 to R363). -/

namespace Sys2Proof.Machine

/-- `mfhi` (R351). -/
def execMfhi (rd : Reg) (s : State) : Result := setGpr rd s.hi s

/-- `mflo` (R352). -/
def execMflo (rd : Reg) (s : State) : Result := setGpr rd s.lo s

/-- `mthi` (R353): `lo` is unchanged. -/
def execMthi (rs : Reg) (s : State) : Result := .next { s with hi := s.readGpr rs }.advance

/-- `mtlo` (R354): `hi` is unchanged. -/
def execMtlo (rs : Reg) (s : State) : Result := .next { s with lo := s.readGpr rs }.advance

/-- `mfc0` (R355): `BadVAddr`, `Status`, `Cause` or `EPC`; any other register is refused (R36). Privileged (R491). -/
def execMfc0 (rt : Reg) (rd : BitVec 5) (s : State) : Result :=
  withCp0 s
    (match rd with
     | 8#5 => setGpr rt s.badVAddr s
     | 12#5 => setGpr rt s.status s
     | 13#5 => setGpr rt s.cause s
     | 14#5 => setGpr rt s.epc s
     | _ => .refused (.cp0RegisterNotModelled rd))

/-- `mfc1` (R356): the bits of `f[fs]`. -/
def execMfc1 (rt : Reg) (fs : FReg) (s : State) : Result := withCp1 s (setGpr rt (s.readFpr fs) s)

/-- `mtc0` (R358): a write to `BadVAddr` is ignored; `Status` takes its implemented fields and refuses a 1 in any
other bit (R37); `Cause` takes `IP1:IP0` and refuses a 1 in bit 23 or 22 (R38); `EPC` takes all 32 bits. Any other
register is refused (R36). Privileged (R491). -/
def execMtc0 (rt : Reg) (rd : BitVec 5) (s : State) : Result :=
  withCp0 s
    (let v := s.readGpr rt
     match rd with
     | 8#5 => .next s.advance
     | 12#5 =>
       if v &&& statusUnimplemented ≠ 0#32 then .refused (.statusBitNotModelled v)
       else .next { s with status := v }.advance
     | 13#5 =>
       if v.getLsbD 23 || v.getLsbD 22 then .refused (.causeBitNotModelled v)
       else .next (s.setSoftIp (v.extractLsb' 8 2)).advance
     | 14#5 => .next { s with epc := v }.advance
     | _ => .refused (.cp0RegisterNotModelled rd))

/-- `mtc1` (R359): the bits of `x[rt]`. -/
def execMtc1 (rt : Reg) (fs : FReg) (s : State) : Result := withCp1 s (setFpr fs (s.readGpr rt) s)

/-- `movn` (R360): moves when `x[rt] != 0`. -/
def execMovn (rd rs rt : Reg) (s : State) : Result :=
  if s.readGpr rt ≠ 0#32 then setGpr rd (s.readGpr rs) s else .next s.advance

/-- `movz` (R361): moves when `x[rt] = 0`. -/
def execMovz (rd rs rt : Reg) (s : State) : Result :=
  if s.readGpr rt = 0#32 then setGpr rd (s.readGpr rs) s else .next s.advance

/-- `movf` (R362): moves when `fcc[cc]` is 0; reads floating-point state, so coprocessor 1 must be usable. -/
def execMovf (rd rs : Reg) (cc : CC) (s : State) : Result :=
  withCp1 s (if s.readFcc cc then .next s.advance else setGpr rd (s.readGpr rs) s)

/-- `movt` (R363): moves when `fcc[cc]` is 1; reads floating-point state, so coprocessor 1 must be usable. -/
def execMovt (rd rs : Reg) (cc : CC) (s : State) : Result :=
  withCp1 s (if s.readFcc cc then setGpr rd (s.readGpr rs) s else .next s.advance)

end Sys2Proof.Machine
end

