-- ==== Sys2Proof/Machine/ExceptionInstr.lean ====
section
/-! DEFINITION. The meanings of the exception instructions (R450 to R453). -/

namespace Sys2Proof.Machine

/-- `eret` (R450, R480): refused in a delay slot, `CpU` in user mode, else the return from exception. -/
def execEret (s : State) : Result := outsideDelaySlot s (withCp0 s (.next (returnFromException s)))

/-- `syscall` (R451): takes the exception `Sys`; `code` is not read. -/
def execSyscall (_code : BitVec 20) (s : State) : Result := raise .sys s

/-- `break` (R452): takes the exception `Bp`; `code` is not read. -/
def execBrk (_code : BitVec 20) (s : State) : Result := raise .bp s

/-- `nop` (R453): only `advance`. -/
def execNop (s : State) : Result := .next s.advance

end Sys2Proof.Machine
end

