-- ==== Sys2Proof/Machine/Ieee.lean ====
section
/-! DEFINITION. The recommended instance of `FPU` (R382): IEEE 754 binary32 and binary64 on bit patterns, by exact
arithmetic on natural numbers and one rounding at the end. -/

namespace Sys2Proof.Machine

/-- A binary interchange format: one sign bit, then the exponent, then the fraction. -/
structure FloatFormat where
  expBits : Nat
  fracBits : Nat
deriving DecidableEq, Repr

/-- IEEE 754 binary32 (R382). -/
def binary32 : FloatFormat := ⟨8, 23⟩
/-- IEEE 754 binary64 (R382). -/
def binary64 : FloatFormat := ⟨11, 52⟩

/-- The exponent bias. -/
def floatBias (F : FloatFormat) : Nat := 2 ^ (F.expBits - 1) - 1
/-- The exponent of one unit in the last place of a subnormal number. -/
def floatMinExp (F : FloatFormat) : Int := 1 - floatBias F - F.fracBits
/-- The bits of plus infinity. -/
def floatInf (F : FloatFormat) : Nat := (2 ^ F.expBits - 1) * 2 ^ F.fracBits
/-- The value of the sign bit. -/
def floatSign (F : FloatFormat) : Nat := 2 ^ (F.expBits + F.fracBits)
/-- The quiet NaN that every NaN result is: 0x7FC00000 or 0x7FF8000000000000 (R382). -/
def floatNan (F : FloatFormat) : Nat := floatInf F + 2 ^ (F.fracBits - 1)

/-- What a bit pattern stands for: `fin neg m x` is the number `± m * 2^x` (zeros have `m = 0`). -/
inductive Datum where
  | nan
  | inf (neg : Bool)
  | fin (neg : Bool) (m : Nat) (x : Int)
deriving DecidableEq, Repr

/-- Reads a bit pattern. -/
def floatUnpack (F : FloatFormat) (n : Nat) : Datum :=
  let neg := n / floatSign F % 2 == 1
  let e := n / 2 ^ F.fracBits % 2 ^ F.expBits
  let frac := n % 2 ^ F.fracBits
  if e = 2 ^ F.expBits - 1 then (if frac = 0 then .inf neg else .nan)
  else if e = 0 then .fin neg frac (floatMinExp F)
  else .fin neg (2 ^ F.fracBits + frac) (floatMinExp F + (e - 1 : Nat))

/-- A bit pattern with a sign. -/
def floatWithSign (F : FloatFormat) (neg : Bool) (magnitude : Nat) : Nat :=
  if neg then floatSign F + magnitude else magnitude

/-- `m / 2^k`, rounded to nearest with ties to even. -/
def divPow2Even (m k : Nat) : Nat :=
  let q := m / 2 ^ k
  let twiceRest := 2 * (m % 2 ^ k)
  if twiceRest > 2 ^ k ∨ (twiceRest = 2 ^ k ∧ q % 2 = 1) then q + 1 else q

/-- The bit pattern nearest to `± m * 2^x`, ties to even, with subnormals, infinities and signed zeros (R382). The
mantissa carries into the exponent field when it rounds up to a power of two. -/
def floatRound (F : FloatFormat) (neg : Bool) (m : Nat) (x : Int) : Nat :=
  if m = 0 then floatWithSign F neg 0
  else
    let unit := max (x + Nat.log2 m - F.fracBits) (floatMinExp F)
    let rounded := if unit ≤ x then m * 2 ^ (x - unit).toNat else divPow2Even m (unit - x).toNat
    floatWithSign F neg (min ((unit - floatMinExp F).toNat * 2 ^ F.fracBits + rounded) (floatInf F))

/-- The exact number `i * 2^x` rounded; a zero takes the sign `zeroNeg`. -/
def floatRoundInt (F : FloatFormat) (zeroNeg : Bool) (i x : Int) : Nat :=
  if i = 0 then floatWithSign F zeroNeg 0 else floatRound F (decide (i < 0)) i.natAbs x

/-- The integer `± m`. -/
def signedNat (neg : Bool) (m : Nat) : Int := if neg then -m else m

/-- Addition (R382). -/
def datumAdd (F : FloatFormat) : Datum → Datum → Nat
  | .nan, _ | _, .nan => floatNan F
  | .inf a, .inf b => if a = b then floatWithSign F a (floatInf F) else floatNan F
  | .inf a, .fin _ _ _ => floatWithSign F a (floatInf F)
  | .fin _ _ _, .inf b => floatWithSign F b (floatInf F)
  | .fin na ma xa, .fin nb mb xb =>
    let x := min xa xb
    floatRoundInt F (na && nb)
      (signedNat na (ma * 2 ^ (xa - x).toNat) + signedNat nb (mb * 2 ^ (xb - x).toNat)) x

/-- The opposite. -/
def datumNeg : Datum → Datum
  | .nan => .nan
  | .inf a => .inf !a
  | .fin a m x => .fin (!a) m x

/-- Multiplication (R382). -/
def datumMul (F : FloatFormat) : Datum → Datum → Nat
  | .nan, _ | _, .nan => floatNan F
  | .inf a, .inf b => floatWithSign F (a != b) (floatInf F)
  | .inf a, .fin b m _ => if m = 0 then floatNan F else floatWithSign F (a != b) (floatInf F)
  | .fin a m _, .inf b => if m = 0 then floatNan F else floatWithSign F (a != b) (floatInf F)
  | .fin na ma xa, .fin nb mb xb => floatRound F (na != nb) (ma * mb) (xa + xb)

/-- Twice a truncated quotient or root, plus one when it is not exact: enough for a correct rounding, since the
truncated value has more bits than the format keeps. -/
def withSticky (q : Nat) (exact : Bool) : Nat := if exact then 2 * q else 2 * q + 1

/-- Division (R382). -/
def datumDiv (F : FloatFormat) : Datum → Datum → Nat
  | .nan, _ | _, .nan => floatNan F
  | .inf _, .inf _ => floatNan F
  | .inf a, .fin b _ _ => floatWithSign F (a != b) (floatInf F)
  | .fin a _ _, .inf b => floatWithSign F (a != b) 0
  | .fin na ma xa, .fin nb mb xb =>
    if mb = 0 then (if ma = 0 then floatNan F else floatWithSign F (na != nb) (floatInf F))
    else
      let k := 2 * F.fracBits + 4
      let scaled := ma * 2 ^ k
      floatRound F (na != nb) (withSticky (scaled / mb) (scaled % mb == 0)) (xa - xb - k - 1)

/-- The integer square root of `n`, from the candidate `r` on, trying the bits below `2^i`. -/
def isqrtFrom (n : Nat) : Nat → Nat → Nat
  | 0, r => r
  | i + 1, r => isqrtFrom n i (if (r + 2 ^ i) * (r + 2 ^ i) ≤ n then r + 2 ^ i else r)

/-- The integer square root: the largest `r` with `r * r ≤ n`. -/
def isqrt (n : Nat) : Nat := isqrtFrom n (Nat.log2 n / 2 + 1) 0

/-- Square root (R382, R424): `-0` for `-0`, the NaN for every other negative operand. -/
def datumSqrt (F : FloatFormat) : Datum → Nat
  | .nan => floatNan F
  | .inf neg => if neg then floatNan F else floatInf F
  | .fin neg m x =>
    if m = 0 then floatWithSign F neg 0
    else if neg then floatNan F
    else
      let k := 2 * F.fracBits + 4 + (x % 2).toNat
      let scaled := m * 2 ^ k
      let r := isqrt scaled
      floatRound F false (withSticky r (r * r == scaled)) ((x - k) / 2 - 1)

/-- Conversion to a format (R382); of a NaN, the quiet NaN: DEDUCED (log entry 12). -/
def datumConvert (F : FloatFormat) : Datum → Nat
  | .nan => floatNan F
  | .inf neg => floatWithSign F neg (floatInf F)
  | .fin neg m x => floatRound F neg m x

/-- How a conversion to an integer rounds (R382). -/
inductive IntRounding where
  | nearestEven
  | towardZero
  | towardPlusInf
  | towardMinusInf
deriving DecidableEq, Repr

/-- The magnitude of `± m / 2^k` rounded to an integer. -/
def roundMagnitude (mode : IntRounding) (neg : Bool) (m k : Nat) : Nat :=
  let q := m / 2 ^ k
  let exact := m % 2 ^ k == 0
  match mode with
  | .nearestEven => divPow2Even m k
  | .towardZero => q
  | .towardPlusInf => if neg || exact then q else q + 1
  | .towardMinusInf => if !neg || exact then q else q + 1

/-- `± m * 2^x` rounded to an integer. -/
def roundToInt (mode : IntRounding) (neg : Bool) (m : Nat) (x : Int) : Int :=
  signedNat neg (if 0 ≤ x then m * 2 ^ x.toNat else roundMagnitude mode neg m (-x).toNat)

/-- Conversion to a 32-bit integer (R382): 0x7FFFFFFF for a NaN, an infinity or a rounded value out of range. -/
def datumToWord (mode : IntRounding) : Datum → Word
  | .nan | .inf _ => 0x7FFFFFFF#32
  | .fin neg m x =>
    let i := roundToInt mode neg m x
    if -2 ^ 31 ≤ i ∧ i ≤ 2 ^ 31 - 1 then BitVec.ofInt 32 i else 0x7FFFFFFF#32

/-- Whether a bit pattern is a NaN. -/
def floatIsNan (F : FloatFormat) (n : Nat) : Bool := decide (floatInf F < n % floatSign F)

/-- An integer that orders the bit patterns that are not NaNs as their numbers, with `-0 = +0`. -/
def floatKey (F : FloatFormat) (n : Nat) : Int := signedNat (n / floatSign F % 2 == 1) (n % floatSign F)

/-- A comparison, false when either operand is a NaN (R382). -/
def floatCompare (F : FloatFormat) (rel : Int → Int → Bool) (a b : Nat) : Bool :=
  !floatIsNan F a && !floatIsNan F b && rel (floatKey F a) (floatKey F b)

/-! ### On registers -/

/-- A single-precision operand. -/
def single (a : Word) : Datum := floatUnpack binary32 a.toNat
/-- A double-precision operand. -/
def double (a : Dword) : Datum := floatUnpack binary64 a.toNat
/-- A single-precision result. -/
def ofSingle (n : Nat) : Word := BitVec.ofNat 32 n
/-- A double-precision result. -/
def ofDouble (n : Nat) : Dword := BitVec.ofNat 64 n

/-- The recommended instance of `FPU` (R382). -/
def ieeeFpu : FPU where
  addS a b := ofSingle (datumAdd binary32 (single a) (single b))
  subS a b := ofSingle (datumAdd binary32 (single a) (datumNeg (single b)))
  mulS a b := ofSingle (datumMul binary32 (single a) (single b))
  divS a b := ofSingle (datumDiv binary32 (single a) (single b))
  addD a b := ofDouble (datumAdd binary64 (double a) (double b))
  subD a b := ofDouble (datumAdd binary64 (double a) (datumNeg (double b)))
  mulD a b := ofDouble (datumMul binary64 (double a) (double b))
  divD a b := ofDouble (datumDiv binary64 (double a) (double b))
  sqrtS a := ofSingle (datumSqrt binary32 (single a))
  absS a := a &&& 0x7FFFFFFF#32
  negS a := a ^^^ 0x80000000#32
  sqrtD a := ofDouble (datumSqrt binary64 (double a))
  absD a := a &&& 0x7FFFFFFFFFFFFFFF#64
  negD a := a ^^^ 0x8000000000000000#64
  cvtDS a := ofDouble (datumConvert binary64 (single a))
  cvtSD a := ofSingle (datumConvert binary32 (double a))
  cvtSW a := ofSingle (floatRoundInt binary32 false a.toInt 0)
  cvtDW a := ofDouble (floatRoundInt binary64 false a.toInt 0)
  cvtWS a := datumToWord .nearestEven (single a)
  roundWS a := datumToWord .nearestEven (single a)
  truncWS a := datumToWord .towardZero (single a)
  ceilWS a := datumToWord .towardPlusInf (single a)
  floorWS a := datumToWord .towardMinusInf (single a)
  cvtWD a := datumToWord .nearestEven (double a)
  roundWD a := datumToWord .nearestEven (double a)
  truncWD a := datumToWord .towardZero (double a)
  ceilWD a := datumToWord .towardPlusInf (double a)
  floorWD a := datumToWord .towardMinusInf (double a)
  eqS a b := floatCompare binary32 (fun x y => x == y) a.toNat b.toNat
  ltS a b := floatCompare binary32 (fun x y => decide (x < y)) a.toNat b.toNat
  leS a b := floatCompare binary32 (fun x y => decide (x ≤ y)) a.toNat b.toNat
  eqD a b := floatCompare binary64 (fun x y => x == y) a.toNat b.toNat
  ltD a b := floatCompare binary64 (fun x y => decide (x < y)) a.toNat b.toNat
  leD a b := floatCompare binary64 (fun x y => decide (x ≤ y)) a.toNat b.toNat

end Sys2Proof.Machine
end

