-- ==== Sys2Proof/Machine/Fpu.lean ====
section
/-! DEFINITION. The floating-point functions of a run (R381), and the shapes that the floating-point instructions share
(R380): coprocessor 1 usable, then even registers for double operands, then the result, then `advance`. -/

namespace Sys2Proof.Machine

/-- The record `FPU` of the run (R381): the recommended instance (R382), or the implementation's own. -/
def State.fpu (s : State) : FPU :=
  match s.params.fpu with
  | .recommended => ieeeFpu
  | .implementation => Config.fpu

/-- `f[fd] <- v` for an instruction without double operands (R380). -/
def fpSingle (fd : FReg) (v : Word) (s : State) : Result := withCp1 s (setFpr fd v s)

/-- `f[fd] <- op (fd64(fs))`: a double source and a word destination (R380). -/
def fpWordOfDouble (fd fs : FReg) (op : Dword → Word) (s : State) : Result :=
  withCp1 s (withEven fs (setFpr fd (op (s.readDouble fs)) s))

/-- `fd64(fd) <- v`: a word source and a double destination (R380). -/
def fpDoubleOfWord (fd : FReg) (v : Dword) (s : State) : Result := withCp1 s (withEven fd (setDouble fd v s))

/-- `fd64(fd) <- op (fd64(fs))` (R380). -/
def fpDouble1 (fd fs : FReg) (op : Dword → Dword) (s : State) : Result :=
  withCp1 s (withEven fd (withEven fs (setDouble fd (op (s.readDouble fs)) s)))

/-- `fd64(fd) <- op (fd64(fs), fd64(ft))` (R380). -/
def fpDouble2 (fd fs ft : FReg) (op : Dword → Dword → Dword) (s : State) : Result :=
  withCp1 s (withEven fd (withEven fs (withEven ft
    (setDouble fd (op (s.readDouble fs) (s.readDouble ft)) s))))

/-- `fcc[cc] <- op (f[fs], f[ft])` (R380, R390). -/
def fpCompareSingle (cc : CC) (fs ft : FReg) (op : Word → Word → Bool) (s : State) : Result :=
  withCp1 s (setFcc cc (op (s.readFpr fs) (s.readFpr ft)) s)

/-- `fcc[cc] <- op (fd64(fs), fd64(ft))` (R380, R389). -/
def fpCompareDouble (cc : CC) (fs ft : FReg) (op : Dword → Dword → Bool) (s : State) : Result :=
  withCp1 s (withEven fs (withEven ft (setFcc cc (op (s.readDouble fs) (s.readDouble ft)) s)))

/-- `if c then f[fd] <- f[fs]`, a bit copy (R410, R412, R414, R416). -/
def fpMoveSingleIf (c : Bool) (fd fs : FReg) (s : State) : Result :=
  withCp1 s (if c then setFpr fd (s.readFpr fs) s else .next s.advance)

/-- `if c then fd64(fd) <- fd64(fs)`, a bit copy (R409, R411, R413, R415); the registers must be even whether or not the
condition holds (R121, R380): DEDUCED (log entry 14). -/
def fpMoveDoubleIf (c : Bool) (fd fs : FReg) (s : State) : Result :=
  withCp1 s (withEven fd (withEven fs (if c then setDouble fd (s.readDouble fs) s else .next s.advance)))

end Sys2Proof.Machine
end

