-- ==== Sys2Proof/Machine/Float.lean ====
section
/-! DEFINITION. The meanings of the floating-point instructions (R383 to R430), stated through the
record `FPU` (R381). -/

namespace Sys2Proof.Machine

/-- `abs.d` (R383). -/
def execAbsD (fd fs : FReg) (s : State) : Result := fpDouble1 fd fs s.fpu.absD s

/-- `abs.s` (R384). -/
def execAbsS (fd fs : FReg) (s : State) : Result := fpSingle fd (s.fpu.absS (s.readFpr fs)) s

/-- `add.d` (R385). -/
def execAddD (fd fs ft : FReg) (s : State) : Result := fpDouble2 fd fs ft s.fpu.addD s

/-- `add.s` (R386). -/
def execAddS (fd fs ft : FReg) (s : State) : Result :=
  fpSingle fd (s.fpu.addS (s.readFpr fs) (s.readFpr ft)) s

/-- `ceil.w.d` (R387): the least integer not below the operand; only `fs` is a double. -/
def execCeilWD (fd fs : FReg) (s : State) : Result := fpWordOfDouble fd fs s.fpu.ceilWD s

/-- `ceil.w.s` (R388): the least integer not below the operand. -/
def execCeilWS (fd fs : FReg) (s : State) : Result := fpSingle fd (s.fpu.ceilWS (s.readFpr fs)) s

/-- `c.eq.d` (R389): `fcc[cc]` says whether `fs` is equal to `ft`. -/
def execCEqD (cc : CC) (fs ft : FReg) (s : State) : Result := fpCompareDouble cc fs ft s.fpu.eqD s

/-- `c.eq.s` (R390): `fcc[cc]` says whether `fs` is equal to `ft`. -/
def execCEqS (cc : CC) (fs ft : FReg) (s : State) : Result := fpCompareSingle cc fs ft s.fpu.eqS s

/-- `c.le.d` (R391): `fcc[cc]` says whether `fs` is less than or equal to `ft`. -/
def execCLeD (cc : CC) (fs ft : FReg) (s : State) : Result := fpCompareDouble cc fs ft s.fpu.leD s

/-- `c.le.s` (R392): `fcc[cc]` says whether `fs` is less than or equal to `ft`. -/
def execCLeS (cc : CC) (fs ft : FReg) (s : State) : Result := fpCompareSingle cc fs ft s.fpu.leS s

/-- `c.lt.d` (R393): `fcc[cc]` says whether `fs` is less than `ft`. -/
def execCLtD (cc : CC) (fs ft : FReg) (s : State) : Result := fpCompareDouble cc fs ft s.fpu.ltD s

/-- `c.lt.s` (R394): `fcc[cc]` says whether `fs` is less than `ft`. -/
def execCLtS (cc : CC) (fs ft : FReg) (s : State) : Result := fpCompareSingle cc fs ft s.fpu.ltS s

/-- `cvt.d.s` (R395): only `fd` is a double. -/
def execCvtDS (fd fs : FReg) (s : State) : Result := fpDoubleOfWord fd (s.fpu.cvtDS (s.readFpr fs)) s

/-- `cvt.d.w` (R396): from the integer in `f[fs]`; only `fd` is a double. -/
def execCvtDW (fd fs : FReg) (s : State) : Result := fpDoubleOfWord fd (s.fpu.cvtDW (s.readFpr fs)) s

/-- `cvt.s.d` (R397): only `fs` is a double. -/
def execCvtSD (fd fs : FReg) (s : State) : Result := fpWordOfDouble fd fs s.fpu.cvtSD s

/-- `cvt.s.w` (R398): from the integer in `f[fs]`. -/
def execCvtSW (fd fs : FReg) (s : State) : Result := fpSingle fd (s.fpu.cvtSW (s.readFpr fs)) s

/-- `cvt.w.d` (R399): to an integer; only `fs` is a double. -/
def execCvtWD (fd fs : FReg) (s : State) : Result := fpWordOfDouble fd fs s.fpu.cvtWD s

/-- `cvt.w.s` (R400): to an integer. -/
def execCvtWS (fd fs : FReg) (s : State) : Result := fpSingle fd (s.fpu.cvtWS (s.readFpr fs)) s

/-- `div.d` (R401). -/
def execDivD (fd fs ft : FReg) (s : State) : Result := fpDouble2 fd fs ft s.fpu.divD s

/-- `div.s` (R402). -/
def execDivS (fd fs ft : FReg) (s : State) : Result :=
  fpSingle fd (s.fpu.divS (s.readFpr fs) (s.readFpr ft)) s

/-- `floor.w.d` (R403): the greatest integer not above the operand; only `fs` is a double. -/
def execFloorWD (fd fs : FReg) (s : State) : Result := fpWordOfDouble fd fs s.fpu.floorWD s

/-- `floor.w.s` (R404): the greatest integer not above the operand. -/
def execFloorWS (fd fs : FReg) (s : State) : Result := fpSingle fd (s.fpu.floorWS (s.readFpr fs)) s

/-- `mov.d` (R407): a bit copy. -/
def execMovD (fd fs : FReg) (s : State) : Result := fpDouble1 fd fs (fun v => v) s

/-- `mov.s` (R408): a bit copy. -/
def execMovS (fd fs : FReg) (s : State) : Result := fpSingle fd (s.readFpr fs) s

/-- `movf.d` (R409): moves when `fcc[cc]` is 0. -/
def execMovfD (fd fs : FReg) (cc : CC) (s : State) : Result := fpMoveDoubleIf (!s.readFcc cc) fd fs s

/-- `movf.s` (R410): moves when `fcc[cc]` is 0. -/
def execMovfS (fd fs : FReg) (cc : CC) (s : State) : Result := fpMoveSingleIf (!s.readFcc cc) fd fs s

/-- `movt.d` (R411): moves when `fcc[cc]` is 1. -/
def execMovtD (fd fs : FReg) (cc : CC) (s : State) : Result := fpMoveDoubleIf (s.readFcc cc) fd fs s

/-- `movt.s` (R412): moves when `fcc[cc]` is 1. -/
def execMovtS (fd fs : FReg) (cc : CC) (s : State) : Result := fpMoveSingleIf (s.readFcc cc) fd fs s

/-- `movn.d` (R413): moves when `x[rt] != 0`. -/
def execMovnD (fd fs : FReg) (rt : Reg) (s : State) : Result := fpMoveDoubleIf (s.readGpr rt != 0#32) fd fs s

/-- `movn.s` (R414): moves when `x[rt] != 0`. -/
def execMovnS (fd fs : FReg) (rt : Reg) (s : State) : Result := fpMoveSingleIf (s.readGpr rt != 0#32) fd fs s

/-- `movz.d` (R415): moves when `x[rt] = 0`. -/
def execMovzD (fd fs : FReg) (rt : Reg) (s : State) : Result := fpMoveDoubleIf (s.readGpr rt == 0#32) fd fs s

/-- `movz.s` (R416): moves when `x[rt] = 0`. -/
def execMovzS (fd fs : FReg) (rt : Reg) (s : State) : Result := fpMoveSingleIf (s.readGpr rt == 0#32) fd fs s

/-- `mul.d` (R417). -/
def execMulD (fd fs ft : FReg) (s : State) : Result := fpDouble2 fd fs ft s.fpu.mulD s

/-- `mul.s` (R418). -/
def execMulS (fd fs ft : FReg) (s : State) : Result :=
  fpSingle fd (s.fpu.mulS (s.readFpr fs) (s.readFpr ft)) s

/-- `neg.d` (R419). -/
def execNegD (fd fs : FReg) (s : State) : Result := fpDouble1 fd fs s.fpu.negD s

/-- `neg.s` (R420). -/
def execNegS (fd fs : FReg) (s : State) : Result := fpSingle fd (s.fpu.negS (s.readFpr fs)) s

/-- `round.w.d` (R421): to the nearest integer; only `fs` is a double. -/
def execRoundWD (fd fs : FReg) (s : State) : Result := fpWordOfDouble fd fs s.fpu.roundWD s

/-- `round.w.s` (R422): to the nearest integer. -/
def execRoundWS (fd fs : FReg) (s : State) : Result := fpSingle fd (s.fpu.roundWS (s.readFpr fs)) s

/-- `sqrt.d` (R423). -/
def execSqrtD (fd fs : FReg) (s : State) : Result := fpDouble1 fd fs s.fpu.sqrtD s

/-- `sqrt.s` (R424). -/
def execSqrtS (fd fs : FReg) (s : State) : Result := fpSingle fd (s.fpu.sqrtS (s.readFpr fs)) s

/-- `sub.d` (R427). -/
def execSubD (fd fs ft : FReg) (s : State) : Result := fpDouble2 fd fs ft s.fpu.subD s

/-- `sub.s` (R428). -/
def execSubS (fd fs ft : FReg) (s : State) : Result :=
  fpSingle fd (s.fpu.subS (s.readFpr fs) (s.readFpr ft)) s

/-- `trunc.w.d` (R429): the fraction discarded; only `fs` is a double. -/
def execTruncWD (fd fs : FReg) (s : State) : Result := fpWordOfDouble fd fs s.fpu.truncWD s

/-- `trunc.w.s` (R430): the fraction discarded. -/
def execTruncWS (fd fs : FReg) (s : State) : Result := fpSingle fd (s.fpu.truncWS (s.readFpr fs)) s

end Sys2Proof.Machine
end

