-- ==== Sys2Proof/Machine/LoadStore.lean ====
section
/-! DEFINITION. The meanings of the loads and stores (R300 to R332). -/

namespace Sys2Proof.Machine

/-- `lb` (R303): a byte, sign-extended. -/
def execLb (rt rs : Reg) (imm : Half) (s : State) : Result :=
  checkedLoad (effectiveAddress s rs imm) 1 s (setGpr rt ((s.readByte (effectiveAddress s rs imm)).signExtend 32) s)

/-- `lbu` (R304): a byte, zero-extended. -/
def execLbu (rt rs : Reg) (imm : Half) (s : State) : Result :=
  checkedLoad (effectiveAddress s rs imm) 1 s (setGpr rt ((s.readByte (effectiveAddress s rs imm)).zeroExtend 32) s)

/-- `lh` (R305): a halfword, sign-extended. -/
def execLh (rt rs : Reg) (imm : Half) (s : State) : Result :=
  checkedLoad (effectiveAddress s rs imm) 2 s (setGpr rt ((s.readHalf (effectiveAddress s rs imm)).signExtend 32) s)

/-- `lhu` (R306): a halfword, zero-extended. -/
def execLhu (rt rs : Reg) (imm : Half) (s : State) : Result :=
  checkedLoad (effectiveAddress s rs imm) 2 s (setGpr rt ((s.readHalf (effectiveAddress s rs imm)).zeroExtend 32) s)

/-- `lw` (R307): a word. -/
def execLw (rt rs : Reg) (imm : Half) (s : State) : Result :=
  checkedLoad (effectiveAddress s rs imm) 4 s (setGpr rt (s.readWord (effectiveAddress s rs imm)) s)

/-- `lwc1` (R308): a word to `f[ft]`, after the check of coprocessor 1. -/
def execLwc1 (ft : FReg) (rs : Reg) (imm : Half) (s : State) : Result :=
  withCp1 s (checkedLoad (effectiveAddress s rs imm) 4 s (setFpr ft (s.readWord (effectiveAddress s rs imm)) s))

/-- `lwl` (R309, R317): the left bytes of an unaligned word, merged into `x[rt]`; no alignment exception. -/
def execLwl (rt rs : Reg) (imm : Half) (s : State) : Result :=
  let a := effectiveAddress s rs imm
  checkedAccess (.adEL a) a 1 (unalignedAddrs s.params.bigEndian true a) s
    (setGpr rt (unalignedLoad s true a (s.readGpr rt)) s)

/-- `lwr` (R310, R317): the right bytes of an unaligned word, merged into `x[rt]`; no alignment exception. -/
def execLwr (rt rs : Reg) (imm : Half) (s : State) : Result :=
  let a := effectiveAddress s rs imm
  checkedAccess (.adEL a) a 1 (unalignedAddrs s.params.bigEndian false a) s
    (setGpr rt (unalignedLoad s false a (s.readGpr rt)) s)

/-- `ldc1` (R316): a doubleword to `fd64(ft)`, aligned to 8 bytes; `ft` must be even. -/
def execLdc1 (ft : FReg) (rs : Reg) (imm : Half) (s : State) : Result :=
  withCp1 s (withEven ft
    (checkedLoad (effectiveAddress s rs imm) 8 s (setDouble ft (s.readDword (effectiveAddress s rs imm)) s)))

/-- `ll` (R331): a word, and the link to its address. -/
def execLl (rt rs : Reg) (imm : Half) (s : State) : Result :=
  let a := effectiveAddress s rs imm
  checkedLoad a 4 s (setGpr rt (s.readWord a) { s with llbit := true, lladdr := a })

/-- `sb` (R320): the low byte of `x[rt]`. -/
def execSb (rt rs : Reg) (imm : Half) (s : State) : Result :=
  checkedStore (effectiveAddress s rs imm) 1 s
    (storeCells (byteCells (effectiveAddress s rs imm) ((s.readGpr rt).extractLsb' 0 8)) s)

/-- `sh` (R321): the low halfword of `x[rt]`. -/
def execSh (rt rs : Reg) (imm : Half) (s : State) : Result :=
  checkedStore (effectiveAddress s rs imm) 2 s
    (storeCells (halfCells s.params.bigEndian (effectiveAddress s rs imm) ((s.readGpr rt).extractLsb' 0 16)) s)

/-- `sw` (R322): `x[rt]`. -/
def execSw (rt rs : Reg) (imm : Half) (s : State) : Result :=
  checkedStore (effectiveAddress s rs imm) 4 s
    (storeCells (wordCells s.params.bigEndian (effectiveAddress s rs imm) (s.readGpr rt)) s)

/-- `swc1` (R323): `f[ft]`, after the check of coprocessor 1. -/
def execSwc1 (ft : FReg) (rs : Reg) (imm : Half) (s : State) : Result :=
  withCp1 s (checkedStore (effectiveAddress s rs imm) 4 s
    (storeCells (wordCells s.params.bigEndian (effectiveAddress s rs imm) (s.readFpr ft)) s))

/-- `sdc1` (R324): `fd64(ft)`, aligned to 8 bytes; `ft` must be even. -/
def execSdc1 (ft : FReg) (rs : Reg) (imm : Half) (s : State) : Result :=
  withCp1 s (withEven ft (checkedStore (effectiveAddress s rs imm) 8 s
    (storeCells (dwordCells s.params.bigEndian (effectiveAddress s rs imm) (s.readDouble ft)) s)))

/-- `swl` (R325, R317): the left bytes of `x[rt]` to an unaligned word; no alignment exception. -/
def execSwl (rt rs : Reg) (imm : Half) (s : State) : Result :=
  let a := effectiveAddress s rs imm
  checkedAccess (.adES a) a 1 (unalignedAddrs s.params.bigEndian true a) s
    (storeCells (unalignedCells s.params.bigEndian true a (s.readGpr rt)) s)

/-- `swr` (R326, R317): the right bytes of `x[rt]` to an unaligned word; no alignment exception. -/
def execSwr (rt rs : Reg) (imm : Half) (s : State) : Result :=
  let a := effectiveAddress s rs imm
  checkedAccess (.adES a) a 1 (unalignedAddrs s.params.bigEndian false a) s
    (storeCells (unalignedCells s.params.bigEndian false a (s.readGpr rt)) s)

/-- Whether an `sc` with a valid link fails all the same (R332 `spurious_fail`): never while `SC_SPURIOUS_FAIL` is
false, else a free choice at each `sc` (log entry 8). -/
def spuriousFail (s : State) : Bool := s.params.scSpuriousFail && Config.scFails s.draws

/-- The end of an `sc`: `x[rt]` written, the link cleared, one choice drawn when the parameter asks for it (R332). -/
def scEnd (rt : Reg) (v : Word) (s : State) : Result :=
  let drawn := if s.params.scSpuriousFail then s.draws + 1 else s.draws
  .next ({ s with llbit := false, draws := drawn }.writeGpr rt v).advance

/-- `sc` (R332): with a valid link to its address stores `x[rt]` and writes 1, else stores nothing and writes 0. A
valid link to another address is refused. Only the form that stores needs memory at its address (R61): DEDUCED (log entry 13). -/
def execSc (rt rs : Reg) (imm : Half) (s : State) : Result :=
  let a := effectiveAddress s rs imm
  if a.toNat % 4 ≠ 0 then raise (.adES a) s
  else if s.userMode && a.msb then raise (.adES a) s
  else if s.llbit && s.lladdr != a then .refused (.scAddressDiffersFromLl a)
  else if s.llbit && !spuriousFail s then
    checkedStore a 4 s (scEnd rt 1#32 (s.store (wordCells s.params.bigEndian a (s.readGpr rt))))
  else scEnd rt 0#32 s

end Sys2Proof.Machine
end

