-- ==== Sys2Proof/Machine/MulDiv.lean ====
section
/-! DEFINITION. The meanings of the multiply and divide instructions (R151 to R166). -/

namespace Sys2Proof.Machine

/-- `sext_64(a) * sext_64(b)`, exact (R156). -/
def signedProduct (a b : Word) : Dword := a.signExtend 64 * b.signExtend 64

/-- `zext_64(a) * zext_64(b)`, exact (R157). -/
def unsignedProduct (a b : Word) : Dword := a.zeroExtend 64 * b.zeroExtend 64

/-- `hi <- r; lo <- q; advance`: the end of a division (R151). -/
def setQuotientRemainder (q r : Word) (s : State) : Result := .next { s with hi := r, lo := q }.advance

/-- `SDIV_NEG(a, b)`, quotient and remainder of a signed division with a negative operand (R151): truncation toward
zero (the recommended instance, in which -2^31 / -1 wraps to `q = 0x80000000`, `r = 0`), or the implementation's own
quotient, with the remainder that `q*b + r = a` modulo 2^32 then forces. -/
def sdivNeg (p : Params) (a b : Word) : Word × Word :=
  match p.sdivNeg with
  | .recommended => (BitVec.ofInt 32 (a.toInt.tdiv b.toInt), BitVec.ofInt 32 (a.toInt.tmod b.toInt))
  | .implementation => (Config.sdivQuotient a b, a - Config.sdivQuotient a b * b)

/-- `div` (R152): a divisor of 0 leaves two unspecified values, two operands that are not negative divide exactly, and
`SDIV_NEG` gives the rest (R151). No exception. -/
def execDiv (rs rt : Reg) (s : State) : Result :=
  let a := s.readGpr rs
  let b := s.readGpr rt
  if b = 0#32 then .next s.forgetHiLo.advance
  else if !a.msb && !b.msb then setQuotientRemainder (a / b) (a % b) s
  else setQuotientRemainder (sdivNeg s.params a b).1 (sdivNeg s.params a b).2 s

/-- `divu` (R153): unsigned; a divisor of 0 leaves two unspecified values. No exception. -/
def execDivu (rs rt : Reg) (s : State) : Result :=
  let a := s.readGpr rs
  let b := s.readGpr rt
  if b = 0#32 then .next s.forgetHiLo.advance else setQuotientRemainder (a / b) (a % b) s

/-- `mult` (R156): the signed 64-bit product. -/
def execMult (rs rt : Reg) (s : State) : Result := setHiLo (signedProduct (s.readGpr rs) (s.readGpr rt)) s

/-- `multu` (R157): the unsigned 64-bit product. -/
def execMultu (rs rt : Reg) (s : State) : Result := setHiLo (unsignedProduct (s.readGpr rs) (s.readGpr rt)) s

/-- `mul` (R160): the low 32 bits of the product; `hi` and `lo` become unspecified. -/
def execMul (rd rs rt : Reg) (s : State) : Result := setGpr rd (s.readGpr rs * s.readGpr rt) s.forgetHiLo

/-- `madd` (R163): `(hi ++ lo) +` the signed product, modulo 2^64. -/
def execMadd (rs rt : Reg) (s : State) : Result :=
  setHiLo (s.readHiLo + signedProduct (s.readGpr rs) (s.readGpr rt)) s

/-- `maddu` (R164): `(hi ++ lo) +` the unsigned product, modulo 2^64. -/
def execMaddu (rs rt : Reg) (s : State) : Result :=
  setHiLo (s.readHiLo + unsignedProduct (s.readGpr rs) (s.readGpr rt)) s

/-- `msub` (R165): `(hi ++ lo) -` the signed product, modulo 2^64. -/
def execMsub (rs rt : Reg) (s : State) : Result :=
  setHiLo (s.readHiLo - signedProduct (s.readGpr rs) (s.readGpr rt)) s

/-- `msubu` (R166): `(hi ++ lo) -` the unsigned product, modulo 2^64. -/
def execMsubu (rs rt : Reg) (s : State) : Result :=
  setHiLo (s.readHiLo - unsignedProduct (s.readGpr rs) (s.readGpr rt)) s

end Sys2Proof.Machine
end

