-- ==== Sys2Proof/Machine/Trap.lean ====
section
/-! DEFINITION. The meanings of the trap instructions (R280 to R292). The `code` field is not read; the
immediate forms sign-extend `imm`, the unsigned ones too (R280). -/

namespace Sys2Proof.Machine

/-- `teq` (R281): equal. -/
def execTeq (rs rt : Reg) (_code : BitVec 10) (s : State) : Result := trapIf (s.readGpr rs == s.readGpr rt) s

/-- `teqi` (R282): equal. -/
def execTeqi (rs : Reg) (imm : Half) (s : State) : Result := trapIf (s.readGpr rs == immSigned imm) s

/-- `tne` (R283): not equal. -/
def execTne (rs rt : Reg) (_code : BitVec 10) (s : State) : Result := trapIf (s.readGpr rs != s.readGpr rt) s

/-- `tnei` (R284): not equal. -/
def execTnei (rs : Reg) (imm : Half) (s : State) : Result := trapIf (s.readGpr rs != immSigned imm) s

/-- `tge` (R285): signed greater or equal. -/
def execTge (rs rt : Reg) (_code : BitVec 10) (s : State) : Result :=
  trapIf ((s.readGpr rt).sle (s.readGpr rs)) s

/-- `tgeu` (R286): unsigned greater or equal. -/
def execTgeu (rs rt : Reg) (_code : BitVec 10) (s : State) : Result :=
  trapIf ((s.readGpr rt).ule (s.readGpr rs)) s

/-- `tgei` (R287): signed greater or equal. -/
def execTgei (rs : Reg) (imm : Half) (s : State) : Result := trapIf ((immSigned imm).sle (s.readGpr rs)) s

/-- `tgeiu` (R288): unsigned greater or equal. -/
def execTgeiu (rs : Reg) (imm : Half) (s : State) : Result := trapIf ((immSigned imm).ule (s.readGpr rs)) s

/-- `tlt` (R289): signed less. -/
def execTlt (rs rt : Reg) (_code : BitVec 10) (s : State) : Result :=
  trapIf ((s.readGpr rs).slt (s.readGpr rt)) s

/-- `tltu` (R290): unsigned less. -/
def execTltu (rs rt : Reg) (_code : BitVec 10) (s : State) : Result :=
  trapIf ((s.readGpr rs).ult (s.readGpr rt)) s

/-- `tlti` (R291): signed less. -/
def execTlti (rs : Reg) (imm : Half) (s : State) : Result := trapIf ((s.readGpr rs).slt (immSigned imm)) s

/-- `tltiu` (R292): unsigned less. -/
def execTltiu (rs : Reg) (imm : Half) (s : State) : Result := trapIf ((s.readGpr rs).ult (immSigned imm)) s

end Sys2Proof.Machine
end

