-- ==== Sys2Proof/Machine/Dispatch.lean ====
section
/-! DEFINITION. The dispatch: one arm per instruction, each a call of its meaning. -/

namespace Sys2Proof.Machine

/-- The meaning of an instruction. -/
def exec (i : Instr) (s : State) : Host.Outcome State Fault Refusal :=
  match i with
  | .add rd rs rt => Sys2Proof.Machine.execAdd rd rs rt s
  | .addu rd rs rt => Sys2Proof.Machine.execAddu rd rs rt s
  | .addi rt rs imm => Sys2Proof.Machine.execAddi rt rs imm s
  | .addiu rt rs imm => Sys2Proof.Machine.execAddiu rt rs imm s
  | .and rd rs rt => Sys2Proof.Machine.execAnd rd rs rt s
  | .andi rt rs imm => Sys2Proof.Machine.execAndi rt rs imm s
  | .clo rd rs rt => Sys2Proof.Machine.execClo rd rs rt s
  | .clz rd rs rt => Sys2Proof.Machine.execClz rd rs rt s
  | .div rs rt => Sys2Proof.Machine.execDiv rs rt s
  | .divu rs rt => Sys2Proof.Machine.execDivu rs rt s
  | .mult rs rt => Sys2Proof.Machine.execMult rs rt s
  | .multu rs rt => Sys2Proof.Machine.execMultu rs rt s
  | .mul rd rs rt => Sys2Proof.Machine.execMul rd rs rt s
  | .madd rs rt => Sys2Proof.Machine.execMadd rs rt s
  | .maddu rs rt => Sys2Proof.Machine.execMaddu rs rt s
  | .msub rs rt => Sys2Proof.Machine.execMsub rs rt s
  | .msubu rs rt => Sys2Proof.Machine.execMsubu rs rt s
  | .nor rd rs rt => Sys2Proof.Machine.execNor rd rs rt s
  | .or rd rs rt => Sys2Proof.Machine.execOr rd rs rt s
  | .ori rt rs imm => Sys2Proof.Machine.execOri rt rs imm s
  | .sll rd rt shamt => Sys2Proof.Machine.execSll rd rt shamt s
  | .sllv rd rt rs => Sys2Proof.Machine.execSllv rd rt rs s
  | .sra rd rt shamt => Sys2Proof.Machine.execSra rd rt shamt s
  | .srav rd rt rs => Sys2Proof.Machine.execSrav rd rt rs s
  | .srl rd rt shamt => Sys2Proof.Machine.execSrl rd rt shamt s
  | .srlv rd rt rs => Sys2Proof.Machine.execSrlv rd rt rs s
  | .sub rd rs rt => Sys2Proof.Machine.execSub rd rs rt s
  | .subu rd rs rt => Sys2Proof.Machine.execSubu rd rs rt s
  | .xor rd rs rt => Sys2Proof.Machine.execXor rd rs rt s
  | .xori rt rs imm => Sys2Proof.Machine.execXori rt rs imm s
  | .lui rt imm => Sys2Proof.Machine.execLui rt imm s
  | .slt rd rs rt => Sys2Proof.Machine.execSlt rd rs rt s
  | .sltu rd rs rt => Sys2Proof.Machine.execSltu rd rs rt s
  | .slti rt rs imm => Sys2Proof.Machine.execSlti rt rs imm s
  | .sltiu rt rs imm => Sys2Proof.Machine.execSltiu rt rs imm s
  | .bc1f cc imm => Sys2Proof.Machine.execBc1f cc imm s
  | .bc1t cc imm => Sys2Proof.Machine.execBc1t cc imm s
  | .beq rs rt imm => Sys2Proof.Machine.execBeq rs rt imm s
  | .bgez rs imm => Sys2Proof.Machine.execBgez rs imm s
  | .bgezal rs imm => Sys2Proof.Machine.execBgezal rs imm s
  | .bgtz rs imm => Sys2Proof.Machine.execBgtz rs imm s
  | .blez rs imm => Sys2Proof.Machine.execBlez rs imm s
  | .bltzal rs imm => Sys2Proof.Machine.execBltzal rs imm s
  | .bltz rs imm => Sys2Proof.Machine.execBltz rs imm s
  | .bne rs rt imm => Sys2Proof.Machine.execBne rs rt imm s
  | .j target => Sys2Proof.Machine.execJ target s
  | .jal target => Sys2Proof.Machine.execJal target s
  | .jalr rs rd => Sys2Proof.Machine.execJalr rs rd s
  | .jr rs => Sys2Proof.Machine.execJr rs s
  | .teq rs rt code => Sys2Proof.Machine.execTeq rs rt code s
  | .teqi rs imm => Sys2Proof.Machine.execTeqi rs imm s
  | .tne rs rt code => Sys2Proof.Machine.execTne rs rt code s
  | .tnei rs imm => Sys2Proof.Machine.execTnei rs imm s
  | .tge rs rt code => Sys2Proof.Machine.execTge rs rt code s
  | .tgeu rs rt code => Sys2Proof.Machine.execTgeu rs rt code s
  | .tgei rs imm => Sys2Proof.Machine.execTgei rs imm s
  | .tgeiu rs imm => Sys2Proof.Machine.execTgeiu rs imm s
  | .tlt rs rt code => Sys2Proof.Machine.execTlt rs rt code s
  | .tltu rs rt code => Sys2Proof.Machine.execTltu rs rt code s
  | .tlti rs imm => Sys2Proof.Machine.execTlti rs imm s
  | .tltiu rs imm => Sys2Proof.Machine.execTltiu rs imm s
  | .lb rt rs imm => Sys2Proof.Machine.execLb rt rs imm s
  | .lbu rt rs imm => Sys2Proof.Machine.execLbu rt rs imm s
  | .lh rt rs imm => Sys2Proof.Machine.execLh rt rs imm s
  | .lhu rt rs imm => Sys2Proof.Machine.execLhu rt rs imm s
  | .lw rt rs imm => Sys2Proof.Machine.execLw rt rs imm s
  | .lwc1 ft rs imm => Sys2Proof.Machine.execLwc1 ft rs imm s
  | .lwl rt rs imm => Sys2Proof.Machine.execLwl rt rs imm s
  | .lwr rt rs imm => Sys2Proof.Machine.execLwr rt rs imm s
  | .ldc1 ft rs imm => Sys2Proof.Machine.execLdc1 ft rs imm s
  | .ll rt rs imm => Sys2Proof.Machine.execLl rt rs imm s
  | .sb rt rs imm => Sys2Proof.Machine.execSb rt rs imm s
  | .sh rt rs imm => Sys2Proof.Machine.execSh rt rs imm s
  | .sw rt rs imm => Sys2Proof.Machine.execSw rt rs imm s
  | .swc1 ft rs imm => Sys2Proof.Machine.execSwc1 ft rs imm s
  | .sdc1 ft rs imm => Sys2Proof.Machine.execSdc1 ft rs imm s
  | .swl rt rs imm => Sys2Proof.Machine.execSwl rt rs imm s
  | .swr rt rs imm => Sys2Proof.Machine.execSwr rt rs imm s
  | .sc rt rs imm => Sys2Proof.Machine.execSc rt rs imm s
  | .mfhi rd => Sys2Proof.Machine.execMfhi rd s
  | .mflo rd => Sys2Proof.Machine.execMflo rd s
  | .mthi rs => Sys2Proof.Machine.execMthi rs s
  | .mtlo rs => Sys2Proof.Machine.execMtlo rs s
  | .mfc0 rt rd => Sys2Proof.Machine.execMfc0 rt rd s
  | .mfc1 rt fs => Sys2Proof.Machine.execMfc1 rt fs s
  | .mtc0 rt rd => Sys2Proof.Machine.execMtc0 rt rd s
  | .mtc1 rt fs => Sys2Proof.Machine.execMtc1 rt fs s
  | .movn rd rs rt => Sys2Proof.Machine.execMovn rd rs rt s
  | .movz rd rs rt => Sys2Proof.Machine.execMovz rd rs rt s
  | .movf rd rs cc => Sys2Proof.Machine.execMovf rd rs cc s
  | .movt rd rs cc => Sys2Proof.Machine.execMovt rd rs cc s
  | .absD fd fs => Sys2Proof.Machine.execAbsD fd fs s
  | .absS fd fs => Sys2Proof.Machine.execAbsS fd fs s
  | .addD fd fs ft => Sys2Proof.Machine.execAddD fd fs ft s
  | .addS fd fs ft => Sys2Proof.Machine.execAddS fd fs ft s
  | .ceilWD fd fs => Sys2Proof.Machine.execCeilWD fd fs s
  | .ceilWS fd fs => Sys2Proof.Machine.execCeilWS fd fs s
  | .cEqD cc fs ft => Sys2Proof.Machine.execCEqD cc fs ft s
  | .cEqS cc fs ft => Sys2Proof.Machine.execCEqS cc fs ft s
  | .cLeD cc fs ft => Sys2Proof.Machine.execCLeD cc fs ft s
  | .cLeS cc fs ft => Sys2Proof.Machine.execCLeS cc fs ft s
  | .cLtD cc fs ft => Sys2Proof.Machine.execCLtD cc fs ft s
  | .cLtS cc fs ft => Sys2Proof.Machine.execCLtS cc fs ft s
  | .cvtDS fd fs => Sys2Proof.Machine.execCvtDS fd fs s
  | .cvtDW fd fs => Sys2Proof.Machine.execCvtDW fd fs s
  | .cvtSD fd fs => Sys2Proof.Machine.execCvtSD fd fs s
  | .cvtSW fd fs => Sys2Proof.Machine.execCvtSW fd fs s
  | .cvtWD fd fs => Sys2Proof.Machine.execCvtWD fd fs s
  | .cvtWS fd fs => Sys2Proof.Machine.execCvtWS fd fs s
  | .divD fd fs ft => Sys2Proof.Machine.execDivD fd fs ft s
  | .divS fd fs ft => Sys2Proof.Machine.execDivS fd fs ft s
  | .floorWD fd fs => Sys2Proof.Machine.execFloorWD fd fs s
  | .floorWS fd fs => Sys2Proof.Machine.execFloorWS fd fs s
  | .movD fd fs => Sys2Proof.Machine.execMovD fd fs s
  | .movS fd fs => Sys2Proof.Machine.execMovS fd fs s
  | .movfD fd fs cc => Sys2Proof.Machine.execMovfD fd fs cc s
  | .movfS fd fs cc => Sys2Proof.Machine.execMovfS fd fs cc s
  | .movtD fd fs cc => Sys2Proof.Machine.execMovtD fd fs cc s
  | .movtS fd fs cc => Sys2Proof.Machine.execMovtS fd fs cc s
  | .movnD fd fs rt => Sys2Proof.Machine.execMovnD fd fs rt s
  | .movnS fd fs rt => Sys2Proof.Machine.execMovnS fd fs rt s
  | .movzD fd fs rt => Sys2Proof.Machine.execMovzD fd fs rt s
  | .movzS fd fs rt => Sys2Proof.Machine.execMovzS fd fs rt s
  | .mulD fd fs ft => Sys2Proof.Machine.execMulD fd fs ft s
  | .mulS fd fs ft => Sys2Proof.Machine.execMulS fd fs ft s
  | .negD fd fs => Sys2Proof.Machine.execNegD fd fs s
  | .negS fd fs => Sys2Proof.Machine.execNegS fd fs s
  | .roundWD fd fs => Sys2Proof.Machine.execRoundWD fd fs s
  | .roundWS fd fs => Sys2Proof.Machine.execRoundWS fd fs s
  | .sqrtD fd fs => Sys2Proof.Machine.execSqrtD fd fs s
  | .sqrtS fd fs => Sys2Proof.Machine.execSqrtS fd fs s
  | .subD fd fs ft => Sys2Proof.Machine.execSubD fd fs ft s
  | .subS fd fs ft => Sys2Proof.Machine.execSubS fd fs ft s
  | .truncWD fd fs => Sys2Proof.Machine.execTruncWD fd fs s
  | .truncWS fd fs => Sys2Proof.Machine.execTruncWS fd fs s
  | .eret => Sys2Proof.Machine.execEret s
  | .syscall code => Sys2Proof.Machine.execSyscall code s
  | .brk code => Sys2Proof.Machine.execBrk code s
  | .nop => Sys2Proof.Machine.execNop s

end Sys2Proof.Machine
end

