-- ==== Sys2Proof/Machine/Step.lean ====
section
/-! DEFINITION. One step of the machine, and the placing of an instruction where the next step fetches. -/

namespace Sys2Proof.Machine

/-- One step (R473): `stepWith` of Machine/Ops.lean with the meanings of Machine/Dispatch.lean. -/
def step : State → Host.Outcome State Fault Refusal := Sys2Proof.Machine.stepWith Sys2Proof.Machine.exec

/-- The state with an instruction at `pc`: the `nbits` low bits of `w`, every bit above them 0 (log entry 10). -/
def State.withFetchWord (s : State) (nbits w : Nat) : State :=
  Sys2Proof.Machine.placeWord s (BitVec.ofNat 32 (w % 2 ^ nbits))

end Sys2Proof.Machine
end

