-- ==== Sys2Proof/Safety.lean ====
section
/-! DEFINITION. The terms in which statements speak of the machine: what an instruction leaves unchanged, how it ends,
what an access needs, and the invariant of the machine's states. -/

namespace Sys2Proof.Machine

/-! ### Frames -/

/-- The parts of the state that an instruction can change or leave. `inputs` are the arguments and inputs of the run. -/
inductive Part where
  | gpr
  | fpr
  | fcc
  | hiLo
  | cp0
  | link
  | mem
  | inputs
deriving DecidableEq, Repr

/-- A part of the state reads the same before and after: every register of it, and for `mem` every byte. -/
def Unchanged (s t : State) : Part → Prop
  | .gpr => ∀ r : Reg, t.readGpr r = s.readGpr r
  | .fpr => ∀ r : FReg, t.readFpr r = s.readFpr r
  | .fcc => ∀ c : CC, t.readFcc c = s.readFcc c
  | .hiLo => t.hi = s.hi ∧ t.lo = s.lo
  | .cp0 => t.status = s.status ∧ t.cause = s.cause ∧ t.epc = s.epc ∧ t.badVAddr = s.badVAddr
  | .link => t.llbit = s.llbit ∧ t.lladdr = s.lladdr
  | .mem => (∀ a : Nat, Memory.read t.mem a = Memory.read s.mem a) ∧ t.stored = s.stored
  | .inputs => t.params = s.params ∧ t.irqInput = s.irqInput

/-- Every part of the state but the listed ones is unchanged. -/
def ChangesOnly (parts : List Part) (s t : State) : Prop := ∀ p : Part, p ∉ parts → Unchanged s t p

/-- One general register holds a value, a write to register 0 being discarded (R21); all else is unchanged but the
program counter. -/
def WroteGpr (d : Reg) (v : Word) (s t : State) : Prop :=
  (∀ r : Reg, t.readGpr r = if r = 0#5 then 0#32 else if r = d then v else s.readGpr r) ∧ ChangesOnly [.gpr] s t

/-- One floating-point register holds a value; all else is unchanged but the program counter. -/
def WroteFpr (d : FReg) (v : Word) (s t : State) : Prop :=
  (∀ r : FReg, t.readFpr r = if r = d then v else s.readFpr r) ∧ ChangesOnly [.fpr] s t

/-- A pair of floating-point registers holds a double, the low half in `d` and the high half in `d + 1` (R33); all else
is unchanged but the program counter. -/
def WroteDouble (d : FReg) (v : Dword) (s t : State) : Prop :=
  (∀ r : FReg, t.readFpr r =
    if r = d then v.extractLsb' 0 32 else if r = d + 1#5 then v.extractLsb' 32 32 else s.readFpr r) ∧
  ChangesOnly [.fpr] s t

/-- One condition flag holds a value; all else is unchanged but the program counter. -/
def WroteFcc (c : CC) (b : Bool) (s t : State) : Prop :=
  (∀ d : CC, t.readFcc d = if d = c then b else s.readFcc d) ∧ ChangesOnly [.fcc] s t

/-- The bytes at some addresses were stored to, and no other byte changed; the addresses are marked (R76). All else is
unchanged but the program counter. -/
def StoredOnly (addrs : List Nat) (s t : State) : Prop :=
  (∀ a : Nat, a ∉ addrs → Memory.read t.mem a = Memory.read s.mem a) ∧
  (∀ a : Nat, a ∈ t.stored ↔ a ∈ addrs ∨ a ∈ s.stored) ∧ ChangesOnly [.mem] s t

/-- Nothing is changed but the program counter. -/
def ChangedNothing (s t : State) : Prop := ChangesOnly [] s t

/-! ### How an instruction ends -/

/-- `advance` (R9). -/
def Advanced (s t : State) : Prop := t.pc = s.npc ∧ t.npc = s.npc + 4#32 ∧ t.ds = false

/-- `branch_to(T)` (R9). -/
def BranchedTo (target : Word) (s t : State) : Prop := t.pc = s.npc ∧ t.npc = target ∧ t.ds = true

/-- `branch_not_taken` (R9). -/
def FellThrough (s t : State) : Prop := t.pc = s.npc ∧ t.npc = s.npc + 4#32 ∧ t.ds = true

/-- The instruction answers a next state, of which `P` holds. -/
def Completes (i : Instr) (s : State) (P : State → Prop) : Prop := ∃ t, exec i s = .next t ∧ P t

/-- The instruction takes an exception (R470). -/
def Takes (i : Instr) (s : State) (e : Exc) : Prop := exec i s = .next (enterException e s)

/-- The instruction writes a value with the property `P` to a general register, and advances. -/
def SetsGpr (i : Instr) (s : State) (d : Reg) (P : Word → Prop) : Prop :=
  Completes i s fun t => (∃ v, P v ∧ WroteGpr d v s t) ∧ Advanced s t

/-- The instruction writes a floating-point register, and advances. -/
def SetsFpr (i : Instr) (s : State) (d : FReg) (v : Word) : Prop :=
  Completes i s fun t => WroteFpr d v s t ∧ Advanced s t

/-- The instruction writes a double, and advances. -/
def SetsDouble (i : Instr) (s : State) (d : FReg) (v : Dword) : Prop :=
  Completes i s fun t => WroteDouble d v s t ∧ Advanced s t

/-- The instruction writes a condition flag, and advances. -/
def SetsFcc (i : Instr) (s : State) (c : CC) (b : Bool) : Prop :=
  Completes i s fun t => WroteFcc c b s t ∧ Advanced s t

/-- The instruction writes `hi` and `lo` so that `P` holds of them, and advances. -/
def SetsHiLo (i : Instr) (s : State) (P : Word → Word → Prop) : Prop :=
  Completes i s fun t => P t.hi t.lo ∧ ChangesOnly [.hiLo] s t ∧ Advanced s t

/-- The instruction only advances. -/
def OnlyAdvances (i : Instr) (s : State) : Prop := Completes i s fun t => ChangedNothing s t ∧ Advanced s t

/-- A branch, a jump or `eret` is refused in a delay slot (R233), and elsewhere `P` holds. -/
def OutsideSlot (i : Instr) (s : State) (P : Prop) : Prop :=
  (s.ds = true → exec i s = .refused .branchInDelaySlot) ∧ (s.ds = false → P)

/-- Coprocessor 1 unusable raises `CpU` with `CE = 1` (R380, R492), and else `P` holds. -/
def NeedsCp1 (i : Instr) (s : State) (P : Prop) : Prop :=
  (s.cu1 = false → Takes i s (.cpU 1#2)) ∧ (s.cu1 = true → P)

/-- Coprocessor 0 in user mode raises `CpU` with `CE = 0` (R491), and else `P` holds. -/
def NeedsKernel (i : Instr) (s : State) (P : Prop) : Prop :=
  (s.userMode = true → Takes i s (.cpU 0#2)) ∧ (s.userMode = false → P)

/-- An odd register named as a double is refused (R33), and with even ones `P` holds. -/
def NeedsEven (i : Instr) (s : State) (doubles : List FReg) (P : Prop) : Prop :=
  ((∃ r ∈ doubles, r.toNat % 2 = 1) → ∃ r ∈ doubles, exec i s = .refused (.oddDoubleRegister r)) ∧
  ((∀ r ∈ doubles, r.toNat % 2 = 0) → P)

/-! ### What an access needs -/

/-- The mode check passes (R67). -/
abbrev AllowedAddress (s : State) (a : Word) : Prop := s.userMode = true → a.toNat < 2 ^ 31

/-- Memory backs `n` bytes from `a` on (R61). -/
abbrev Backed (s : State) (a : Word) (n : Nat) : Prop := ∀ i < n, inRegions s.params (a.toNat + i) = true

/-- The access stops on a byte that no memory backs (R61), with a fault: DESIGN CHOICE (log entry 11). -/
def NoMemory (i : Instr) (s : State) : Prop :=
  ∃ m : Word, exec i s = .fault (.noMemoryAtAddress m) ∧ inRegions s.params m.toNat = false

/-- An access of `n` bytes at `a` (R64): misaligned or at an address that the mode forbids it raises `e`; else it stops
if memory does not back it; else `P` holds. -/
def Accesses (i : Instr) (s : State) (e : Exc) (a : Word) (n : Nat) (P : Prop) : Prop :=
  (¬ (a.toNat % n = 0 ∧ AllowedAddress s a) → Takes i s e) ∧
  (a.toNat % n = 0 ∧ AllowedAddress s a ∧ ¬ Backed s a n → NoMemory i s) ∧
  (a.toNat % n = 0 ∧ AllowedAddress s a ∧ Backed s a n → P)

/-- The addresses of `n` bytes from `a` on. -/
def bytesAt (a : Word) (n : Nat) : List Nat := (List.range n).map fun i => a.toNat + i

/-- The value of some bytes in address order: the first is the most significant if big-endian, the least if not (R62). -/
def bytesValue (bigEndian : Bool) (bytes : List Byte) : Nat :=
  (if bigEndian then bytes.reverse else bytes).foldr (fun b n => b.toNat + 256 * n) 0

/-- The value of `n` bytes of memory from an address on, in the byte order of the run (R62). -/
def State.memValue (s : State) (a : Word) (n : Nat) : Nat :=
  bytesValue s.params.bigEndian ((List.range n).map fun i => Memory.read s.mem (a.toNat + i))

/-- The byte at place `k` of the aligned word that holds an address (R317: `m0` to `m3`). -/
def State.alignedByte (s : State) (a : Word) (k : Nat) : Byte := Memory.read s.mem (a.toNat / 4 * 4 + k)

/-- The table of R317 for `lwl` (`left`) and `lwr`: the register after the load, from the bytes `m` of the aligned word
and the bytes `r` of the register, `r 3` the most significant. -/
def unalignedLoadTable (bigEndian left : Bool) (m r : Nat → Byte) (b : Nat) : Word :=
  match bigEndian, left, b with
  | true, true, 0 => m 0 ++ m 1 ++ m 2 ++ m 3
  | true, true, 1 => m 1 ++ m 2 ++ m 3 ++ r 0
  | true, true, 2 => m 2 ++ m 3 ++ r 1 ++ r 0
  | true, true, _ => m 3 ++ r 2 ++ r 1 ++ r 0
  | true, false, 0 => r 3 ++ r 2 ++ r 1 ++ m 0
  | true, false, 1 => r 3 ++ r 2 ++ m 0 ++ m 1
  | true, false, 2 => r 3 ++ m 0 ++ m 1 ++ m 2
  | true, false, _ => m 0 ++ m 1 ++ m 2 ++ m 3
  | false, true, 0 => m 0 ++ r 2 ++ r 1 ++ r 0
  | false, true, 1 => m 1 ++ m 0 ++ r 1 ++ r 0
  | false, true, 2 => m 2 ++ m 1 ++ m 0 ++ r 0
  | false, true, _ => m 3 ++ m 2 ++ m 1 ++ m 0
  | false, false, 0 => m 3 ++ m 2 ++ m 1 ++ m 0
  | false, false, 1 => r 3 ++ m 3 ++ m 2 ++ m 1
  | false, false, 2 => r 3 ++ r 2 ++ m 3 ++ m 2
  | false, false, _ => r 3 ++ r 2 ++ r 1 ++ m 3

/-- The table of R317 for `swl` (`left`) and `swr`: the bytes of the aligned word after the store, in address order. -/
def unalignedStoreTable (bigEndian left : Bool) (m r : Nat → Byte) (b : Nat) : List Byte :=
  match bigEndian, left, b with
  | true, true, 0 => [r 3, r 2, r 1, r 0]
  | true, true, 1 => [m 0, r 3, r 2, r 1]
  | true, true, 2 => [m 0, m 1, r 3, r 2]
  | true, true, _ => [m 0, m 1, m 2, r 3]
  | true, false, 0 => [r 0, m 1, m 2, m 3]
  | true, false, 1 => [r 1, r 0, m 2, m 3]
  | true, false, 2 => [r 2, r 1, r 0, m 3]
  | true, false, _ => [r 3, r 2, r 1, r 0]
  | false, true, 0 => [r 3, m 1, m 2, m 3]
  | false, true, 1 => [r 2, r 3, m 2, m 3]
  | false, true, 2 => [r 1, r 2, r 3, m 3]
  | false, true, _ => [r 0, r 1, r 2, r 3]
  | false, false, 0 => [r 0, r 1, r 2, r 3]
  | false, false, 1 => [m 0, r 0, r 1, r 2]
  | false, false, 2 => [m 0, m 1, r 0, r 1]
  | false, false, _ => [m 0, m 1, m 2, r 0]

/-- An unaligned access (R317): at an address that the mode forbids it raises `e`; else it stops if memory does not back
a byte that it touches; else `P` holds. -/
def AccessesUnaligned (i : Instr) (s : State) (e : Exc) (left : Bool) (a : Word) (P : Prop) : Prop :=
  (¬ AllowedAddress s a → Takes i s e) ∧
  (AllowedAddress s a ∧ ¬ (∀ x ∈ unalignedAddrs s.params.bigEndian left a, inRegions s.params x = true) →
    NoMemory i s) ∧
  (AllowedAddress s a ∧ (∀ x ∈ unalignedAddrs s.params.bigEndian left a, inRegions s.params x = true) → P)

/-- The instructions that need coprocessor 1 (R492): all of 46_float.md, the floating-point loads, stores and moves, and
the users of the condition flags. -/
def usesCp1 : Instr → Bool
  | .lwc1 _ _ _ | .ldc1 _ _ _ | .swc1 _ _ _ | .sdc1 _ _ _ | .mfc1 _ _ | .mtc1 _ _ | .bc1f _ _ | .bc1t _ _
  | .movf _ _ _ | .movt _ _ _ | .absD _ _ | .absS _ _ | .addD _ _ _ | .addS _ _ _ | .ceilWD _ _ | .ceilWS _ _
  | .cEqD _ _ _ | .cEqS _ _ _ | .cLeD _ _ _ | .cLeS _ _ _ | .cLtD _ _ _ | .cLtS _ _ _ | .cvtDS _ _ | .cvtDW _ _
  | .cvtSD _ _ | .cvtSW _ _ | .cvtWD _ _ | .cvtWS _ _ | .divD _ _ _ | .divS _ _ _ | .floorWD _ _ | .floorWS _ _
  | .movD _ _ | .movS _ _ | .movfD _ _ _ | .movfS _ _ _ | .movtD _ _ _ | .movtS _ _ _ | .movnD _ _ _ | .movnS _ _ _
  | .movzD _ _ _ | .movzS _ _ _ | .mulD _ _ _ | .mulS _ _ _ | .negD _ _ | .negS _ _ | .roundWD _ _ | .roundWS _ _
  | .sqrtD _ _ | .sqrtS _ _ | .subD _ _ _ | .subS _ _ _ | .truncWD _ _ | .truncWS _ _ => true
  | _ => false

/-- The branches and jumps (R230). -/
def isTransfer : Instr → Bool
  | .bc1f _ _ | .bc1t _ _ | .beq _ _ _ | .bgez _ _ | .bgezal _ _ | .bgtz _ _ | .blez _ _ | .bltzal _ _ | .bltz _ _
  | .bne _ _ _ | .j _ | .jal _ | .jalr _ _ | .jr _ => true
  | _ => false

/-! ### The invariant -/

/-- What holds of every state that a run from reset reaches, and what every step keeps: memory is canonical (R42), the
addresses stored to are listed in order and backed by memory (R61, R76), the bits of `Status` and `Cause` that read 0 are 0 (R37, R38),
`ExcCode` and `CE` are ones that entry writes (R461), slot 0 of the general registers is 0 (R21), outside a delay slot
the next instruction is at `pc + 4` (R25, R230), and a valid link is to an aligned address (R331). -/
structure Inv (s : State) : Prop where
  memory : Memory.wf s.mem
  storedSorted : s.stored.Pairwise (· < ·)
  storedBacked : ∀ a ∈ s.stored, inRegions s.params a = true
  status : s.status &&& statusUnimplemented = 0#32
  cause : s.cause &&& 0x4FFF0083#32 = 0#32
  excCode : s.excCode ∈ [0#5, 4#5, 5#5, 8#5, 9#5, 11#5, 12#5, 13#5]
  ce : s.ce = 0#2 ∨ s.ce = 1#2
  zero : s.gpr[0] = 0#32
  next : s.ds = false → s.npc = s.pc + 4#32
  link : s.llbit = true → s.lladdr.toNat % 4 = 0

/-- Two states that differ at most in what memory holds from 0x80000000 on, where user mode may not read (R67). -/
def AgreeInUserSpace (s t : State) : Prop :=
  t = { s with mem := t.mem } ∧ ∀ a < 2 ^ 31, Memory.read t.mem a = Memory.read s.mem a

/-- Two outcomes of the same kind: next states that agree in user space, or the same fault or refusal. -/
def SameOutcome : Result → Result → Prop
  | .next s, .next t => AgreeInUserSpace s t
  | .fault f, .fault g => f = g
  | .refused r, .refused q => r = q
  | _, _ => False

end Sys2Proof.Machine
end

