-- ==== Sys2Proof/Certificates/Slice0/Obligations.lean ====
section
/-! DEFINITION. The statements for the provers. An instruction's statement gives its encoding and what it answers in
every state: its effect with its frame, and where it raises, is refused or stops. -/

open Sys2Proof Sys2Proof.Machine

/-! ### Encoding (30_encoding.md) -/

/-- Decoding the word of a well-formed instruction gives the instruction back, with every operand at every value. -/
def Obligations.DecodeOfEncode : Prop := ∀ i : Instr, i.wf = true → decode (encode i) = .ok i

/-- A word that decodes is the word of the instruction it decodes to: no bit is dropped, and no two words decode to one
instruction. -/
def Obligations.EncodeOfDecode : Prop :=
  ∀ (w : Word) (i : Instr), decode w = .ok i → encode i = w ∧ i.wf = true

/-- Some words of spec/ written out and what they decode to (S2, S3, R145, R166, R240, R286, R316, R358, R394,
R413, R450, R452, 96_test_vectors_more.md section 2.9). -/
def Obligations.WordsOfTheSpec : Prop :=
  decode 0x01095020#32 = .ok (.add 10 8 9) ∧ decode 0x0109001B#32 = .ok (.divu 8 9) ∧
  decode 0x20830055#32 = .ok (.addi 3 4 0x55) ∧ decode 0x71090005#32 = .ok (.msubu 8 9) ∧
  decode 0x05110002#32 = .ok (.bgezal 8 2) ∧ decode 0x01090031#32 = .ok (.tgeu 8 9 0) ∧
  decode 0xD5020008#32 = .ok (.ldc1 2 8 8) ∧ decode 0x40886000#32 = .ok (.mtc0 8 12) ∧
  decode 0x4606233C#32 = .ok (.cLtS 3 4 6) ∧ decode 0x46292093#32 = .ok (.movnD 2 4 9) ∧
  decode 0x42000018#32 = .ok .eret ∧ decode 0x0000018D#32 = .ok (.brk 6) ∧
  decode 0x00000000#32 = .ok .nop ∧ decode 0x00200000#32 = .error (.noSuchInstruction 0x00200000#32)

/-- The branch-likely words are refused (R124). -/
def Obligations.BranchLikelyRefused : Prop :=
  ∀ w : Word,
    (w.extractLsb' 26 6 ∈ [0x14#6, 0x15#6, 0x16#6, 0x17#6] ∨
     (w.extractLsb' 26 6 = 0x01#6 ∧ w.extractLsb' 16 5 ∈ [0x02#5, 0x03#5, 0x12#5, 0x13#5]) ∨
     (w.extractLsb' 26 6 = 0x11#6 ∧ w.extractLsb' 21 5 = 0x08#5 ∧ w.getLsbD 17 = true)) →
    decode w = .error (.noSuchInstruction w)

/-- The operand constraints that are checked after a row has matched (R121): an instruction that breaks one is refused,
in a state where nothing that comes first applies (R472); a conditional move of a double also when it does not move, which
is the model's reading: log entry 14. -/
def Obligations.OperandConstraints : Prop :=
  ∀ (i : Instr) (s : State), i.operandsOk = false → s.ds = false → s.cu1 = true → s.userMode = false →
    ∃ r, exec i s = .refused r ∧
      (r = .cloClzRtField ∨ r = .jalrRdEqualsRs ∨ r = .linkBranchReadsRa ∨
       (∃ q, r = .cp0RegisterNotModelled q ∧ q ∉ [8#5, 12#5, 13#5, 14#5]) ∨
       (∃ q, r = .oddDoubleRegister q ∧ q.toNat % 2 = 1))

/-! ### Reset (10_state.md, 70_reset_and_hazards.md) -/

/-- The values that the spec gives the state after reset (R45, R520), for every reset address, argument and load image;
the registers to which it gives none are not spoken of. -/
def Obligations.ResetState : Prop :=
  (∀ (start : Word) (p : Params) (image : Memory),
    let s := State.boot start p image
    s.pc = start ∧ s.npc = start + 4#32 ∧ s.ds = false ∧ s.readGpr 0#5 = 0#32 ∧
    s.ie = false ∧ s.exl = false ∧ s.um = false ∧ s.im = 0#8 ∧ s.cu1 = false ∧ s.userMode = false ∧
    s.excCode = 0#5 ∧ s.bd = false ∧ s.ce = 0#2 ∧ s.cause.extractLsb' 8 2 = 0#2 ∧
    s.llbit = false ∧ s.mem = image ∧ s.stored = []) ∧
  ∃ p, State.reset = State.boot 0xBFC00000#32 p []

/-- The invariant holds right after reset; of the values that log entries 1 to 4 choose it needs that memory is canonical,
that the registers' slot 0 is 0 and that `Cause` is 0. -/
def Obligations.InvariantAtReset : Prop := Inv State.reset

/-! ### The machine (60_exceptions.md) -/

/-- Every step keeps the invariant, from every state that has it: the canonical memory and the constant slot 0 are the
model's form (log entry 2), the rest is of the rules that `Inv` names. -/
def Obligations.InvariantKept : Prop := ∀ s t : State, Inv s → step s = .next t → Inv t

/-- No step changes the arguments of the run: the byte order cannot be changed by software (R62). -/
def Obligations.ParametersKept : Prop := ∀ s t : State, step s = .next t → t.params = s.params

/-- A step samples the interrupt lines into `Cause.IP7:2` and leaves all else (that the lines are a list of samples, none
asserted once it is used up, is the model's choice: log entry 7); then, when no interrupt is pending and the
fetch address is good, it runs the instruction that the four bytes at `pc` decode to (R473). -/
def Obligations.StepRunsDecoded : Prop :=
  ∀ s : State,
    ((sampleIrq s).cause.extractLsb' 10 6 = s.irqInput.headD 0#6 ∧
     (∀ j, j < 10 ∨ 16 ≤ j → (sampleIrq s).cause.getLsbD j = s.cause.getLsbD j) ∧
     sampleIrq s = { s with cause := (sampleIrq s).cause, irqInput := s.irqInput.tail }) ∧
    ∀ i : Instr,
      interruptPending (sampleIrq s) = false →
      s.pc.toNat % 4 = 0 → AllowedAddress s s.pc → Backed s s.pc 4 →
      (∀ k < 4, s.pc.toNat + k ∉ s.stored) →
      decodeBytes s.params.bigEndian ((bytesAt s.pc 4).map (Memory.read s.mem)) = .ok i →
      step s = exec i (sampleIrq s)

/-- An enabled interrupt is taken before the fetch (R475). -/
def Obligations.InterruptTaken : Prop :=
  ∀ s : State, s.ie = true → s.exl = false →
    (∃ k < 8, (sampleIrq s).cause.getLsbD (8 + k) = true ∧ s.status.getLsbD (8 + k) = true) →
    step s = .next (enterException .int (sampleIrq s))

/-- With `IE = 0`, with `EXL = 1`, or when the mask bit of every request is 0, no interrupt is pending (R475, R477). -/
def Obligations.InterruptMasked : Prop :=
  ∀ s : State,
    (s.ie = false ∨ s.exl = true ∨
      ∀ k < 8, ¬ ((sampleIrq s).cause.getLsbD (8 + k) = true ∧ s.status.getLsbD (8 + k) = true)) →
    interruptPending (sampleIrq s) = false

/-- A misaligned `pc`, or a kernel address in user mode, raises `AdEL` at the fetch with `BadVAddr = pc`, `EPC = pc` and
`BD = 0`, in a delay slot too (R66, R462). That `EPC` and `BD` stay with `EXL = 1` (R481) is log entry 9. -/
def Obligations.FetchAddressError : Prop :=
  ∀ s : State, interruptPending (sampleIrq s) = false → ¬ (s.pc.toNat % 4 = 0 ∧ AllowedAddress s s.pc) →
    ∃ t, step s = .next t ∧ t = enterException (.adEL s.pc) { sampleIrq s with ds := false } ∧
      t.badVAddr = s.pc ∧ t.excCode = 4#5 ∧ t.pc = 0x80000180#32 ∧
      (s.exl = false → t.epc = s.pc ∧ t.bd = false) ∧ (s.exl = true → t.epc = s.epc ∧ t.bd = s.bd)

/-- The stops of the fetch, in their order: no memory (R61; that it is a fault, and which byte it names, is the model's
choice: log entry 11), a word that a store has written (R66, R76), a word that is
no instruction (R123). -/
def Obligations.FetchStops : Prop :=
  ∀ s : State, interruptPending (sampleIrq s) = false → s.pc.toNat % 4 = 0 → AllowedAddress s s.pc →
    (¬ Backed s s.pc 4 →
      ∃ m : Word, step s = .fault (.noMemoryAtAddress m) ∧ inRegions s.params m.toNat = false) ∧
    (Backed s s.pc 4 → (∃ k < 4, s.pc.toNat + k ∈ s.stored) → step s = .refused (.fetchOfStoredCode s.pc)) ∧
    (Backed s s.pc 4 → (∀ k < 4, s.pc.toNat + k ∉ s.stored) →
      ∀ w, decodeBytes s.params.bigEndian ((bytesAt s.pc 4).map (Memory.read s.mem)) =
          .error (.noSuchInstruction w) →
        step s = .refused (.noSuchInstruction w))

/-- Exception entry (R470, R481), for every exception in every state: what it saves, what it leaves, and where it goes. -/
def Obligations.ExceptionEntry : Prop :=
  ∀ (e : Exc) (s : State),
    let t := enterException e s
    (s.exl = false → t.epc = (if s.ds then s.pc - 4#32 else s.pc) ∧ t.bd = s.ds) ∧
    (s.exl = true → t.epc = s.epc ∧ t.bd = s.bd) ∧
    t.excCode = (match e with
      | .int => 0#5 | .adEL _ => 4#5 | .adES _ => 5#5 | .sys => 8#5 | .bp => 9#5 | .cpU _ => 11#5 | .ov => 12#5
      | .tr => 13#5) ∧
    t.badVAddr = (match e with
      | .adEL a => a | .adES a => a | .int => s.badVAddr | .sys => s.badVAddr | .bp => s.badVAddr
      | .cpU _ => s.badVAddr | .ov => s.badVAddr | .tr => s.badVAddr) ∧
    t.ce = (match e with
      | .cpU n => n | .int => s.ce | .adEL _ => s.ce | .adES _ => s.ce | .sys => s.ce | .bp => s.ce | .ov => s.ce
      | .tr => s.ce) ∧
    t.ip = s.ip ∧ t.exl = true ∧ (∀ j, j ≠ 1 → t.status.getLsbD j = s.status.getLsbD j) ∧
    t.llbit = false ∧ t.lladdr = s.lladdr ∧ t.pc = 0x80000180#32 ∧ t.npc = 0x80000184#32 ∧ t.ds = false ∧
    ChangesOnly [.cp0, .link] s t

/-- `eret` (R450): refused in a delay slot, `CpU` in user mode, else `EXL` and `llbit` cleared and control at `EPC`, in
the mode that `UM` gives; an enabled interrupt comes before the instruction there, and a misaligned `EPC` raises `AdEL` at
its fetch. -/
def Obligations.ExceptionReturn : Prop :=
  encode .eret = 0x42000018#32 ∧
  ∀ s : State,
    OutsideSlot .eret s (NeedsKernel .eret s (Completes .eret s fun t =>
      t.exl = false ∧ (∀ j, j ≠ 1 → t.status.getLsbD j = s.status.getLsbD j) ∧ t.llbit = false ∧
      t.pc = s.epc ∧ t.npc = s.epc + 4#32 ∧ t.ds = false ∧
      t.cause = s.cause ∧ t.epc = s.epc ∧ t.badVAddr = s.badVAddr ∧ t.lladdr = s.lladdr ∧
      ChangesOnly [.cp0, .link] s t ∧ t.userMode = s.um ∧
      (interruptPending (sampleIrq t) = true → step t = .next (enterException .int (sampleIrq t))) ∧
      (interruptPending (sampleIrq t) = false → s.epc.toNat % 4 ≠ 0 →
        step t = .next (enterException (.adEL s.epc) (sampleIrq t)))))

/-- An exception taken with `EXL = 0` and then an `eret` come back to the instruction, or to the branch before it, in the
mode that it left (R470, R480). -/
def Obligations.EntryThenReturn : Prop :=
  ∀ (e : Exc) (s : State), s.exl = false →
    Completes .eret (enterException e s) fun t =>
      t.pc = (if s.ds then s.pc - 4#32 else s.pc) ∧ t.status = s.status ∧ t.userMode = s.userMode ∧ t.ds = false

/-- `syscall` and `break` take their exceptions in every mode, whatever their code (R451, R452). -/
def Obligations.SystemCallAndBreak : Prop :=
  ∀ (s : State) (code : BitVec 20),
    (encode (.syscall code) = 0x00#6 ++ code ++ 0x0c#6 ∧ Takes (.syscall code) s .sys) ∧
    (encode (.brk code) = 0x00#6 ++ code ++ 0x0d#6 ∧ Takes (.brk code) s .bp)

/-- `nop` only advances; its word is that of `sll $0, $0, 0`, which behaves the same (R453). -/
def Obligations.NopOnlyAdvances : Prop :=
  encode .nop = 0x00000000#32 ∧ encode (.sll 0#5 0#5 0#5) = 0x00000000#32 ∧ decode 0x00000000#32 = .ok .nop ∧
  ∀ s : State, OnlyAdvances .nop s ∧ exec (.sll 0#5 0#5 0#5) s = exec .nop s

/-! ### Arithmetic, logic, constants and comparisons (40_arith_logic.md, 41_const_compare.md) -/

/-- The three-register instructions that raise nothing (R144, R147, R169, R171, R184, R185, R202, R203). -/
def Obligations.ThreeRegister : Prop :=
  ∀ (s : State) (rd rs rt : Reg),
    let a := s.readGpr rs
    let b := s.readGpr rt
    (encode (.addu rd rs rt) = 0x00#6 ++ rs ++ rt ++ rd ++ 0#5 ++ 0x21#6 ∧
      SetsGpr (.addu rd rs rt) s rd fun v => v.toNat = (a.toNat + b.toNat) % 2 ^ 32) ∧
    (encode (.subu rd rs rt) = 0x00#6 ++ rs ++ rt ++ rd ++ 0#5 ++ 0x23#6 ∧
      SetsGpr (.subu rd rs rt) s rd fun v => (v.toNat + b.toNat) % 2 ^ 32 = a.toNat) ∧
    (encode (.and rd rs rt) = 0x00#6 ++ rs ++ rt ++ rd ++ 0#5 ++ 0x24#6 ∧
      SetsGpr (.and rd rs rt) s rd fun v => ∀ j, v.getLsbD j = (a.getLsbD j && b.getLsbD j)) ∧
    (encode (.or rd rs rt) = 0x00#6 ++ rs ++ rt ++ rd ++ 0#5 ++ 0x25#6 ∧
      SetsGpr (.or rd rs rt) s rd fun v => ∀ j, v.getLsbD j = (a.getLsbD j || b.getLsbD j)) ∧
    (encode (.xor rd rs rt) = 0x00#6 ++ rs ++ rt ++ rd ++ 0#5 ++ 0x26#6 ∧
      SetsGpr (.xor rd rs rt) s rd fun v => ∀ j, v.getLsbD j = (a.getLsbD j != b.getLsbD j)) ∧
    (encode (.nor rd rs rt) = 0x00#6 ++ rs ++ rt ++ rd ++ 0#5 ++ 0x27#6 ∧
      SetsGpr (.nor rd rs rt) s rd fun v => ∀ j < 32, v.getLsbD j = !(a.getLsbD j || b.getLsbD j)) ∧
    (encode (.slt rd rs rt) = 0x00#6 ++ rs ++ rt ++ rd ++ 0#5 ++ 0x2a#6 ∧
      SetsGpr (.slt rd rs rt) s rd fun v => v = if a.toInt < b.toInt then 1#32 else 0#32) ∧
    (encode (.sltu rd rs rt) = 0x00#6 ++ rs ++ rt ++ rd ++ 0#5 ++ 0x2b#6 ∧
      SetsGpr (.sltu rd rs rt) s rd fun v => v = if a.toNat < b.toNat then 1#32 else 0#32)

/-- The immediate instructions that raise nothing (R146, R148, R172, R186, R200, R204, R205): which immediates are
sign-extended and which zero-extended. -/
def Obligations.Immediate : Prop :=
  ∀ (s : State) (rt rs : Reg) (imm : Half),
    let a := s.readGpr rs
    (encode (.addiu rt rs imm) = 0x09#6 ++ rs ++ rt ++ imm ∧
      SetsGpr (.addiu rt rs imm) s rt fun v => v = BitVec.ofInt 32 (a.toInt + imm.toInt)) ∧
    (encode (.andi rt rs imm) = 0x0c#6 ++ rs ++ rt ++ imm ∧
      SetsGpr (.andi rt rs imm) s rt fun v => ∀ j, v.getLsbD j = (a.getLsbD j && imm.getLsbD j)) ∧
    (encode (.ori rt rs imm) = 0x0d#6 ++ rs ++ rt ++ imm ∧
      SetsGpr (.ori rt rs imm) s rt fun v => ∀ j, v.getLsbD j = (a.getLsbD j || imm.getLsbD j)) ∧
    (encode (.xori rt rs imm) = 0x0e#6 ++ rs ++ rt ++ imm ∧
      SetsGpr (.xori rt rs imm) s rt fun v => ∀ j, v.getLsbD j = (a.getLsbD j != imm.getLsbD j)) ∧
    (encode (.lui rt imm) = 0x0f#6 ++ 0#5 ++ rt ++ imm ∧
      SetsGpr (.lui rt imm) s rt fun v => v.toNat = imm.toNat * 2 ^ 16) ∧
    (encode (.slti rt rs imm) = 0x0a#6 ++ rs ++ rt ++ imm ∧
      SetsGpr (.slti rt rs imm) s rt fun v => v = if a.toInt < imm.toInt then 1#32 else 0#32) ∧
    (encode (.sltiu rt rs imm) = 0x0b#6 ++ rs ++ rt ++ imm ∧
      SetsGpr (.sltiu rt rs imm) s rt fun v => v = if (a.toNat : Int) < imm.toInt % 2 ^ 32 then 1#32 else 0#32)

/-- The shifts (R175 to R180): zeros enter on the left and the right, copies of the sign bit for the arithmetic ones, and
a variable distance is the low 5 bits of the register. -/
def Obligations.Shifts : Prop :=
  ∀ (s : State) (rd rt rs : Reg) (shamt : BitVec 5),
    let b := s.readGpr rt
    let n := (s.readGpr rs).toNat % 32
    (encode (.sll rd rt shamt) = 0x00#6 ++ 0#5 ++ rt ++ rd ++ shamt ++ 0x00#6 ∧
      SetsGpr (.sll rd rt shamt) s rd fun v => v.toNat = b.toNat * 2 ^ shamt.toNat % 2 ^ 32) ∧
    (encode (.srl rd rt shamt) = 0x00#6 ++ 0#5 ++ rt ++ rd ++ shamt ++ 0x02#6 ∧
      SetsGpr (.srl rd rt shamt) s rd fun v => v.toNat = b.toNat / 2 ^ shamt.toNat) ∧
    (encode (.sra rd rt shamt) = 0x00#6 ++ 0#5 ++ rt ++ rd ++ shamt ++ 0x03#6 ∧
      SetsGpr (.sra rd rt shamt) s rd fun v => v.toInt = b.toInt / 2 ^ shamt.toNat) ∧
    (encode (.sllv rd rt rs) = 0x00#6 ++ rs ++ rt ++ rd ++ 0#5 ++ 0x04#6 ∧
      SetsGpr (.sllv rd rt rs) s rd fun v => v.toNat = b.toNat * 2 ^ n % 2 ^ 32) ∧
    (encode (.srlv rd rt rs) = 0x00#6 ++ rs ++ rt ++ rd ++ 0#5 ++ 0x06#6 ∧
      SetsGpr (.srlv rd rt rs) s rd fun v => v.toNat = b.toNat / 2 ^ n) ∧
    (encode (.srav rd rt rs) = 0x00#6 ++ rs ++ rt ++ rd ++ 0#5 ++ 0x07#6 ∧
      SetsGpr (.srav rd rt rs) s rd fun v => v.toInt = b.toInt / 2 ^ n)

/-- `add`, `addi` and `sub` (R143, R145, R183): the exact sum or difference when it fits 32 signed bits, else `Ov`, also
when the destination is register 0. -/
def Obligations.OverflowArithmetic : Prop :=
  ∀ (s : State) (rd rs rt : Reg) (imm : Half),
    let fits := fun n : Int => -2 ^ 31 ≤ n ∧ n ≤ 2 ^ 31 - 1
    let sum := (s.readGpr rs).toInt + (s.readGpr rt).toInt
    let sumImm := (s.readGpr rs).toInt + imm.toInt
    let difference := (s.readGpr rs).toInt - (s.readGpr rt).toInt
    (encode (.add rd rs rt) = 0x00#6 ++ rs ++ rt ++ rd ++ 0#5 ++ 0x20#6 ∧
      (fits sum → SetsGpr (.add rd rs rt) s rd fun v => v.toInt = sum) ∧
      (¬ fits sum → Takes (.add rd rs rt) s .ov)) ∧
    (encode (.addi rt rs imm) = 0x08#6 ++ rs ++ rt ++ imm ∧
      (fits sumImm → SetsGpr (.addi rt rs imm) s rt fun v => v.toInt = sumImm) ∧
      (¬ fits sumImm → Takes (.addi rt rs imm) s .ov)) ∧
    (encode (.sub rd rs rt) = 0x00#6 ++ rs ++ rt ++ rd ++ 0#5 ++ 0x22#6 ∧
      (fits difference → SetsGpr (.sub rd rs rt) s rd fun v => v.toInt = difference) ∧
      (¬ fits difference → Takes (.sub rd rs rt) s .ov))

/-- `clo` and `clz` (R149, R150): the number of leading ones or zeros; an `rt` field that is neither `rd` nor 0 is
refused. -/
def Obligations.LeadingCounts : Prop :=
  ∀ (s : State) (rd rs rt : Reg),
    let leading := fun (bit : Bool) (v : Word) => v.toNat ≤ 32 ∧
      (∀ j < v.toNat, (s.readGpr rs).getLsbD (31 - j) = bit) ∧
      (v.toNat < 32 → (s.readGpr rs).getLsbD (31 - v.toNat) = !bit)
    (encode (.clo rd rs rt) = 0x1c#6 ++ rs ++ rt ++ rd ++ 0#5 ++ 0x21#6 ∧
      (rt = rd ∨ rt = 0#5 → SetsGpr (.clo rd rs rt) s rd (leading true)) ∧
      (¬ (rt = rd ∨ rt = 0#5) → exec (.clo rd rs rt) s = .refused .cloClzRtField)) ∧
    (encode (.clz rd rs rt) = 0x1c#6 ++ rs ++ rt ++ rd ++ 0#5 ++ 0x20#6 ∧
      (rt = rd ∨ rt = 0#5 → SetsGpr (.clz rd rs rt) s rd (leading false)) ∧
      (¬ (rt = rd ∨ rt = 0#5) → exec (.clz rd rs rt) s = .refused .cloClzRtField))

/-! ### Multiplication and division (40_arith_logic.md) -/

/-- `mult` and `multu` (R156, R157): the exact 64-bit product, `hi` the most significant half. -/
def Obligations.Multiply : Prop :=
  ∀ (s : State) (rs rt : Reg),
    let a := s.readGpr rs
    let b := s.readGpr rt
    (encode (.mult rs rt) = 0x00#6 ++ rs ++ rt ++ 0#5 ++ 0#5 ++ 0x18#6 ∧
      SetsHiLo (.mult rs rt) s fun hi lo => hi.toInt * 2 ^ 32 + lo.toNat = a.toInt * b.toInt) ∧
    (encode (.multu rs rt) = 0x00#6 ++ rs ++ rt ++ 0#5 ++ 0#5 ++ 0x19#6 ∧
      SetsHiLo (.multu rs rt) s fun hi lo => hi.toNat * 2 ^ 32 + lo.toNat = a.toNat * b.toNat)

/-- `madd`, `maddu`, `msub` and `msubu` (R163 to R166): the accumulator `hi ++ lo` plus or minus the product, modulo
2^64. -/
def Obligations.MultiplyAccumulate : Prop :=
  ∀ (s : State) (rs rt : Reg),
    let a := s.readGpr rs
    let b := s.readGpr rt
    let pair := fun hi lo : Word => (hi.toNat : Int) * 2 ^ 32 + lo.toNat
    let acc := pair s.hi s.lo
    (encode (.madd rs rt) = 0x1c#6 ++ rs ++ rt ++ 0#5 ++ 0#5 ++ 0x00#6 ∧
      SetsHiLo (.madd rs rt) s fun hi lo => pair hi lo = (acc + a.toInt * b.toInt) % 2 ^ 64) ∧
    (encode (.maddu rs rt) = 0x1c#6 ++ rs ++ rt ++ 0#5 ++ 0#5 ++ 0x01#6 ∧
      SetsHiLo (.maddu rs rt) s fun hi lo => pair hi lo = (acc + a.toNat * b.toNat) % 2 ^ 64) ∧
    (encode (.msub rs rt) = 0x1c#6 ++ rs ++ rt ++ 0#5 ++ 0#5 ++ 0x04#6 ∧
      SetsHiLo (.msub rs rt) s fun hi lo => pair hi lo = (acc - a.toInt * b.toInt) % 2 ^ 64) ∧
    (encode (.msubu rs rt) = 0x1c#6 ++ rs ++ rt ++ 0#5 ++ 0#5 ++ 0x05#6 ∧
      SetsHiLo (.msubu rs rt) s fun hi lo => pair hi lo = (acc - a.toNat * b.toNat) % 2 ^ 64)

/-- `mul` (R160): the low 32 bits of the product; of `hi` and `lo`, which become unspecified, nothing is said. -/
def Obligations.MultiplyLow : Prop :=
  ∀ (s : State) (rd rs rt : Reg),
    encode (.mul rd rs rt) = 0x1c#6 ++ rs ++ rt ++ rd ++ 0#5 ++ 0x02#6 ∧
    Completes (.mul rd rs rt) s fun t =>
      (∀ r : Reg, t.readGpr r = if r = 0#5 then 0#32
        else if r = rd then BitVec.ofNat 32 ((s.readGpr rs).toNat * (s.readGpr rt).toNat) else s.readGpr r) ∧
      ChangesOnly [.gpr, .hiLo] s t ∧ Advanced s t

/-- `div` and `divu` (R151, R152, R153): quotient in `lo` and remainder in `hi`; with a negative operand the pair that
`SDIV_NEG` gives, truncated in the recommended instance; with divisor 0 nothing is said of `hi` and `lo`; no exception. -/
def Obligations.Division : Prop :=
  ∀ (s : State) (rs rt : Reg),
    let a := s.readGpr rs
    let b := s.readGpr rt
    let exact := fun hi lo : Word => a.toNat = lo.toNat * b.toNat + hi.toNat ∧ hi.toNat < b.toNat
    (encode (.divu rs rt) = 0x00#6 ++ rs ++ rt ++ 0#5 ++ 0#5 ++ 0x1b#6 ∧
      (b ≠ 0#32 → SetsHiLo (.divu rs rt) s exact) ∧
      (b = 0#32 → SetsHiLo (.divu rs rt) s fun _ _ => True)) ∧
    (encode (.div rs rt) = 0x00#6 ++ rs ++ rt ++ 0#5 ++ 0#5 ++ 0x1a#6 ∧
      (0 ≤ a.toInt → 0 < b.toInt → SetsHiLo (.div rs rt) s exact) ∧
      (b ≠ 0#32 → a.toInt < 0 ∨ b.toInt < 0 → SetsHiLo (.div rs rt) s fun hi lo =>
        lo * b + hi = a ∧
        (s.params.sdivNeg = .recommended →
          lo = BitVec.ofInt 32 (a.toInt.tdiv b.toInt) ∧
          hi = BitVec.ofInt 32 (a.toInt - a.toInt.tdiv b.toInt * b.toInt))) ∧
      (b = 0#32 → SetsHiLo (.div rs rt) s fun _ _ => True))

/-! ### Branches and jumps (42_branch_jump.md) -/

/-- The conditional branches on general registers (R238, R239, R241, R242, R244, R245), with the target of R231. -/
def Obligations.ConditionalBranches : Prop :=
  ∀ (s : State) (rs rt : Reg) (imm : Half),
    let a := s.readGpr rs
    let b := s.readGpr rt
    let target := BitVec.ofInt 32 (s.pc.toNat + 4 + 4 * imm.toInt)
    let branches := fun (i : Instr) (c : Prop) => OutsideSlot i s
      ((c → Completes i s fun t => BranchedTo target s t ∧ ChangedNothing s t) ∧
       (¬ c → Completes i s fun t => FellThrough s t ∧ ChangedNothing s t))
    (encode (.beq rs rt imm) = 0x04#6 ++ rs ++ rt ++ imm ∧ branches (.beq rs rt imm) (a = b)) ∧
    (encode (.bne rs rt imm) = 0x05#6 ++ rs ++ rt ++ imm ∧ branches (.bne rs rt imm) (a ≠ b)) ∧
    (encode (.bgez rs imm) = 0x01#6 ++ rs ++ 0x01#5 ++ imm ∧ branches (.bgez rs imm) (0 ≤ a.toInt)) ∧
    (encode (.bgtz rs imm) = 0x07#6 ++ rs ++ 0x00#5 ++ imm ∧ branches (.bgtz rs imm) (0 < a.toInt)) ∧
    (encode (.blez rs imm) = 0x06#6 ++ rs ++ 0x00#5 ++ imm ∧ branches (.blez rs imm) (a.toInt ≤ 0)) ∧
    (encode (.bltz rs imm) = 0x01#6 ++ rs ++ 0x00#5 ++ imm ∧ branches (.bltz rs imm) (a.toInt < 0))

/-- `bc1f` and `bc1t` (R236, R237): refused in a delay slot, then `CpU`, then a branch on the flag. -/
def Obligations.FlagBranches : Prop :=
  ∀ (s : State) (cc : CC) (imm : Half),
    let target := BitVec.ofInt 32 (s.pc.toNat + 4 + 4 * imm.toInt)
    let branches := fun (i : Instr) (c : Prop) => OutsideSlot i s (NeedsCp1 i s
      ((c → Completes i s fun t => BranchedTo target s t ∧ ChangedNothing s t) ∧
       (¬ c → Completes i s fun t => FellThrough s t ∧ ChangedNothing s t)))
    (encode (.bc1f cc imm) = 0x11#6 ++ 0x08#5 ++ (cc ++ 0#1 ++ 0#1) ++ imm ∧
      branches (.bc1f cc imm) (s.readFcc cc = false)) ∧
    (encode (.bc1t cc imm) = 0x11#6 ++ 0x08#5 ++ (cc ++ 0#1 ++ 1#1) ++ imm ∧
      branches (.bc1t cc imm) (s.readFcc cc = true))

/-- `bgezal` and `bltzal` (R240, R243): the link goes to register 31 taken or not, and `rs = 31` is refused. -/
def Obligations.LinkBranches : Prop :=
  ∀ (s : State) (rs : Reg) (imm : Half),
    let a := s.readGpr rs
    let target := BitVec.ofInt 32 (s.pc.toNat + 4 + 4 * imm.toInt)
    let branches := fun (i : Instr) (c : Prop) => OutsideSlot i s
      ((rs = 31#5 → exec i s = .refused .linkBranchReadsRa) ∧
       (rs ≠ 31#5 → c → Completes i s fun t => BranchedTo target s t ∧ WroteGpr 31#5 (s.pc + 8#32) s t) ∧
       (rs ≠ 31#5 → ¬ c → Completes i s fun t => FellThrough s t ∧ WroteGpr 31#5 (s.pc + 8#32) s t))
    (encode (.bgezal rs imm) = 0x01#6 ++ rs ++ 0x11#5 ++ imm ∧ branches (.bgezal rs imm) (0 ≤ a.toInt)) ∧
    (encode (.bltzal rs imm) = 0x01#6 ++ rs ++ 0x10#5 ++ imm ∧ branches (.bltzal rs imm) (a.toInt < 0))

/-- The jumps (R256 to R259), with the target of R232 for `j` and `jal`; `jalr` with `rd = rs` is refused, and `rd = 0`
discards the link. -/
def Obligations.Jumps : Prop :=
  ∀ (s : State) (rs rd : Reg) (target : BitVec 26),
    let inRegion := BitVec.ofNat 32 ((s.pc + 4#32).toNat / 2 ^ 28 * 2 ^ 28 + 4 * target.toNat)
    (encode (.j target) = 0x02#6 ++ target ∧ OutsideSlot (.j target) s
      (Completes (.j target) s fun t => BranchedTo inRegion s t ∧ ChangedNothing s t)) ∧
    (encode (.jal target) = 0x03#6 ++ target ∧ OutsideSlot (.jal target) s
      (Completes (.jal target) s fun t => BranchedTo inRegion s t ∧ WroteGpr 31#5 (s.pc + 8#32) s t)) ∧
    (encode (.jr rs) = 0x00#6 ++ rs ++ 0#5 ++ 0#5 ++ 0#5 ++ 0x08#6 ∧ OutsideSlot (.jr rs) s
      (Completes (.jr rs) s fun t => BranchedTo (s.readGpr rs) s t ∧ ChangedNothing s t)) ∧
    (encode (.jalr rs rd) = 0x00#6 ++ rs ++ 0#5 ++ rd ++ 0#5 ++ 0x09#6 ∧ OutsideSlot (.jalr rs rd) s
      ((rd = rs → exec (.jalr rs rd) s = .refused .jalrRdEqualsRs) ∧
       (rd ≠ rs → Completes (.jalr rs rd) s fun t =>
         BranchedTo (s.readGpr rs) s t ∧ WroteGpr rd (s.pc + 8#32) s t)))

/-! ### Traps (43_trap.md) -/

/-- The register traps (R281, R283, R285, R286, R289, R290): `Tr` when the condition holds, else only `advance`. -/
def Obligations.RegisterTraps : Prop :=
  ∀ (s : State) (rs rt : Reg) (code : BitVec 10),
    let a := s.readGpr rs
    let b := s.readGpr rt
    let traps := fun (i : Instr) (c : Prop) => (c → Takes i s .tr) ∧ (¬ c → OnlyAdvances i s)
    (encode (.teq rs rt code) = 0x00#6 ++ rs ++ rt ++ code ++ 0x34#6 ∧ traps (.teq rs rt code) (a = b)) ∧
    (encode (.tne rs rt code) = 0x00#6 ++ rs ++ rt ++ code ++ 0x36#6 ∧ traps (.tne rs rt code) (a ≠ b)) ∧
    (encode (.tge rs rt code) = 0x00#6 ++ rs ++ rt ++ code ++ 0x30#6 ∧
      traps (.tge rs rt code) (a.toInt ≥ b.toInt)) ∧
    (encode (.tgeu rs rt code) = 0x00#6 ++ rs ++ rt ++ code ++ 0x31#6 ∧
      traps (.tgeu rs rt code) (a.toNat ≥ b.toNat)) ∧
    (encode (.tlt rs rt code) = 0x00#6 ++ rs ++ rt ++ code ++ 0x32#6 ∧
      traps (.tlt rs rt code) (a.toInt < b.toInt)) ∧
    (encode (.tltu rs rt code) = 0x00#6 ++ rs ++ rt ++ code ++ 0x33#6 ∧
      traps (.tltu rs rt code) (a.toNat < b.toNat))

/-- The immediate traps (R282, R284, R287, R288, R291, R292): the immediate is sign-extended, for the two unsigned ones
too, which then compare without sign. -/
def Obligations.ImmediateTraps : Prop :=
  ∀ (s : State) (rs : Reg) (imm : Half),
    let a := s.readGpr rs
    let traps := fun (i : Instr) (c : Prop) => (c → Takes i s .tr) ∧ (¬ c → OnlyAdvances i s)
    (encode (.teqi rs imm) = 0x01#6 ++ rs ++ 0x0c#5 ++ imm ∧ traps (.teqi rs imm) (a.toInt = imm.toInt)) ∧
    (encode (.tnei rs imm) = 0x01#6 ++ rs ++ 0x0e#5 ++ imm ∧ traps (.tnei rs imm) (a.toInt ≠ imm.toInt)) ∧
    (encode (.tgei rs imm) = 0x01#6 ++ rs ++ 0x08#5 ++ imm ∧ traps (.tgei rs imm) (a.toInt ≥ imm.toInt)) ∧
    (encode (.tgeiu rs imm) = 0x01#6 ++ rs ++ 0x09#5 ++ imm ∧
      traps (.tgeiu rs imm) ((a.toNat : Int) ≥ imm.toInt % 2 ^ 32)) ∧
    (encode (.tlti rs imm) = 0x01#6 ++ rs ++ 0x0a#5 ++ imm ∧ traps (.tlti rs imm) (a.toInt < imm.toInt)) ∧
    (encode (.tltiu rs imm) = 0x01#6 ++ rs ++ 0x0b#5 ++ imm ∧
      traps (.tltiu rs imm) ((a.toNat : Int) < imm.toInt % 2 ^ 32))

/-! ### Loads and stores (44_load_store.md, 20_memory.md) -/

/-- The loads to a general register (R303 to R307, R331): the bytes of memory in the byte order of the run, extended as
the instruction says; `ll` also links. Misaligned or forbidden addresses raise `AdEL`, and the register is not written
(R64, R65, R67); where no memory backs the bytes (R61) the model stops with a fault, its own choice: log entry 11. -/
def Obligations.Loads : Prop :=
  ∀ (s : State) (rt rs : Reg) (imm : Half),
    let a := s.readGpr rs + imm.signExtend 32
    let signed := fun (bits n : Nat) => if n < 2 ^ (bits - 1) then (n : Int) else n - 2 ^ bits
    (encode (.lb rt rs imm) = 0x20#6 ++ rs ++ rt ++ imm ∧ Accesses (.lb rt rs imm) s (.adEL a) a 1
      (SetsGpr (.lb rt rs imm) s rt fun v => v.toInt = signed 8 (s.memValue a 1))) ∧
    (encode (.lbu rt rs imm) = 0x24#6 ++ rs ++ rt ++ imm ∧ Accesses (.lbu rt rs imm) s (.adEL a) a 1
      (SetsGpr (.lbu rt rs imm) s rt fun v => v.toNat = s.memValue a 1)) ∧
    (encode (.lh rt rs imm) = 0x21#6 ++ rs ++ rt ++ imm ∧ Accesses (.lh rt rs imm) s (.adEL a) a 2
      (SetsGpr (.lh rt rs imm) s rt fun v => v.toInt = signed 16 (s.memValue a 2))) ∧
    (encode (.lhu rt rs imm) = 0x25#6 ++ rs ++ rt ++ imm ∧ Accesses (.lhu rt rs imm) s (.adEL a) a 2
      (SetsGpr (.lhu rt rs imm) s rt fun v => v.toNat = s.memValue a 2)) ∧
    (encode (.lw rt rs imm) = 0x23#6 ++ rs ++ rt ++ imm ∧ Accesses (.lw rt rs imm) s (.adEL a) a 4
      (SetsGpr (.lw rt rs imm) s rt fun v => v.toNat = s.memValue a 4)) ∧
    (encode (.ll rt rs imm) = 0x30#6 ++ rs ++ rt ++ imm ∧ Accesses (.ll rt rs imm) s (.adEL a) a 4
      (Completes (.ll rt rs imm) s fun t =>
        (∀ r : Reg, t.readGpr r = if r = 0#5 then 0#32
          else if r = rt then BitVec.ofNat 32 (s.memValue a 4) else s.readGpr r) ∧
        t.llbit = true ∧ t.lladdr = a ∧ ChangesOnly [.gpr, .link] s t ∧ Advanced s t))

/-- `lwl` and `lwr` (R309, R310): the register after the load is the one of the tables of R317, and nothing is raised for
alignment. Where no memory backs the bytes (R61) the model stops with a fault, its own choice: log entry 11. -/
def Obligations.UnalignedLoads : Prop :=
  ∀ (s : State) (rt rs : Reg) (imm : Half),
    let a := s.readGpr rs + imm.signExtend 32
    let old := fun k => (s.readGpr rt).extractLsb' (8 * k) 8
    (encode (.lwl rt rs imm) = 0x22#6 ++ rs ++ rt ++ imm ∧ AccessesUnaligned (.lwl rt rs imm) s (.adEL a) true a
      (SetsGpr (.lwl rt rs imm) s rt fun v =>
        v = unalignedLoadTable s.params.bigEndian true (s.alignedByte a) old (a.toNat % 4))) ∧
    (encode (.lwr rt rs imm) = 0x26#6 ++ rs ++ rt ++ imm ∧ AccessesUnaligned (.lwr rt rs imm) s (.adEL a) false a
      (SetsGpr (.lwr rt rs imm) s rt fun v =>
        v = unalignedLoadTable s.params.bigEndian false (s.alignedByte a) old (a.toNat % 4)))

/-- The stores from a general register (R320, R321, R322): the low bytes of the register at the address, in the byte
order of the run, every other byte unchanged. Misaligned or forbidden addresses raise `AdES` (R64, R65, R67); where no
memory backs the bytes (R61) the model stops with a fault, its own choice: log entry 11. -/
def Obligations.Stores : Prop :=
  ∀ (s : State) (rt rs : Reg) (imm : Half),
    let a := s.readGpr rs + imm.signExtend 32
    let stores := fun (i : Instr) (n : Nat) => Accesses i s (.adES a) a n (Completes i s fun t =>
      t.memValue a n = (s.readGpr rt).toNat % 2 ^ (8 * n) ∧ StoredOnly (bytesAt a n) s t ∧ Advanced s t)
    (encode (.sb rt rs imm) = 0x28#6 ++ rs ++ rt ++ imm ∧ stores (.sb rt rs imm) 1) ∧
    (encode (.sh rt rs imm) = 0x29#6 ++ rs ++ rt ++ imm ∧ stores (.sh rt rs imm) 2) ∧
    (encode (.sw rt rs imm) = 0x2b#6 ++ rs ++ rt ++ imm ∧ stores (.sw rt rs imm) 4)

/-- `swl` and `swr` (R325, R326): the aligned word after the store is the one of the tables of R317; only the bytes that
the instruction touches are stored to. Where no memory backs them (R61) the model stops with a fault, its own choice: log
entry 11. -/
def Obligations.UnalignedStores : Prop :=
  ∀ (s : State) (rt rs : Reg) (imm : Half),
    let a := s.readGpr rs + imm.signExtend 32
    let new := fun k => (s.readGpr rt).extractLsb' (8 * k) 8
    let stores := fun (i : Instr) (left : Bool) => AccessesUnaligned i s (.adES a) left a (Completes i s fun t =>
      (List.range 4).map (t.alignedByte a) =
        unalignedStoreTable s.params.bigEndian left (s.alignedByte a) new (a.toNat % 4) ∧
      StoredOnly (unalignedAddrs s.params.bigEndian left a) s t ∧ Advanced s t)
    (encode (.swl rt rs imm) = 0x2a#6 ++ rs ++ rt ++ imm ∧ stores (.swl rt rs imm) true) ∧
    (encode (.swr rt rs imm) = 0x2e#6 ++ rs ++ rt ++ imm ∧ stores (.swr rt rs imm) false)

/-- `sc` (R332): `AdES`; refused with a valid link to another address; with no link, 0 and nothing stored; with the link,
the store and 1. Where spurious failures are allowed either of the two may come. That an `sc` which fails needs no
memory at its address is the model's reading (log entry 13), and that an `sc` without memory (R61) stops with a fault is
its choice (log entry 11). -/
def Obligations.StoreConditional : Prop :=
  ∀ (s : State) (rt rs : Reg) (imm : Half),
    let a := s.readGpr rs + imm.signExtend 32
    let i := Instr.sc rt rs imm
    let allowed := a.toNat % 4 = 0 ∧ AllowedAddress s a
    let ends := fun (v : Word) (t : State) => Advanced s t ∧ t.llbit = false ∧ t.lladdr = s.lladdr ∧
      ∀ r : Reg, t.readGpr r = if r = 0#5 then 0#32 else if r = rt then v else s.readGpr r
    let fails := Completes i s fun t => ends 0#32 t ∧ ChangesOnly [.gpr, .link] s t
    let succeeds := Completes i s fun t => ends 1#32 t ∧ t.memValue a 4 = (s.readGpr rt).toNat ∧
      (∀ x : Nat, x ∉ bytesAt a 4 → Memory.read t.mem x = Memory.read s.mem x) ∧
      (∀ x : Nat, x ∈ t.stored ↔ x ∈ bytesAt a 4 ∨ x ∈ s.stored) ∧ ChangesOnly [.gpr, .link, .mem] s t
    encode i = 0x38#6 ++ rs ++ rt ++ imm ∧
    (¬ allowed → Takes i s (.adES a)) ∧
    (allowed → s.llbit = true → s.lladdr ≠ a → exec i s = .refused (.scAddressDiffersFromLl a)) ∧
    (allowed → s.llbit = false → fails) ∧
    (allowed → s.llbit = true → s.lladdr = a →
      (s.params.scSpuriousFail = false → Backed s a 4 → succeeds) ∧
      (s.params.scSpuriousFail = false → ¬ Backed s a 4 → NoMemory i s) ∧
      (s.params.scSpuriousFail = true → Backed s a 4 → succeeds ∨ fails) ∧
      (s.params.scSpuriousFail = true → ¬ Backed s a 4 → NoMemory i s ∨ fails))

/-- The floating-point loads and stores (R308, R316, R323, R324): coprocessor 1, then an even register for doubles (R33,
R380), then the access. Where no memory backs the bytes (R61) the model stops with a fault, its own choice: log entry
11. -/
def Obligations.FloatingLoadsAndStores : Prop :=
  ∀ (s : State) (ft : FReg) (rs : Reg) (imm : Half),
    let a := s.readGpr rs + imm.signExtend 32
    let stored := fun (i : Instr) (n v : Nat) => Completes i s fun t =>
      t.memValue a n = v ∧ StoredOnly (bytesAt a n) s t ∧ Advanced s t
    (encode (.lwc1 ft rs imm) = 0x31#6 ++ rs ++ ft ++ imm ∧ NeedsCp1 (.lwc1 ft rs imm) s
      (Accesses (.lwc1 ft rs imm) s (.adEL a) a 4
        (SetsFpr (.lwc1 ft rs imm) s ft (BitVec.ofNat 32 (s.memValue a 4))))) ∧
    (encode (.ldc1 ft rs imm) = 0x35#6 ++ rs ++ ft ++ imm ∧ NeedsCp1 (.ldc1 ft rs imm) s
      (NeedsEven (.ldc1 ft rs imm) s [ft] (Accesses (.ldc1 ft rs imm) s (.adEL a) a 8
        (SetsDouble (.ldc1 ft rs imm) s ft (BitVec.ofNat 64 (s.memValue a 8)))))) ∧
    (encode (.swc1 ft rs imm) = 0x39#6 ++ rs ++ ft ++ imm ∧ NeedsCp1 (.swc1 ft rs imm) s
      (Accesses (.swc1 ft rs imm) s (.adES a) a 4 (stored (.swc1 ft rs imm) 4 (s.readFpr ft).toNat))) ∧
    (encode (.sdc1 ft rs imm) = 0x3d#6 ++ rs ++ ft ++ imm ∧ NeedsCp1 (.sdc1 ft rs imm) s
      (NeedsEven (.sdc1 ft rs imm) s [ft] (Accesses (.sdc1 ft rs imm) s (.adES a) a 8
        (stored (.sdc1 ft rs imm) 8 ((s.readFpr ft).toNat + 2 ^ 32 * (s.readFpr (ft + 1#5)).toNat)))))

/-- A word stored by `sw` is what `lw` at the same address loads next (R62, R307, R322). -/
def Obligations.StoreThenLoad : Prop :=
  ∀ (s t : State) (rt rs rd : Reg) (imm : Half),
    let a := s.readGpr rs + imm.signExtend 32
    a.toNat % 4 = 0 → AllowedAddress s a → Backed s a 4 → exec (.sw rt rs imm) s = .next t →
    Completes (.lw rd rs imm) t fun u =>
      ∀ r : Reg, u.readGpr r = if r = 0#5 then 0#32 else if r = rd then s.readGpr rt else s.readGpr r

/-- A word that `sw` has written cannot be fetched (R76, R529): a step at its address is refused. -/
def Obligations.StoredCodeRefused : Prop :=
  ∀ (s t : State) (rt rs : Reg) (imm : Half),
    let a := s.readGpr rs + imm.signExtend 32
    a.toNat % 4 = 0 → AllowedAddress s a → Backed s a 4 → exec (.sw rt rs imm) s = .next t →
    ∀ u : State, u.pc = a → u.mem = t.mem → u.stored = t.stored → u.params = t.params → u.status = t.status →
      interruptPending (sampleIrq u) = false → step u = .refused (.fetchOfStoredCode a)

/-- The model's form of memory (log entry 2) is canonical: two memories in it that read the same at every address are
equal (R42, R60). -/
def Obligations.CanonicalMemory : Prop :=
  ∀ m n : Memory, Memory.wf m → Memory.wf n → (∀ a : Nat, Memory.read m a = Memory.read n a) → m = n

/-! ### Data movement (45_data_move.md) -/

/-- `mfhi`, `mflo`, `mthi`, `mtlo`, `movn` and `movz` (R351 to R354, R360, R361). -/
def Obligations.PlainMoves : Prop :=
  ∀ (s : State) (rd rs rt : Reg),
    (encode (.mfhi rd) = 0x00#6 ++ 0#5 ++ 0#5 ++ rd ++ 0#5 ++ 0x10#6 ∧ SetsGpr (.mfhi rd) s rd fun v => v = s.hi) ∧
    (encode (.mflo rd) = 0x00#6 ++ 0#5 ++ 0#5 ++ rd ++ 0#5 ++ 0x12#6 ∧ SetsGpr (.mflo rd) s rd fun v => v = s.lo) ∧
    (encode (.mthi rs) = 0x00#6 ++ rs ++ 0#5 ++ 0#5 ++ 0#5 ++ 0x11#6 ∧
      SetsHiLo (.mthi rs) s fun hi lo => hi = s.readGpr rs ∧ lo = s.lo) ∧
    (encode (.mtlo rs) = 0x00#6 ++ rs ++ 0#5 ++ 0#5 ++ 0#5 ++ 0x13#6 ∧
      SetsHiLo (.mtlo rs) s fun hi lo => hi = s.hi ∧ lo = s.readGpr rs) ∧
    (encode (.movn rd rs rt) = 0x00#6 ++ rs ++ rt ++ rd ++ 0#5 ++ 0x0b#6 ∧
      (s.readGpr rt ≠ 0#32 → SetsGpr (.movn rd rs rt) s rd fun v => v = s.readGpr rs) ∧
      (s.readGpr rt = 0#32 → OnlyAdvances (.movn rd rs rt) s)) ∧
    (encode (.movz rd rs rt) = 0x00#6 ++ rs ++ rt ++ rd ++ 0#5 ++ 0x0a#6 ∧
      (s.readGpr rt = 0#32 → SetsGpr (.movz rd rs rt) s rd fun v => v = s.readGpr rs) ∧
      (s.readGpr rt ≠ 0#32 → OnlyAdvances (.movz rd rs rt) s))

/-- `mfc0` (R355): `CpU` in user mode; else each of the four registers, and any other number is refused. -/
def Obligations.Cp0Reads : Prop :=
  ∀ (s : State) (rt : Reg) (rd : BitVec 5),
    let i := Instr.mfc0 rt rd
    encode i = 0x10#6 ++ 0x00#5 ++ rt ++ rd ++ 0#5 ++ 0#6 ∧
    NeedsKernel i s
      ((rd = 8#5 → SetsGpr i s rt fun v => v = s.badVAddr) ∧
       (rd = 12#5 → SetsGpr i s rt fun v => v = s.status) ∧
       (rd = 13#5 → SetsGpr i s rt fun v => v = s.cause) ∧
       (rd = 14#5 → SetsGpr i s rt fun v => v = s.epc) ∧
       (rd ∉ [8#5, 12#5, 13#5, 14#5] → exec i s = .refused (.cp0RegisterNotModelled rd)))

/-- `mtc0` (R358): `CpU` in user mode; else what each of the four registers takes and refuses, and any other number is
refused. -/
def Obligations.Cp0Writes : Prop :=
  ∀ (s : State) (rt : Reg) (rd : BitVec 5),
    let i := Instr.mtc0 rt rd
    let v := s.readGpr rt
    let writes := fun status cause epc : Word => Completes i s fun t =>
      t.status = status ∧ t.cause = cause ∧ t.epc = epc ∧ t.badVAddr = s.badVAddr ∧ ChangesOnly [.cp0] s t ∧
      Advanced s t
    encode i = 0x10#6 ++ 0x04#5 ++ rt ++ rd ++ 0#5 ++ 0#6 ∧
    NeedsKernel i s
      ((rd = 8#5 → OnlyAdvances i s) ∧
       (rd = 12#5 → v &&& 0xDFFF00EC#32 ≠ 0#32 → exec i s = .refused (.statusBitNotModelled v)) ∧
       (rd = 12#5 → v &&& 0xDFFF00EC#32 = 0#32 → writes v s.cause s.epc) ∧
       (rd = 13#5 → v.getLsbD 23 = true ∨ v.getLsbD 22 = true → exec i s = .refused (.causeBitNotModelled v)) ∧
       (rd = 13#5 → v.getLsbD 23 = false → v.getLsbD 22 = false →
         writes s.status (s.cause &&& 0xFFFFFCFF#32 ||| v &&& 0x00000300#32) s.epc) ∧
       (rd = 14#5 → writes s.status s.cause v) ∧
       (rd ∉ [8#5, 12#5, 13#5, 14#5] → exec i s = .refused (.cp0RegisterNotModelled rd)))

/-- `mfc1`, `mtc1`, `movf` and `movt` (R356, R359, R362, R363). -/
def Obligations.Cp1Moves : Prop :=
  ∀ (s : State) (rt rd rs : Reg) (fs : FReg) (cc : CC),
    (encode (.mfc1 rt fs) = 0x11#6 ++ 0x00#5 ++ rt ++ fs ++ 0#5 ++ 0#6 ∧ NeedsCp1 (.mfc1 rt fs) s
      (SetsGpr (.mfc1 rt fs) s rt fun v => v = s.readFpr fs)) ∧
    (encode (.mtc1 rt fs) = 0x11#6 ++ 0x04#5 ++ rt ++ fs ++ 0#5 ++ 0#6 ∧ NeedsCp1 (.mtc1 rt fs) s
      (SetsFpr (.mtc1 rt fs) s fs (s.readGpr rt))) ∧
    (encode (.movf rd rs cc) = 0x00#6 ++ rs ++ (cc ++ 0#1 ++ 0#1) ++ rd ++ 0#5 ++ 0x01#6 ∧
      NeedsCp1 (.movf rd rs cc) s
        ((s.readFcc cc = false → SetsGpr (.movf rd rs cc) s rd fun v => v = s.readGpr rs) ∧
         (s.readFcc cc = true → OnlyAdvances (.movf rd rs cc) s))) ∧
    (encode (.movt rd rs cc) = 0x00#6 ++ rs ++ (cc ++ 0#1 ++ 1#1) ++ rd ++ 0#5 ++ 0x01#6 ∧
      NeedsCp1 (.movt rd rs cc) s
        ((s.readFcc cc = true → SetsGpr (.movt rd rs cc) s rd fun v => v = s.readGpr rs) ∧
         (s.readFcc cc = false → OnlyAdvances (.movt rd rs cc) s)))

/-- After reset `CU1 = 0`. While `CU1 = 0`, every instruction that reads or writes floating-point state raises `CpU` with
`CE = 1`, in either mode (R492); a branch in a delay slot is refused first (R472). -/
def Obligations.Coprocessor1Unusable : Prop :=
  (∀ start p image, (State.boot start p image).cu1 = false) ∧
  ∀ (i : Instr) (s : State), usesCp1 i = true → s.cu1 = false →
    (isTransfer i = true → s.ds = false) → Takes i s (.cpU 1#2)

/-! ### Floating point (46_float.md) -/

/-- The single-precision arithmetic (R384, R386, R402, R418, R420, R424, R428), through the record `FPU`. -/
def Obligations.SingleArithmetic : Prop :=
  ∀ (s : State) (fd fs ft : FReg),
    let a := s.readFpr fs
    let b := s.readFpr ft
    let computes := fun (i : Instr) (ftField : FReg) (funct : BitVec 6) (v : Word) =>
      encode i = 0x11#6 ++ 0x10#5 ++ ftField ++ fs ++ fd ++ funct ∧ NeedsCp1 i s (SetsFpr i s fd v)
    computes (.addS fd fs ft) ft 0x00#6 (s.fpu.addS a b) ∧ computes (.subS fd fs ft) ft 0x01#6 (s.fpu.subS a b) ∧
    computes (.mulS fd fs ft) ft 0x02#6 (s.fpu.mulS a b) ∧ computes (.divS fd fs ft) ft 0x03#6 (s.fpu.divS a b) ∧
    computes (.sqrtS fd fs) 0#5 0x04#6 (s.fpu.sqrtS a) ∧ computes (.absS fd fs) 0#5 0x05#6 (s.fpu.absS a) ∧
    computes (.negS fd fs) 0#5 0x07#6 (s.fpu.negS a)

/-- The double-precision arithmetic (R383, R385, R401, R417, R419, R423, R427), through the record `FPU`: every operand
must be an even register. -/
def Obligations.DoubleArithmetic : Prop :=
  ∀ (s : State) (fd fs ft : FReg),
    let a := s.readFpr (fs + 1#5) ++ s.readFpr fs
    let b := s.readFpr (ft + 1#5) ++ s.readFpr ft
    let computes := fun (i : Instr) (ftField : FReg) (funct : BitVec 6) (doubles : List FReg) (v : Dword) =>
      encode i = 0x11#6 ++ 0x11#5 ++ ftField ++ fs ++ fd ++ funct ∧
      NeedsCp1 i s (NeedsEven i s doubles (SetsDouble i s fd v))
    computes (.addD fd fs ft) ft 0x00#6 [fd, fs, ft] (s.fpu.addD a b) ∧
    computes (.subD fd fs ft) ft 0x01#6 [fd, fs, ft] (s.fpu.subD a b) ∧
    computes (.mulD fd fs ft) ft 0x02#6 [fd, fs, ft] (s.fpu.mulD a b) ∧
    computes (.divD fd fs ft) ft 0x03#6 [fd, fs, ft] (s.fpu.divD a b) ∧
    computes (.sqrtD fd fs) 0#5 0x04#6 [fd, fs] (s.fpu.sqrtD a) ∧
    computes (.absD fd fs) 0#5 0x05#6 [fd, fs] (s.fpu.absD a) ∧
    computes (.negD fd fs) 0#5 0x07#6 [fd, fs] (s.fpu.negD a)

/-- The conversions to an integer (R387, R388, R399, R400, R403, R404, R421, R422, R429, R430): only a double source must
be an even register. -/
def Obligations.ConversionsToInteger : Prop :=
  ∀ (s : State) (fd fs : FReg),
    let a := s.readFpr fs
    let d := s.readFpr (fs + 1#5) ++ s.readFpr fs
    let ofSingle := fun (i : Instr) (funct : BitVec 6) (v : Word) =>
      encode i = 0x11#6 ++ 0x10#5 ++ 0#5 ++ fs ++ fd ++ funct ∧ NeedsCp1 i s (SetsFpr i s fd v)
    let ofDouble := fun (i : Instr) (funct : BitVec 6) (v : Word) =>
      encode i = 0x11#6 ++ 0x11#5 ++ 0#5 ++ fs ++ fd ++ funct ∧ NeedsCp1 i s (NeedsEven i s [fs] (SetsFpr i s fd v))
    ofSingle (.roundWS fd fs) 0x0c#6 (s.fpu.roundWS a) ∧ ofDouble (.roundWD fd fs) 0x0c#6 (s.fpu.roundWD d) ∧
    ofSingle (.truncWS fd fs) 0x0d#6 (s.fpu.truncWS a) ∧ ofDouble (.truncWD fd fs) 0x0d#6 (s.fpu.truncWD d) ∧
    ofSingle (.ceilWS fd fs) 0x0e#6 (s.fpu.ceilWS a) ∧ ofDouble (.ceilWD fd fs) 0x0e#6 (s.fpu.ceilWD d) ∧
    ofSingle (.floorWS fd fs) 0x0f#6 (s.fpu.floorWS a) ∧ ofDouble (.floorWD fd fs) 0x0f#6 (s.fpu.floorWD d) ∧
    ofSingle (.cvtWS fd fs) 0x24#6 (s.fpu.cvtWS a) ∧ ofDouble (.cvtWD fd fs) 0x24#6 (s.fpu.cvtWD d)

/-- The conversions to a floating-point format (R395 to R398): only the double, source or destination, must be an even
register. -/
def Obligations.ConversionsToFloat : Prop :=
  ∀ (s : State) (fd fs : FReg),
    let a := s.readFpr fs
    let d := s.readFpr (fs + 1#5) ++ s.readFpr fs
    (encode (.cvtDS fd fs) = 0x11#6 ++ 0x10#5 ++ 0#5 ++ fs ++ fd ++ 0x21#6 ∧ NeedsCp1 (.cvtDS fd fs) s
      (NeedsEven (.cvtDS fd fs) s [fd] (SetsDouble (.cvtDS fd fs) s fd (s.fpu.cvtDS a)))) ∧
    (encode (.cvtDW fd fs) = 0x11#6 ++ 0x14#5 ++ 0#5 ++ fs ++ fd ++ 0x21#6 ∧ NeedsCp1 (.cvtDW fd fs) s
      (NeedsEven (.cvtDW fd fs) s [fd] (SetsDouble (.cvtDW fd fs) s fd (s.fpu.cvtDW a)))) ∧
    (encode (.cvtSD fd fs) = 0x11#6 ++ 0x11#5 ++ 0#5 ++ fs ++ fd ++ 0x20#6 ∧ NeedsCp1 (.cvtSD fd fs) s
      (NeedsEven (.cvtSD fd fs) s [fs] (SetsFpr (.cvtSD fd fs) s fd (s.fpu.cvtSD d)))) ∧
    (encode (.cvtSW fd fs) = 0x11#6 ++ 0x14#5 ++ 0#5 ++ fs ++ fd ++ 0x20#6 ∧ NeedsCp1 (.cvtSW fd fs) s
      (SetsFpr (.cvtSW fd fs) s fd (s.fpu.cvtSW a)))

/-- The comparisons (R389 to R394): the named flag, and no other, takes the result. -/
def Obligations.Comparisons : Prop :=
  ∀ (s : State) (cc : CC) (fs ft : FReg),
    let a := s.readFpr fs
    let b := s.readFpr ft
    let c := s.readFpr (fs + 1#5) ++ s.readFpr fs
    let d := s.readFpr (ft + 1#5) ++ s.readFpr ft
    let ofSingles := fun (i : Instr) (funct : BitVec 6) (v : Bool) =>
      encode i = 0x11#6 ++ 0x10#5 ++ ft ++ fs ++ (cc ++ 0#2) ++ funct ∧ NeedsCp1 i s (SetsFcc i s cc v)
    let ofDoubles := fun (i : Instr) (funct : BitVec 6) (v : Bool) =>
      encode i = 0x11#6 ++ 0x11#5 ++ ft ++ fs ++ (cc ++ 0#2) ++ funct ∧
      NeedsCp1 i s (NeedsEven i s [fs, ft] (SetsFcc i s cc v))
    ofSingles (.cEqS cc fs ft) 0x32#6 (s.fpu.eqS a b) ∧ ofDoubles (.cEqD cc fs ft) 0x32#6 (s.fpu.eqD c d) ∧
    ofSingles (.cLtS cc fs ft) 0x3c#6 (s.fpu.ltS a b) ∧ ofDoubles (.cLtD cc fs ft) 0x3c#6 (s.fpu.ltD c d) ∧
    ofSingles (.cLeS cc fs ft) 0x3e#6 (s.fpu.leS a b) ∧ ofDoubles (.cLeD cc fs ft) 0x3e#6 (s.fpu.leD c d)

/-- The floating-point moves (R407 to R416): a bit copy, of a pair for a double, when the condition holds; the registers
of a double must be even also when it does not, which is the model's reading of R121 and R380: log entry 14. -/
def Obligations.FloatingMoves : Prop :=
  ∀ (s : State) (fd fs : FReg) (rt : Reg) (cc : CC),
    let d := s.readFpr (fs + 1#5) ++ s.readFpr fs
    let single := fun (i : Instr) (field : BitVec 5) (funct : BitVec 6) (c : Prop) =>
      encode i = 0x11#6 ++ 0x10#5 ++ field ++ fs ++ fd ++ funct ∧
      NeedsCp1 i s ((c → SetsFpr i s fd (s.readFpr fs)) ∧ (¬ c → OnlyAdvances i s))
    let double := fun (i : Instr) (field : BitVec 5) (funct : BitVec 6) (c : Prop) =>
      encode i = 0x11#6 ++ 0x11#5 ++ field ++ fs ++ fd ++ funct ∧
      NeedsCp1 i s (NeedsEven i s [fd, fs] ((c → SetsDouble i s fd d) ∧ (¬ c → OnlyAdvances i s)))
    single (.movS fd fs) 0#5 0x06#6 True ∧ double (.movD fd fs) 0#5 0x06#6 True ∧
    single (.movfS fd fs cc) (cc ++ 0#1 ++ 0#1) 0x11#6 (s.readFcc cc = false) ∧
    double (.movfD fd fs cc) (cc ++ 0#1 ++ 0#1) 0x11#6 (s.readFcc cc = false) ∧
    single (.movtS fd fs cc) (cc ++ 0#1 ++ 1#1) 0x11#6 (s.readFcc cc = true) ∧
    double (.movtD fd fs cc) (cc ++ 0#1 ++ 1#1) 0x11#6 (s.readFcc cc = true) ∧
    single (.movnS fd fs rt) rt 0x13#6 (s.readGpr rt ≠ 0#32) ∧
    double (.movnD fd fs rt) rt 0x13#6 (s.readGpr rt ≠ 0#32) ∧
    single (.movzS fd fs rt) rt 0x12#6 (s.readGpr rt = 0#32) ∧
    double (.movzD fd fs rt) rt 0x12#6 (s.readGpr rt = 0#32)

/-- The recommended instance (R382): what `abs`, `neg` and the comparisons do with signs and NaNs, which NaN results
from a NaN operand, and what a NaN or an infinity converts to. -/
def Obligations.RecommendedFpu : Prop :=
  ∀ (a b : Word) (c d : Dword),
    let nanS := fun x : Word => 0x7F800000 < x.toNat % 2 ^ 31
    let nanD := fun x : Dword => 0x7FF0000000000000 < x.toNat % 2 ^ 63
    (ieeeFpu.absS a).toNat = a.toNat % 2 ^ 31 ∧ (ieeeFpu.absD c).toNat = c.toNat % 2 ^ 63 ∧
    (ieeeFpu.negS a).msb = !a.msb ∧ ieeeFpu.absS (ieeeFpu.negS a) = ieeeFpu.absS a ∧
    (ieeeFpu.negD c).msb = !c.msb ∧ ieeeFpu.absD (ieeeFpu.negD c) = ieeeFpu.absD c ∧
    (nanS a ∨ nanS b →
      ieeeFpu.eqS a b = false ∧ ieeeFpu.ltS a b = false ∧ ieeeFpu.leS a b = false ∧
      ieeeFpu.addS a b = 0x7FC00000#32 ∧ ieeeFpu.subS a b = 0x7FC00000#32 ∧ ieeeFpu.mulS a b = 0x7FC00000#32 ∧
      ieeeFpu.divS a b = 0x7FC00000#32) ∧
    (nanD c ∨ nanD d →
      ieeeFpu.eqD c d = false ∧ ieeeFpu.ltD c d = false ∧ ieeeFpu.leD c d = false ∧
      ieeeFpu.addD c d = 0x7FF8000000000000#64 ∧ ieeeFpu.subD c d = 0x7FF8000000000000#64 ∧
      ieeeFpu.mulD c d = 0x7FF8000000000000#64 ∧ ieeeFpu.divD c d = 0x7FF8000000000000#64) ∧
    (¬ nanS a → ieeeFpu.eqS a a = true ∧ ieeeFpu.leS a a = true ∧ ieeeFpu.ltS a a = false) ∧
    ieeeFpu.eqS 0x80000000#32 0x00000000#32 = true ∧ ieeeFpu.ltS 0x80000000#32 0x00000000#32 = false ∧
    (a.toNat % 2 ^ 31 ≥ 0x7F800000 →
      ieeeFpu.cvtWS a = 0x7FFFFFFF#32 ∧ ieeeFpu.roundWS a = 0x7FFFFFFF#32 ∧ ieeeFpu.truncWS a = 0x7FFFFFFF#32 ∧
      ieeeFpu.ceilWS a = 0x7FFFFFFF#32 ∧ ieeeFpu.floorWS a = 0x7FFFFFFF#32) ∧
    (c.toNat % 2 ^ 63 ≥ 0x7FF0000000000000 →
      ieeeFpu.cvtWD c = 0x7FFFFFFF#32 ∧ ieeeFpu.roundWD c = 0x7FFFFFFF#32 ∧ ieeeFpu.truncWD c = 0x7FFFFFFF#32 ∧
      ieeeFpu.ceilWD c = 0x7FFFFFFF#32 ∧ ieeeFpu.floorWD c = 0x7FFFFFFF#32)

/-- In the recommended instance every 32-bit integer is a double (R396): converted to a double and back, by any of the
five rounding instructions, it is unchanged. -/
def Obligations.IntegersAreDoubles : Prop :=
  ∀ a : Word,
    ieeeFpu.cvtWD (ieeeFpu.cvtDW a) = a ∧ ieeeFpu.roundWD (ieeeFpu.cvtDW a) = a ∧
    ieeeFpu.truncWD (ieeeFpu.cvtDW a) = a ∧ ieeeFpu.ceilWD (ieeeFpu.cvtDW a) = a ∧
    ieeeFpu.floorWD (ieeeFpu.cvtDW a) = a

/-! ### Rules over all instructions (60_exceptions.md) -/

/-- Every instruction that completes ends in one of the ways of R473: it advances, or it is a branch or jump with
its delay slot next, or it is `eret`, or it takes an exception with nothing else changed (R471). -/
def Obligations.WaysToEnd : Prop :=
  ∀ (i : Instr) (s t : State), exec i s = .next t →
    (isTransfer i = false ∧ i ≠ .eret ∧ Advanced s t) ∨
    (isTransfer i = true ∧ s.ds = false ∧ t.pc = s.npc ∧ t.ds = true) ∨
    (i = .eret ∧ s.ds = false ∧ t = returnFromException s) ∨
    ∃ e, t = enterException e s

/-- What user mode may not write (R67, R491): a step from user mode changes no byte from 0x80000000 on, and no bit of
`Status` but `EXL`. -/
def Obligations.UserModeWrites : Prop :=
  ∀ s t : State, s.userMode = true → step s = .next t →
    (∀ a, 2 ^ 31 ≤ a → Memory.read t.mem a = Memory.read s.mem a) ∧
    (∀ j, j ≠ 1 → t.status.getLsbD j = s.status.getLsbD j)

/-- User mode is left only by an exception (R490): a step from user mode either stays in user mode, or takes an exception
(with `ds = false` for an address error of the fetch, R66) and so goes on at the handler. -/
def Obligations.UserModeLeft : Prop :=
  ∀ s t : State, s.userMode = true → step s = .next t →
    t.userMode = true ∨ (∃ e, t = enterException e (sampleIrq s)) ∨
      t = enterException (.adEL s.pc) { sampleIrq s with ds := false }

/-- User mode cannot read the kernel's memory (R67, R491): from two states in user mode that differ at most in the bytes
from 0x80000000 on, a step has the same outcome, and next states that again differ at most there. -/
def Obligations.UserModeReads : Prop :=
  ∀ s t : State, s.userMode = true → AgreeInUserSpace s t → SameOutcome (step s) (step t)
end

