-- ==== Sys2Proof/Laws/State.lean ====
section
/-! SUPPORT. One lemma per field per update of the state, so that no later proof unfolds a record update. -/

namespace Sys2Proof.Machine

/-! ### `writeGpr` -/

@[simp] theorem State.writeGpr_gpr (s : State) (r : Reg) (v : Word) :
    (s.writeGpr r v).gpr = if r = 0#5 then s.gpr else s.gpr.set r.toNat v r.isLt := rfl
@[simp] theorem State.writeGpr_fpr (s : State) (r : Reg) (v : Word) : (s.writeGpr r v).fpr = s.fpr := rfl
@[simp] theorem State.writeGpr_fcc (s : State) (r : Reg) (v : Word) : (s.writeGpr r v).fcc = s.fcc := rfl
@[simp] theorem State.writeGpr_hi (s : State) (r : Reg) (v : Word) : (s.writeGpr r v).hi = s.hi := rfl
@[simp] theorem State.writeGpr_lo (s : State) (r : Reg) (v : Word) : (s.writeGpr r v).lo = s.lo := rfl
@[simp] theorem State.writeGpr_pc (s : State) (r : Reg) (v : Word) : (s.writeGpr r v).pc = s.pc := rfl
@[simp] theorem State.writeGpr_npc (s : State) (r : Reg) (v : Word) : (s.writeGpr r v).npc = s.npc := rfl
@[simp] theorem State.writeGpr_ds (s : State) (r : Reg) (v : Word) : (s.writeGpr r v).ds = s.ds := rfl
@[simp] theorem State.writeGpr_status (s : State) (r : Reg) (v : Word) : (s.writeGpr r v).status = s.status := rfl
@[simp] theorem State.writeGpr_cause (s : State) (r : Reg) (v : Word) : (s.writeGpr r v).cause = s.cause := rfl
@[simp] theorem State.writeGpr_epc (s : State) (r : Reg) (v : Word) : (s.writeGpr r v).epc = s.epc := rfl
@[simp] theorem State.writeGpr_badVAddr (s : State) (r : Reg) (v : Word) :
    (s.writeGpr r v).badVAddr = s.badVAddr := rfl
@[simp] theorem State.writeGpr_llbit (s : State) (r : Reg) (v : Word) : (s.writeGpr r v).llbit = s.llbit := rfl
@[simp] theorem State.writeGpr_lladdr (s : State) (r : Reg) (v : Word) : (s.writeGpr r v).lladdr = s.lladdr := rfl
@[simp] theorem State.writeGpr_mem (s : State) (r : Reg) (v : Word) : (s.writeGpr r v).mem = s.mem := rfl
@[simp] theorem State.writeGpr_stored (s : State) (r : Reg) (v : Word) : (s.writeGpr r v).stored = s.stored := rfl
@[simp] theorem State.writeGpr_params (s : State) (r : Reg) (v : Word) : (s.writeGpr r v).params = s.params := rfl
@[simp] theorem State.writeGpr_irqInput (s : State) (r : Reg) (v : Word) :
    (s.writeGpr r v).irqInput = s.irqInput := rfl
@[simp] theorem State.writeGpr_draws (s : State) (r : Reg) (v : Word) : (s.writeGpr r v).draws = s.draws := rfl
@[simp] theorem State.writeGpr_exl (s : State) (r : Reg) (v : Word) :
    (s.writeGpr r v).exl = s.exl := rfl
@[simp] theorem State.writeGpr_um (s : State) (r : Reg) (v : Word) :
    (s.writeGpr r v).um = s.um := rfl
@[simp] theorem State.writeGpr_ie (s : State) (r : Reg) (v : Word) :
    (s.writeGpr r v).ie = s.ie := rfl
@[simp] theorem State.writeGpr_im (s : State) (r : Reg) (v : Word) :
    (s.writeGpr r v).im = s.im := rfl
@[simp] theorem State.writeGpr_cu1 (s : State) (r : Reg) (v : Word) :
    (s.writeGpr r v).cu1 = s.cu1 := rfl
@[simp] theorem State.writeGpr_userMode (s : State) (r : Reg) (v : Word) :
    (s.writeGpr r v).userMode = s.userMode := rfl
@[simp] theorem State.writeGpr_ip (s : State) (r : Reg) (v : Word) :
    (s.writeGpr r v).ip = s.ip := rfl
@[simp] theorem State.writeGpr_excCode (s : State) (r : Reg) (v : Word) :
    (s.writeGpr r v).excCode = s.excCode := rfl
@[simp] theorem State.writeGpr_ce (s : State) (r : Reg) (v : Word) :
    (s.writeGpr r v).ce = s.ce := rfl
@[simp] theorem State.writeGpr_bd (s : State) (r : Reg) (v : Word) :
    (s.writeGpr r v).bd = s.bd := rfl
@[simp] theorem State.writeGpr_fpu (s : State) (r : Reg) (v : Word) :
    (s.writeGpr r v).fpu = s.fpu := rfl
@[simp] theorem State.writeGpr_readHiLo (s : State) (r : Reg) (v : Word) :
    (s.writeGpr r v).readHiLo = s.readHiLo := rfl
@[simp] theorem State.writeGpr_readFpr (s : State) (r : Reg) (v : Word) (q : FReg) :
    (s.writeGpr r v).readFpr q = s.readFpr q := rfl
@[simp] theorem State.writeGpr_readDouble (s : State) (r : Reg) (v : Word) (q : FReg) :
    (s.writeGpr r v).readDouble q = s.readDouble q := rfl
@[simp] theorem State.writeGpr_readFcc (s : State) (r : Reg) (v : Word) (q : CC) :
    (s.writeGpr r v).readFcc q = s.readFcc q := rfl
@[simp] theorem State.writeGpr_readByte (s : State) (r : Reg) (v : Word) (a : Word) :
    (s.writeGpr r v).readByte a = s.readByte a := rfl
@[simp] theorem State.writeGpr_readHalf (s : State) (r : Reg) (v : Word) (a : Word) :
    (s.writeGpr r v).readHalf a = s.readHalf a := rfl
@[simp] theorem State.writeGpr_readWord (s : State) (r : Reg) (v : Word) (a : Word) :
    (s.writeGpr r v).readWord a = s.readWord a := rfl
@[simp] theorem State.writeGpr_readDword (s : State) (r : Reg) (v : Word) (a : Word) :
    (s.writeGpr r v).readDword a = s.readDword a := rfl

/-! ### `writeFpr` -/

@[simp] theorem State.writeFpr_gpr (s : State) (r : FReg) (v : Word) : (s.writeFpr r v).gpr = s.gpr := rfl
@[simp] theorem State.writeFpr_fpr (s : State) (r : FReg) (v : Word) :
    (s.writeFpr r v).fpr = s.fpr.set r.toNat v r.isLt := rfl
@[simp] theorem State.writeFpr_fcc (s : State) (r : FReg) (v : Word) : (s.writeFpr r v).fcc = s.fcc := rfl
@[simp] theorem State.writeFpr_hi (s : State) (r : FReg) (v : Word) : (s.writeFpr r v).hi = s.hi := rfl
@[simp] theorem State.writeFpr_lo (s : State) (r : FReg) (v : Word) : (s.writeFpr r v).lo = s.lo := rfl
@[simp] theorem State.writeFpr_pc (s : State) (r : FReg) (v : Word) : (s.writeFpr r v).pc = s.pc := rfl
@[simp] theorem State.writeFpr_npc (s : State) (r : FReg) (v : Word) : (s.writeFpr r v).npc = s.npc := rfl
@[simp] theorem State.writeFpr_ds (s : State) (r : FReg) (v : Word) : (s.writeFpr r v).ds = s.ds := rfl
@[simp] theorem State.writeFpr_status (s : State) (r : FReg) (v : Word) : (s.writeFpr r v).status = s.status := rfl
@[simp] theorem State.writeFpr_cause (s : State) (r : FReg) (v : Word) : (s.writeFpr r v).cause = s.cause := rfl
@[simp] theorem State.writeFpr_epc (s : State) (r : FReg) (v : Word) : (s.writeFpr r v).epc = s.epc := rfl
@[simp] theorem State.writeFpr_badVAddr (s : State) (r : FReg) (v : Word) :
    (s.writeFpr r v).badVAddr = s.badVAddr := rfl
@[simp] theorem State.writeFpr_llbit (s : State) (r : FReg) (v : Word) : (s.writeFpr r v).llbit = s.llbit := rfl
@[simp] theorem State.writeFpr_lladdr (s : State) (r : FReg) (v : Word) : (s.writeFpr r v).lladdr = s.lladdr := rfl
@[simp] theorem State.writeFpr_mem (s : State) (r : FReg) (v : Word) : (s.writeFpr r v).mem = s.mem := rfl
@[simp] theorem State.writeFpr_stored (s : State) (r : FReg) (v : Word) : (s.writeFpr r v).stored = s.stored := rfl
@[simp] theorem State.writeFpr_params (s : State) (r : FReg) (v : Word) : (s.writeFpr r v).params = s.params := rfl
@[simp] theorem State.writeFpr_irqInput (s : State) (r : FReg) (v : Word) :
    (s.writeFpr r v).irqInput = s.irqInput := rfl
@[simp] theorem State.writeFpr_draws (s : State) (r : FReg) (v : Word) : (s.writeFpr r v).draws = s.draws := rfl
@[simp] theorem State.writeFpr_exl (s : State) (r : FReg) (v : Word) :
    (s.writeFpr r v).exl = s.exl := rfl
@[simp] theorem State.writeFpr_um (s : State) (r : FReg) (v : Word) :
    (s.writeFpr r v).um = s.um := rfl
@[simp] theorem State.writeFpr_ie (s : State) (r : FReg) (v : Word) :
    (s.writeFpr r v).ie = s.ie := rfl
@[simp] theorem State.writeFpr_im (s : State) (r : FReg) (v : Word) :
    (s.writeFpr r v).im = s.im := rfl
@[simp] theorem State.writeFpr_cu1 (s : State) (r : FReg) (v : Word) :
    (s.writeFpr r v).cu1 = s.cu1 := rfl
@[simp] theorem State.writeFpr_userMode (s : State) (r : FReg) (v : Word) :
    (s.writeFpr r v).userMode = s.userMode := rfl
@[simp] theorem State.writeFpr_ip (s : State) (r : FReg) (v : Word) :
    (s.writeFpr r v).ip = s.ip := rfl
@[simp] theorem State.writeFpr_excCode (s : State) (r : FReg) (v : Word) :
    (s.writeFpr r v).excCode = s.excCode := rfl
@[simp] theorem State.writeFpr_ce (s : State) (r : FReg) (v : Word) :
    (s.writeFpr r v).ce = s.ce := rfl
@[simp] theorem State.writeFpr_bd (s : State) (r : FReg) (v : Word) :
    (s.writeFpr r v).bd = s.bd := rfl
@[simp] theorem State.writeFpr_fpu (s : State) (r : FReg) (v : Word) :
    (s.writeFpr r v).fpu = s.fpu := rfl
@[simp] theorem State.writeFpr_readHiLo (s : State) (r : FReg) (v : Word) :
    (s.writeFpr r v).readHiLo = s.readHiLo := rfl
@[simp] theorem State.writeFpr_readGpr (s : State) (r : FReg) (v : Word) (q : Reg) :
    (s.writeFpr r v).readGpr q = s.readGpr q := rfl
@[simp] theorem State.writeFpr_readFcc (s : State) (r : FReg) (v : Word) (q : CC) :
    (s.writeFpr r v).readFcc q = s.readFcc q := rfl
@[simp] theorem State.writeFpr_readByte (s : State) (r : FReg) (v : Word) (a : Word) :
    (s.writeFpr r v).readByte a = s.readByte a := rfl
@[simp] theorem State.writeFpr_readHalf (s : State) (r : FReg) (v : Word) (a : Word) :
    (s.writeFpr r v).readHalf a = s.readHalf a := rfl
@[simp] theorem State.writeFpr_readWord (s : State) (r : FReg) (v : Word) (a : Word) :
    (s.writeFpr r v).readWord a = s.readWord a := rfl
@[simp] theorem State.writeFpr_readDword (s : State) (r : FReg) (v : Word) (a : Word) :
    (s.writeFpr r v).readDword a = s.readDword a := rfl

/-! ### `writeFcc` -/

@[simp] theorem State.writeFcc_gpr (s : State) (c : CC) (b : Bool) : (s.writeFcc c b).gpr = s.gpr := rfl
@[simp] theorem State.writeFcc_fpr (s : State) (c : CC) (b : Bool) : (s.writeFcc c b).fpr = s.fpr := rfl
@[simp] theorem State.writeFcc_fcc (s : State) (c : CC) (b : Bool) :
    (s.writeFcc c b).fcc = s.fcc.set c.toNat b c.isLt := rfl
@[simp] theorem State.writeFcc_hi (s : State) (c : CC) (b : Bool) : (s.writeFcc c b).hi = s.hi := rfl
@[simp] theorem State.writeFcc_lo (s : State) (c : CC) (b : Bool) : (s.writeFcc c b).lo = s.lo := rfl
@[simp] theorem State.writeFcc_pc (s : State) (c : CC) (b : Bool) : (s.writeFcc c b).pc = s.pc := rfl
@[simp] theorem State.writeFcc_npc (s : State) (c : CC) (b : Bool) : (s.writeFcc c b).npc = s.npc := rfl
@[simp] theorem State.writeFcc_ds (s : State) (c : CC) (b : Bool) : (s.writeFcc c b).ds = s.ds := rfl
@[simp] theorem State.writeFcc_status (s : State) (c : CC) (b : Bool) : (s.writeFcc c b).status = s.status := rfl
@[simp] theorem State.writeFcc_cause (s : State) (c : CC) (b : Bool) : (s.writeFcc c b).cause = s.cause := rfl
@[simp] theorem State.writeFcc_epc (s : State) (c : CC) (b : Bool) : (s.writeFcc c b).epc = s.epc := rfl
@[simp] theorem State.writeFcc_badVAddr (s : State) (c : CC) (b : Bool) :
    (s.writeFcc c b).badVAddr = s.badVAddr := rfl
@[simp] theorem State.writeFcc_llbit (s : State) (c : CC) (b : Bool) : (s.writeFcc c b).llbit = s.llbit := rfl
@[simp] theorem State.writeFcc_lladdr (s : State) (c : CC) (b : Bool) : (s.writeFcc c b).lladdr = s.lladdr := rfl
@[simp] theorem State.writeFcc_mem (s : State) (c : CC) (b : Bool) : (s.writeFcc c b).mem = s.mem := rfl
@[simp] theorem State.writeFcc_stored (s : State) (c : CC) (b : Bool) : (s.writeFcc c b).stored = s.stored := rfl
@[simp] theorem State.writeFcc_params (s : State) (c : CC) (b : Bool) : (s.writeFcc c b).params = s.params := rfl
@[simp] theorem State.writeFcc_irqInput (s : State) (c : CC) (b : Bool) :
    (s.writeFcc c b).irqInput = s.irqInput := rfl
@[simp] theorem State.writeFcc_draws (s : State) (c : CC) (b : Bool) : (s.writeFcc c b).draws = s.draws := rfl
@[simp] theorem State.writeFcc_exl (s : State) (c : CC) (b : Bool) :
    (s.writeFcc c b).exl = s.exl := rfl
@[simp] theorem State.writeFcc_um (s : State) (c : CC) (b : Bool) :
    (s.writeFcc c b).um = s.um := rfl
@[simp] theorem State.writeFcc_ie (s : State) (c : CC) (b : Bool) :
    (s.writeFcc c b).ie = s.ie := rfl
@[simp] theorem State.writeFcc_im (s : State) (c : CC) (b : Bool) :
    (s.writeFcc c b).im = s.im := rfl
@[simp] theorem State.writeFcc_cu1 (s : State) (c : CC) (b : Bool) :
    (s.writeFcc c b).cu1 = s.cu1 := rfl
@[simp] theorem State.writeFcc_userMode (s : State) (c : CC) (b : Bool) :
    (s.writeFcc c b).userMode = s.userMode := rfl
@[simp] theorem State.writeFcc_ip (s : State) (c : CC) (b : Bool) :
    (s.writeFcc c b).ip = s.ip := rfl
@[simp] theorem State.writeFcc_excCode (s : State) (c : CC) (b : Bool) :
    (s.writeFcc c b).excCode = s.excCode := rfl
@[simp] theorem State.writeFcc_ce (s : State) (c : CC) (b : Bool) :
    (s.writeFcc c b).ce = s.ce := rfl
@[simp] theorem State.writeFcc_bd (s : State) (c : CC) (b : Bool) :
    (s.writeFcc c b).bd = s.bd := rfl
@[simp] theorem State.writeFcc_fpu (s : State) (c : CC) (b : Bool) :
    (s.writeFcc c b).fpu = s.fpu := rfl
@[simp] theorem State.writeFcc_readHiLo (s : State) (c : CC) (b : Bool) :
    (s.writeFcc c b).readHiLo = s.readHiLo := rfl
@[simp] theorem State.writeFcc_readGpr (s : State) (c : CC) (b : Bool) (q : Reg) :
    (s.writeFcc c b).readGpr q = s.readGpr q := rfl
@[simp] theorem State.writeFcc_readFpr (s : State) (c : CC) (b : Bool) (q : FReg) :
    (s.writeFcc c b).readFpr q = s.readFpr q := rfl
@[simp] theorem State.writeFcc_readDouble (s : State) (c : CC) (b : Bool) (q : FReg) :
    (s.writeFcc c b).readDouble q = s.readDouble q := rfl
@[simp] theorem State.writeFcc_readByte (s : State) (c : CC) (b : Bool) (a : Word) :
    (s.writeFcc c b).readByte a = s.readByte a := rfl
@[simp] theorem State.writeFcc_readHalf (s : State) (c : CC) (b : Bool) (a : Word) :
    (s.writeFcc c b).readHalf a = s.readHalf a := rfl
@[simp] theorem State.writeFcc_readWord (s : State) (c : CC) (b : Bool) (a : Word) :
    (s.writeFcc c b).readWord a = s.readWord a := rfl
@[simp] theorem State.writeFcc_readDword (s : State) (c : CC) (b : Bool) (a : Word) :
    (s.writeFcc c b).readDword a = s.readDword a := rfl

/-! ### `writeHiLo` -/

@[simp] theorem State.writeHiLo_gpr (s : State) (v : Dword) : (s.writeHiLo v).gpr = s.gpr := rfl
@[simp] theorem State.writeHiLo_fpr (s : State) (v : Dword) : (s.writeHiLo v).fpr = s.fpr := rfl
@[simp] theorem State.writeHiLo_fcc (s : State) (v : Dword) : (s.writeHiLo v).fcc = s.fcc := rfl
@[simp] theorem State.writeHiLo_hi (s : State) (v : Dword) : (s.writeHiLo v).hi = v.extractLsb' 32 32 := rfl
@[simp] theorem State.writeHiLo_lo (s : State) (v : Dword) : (s.writeHiLo v).lo = v.extractLsb' 0 32 := rfl
@[simp] theorem State.writeHiLo_pc (s : State) (v : Dword) : (s.writeHiLo v).pc = s.pc := rfl
@[simp] theorem State.writeHiLo_npc (s : State) (v : Dword) : (s.writeHiLo v).npc = s.npc := rfl
@[simp] theorem State.writeHiLo_ds (s : State) (v : Dword) : (s.writeHiLo v).ds = s.ds := rfl
@[simp] theorem State.writeHiLo_status (s : State) (v : Dword) : (s.writeHiLo v).status = s.status := rfl
@[simp] theorem State.writeHiLo_cause (s : State) (v : Dword) : (s.writeHiLo v).cause = s.cause := rfl
@[simp] theorem State.writeHiLo_epc (s : State) (v : Dword) : (s.writeHiLo v).epc = s.epc := rfl
@[simp] theorem State.writeHiLo_badVAddr (s : State) (v : Dword) : (s.writeHiLo v).badVAddr = s.badVAddr := rfl
@[simp] theorem State.writeHiLo_llbit (s : State) (v : Dword) : (s.writeHiLo v).llbit = s.llbit := rfl
@[simp] theorem State.writeHiLo_lladdr (s : State) (v : Dword) : (s.writeHiLo v).lladdr = s.lladdr := rfl
@[simp] theorem State.writeHiLo_mem (s : State) (v : Dword) : (s.writeHiLo v).mem = s.mem := rfl
@[simp] theorem State.writeHiLo_stored (s : State) (v : Dword) : (s.writeHiLo v).stored = s.stored := rfl
@[simp] theorem State.writeHiLo_params (s : State) (v : Dword) : (s.writeHiLo v).params = s.params := rfl
@[simp] theorem State.writeHiLo_irqInput (s : State) (v : Dword) : (s.writeHiLo v).irqInput = s.irqInput := rfl
@[simp] theorem State.writeHiLo_draws (s : State) (v : Dword) : (s.writeHiLo v).draws = s.draws := rfl
@[simp] theorem State.writeHiLo_exl (s : State) (v : Dword) :
    (s.writeHiLo v).exl = s.exl := rfl
@[simp] theorem State.writeHiLo_um (s : State) (v : Dword) :
    (s.writeHiLo v).um = s.um := rfl
@[simp] theorem State.writeHiLo_ie (s : State) (v : Dword) :
    (s.writeHiLo v).ie = s.ie := rfl
@[simp] theorem State.writeHiLo_im (s : State) (v : Dword) :
    (s.writeHiLo v).im = s.im := rfl
@[simp] theorem State.writeHiLo_cu1 (s : State) (v : Dword) :
    (s.writeHiLo v).cu1 = s.cu1 := rfl
@[simp] theorem State.writeHiLo_userMode (s : State) (v : Dword) :
    (s.writeHiLo v).userMode = s.userMode := rfl
@[simp] theorem State.writeHiLo_ip (s : State) (v : Dword) :
    (s.writeHiLo v).ip = s.ip := rfl
@[simp] theorem State.writeHiLo_excCode (s : State) (v : Dword) :
    (s.writeHiLo v).excCode = s.excCode := rfl
@[simp] theorem State.writeHiLo_ce (s : State) (v : Dword) :
    (s.writeHiLo v).ce = s.ce := rfl
@[simp] theorem State.writeHiLo_bd (s : State) (v : Dword) :
    (s.writeHiLo v).bd = s.bd := rfl
@[simp] theorem State.writeHiLo_fpu (s : State) (v : Dword) :
    (s.writeHiLo v).fpu = s.fpu := rfl
@[simp] theorem State.writeHiLo_readGpr (s : State) (v : Dword) (q : Reg) :
    (s.writeHiLo v).readGpr q = s.readGpr q := rfl
@[simp] theorem State.writeHiLo_readFpr (s : State) (v : Dword) (q : FReg) :
    (s.writeHiLo v).readFpr q = s.readFpr q := rfl
@[simp] theorem State.writeHiLo_readDouble (s : State) (v : Dword) (q : FReg) :
    (s.writeHiLo v).readDouble q = s.readDouble q := rfl
@[simp] theorem State.writeHiLo_readFcc (s : State) (v : Dword) (q : CC) :
    (s.writeHiLo v).readFcc q = s.readFcc q := rfl
@[simp] theorem State.writeHiLo_readByte (s : State) (v : Dword) (a : Word) :
    (s.writeHiLo v).readByte a = s.readByte a := rfl
@[simp] theorem State.writeHiLo_readHalf (s : State) (v : Dword) (a : Word) :
    (s.writeHiLo v).readHalf a = s.readHalf a := rfl
@[simp] theorem State.writeHiLo_readWord (s : State) (v : Dword) (a : Word) :
    (s.writeHiLo v).readWord a = s.readWord a := rfl
@[simp] theorem State.writeHiLo_readDword (s : State) (v : Dword) (a : Word) :
    (s.writeHiLo v).readDword a = s.readDword a := rfl

/-! ### `forgetHiLo` -/

@[simp] theorem State.forgetHiLo_gpr (s : State) : (s.forgetHiLo).gpr = s.gpr := rfl
@[simp] theorem State.forgetHiLo_fpr (s : State) : (s.forgetHiLo).fpr = s.fpr := rfl
@[simp] theorem State.forgetHiLo_fcc (s : State) : (s.forgetHiLo).fcc = s.fcc := rfl
@[simp] theorem State.forgetHiLo_hi (s : State) : (s.forgetHiLo).hi = Config.unspecified32 s.draws := rfl
@[simp] theorem State.forgetHiLo_lo (s : State) : (s.forgetHiLo).lo = Config.unspecified32 (s.draws + 1) := rfl
@[simp] theorem State.forgetHiLo_pc (s : State) : (s.forgetHiLo).pc = s.pc := rfl
@[simp] theorem State.forgetHiLo_npc (s : State) : (s.forgetHiLo).npc = s.npc := rfl
@[simp] theorem State.forgetHiLo_ds (s : State) : (s.forgetHiLo).ds = s.ds := rfl
@[simp] theorem State.forgetHiLo_status (s : State) : (s.forgetHiLo).status = s.status := rfl
@[simp] theorem State.forgetHiLo_cause (s : State) : (s.forgetHiLo).cause = s.cause := rfl
@[simp] theorem State.forgetHiLo_epc (s : State) : (s.forgetHiLo).epc = s.epc := rfl
@[simp] theorem State.forgetHiLo_badVAddr (s : State) : (s.forgetHiLo).badVAddr = s.badVAddr := rfl
@[simp] theorem State.forgetHiLo_llbit (s : State) : (s.forgetHiLo).llbit = s.llbit := rfl
@[simp] theorem State.forgetHiLo_lladdr (s : State) : (s.forgetHiLo).lladdr = s.lladdr := rfl
@[simp] theorem State.forgetHiLo_mem (s : State) : (s.forgetHiLo).mem = s.mem := rfl
@[simp] theorem State.forgetHiLo_stored (s : State) : (s.forgetHiLo).stored = s.stored := rfl
@[simp] theorem State.forgetHiLo_params (s : State) : (s.forgetHiLo).params = s.params := rfl
@[simp] theorem State.forgetHiLo_irqInput (s : State) : (s.forgetHiLo).irqInput = s.irqInput := rfl
@[simp] theorem State.forgetHiLo_draws (s : State) : (s.forgetHiLo).draws = s.draws + 2 := rfl
@[simp] theorem State.forgetHiLo_exl (s : State) :
    (s.forgetHiLo).exl = s.exl := rfl
@[simp] theorem State.forgetHiLo_um (s : State) :
    (s.forgetHiLo).um = s.um := rfl
@[simp] theorem State.forgetHiLo_ie (s : State) :
    (s.forgetHiLo).ie = s.ie := rfl
@[simp] theorem State.forgetHiLo_im (s : State) :
    (s.forgetHiLo).im = s.im := rfl
@[simp] theorem State.forgetHiLo_cu1 (s : State) :
    (s.forgetHiLo).cu1 = s.cu1 := rfl
@[simp] theorem State.forgetHiLo_userMode (s : State) :
    (s.forgetHiLo).userMode = s.userMode := rfl
@[simp] theorem State.forgetHiLo_ip (s : State) :
    (s.forgetHiLo).ip = s.ip := rfl
@[simp] theorem State.forgetHiLo_excCode (s : State) :
    (s.forgetHiLo).excCode = s.excCode := rfl
@[simp] theorem State.forgetHiLo_ce (s : State) :
    (s.forgetHiLo).ce = s.ce := rfl
@[simp] theorem State.forgetHiLo_bd (s : State) :
    (s.forgetHiLo).bd = s.bd := rfl
@[simp] theorem State.forgetHiLo_fpu (s : State) :
    (s.forgetHiLo).fpu = s.fpu := rfl
@[simp] theorem State.forgetHiLo_readGpr (s : State) (q : Reg) :
    (s.forgetHiLo).readGpr q = s.readGpr q := rfl
@[simp] theorem State.forgetHiLo_readFpr (s : State) (q : FReg) :
    (s.forgetHiLo).readFpr q = s.readFpr q := rfl
@[simp] theorem State.forgetHiLo_readDouble (s : State) (q : FReg) :
    (s.forgetHiLo).readDouble q = s.readDouble q := rfl
@[simp] theorem State.forgetHiLo_readFcc (s : State) (q : CC) :
    (s.forgetHiLo).readFcc q = s.readFcc q := rfl
@[simp] theorem State.forgetHiLo_readByte (s : State) (a : Word) :
    (s.forgetHiLo).readByte a = s.readByte a := rfl
@[simp] theorem State.forgetHiLo_readHalf (s : State) (a : Word) :
    (s.forgetHiLo).readHalf a = s.readHalf a := rfl
@[simp] theorem State.forgetHiLo_readWord (s : State) (a : Word) :
    (s.forgetHiLo).readWord a = s.readWord a := rfl
@[simp] theorem State.forgetHiLo_readDword (s : State) (a : Word) :
    (s.forgetHiLo).readDword a = s.readDword a := rfl

/-! ### `store` -/

@[simp] theorem State.store_gpr (s : State) (cells : List Host.Cell) : (s.store cells).gpr = s.gpr := rfl
@[simp] theorem State.store_fpr (s : State) (cells : List Host.Cell) : (s.store cells).fpr = s.fpr := rfl
@[simp] theorem State.store_fcc (s : State) (cells : List Host.Cell) : (s.store cells).fcc = s.fcc := rfl
@[simp] theorem State.store_hi (s : State) (cells : List Host.Cell) : (s.store cells).hi = s.hi := rfl
@[simp] theorem State.store_lo (s : State) (cells : List Host.Cell) : (s.store cells).lo = s.lo := rfl
@[simp] theorem State.store_pc (s : State) (cells : List Host.Cell) : (s.store cells).pc = s.pc := rfl
@[simp] theorem State.store_npc (s : State) (cells : List Host.Cell) : (s.store cells).npc = s.npc := rfl
@[simp] theorem State.store_ds (s : State) (cells : List Host.Cell) : (s.store cells).ds = s.ds := rfl
@[simp] theorem State.store_status (s : State) (cells : List Host.Cell) : (s.store cells).status = s.status := rfl
@[simp] theorem State.store_cause (s : State) (cells : List Host.Cell) : (s.store cells).cause = s.cause := rfl
@[simp] theorem State.store_epc (s : State) (cells : List Host.Cell) : (s.store cells).epc = s.epc := rfl
@[simp] theorem State.store_badVAddr (s : State) (cells : List Host.Cell) :
    (s.store cells).badVAddr = s.badVAddr := rfl
@[simp] theorem State.store_llbit (s : State) (cells : List Host.Cell) : (s.store cells).llbit = s.llbit := rfl
@[simp] theorem State.store_lladdr (s : State) (cells : List Host.Cell) : (s.store cells).lladdr = s.lladdr := rfl
@[simp] theorem State.store_mem (s : State) (cells : List Host.Cell) :
    (s.store cells).mem = Memory.writeCells s.mem cells := rfl
@[simp] theorem State.store_stored (s : State) (cells : List Host.Cell) :
    (s.store cells).stored = insertAddrs s.stored (cells.map Prod.fst) := rfl
@[simp] theorem State.store_params (s : State) (cells : List Host.Cell) : (s.store cells).params = s.params := rfl
@[simp] theorem State.store_irqInput (s : State) (cells : List Host.Cell) :
    (s.store cells).irqInput = s.irqInput := rfl
@[simp] theorem State.store_draws (s : State) (cells : List Host.Cell) : (s.store cells).draws = s.draws := rfl
@[simp] theorem State.store_exl (s : State) (cells : List Host.Cell) :
    (s.store cells).exl = s.exl := rfl
@[simp] theorem State.store_um (s : State) (cells : List Host.Cell) :
    (s.store cells).um = s.um := rfl
@[simp] theorem State.store_ie (s : State) (cells : List Host.Cell) :
    (s.store cells).ie = s.ie := rfl
@[simp] theorem State.store_im (s : State) (cells : List Host.Cell) :
    (s.store cells).im = s.im := rfl
@[simp] theorem State.store_cu1 (s : State) (cells : List Host.Cell) :
    (s.store cells).cu1 = s.cu1 := rfl
@[simp] theorem State.store_userMode (s : State) (cells : List Host.Cell) :
    (s.store cells).userMode = s.userMode := rfl
@[simp] theorem State.store_ip (s : State) (cells : List Host.Cell) :
    (s.store cells).ip = s.ip := rfl
@[simp] theorem State.store_excCode (s : State) (cells : List Host.Cell) :
    (s.store cells).excCode = s.excCode := rfl
@[simp] theorem State.store_ce (s : State) (cells : List Host.Cell) :
    (s.store cells).ce = s.ce := rfl
@[simp] theorem State.store_bd (s : State) (cells : List Host.Cell) :
    (s.store cells).bd = s.bd := rfl
@[simp] theorem State.store_fpu (s : State) (cells : List Host.Cell) :
    (s.store cells).fpu = s.fpu := rfl
@[simp] theorem State.store_readHiLo (s : State) (cells : List Host.Cell) :
    (s.store cells).readHiLo = s.readHiLo := rfl
@[simp] theorem State.store_readGpr (s : State) (cells : List Host.Cell) (q : Reg) :
    (s.store cells).readGpr q = s.readGpr q := rfl
@[simp] theorem State.store_readFpr (s : State) (cells : List Host.Cell) (q : FReg) :
    (s.store cells).readFpr q = s.readFpr q := rfl
@[simp] theorem State.store_readDouble (s : State) (cells : List Host.Cell) (q : FReg) :
    (s.store cells).readDouble q = s.readDouble q := rfl
@[simp] theorem State.store_readFcc (s : State) (cells : List Host.Cell) (q : CC) :
    (s.store cells).readFcc q = s.readFcc q := rfl

/-! ### `advance` -/

@[simp] theorem State.advance_gpr (s : State) : (s.advance).gpr = s.gpr := rfl
@[simp] theorem State.advance_fpr (s : State) : (s.advance).fpr = s.fpr := rfl
@[simp] theorem State.advance_fcc (s : State) : (s.advance).fcc = s.fcc := rfl
@[simp] theorem State.advance_hi (s : State) : (s.advance).hi = s.hi := rfl
@[simp] theorem State.advance_lo (s : State) : (s.advance).lo = s.lo := rfl
@[simp] theorem State.advance_pc (s : State) : (s.advance).pc = s.npc := rfl
@[simp] theorem State.advance_npc (s : State) : (s.advance).npc = s.npc + 4#32 := rfl
@[simp] theorem State.advance_ds (s : State) : (s.advance).ds = false := rfl
@[simp] theorem State.advance_status (s : State) : (s.advance).status = s.status := rfl
@[simp] theorem State.advance_cause (s : State) : (s.advance).cause = s.cause := rfl
@[simp] theorem State.advance_epc (s : State) : (s.advance).epc = s.epc := rfl
@[simp] theorem State.advance_badVAddr (s : State) : (s.advance).badVAddr = s.badVAddr := rfl
@[simp] theorem State.advance_llbit (s : State) : (s.advance).llbit = s.llbit := rfl
@[simp] theorem State.advance_lladdr (s : State) : (s.advance).lladdr = s.lladdr := rfl
@[simp] theorem State.advance_mem (s : State) : (s.advance).mem = s.mem := rfl
@[simp] theorem State.advance_stored (s : State) : (s.advance).stored = s.stored := rfl
@[simp] theorem State.advance_params (s : State) : (s.advance).params = s.params := rfl
@[simp] theorem State.advance_irqInput (s : State) : (s.advance).irqInput = s.irqInput := rfl
@[simp] theorem State.advance_draws (s : State) : (s.advance).draws = s.draws := rfl
@[simp] theorem State.advance_exl (s : State) :
    (s.advance).exl = s.exl := rfl
@[simp] theorem State.advance_um (s : State) :
    (s.advance).um = s.um := rfl
@[simp] theorem State.advance_ie (s : State) :
    (s.advance).ie = s.ie := rfl
@[simp] theorem State.advance_im (s : State) :
    (s.advance).im = s.im := rfl
@[simp] theorem State.advance_cu1 (s : State) :
    (s.advance).cu1 = s.cu1 := rfl
@[simp] theorem State.advance_userMode (s : State) :
    (s.advance).userMode = s.userMode := rfl
@[simp] theorem State.advance_ip (s : State) :
    (s.advance).ip = s.ip := rfl
@[simp] theorem State.advance_excCode (s : State) :
    (s.advance).excCode = s.excCode := rfl
@[simp] theorem State.advance_ce (s : State) :
    (s.advance).ce = s.ce := rfl
@[simp] theorem State.advance_bd (s : State) :
    (s.advance).bd = s.bd := rfl
@[simp] theorem State.advance_fpu (s : State) :
    (s.advance).fpu = s.fpu := rfl
@[simp] theorem State.advance_readHiLo (s : State) :
    (s.advance).readHiLo = s.readHiLo := rfl
@[simp] theorem State.advance_readGpr (s : State) (q : Reg) :
    (s.advance).readGpr q = s.readGpr q := rfl
@[simp] theorem State.advance_readFpr (s : State) (q : FReg) :
    (s.advance).readFpr q = s.readFpr q := rfl
@[simp] theorem State.advance_readDouble (s : State) (q : FReg) :
    (s.advance).readDouble q = s.readDouble q := rfl
@[simp] theorem State.advance_readFcc (s : State) (q : CC) :
    (s.advance).readFcc q = s.readFcc q := rfl
@[simp] theorem State.advance_readByte (s : State) (a : Word) :
    (s.advance).readByte a = s.readByte a := rfl
@[simp] theorem State.advance_readHalf (s : State) (a : Word) :
    (s.advance).readHalf a = s.readHalf a := rfl
@[simp] theorem State.advance_readWord (s : State) (a : Word) :
    (s.advance).readWord a = s.readWord a := rfl
@[simp] theorem State.advance_readDword (s : State) (a : Word) :
    (s.advance).readDword a = s.readDword a := rfl

/-! ### `branchTo` -/

@[simp] theorem State.branchTo_gpr (s : State) (target : Word) : (s.branchTo target).gpr = s.gpr := rfl
@[simp] theorem State.branchTo_fpr (s : State) (target : Word) : (s.branchTo target).fpr = s.fpr := rfl
@[simp] theorem State.branchTo_fcc (s : State) (target : Word) : (s.branchTo target).fcc = s.fcc := rfl
@[simp] theorem State.branchTo_hi (s : State) (target : Word) : (s.branchTo target).hi = s.hi := rfl
@[simp] theorem State.branchTo_lo (s : State) (target : Word) : (s.branchTo target).lo = s.lo := rfl
@[simp] theorem State.branchTo_pc (s : State) (target : Word) : (s.branchTo target).pc = s.npc := rfl
@[simp] theorem State.branchTo_npc (s : State) (target : Word) : (s.branchTo target).npc = target := rfl
@[simp] theorem State.branchTo_ds (s : State) (target : Word) : (s.branchTo target).ds = true := rfl
@[simp] theorem State.branchTo_status (s : State) (target : Word) : (s.branchTo target).status = s.status := rfl
@[simp] theorem State.branchTo_cause (s : State) (target : Word) : (s.branchTo target).cause = s.cause := rfl
@[simp] theorem State.branchTo_epc (s : State) (target : Word) : (s.branchTo target).epc = s.epc := rfl
@[simp] theorem State.branchTo_badVAddr (s : State) (target : Word) : (s.branchTo target).badVAddr = s.badVAddr := rfl
@[simp] theorem State.branchTo_llbit (s : State) (target : Word) : (s.branchTo target).llbit = s.llbit := rfl
@[simp] theorem State.branchTo_lladdr (s : State) (target : Word) : (s.branchTo target).lladdr = s.lladdr := rfl
@[simp] theorem State.branchTo_mem (s : State) (target : Word) : (s.branchTo target).mem = s.mem := rfl
@[simp] theorem State.branchTo_stored (s : State) (target : Word) : (s.branchTo target).stored = s.stored := rfl
@[simp] theorem State.branchTo_params (s : State) (target : Word) : (s.branchTo target).params = s.params := rfl
@[simp] theorem State.branchTo_irqInput (s : State) (target : Word) : (s.branchTo target).irqInput = s.irqInput := rfl
@[simp] theorem State.branchTo_draws (s : State) (target : Word) : (s.branchTo target).draws = s.draws := rfl
@[simp] theorem State.branchTo_exl (s : State) (target : Word) :
    (s.branchTo target).exl = s.exl := rfl
@[simp] theorem State.branchTo_um (s : State) (target : Word) :
    (s.branchTo target).um = s.um := rfl
@[simp] theorem State.branchTo_ie (s : State) (target : Word) :
    (s.branchTo target).ie = s.ie := rfl
@[simp] theorem State.branchTo_im (s : State) (target : Word) :
    (s.branchTo target).im = s.im := rfl
@[simp] theorem State.branchTo_cu1 (s : State) (target : Word) :
    (s.branchTo target).cu1 = s.cu1 := rfl
@[simp] theorem State.branchTo_userMode (s : State) (target : Word) :
    (s.branchTo target).userMode = s.userMode := rfl
@[simp] theorem State.branchTo_ip (s : State) (target : Word) :
    (s.branchTo target).ip = s.ip := rfl
@[simp] theorem State.branchTo_excCode (s : State) (target : Word) :
    (s.branchTo target).excCode = s.excCode := rfl
@[simp] theorem State.branchTo_ce (s : State) (target : Word) :
    (s.branchTo target).ce = s.ce := rfl
@[simp] theorem State.branchTo_bd (s : State) (target : Word) :
    (s.branchTo target).bd = s.bd := rfl
@[simp] theorem State.branchTo_fpu (s : State) (target : Word) :
    (s.branchTo target).fpu = s.fpu := rfl
@[simp] theorem State.branchTo_readHiLo (s : State) (target : Word) :
    (s.branchTo target).readHiLo = s.readHiLo := rfl
@[simp] theorem State.branchTo_readGpr (s : State) (target : Word) (q : Reg) :
    (s.branchTo target).readGpr q = s.readGpr q := rfl
@[simp] theorem State.branchTo_readFpr (s : State) (target : Word) (q : FReg) :
    (s.branchTo target).readFpr q = s.readFpr q := rfl
@[simp] theorem State.branchTo_readDouble (s : State) (target : Word) (q : FReg) :
    (s.branchTo target).readDouble q = s.readDouble q := rfl
@[simp] theorem State.branchTo_readFcc (s : State) (target : Word) (q : CC) :
    (s.branchTo target).readFcc q = s.readFcc q := rfl
@[simp] theorem State.branchTo_readByte (s : State) (target : Word) (a : Word) :
    (s.branchTo target).readByte a = s.readByte a := rfl
@[simp] theorem State.branchTo_readHalf (s : State) (target : Word) (a : Word) :
    (s.branchTo target).readHalf a = s.readHalf a := rfl
@[simp] theorem State.branchTo_readWord (s : State) (target : Word) (a : Word) :
    (s.branchTo target).readWord a = s.readWord a := rfl
@[simp] theorem State.branchTo_readDword (s : State) (target : Word) (a : Word) :
    (s.branchTo target).readDword a = s.readDword a := rfl

/-! ### `branchNotTaken` -/

@[simp] theorem State.branchNotTaken_gpr (s : State) : (s.branchNotTaken).gpr = s.gpr := rfl
@[simp] theorem State.branchNotTaken_fpr (s : State) : (s.branchNotTaken).fpr = s.fpr := rfl
@[simp] theorem State.branchNotTaken_fcc (s : State) : (s.branchNotTaken).fcc = s.fcc := rfl
@[simp] theorem State.branchNotTaken_hi (s : State) : (s.branchNotTaken).hi = s.hi := rfl
@[simp] theorem State.branchNotTaken_lo (s : State) : (s.branchNotTaken).lo = s.lo := rfl
@[simp] theorem State.branchNotTaken_pc (s : State) : (s.branchNotTaken).pc = s.npc := rfl
@[simp] theorem State.branchNotTaken_npc (s : State) : (s.branchNotTaken).npc = s.npc + 4#32 := rfl
@[simp] theorem State.branchNotTaken_ds (s : State) : (s.branchNotTaken).ds = true := rfl
@[simp] theorem State.branchNotTaken_status (s : State) : (s.branchNotTaken).status = s.status := rfl
@[simp] theorem State.branchNotTaken_cause (s : State) : (s.branchNotTaken).cause = s.cause := rfl
@[simp] theorem State.branchNotTaken_epc (s : State) : (s.branchNotTaken).epc = s.epc := rfl
@[simp] theorem State.branchNotTaken_badVAddr (s : State) : (s.branchNotTaken).badVAddr = s.badVAddr := rfl
@[simp] theorem State.branchNotTaken_llbit (s : State) : (s.branchNotTaken).llbit = s.llbit := rfl
@[simp] theorem State.branchNotTaken_lladdr (s : State) : (s.branchNotTaken).lladdr = s.lladdr := rfl
@[simp] theorem State.branchNotTaken_mem (s : State) : (s.branchNotTaken).mem = s.mem := rfl
@[simp] theorem State.branchNotTaken_stored (s : State) : (s.branchNotTaken).stored = s.stored := rfl
@[simp] theorem State.branchNotTaken_params (s : State) : (s.branchNotTaken).params = s.params := rfl
@[simp] theorem State.branchNotTaken_irqInput (s : State) : (s.branchNotTaken).irqInput = s.irqInput := rfl
@[simp] theorem State.branchNotTaken_draws (s : State) : (s.branchNotTaken).draws = s.draws := rfl
@[simp] theorem State.branchNotTaken_exl (s : State) :
    (s.branchNotTaken).exl = s.exl := rfl
@[simp] theorem State.branchNotTaken_um (s : State) :
    (s.branchNotTaken).um = s.um := rfl
@[simp] theorem State.branchNotTaken_ie (s : State) :
    (s.branchNotTaken).ie = s.ie := rfl
@[simp] theorem State.branchNotTaken_im (s : State) :
    (s.branchNotTaken).im = s.im := rfl
@[simp] theorem State.branchNotTaken_cu1 (s : State) :
    (s.branchNotTaken).cu1 = s.cu1 := rfl
@[simp] theorem State.branchNotTaken_userMode (s : State) :
    (s.branchNotTaken).userMode = s.userMode := rfl
@[simp] theorem State.branchNotTaken_ip (s : State) :
    (s.branchNotTaken).ip = s.ip := rfl
@[simp] theorem State.branchNotTaken_excCode (s : State) :
    (s.branchNotTaken).excCode = s.excCode := rfl
@[simp] theorem State.branchNotTaken_ce (s : State) :
    (s.branchNotTaken).ce = s.ce := rfl
@[simp] theorem State.branchNotTaken_bd (s : State) :
    (s.branchNotTaken).bd = s.bd := rfl
@[simp] theorem State.branchNotTaken_fpu (s : State) :
    (s.branchNotTaken).fpu = s.fpu := rfl
@[simp] theorem State.branchNotTaken_readHiLo (s : State) :
    (s.branchNotTaken).readHiLo = s.readHiLo := rfl
@[simp] theorem State.branchNotTaken_readGpr (s : State) (q : Reg) :
    (s.branchNotTaken).readGpr q = s.readGpr q := rfl
@[simp] theorem State.branchNotTaken_readFpr (s : State) (q : FReg) :
    (s.branchNotTaken).readFpr q = s.readFpr q := rfl
@[simp] theorem State.branchNotTaken_readDouble (s : State) (q : FReg) :
    (s.branchNotTaken).readDouble q = s.readDouble q := rfl
@[simp] theorem State.branchNotTaken_readFcc (s : State) (q : CC) :
    (s.branchNotTaken).readFcc q = s.readFcc q := rfl
@[simp] theorem State.branchNotTaken_readByte (s : State) (a : Word) :
    (s.branchNotTaken).readByte a = s.readByte a := rfl
@[simp] theorem State.branchNotTaken_readHalf (s : State) (a : Word) :
    (s.branchNotTaken).readHalf a = s.readHalf a := rfl
@[simp] theorem State.branchNotTaken_readWord (s : State) (a : Word) :
    (s.branchNotTaken).readWord a = s.readWord a := rfl
@[simp] theorem State.branchNotTaken_readDword (s : State) (a : Word) :
    (s.branchNotTaken).readDword a = s.readDword a := rfl

/-! ### `setSoftIp` -/

@[simp] theorem State.setSoftIp_gpr (s : State) (v : BitVec 2) : (s.setSoftIp v).gpr = s.gpr := rfl
@[simp] theorem State.setSoftIp_fpr (s : State) (v : BitVec 2) : (s.setSoftIp v).fpr = s.fpr := rfl
@[simp] theorem State.setSoftIp_fcc (s : State) (v : BitVec 2) : (s.setSoftIp v).fcc = s.fcc := rfl
@[simp] theorem State.setSoftIp_hi (s : State) (v : BitVec 2) : (s.setSoftIp v).hi = s.hi := rfl
@[simp] theorem State.setSoftIp_lo (s : State) (v : BitVec 2) : (s.setSoftIp v).lo = s.lo := rfl
@[simp] theorem State.setSoftIp_pc (s : State) (v : BitVec 2) : (s.setSoftIp v).pc = s.pc := rfl
@[simp] theorem State.setSoftIp_npc (s : State) (v : BitVec 2) : (s.setSoftIp v).npc = s.npc := rfl
@[simp] theorem State.setSoftIp_ds (s : State) (v : BitVec 2) : (s.setSoftIp v).ds = s.ds := rfl
@[simp] theorem State.setSoftIp_status (s : State) (v : BitVec 2) : (s.setSoftIp v).status = s.status := rfl
@[simp] theorem State.setSoftIp_cause (s : State) (v : BitVec 2) : (s.setSoftIp v).cause = setField s.cause 8 v := rfl
@[simp] theorem State.setSoftIp_epc (s : State) (v : BitVec 2) : (s.setSoftIp v).epc = s.epc := rfl
@[simp] theorem State.setSoftIp_badVAddr (s : State) (v : BitVec 2) : (s.setSoftIp v).badVAddr = s.badVAddr := rfl
@[simp] theorem State.setSoftIp_llbit (s : State) (v : BitVec 2) : (s.setSoftIp v).llbit = s.llbit := rfl
@[simp] theorem State.setSoftIp_lladdr (s : State) (v : BitVec 2) : (s.setSoftIp v).lladdr = s.lladdr := rfl
@[simp] theorem State.setSoftIp_mem (s : State) (v : BitVec 2) : (s.setSoftIp v).mem = s.mem := rfl
@[simp] theorem State.setSoftIp_stored (s : State) (v : BitVec 2) : (s.setSoftIp v).stored = s.stored := rfl
@[simp] theorem State.setSoftIp_params (s : State) (v : BitVec 2) : (s.setSoftIp v).params = s.params := rfl
@[simp] theorem State.setSoftIp_irqInput (s : State) (v : BitVec 2) : (s.setSoftIp v).irqInput = s.irqInput := rfl
@[simp] theorem State.setSoftIp_draws (s : State) (v : BitVec 2) : (s.setSoftIp v).draws = s.draws := rfl
@[simp] theorem State.setSoftIp_exl (s : State) (v : BitVec 2) :
    (s.setSoftIp v).exl = s.exl := rfl
@[simp] theorem State.setSoftIp_um (s : State) (v : BitVec 2) :
    (s.setSoftIp v).um = s.um := rfl
@[simp] theorem State.setSoftIp_ie (s : State) (v : BitVec 2) :
    (s.setSoftIp v).ie = s.ie := rfl
@[simp] theorem State.setSoftIp_im (s : State) (v : BitVec 2) :
    (s.setSoftIp v).im = s.im := rfl
@[simp] theorem State.setSoftIp_cu1 (s : State) (v : BitVec 2) :
    (s.setSoftIp v).cu1 = s.cu1 := rfl
@[simp] theorem State.setSoftIp_userMode (s : State) (v : BitVec 2) :
    (s.setSoftIp v).userMode = s.userMode := rfl
@[simp] theorem State.setSoftIp_fpu (s : State) (v : BitVec 2) :
    (s.setSoftIp v).fpu = s.fpu := rfl
@[simp] theorem State.setSoftIp_readHiLo (s : State) (v : BitVec 2) :
    (s.setSoftIp v).readHiLo = s.readHiLo := rfl
@[simp] theorem State.setSoftIp_readGpr (s : State) (v : BitVec 2) (q : Reg) :
    (s.setSoftIp v).readGpr q = s.readGpr q := rfl
@[simp] theorem State.setSoftIp_readFpr (s : State) (v : BitVec 2) (q : FReg) :
    (s.setSoftIp v).readFpr q = s.readFpr q := rfl
@[simp] theorem State.setSoftIp_readDouble (s : State) (v : BitVec 2) (q : FReg) :
    (s.setSoftIp v).readDouble q = s.readDouble q := rfl
@[simp] theorem State.setSoftIp_readFcc (s : State) (v : BitVec 2) (q : CC) :
    (s.setSoftIp v).readFcc q = s.readFcc q := rfl
@[simp] theorem State.setSoftIp_readByte (s : State) (v : BitVec 2) (a : Word) :
    (s.setSoftIp v).readByte a = s.readByte a := rfl
@[simp] theorem State.setSoftIp_readHalf (s : State) (v : BitVec 2) (a : Word) :
    (s.setSoftIp v).readHalf a = s.readHalf a := rfl
@[simp] theorem State.setSoftIp_readWord (s : State) (v : BitVec 2) (a : Word) :
    (s.setSoftIp v).readWord a = s.readWord a := rfl
@[simp] theorem State.setSoftIp_readDword (s : State) (v : BitVec 2) (a : Word) :
    (s.setSoftIp v).readDword a = s.readDword a := rfl

/-! ### `setHardIp` -/

@[simp] theorem State.setHardIp_gpr (s : State) (v : BitVec 6) : (s.setHardIp v).gpr = s.gpr := rfl
@[simp] theorem State.setHardIp_fpr (s : State) (v : BitVec 6) : (s.setHardIp v).fpr = s.fpr := rfl
@[simp] theorem State.setHardIp_fcc (s : State) (v : BitVec 6) : (s.setHardIp v).fcc = s.fcc := rfl
@[simp] theorem State.setHardIp_hi (s : State) (v : BitVec 6) : (s.setHardIp v).hi = s.hi := rfl
@[simp] theorem State.setHardIp_lo (s : State) (v : BitVec 6) : (s.setHardIp v).lo = s.lo := rfl
@[simp] theorem State.setHardIp_pc (s : State) (v : BitVec 6) : (s.setHardIp v).pc = s.pc := rfl
@[simp] theorem State.setHardIp_npc (s : State) (v : BitVec 6) : (s.setHardIp v).npc = s.npc := rfl
@[simp] theorem State.setHardIp_ds (s : State) (v : BitVec 6) : (s.setHardIp v).ds = s.ds := rfl
@[simp] theorem State.setHardIp_status (s : State) (v : BitVec 6) : (s.setHardIp v).status = s.status := rfl
@[simp] theorem State.setHardIp_cause (s : State) (v : BitVec 6) :
    (s.setHardIp v).cause = setField s.cause 10 v := rfl
@[simp] theorem State.setHardIp_epc (s : State) (v : BitVec 6) : (s.setHardIp v).epc = s.epc := rfl
@[simp] theorem State.setHardIp_badVAddr (s : State) (v : BitVec 6) : (s.setHardIp v).badVAddr = s.badVAddr := rfl
@[simp] theorem State.setHardIp_llbit (s : State) (v : BitVec 6) : (s.setHardIp v).llbit = s.llbit := rfl
@[simp] theorem State.setHardIp_lladdr (s : State) (v : BitVec 6) : (s.setHardIp v).lladdr = s.lladdr := rfl
@[simp] theorem State.setHardIp_mem (s : State) (v : BitVec 6) : (s.setHardIp v).mem = s.mem := rfl
@[simp] theorem State.setHardIp_stored (s : State) (v : BitVec 6) : (s.setHardIp v).stored = s.stored := rfl
@[simp] theorem State.setHardIp_params (s : State) (v : BitVec 6) : (s.setHardIp v).params = s.params := rfl
@[simp] theorem State.setHardIp_irqInput (s : State) (v : BitVec 6) : (s.setHardIp v).irqInput = s.irqInput := rfl
@[simp] theorem State.setHardIp_draws (s : State) (v : BitVec 6) : (s.setHardIp v).draws = s.draws := rfl
@[simp] theorem State.setHardIp_exl (s : State) (v : BitVec 6) :
    (s.setHardIp v).exl = s.exl := rfl
@[simp] theorem State.setHardIp_um (s : State) (v : BitVec 6) :
    (s.setHardIp v).um = s.um := rfl
@[simp] theorem State.setHardIp_ie (s : State) (v : BitVec 6) :
    (s.setHardIp v).ie = s.ie := rfl
@[simp] theorem State.setHardIp_im (s : State) (v : BitVec 6) :
    (s.setHardIp v).im = s.im := rfl
@[simp] theorem State.setHardIp_cu1 (s : State) (v : BitVec 6) :
    (s.setHardIp v).cu1 = s.cu1 := rfl
@[simp] theorem State.setHardIp_userMode (s : State) (v : BitVec 6) :
    (s.setHardIp v).userMode = s.userMode := rfl
@[simp] theorem State.setHardIp_fpu (s : State) (v : BitVec 6) :
    (s.setHardIp v).fpu = s.fpu := rfl
@[simp] theorem State.setHardIp_readHiLo (s : State) (v : BitVec 6) :
    (s.setHardIp v).readHiLo = s.readHiLo := rfl
@[simp] theorem State.setHardIp_readGpr (s : State) (v : BitVec 6) (q : Reg) :
    (s.setHardIp v).readGpr q = s.readGpr q := rfl
@[simp] theorem State.setHardIp_readFpr (s : State) (v : BitVec 6) (q : FReg) :
    (s.setHardIp v).readFpr q = s.readFpr q := rfl
@[simp] theorem State.setHardIp_readDouble (s : State) (v : BitVec 6) (q : FReg) :
    (s.setHardIp v).readDouble q = s.readDouble q := rfl
@[simp] theorem State.setHardIp_readFcc (s : State) (v : BitVec 6) (q : CC) :
    (s.setHardIp v).readFcc q = s.readFcc q := rfl
@[simp] theorem State.setHardIp_readByte (s : State) (v : BitVec 6) (a : Word) :
    (s.setHardIp v).readByte a = s.readByte a := rfl
@[simp] theorem State.setHardIp_readHalf (s : State) (v : BitVec 6) (a : Word) :
    (s.setHardIp v).readHalf a = s.readHalf a := rfl
@[simp] theorem State.setHardIp_readWord (s : State) (v : BitVec 6) (a : Word) :
    (s.setHardIp v).readWord a = s.readWord a := rfl
@[simp] theorem State.setHardIp_readDword (s : State) (v : BitVec 6) (a : Word) :
    (s.setHardIp v).readDword a = s.readDword a := rfl

/-! ### `enterException` -/

@[simp] theorem enterException_gpr (s : State) (e : Exc) : (enterException e s).gpr = s.gpr := rfl
@[simp] theorem enterException_fpr (s : State) (e : Exc) : (enterException e s).fpr = s.fpr := rfl
@[simp] theorem enterException_fcc (s : State) (e : Exc) : (enterException e s).fcc = s.fcc := rfl
@[simp] theorem enterException_hi (s : State) (e : Exc) : (enterException e s).hi = s.hi := rfl
@[simp] theorem enterException_lo (s : State) (e : Exc) : (enterException e s).lo = s.lo := rfl
@[simp] theorem enterException_pc (s : State) (e : Exc) : (enterException e s).pc = excVector := rfl
@[simp] theorem enterException_npc (s : State) (e : Exc) : (enterException e s).npc = excVector + 4#32 := rfl
@[simp] theorem enterException_ds (s : State) (e : Exc) : (enterException e s).ds = false := rfl
@[simp] theorem enterException_status (s : State) (e : Exc) :
    (enterException e s).status = setField s.status 1 1#1 := rfl
@[simp] theorem enterException_cause (s : State) (e : Exc) : (enterException e s).cause = entryCause e s := rfl
@[simp] theorem enterException_epc (s : State) (e : Exc) : (enterException e s).epc = entryEpc s := rfl
@[simp] theorem enterException_badVAddr (s : State) (e : Exc) :
    (enterException e s).badVAddr = entryBadVAddr e s := rfl
@[simp] theorem enterException_llbit (s : State) (e : Exc) : (enterException e s).llbit = false := rfl
@[simp] theorem enterException_lladdr (s : State) (e : Exc) : (enterException e s).lladdr = s.lladdr := rfl
@[simp] theorem enterException_mem (s : State) (e : Exc) : (enterException e s).mem = s.mem := rfl
@[simp] theorem enterException_stored (s : State) (e : Exc) : (enterException e s).stored = s.stored := rfl
@[simp] theorem enterException_params (s : State) (e : Exc) : (enterException e s).params = s.params := rfl
@[simp] theorem enterException_irqInput (s : State) (e : Exc) : (enterException e s).irqInput = s.irqInput := rfl
@[simp] theorem enterException_draws (s : State) (e : Exc) : (enterException e s).draws = s.draws := rfl
@[simp] theorem enterException_fpu (s : State) (e : Exc) :
    (enterException e s).fpu = s.fpu := rfl
@[simp] theorem enterException_readHiLo (s : State) (e : Exc) :
    (enterException e s).readHiLo = s.readHiLo := rfl
@[simp] theorem enterException_readGpr (s : State) (e : Exc) (q : Reg) :
    (enterException e s).readGpr q = s.readGpr q := rfl
@[simp] theorem enterException_readFpr (s : State) (e : Exc) (q : FReg) :
    (enterException e s).readFpr q = s.readFpr q := rfl
@[simp] theorem enterException_readDouble (s : State) (e : Exc) (q : FReg) :
    (enterException e s).readDouble q = s.readDouble q := rfl
@[simp] theorem enterException_readFcc (s : State) (e : Exc) (q : CC) :
    (enterException e s).readFcc q = s.readFcc q := rfl
@[simp] theorem enterException_readByte (s : State) (e : Exc) (a : Word) :
    (enterException e s).readByte a = s.readByte a := rfl
@[simp] theorem enterException_readHalf (s : State) (e : Exc) (a : Word) :
    (enterException e s).readHalf a = s.readHalf a := rfl
@[simp] theorem enterException_readWord (s : State) (e : Exc) (a : Word) :
    (enterException e s).readWord a = s.readWord a := rfl
@[simp] theorem enterException_readDword (s : State) (e : Exc) (a : Word) :
    (enterException e s).readDword a = s.readDword a := rfl

/-! ### `enterFetchError` -/

@[simp] theorem enterFetchError_gpr (s : State) : (enterFetchError s).gpr = s.gpr := rfl
@[simp] theorem enterFetchError_fpr (s : State) : (enterFetchError s).fpr = s.fpr := rfl
@[simp] theorem enterFetchError_fcc (s : State) : (enterFetchError s).fcc = s.fcc := rfl
@[simp] theorem enterFetchError_hi (s : State) : (enterFetchError s).hi = s.hi := rfl
@[simp] theorem enterFetchError_lo (s : State) : (enterFetchError s).lo = s.lo := rfl
@[simp] theorem enterFetchError_pc (s : State) : (enterFetchError s).pc = excVector := rfl
@[simp] theorem enterFetchError_npc (s : State) : (enterFetchError s).npc = excVector + 4#32 := rfl
@[simp] theorem enterFetchError_ds (s : State) : (enterFetchError s).ds = false := rfl
@[simp] theorem enterFetchError_status (s : State) : (enterFetchError s).status = setField s.status 1 1#1 := rfl
@[simp] theorem enterFetchError_cause (s : State) :
    (enterFetchError s).cause = setField (if s.exl then s.cause else setField s.cause 31 0#1) 2 4#5 := rfl
@[simp] theorem enterFetchError_epc (s : State) : (enterFetchError s).epc = if s.exl then s.epc else s.pc := rfl
@[simp] theorem enterFetchError_badVAddr (s : State) : (enterFetchError s).badVAddr = s.pc := rfl
@[simp] theorem enterFetchError_llbit (s : State) : (enterFetchError s).llbit = false := rfl
@[simp] theorem enterFetchError_lladdr (s : State) : (enterFetchError s).lladdr = s.lladdr := rfl
@[simp] theorem enterFetchError_mem (s : State) : (enterFetchError s).mem = s.mem := rfl
@[simp] theorem enterFetchError_stored (s : State) : (enterFetchError s).stored = s.stored := rfl
@[simp] theorem enterFetchError_params (s : State) : (enterFetchError s).params = s.params := rfl
@[simp] theorem enterFetchError_irqInput (s : State) : (enterFetchError s).irqInput = s.irqInput := rfl
@[simp] theorem enterFetchError_draws (s : State) : (enterFetchError s).draws = s.draws := rfl
@[simp] theorem enterFetchError_fpu (s : State) :
    (enterFetchError s).fpu = s.fpu := rfl
@[simp] theorem enterFetchError_readHiLo (s : State) :
    (enterFetchError s).readHiLo = s.readHiLo := rfl
@[simp] theorem enterFetchError_readGpr (s : State) (q : Reg) :
    (enterFetchError s).readGpr q = s.readGpr q := rfl
@[simp] theorem enterFetchError_readFpr (s : State) (q : FReg) :
    (enterFetchError s).readFpr q = s.readFpr q := rfl
@[simp] theorem enterFetchError_readDouble (s : State) (q : FReg) :
    (enterFetchError s).readDouble q = s.readDouble q := rfl
@[simp] theorem enterFetchError_readFcc (s : State) (q : CC) :
    (enterFetchError s).readFcc q = s.readFcc q := rfl
@[simp] theorem enterFetchError_readByte (s : State) (a : Word) :
    (enterFetchError s).readByte a = s.readByte a := rfl
@[simp] theorem enterFetchError_readHalf (s : State) (a : Word) :
    (enterFetchError s).readHalf a = s.readHalf a := rfl
@[simp] theorem enterFetchError_readWord (s : State) (a : Word) :
    (enterFetchError s).readWord a = s.readWord a := rfl
@[simp] theorem enterFetchError_readDword (s : State) (a : Word) :
    (enterFetchError s).readDword a = s.readDword a := rfl

/-! ### `returnFromException` -/

@[simp] theorem returnFromException_gpr (s : State) : (returnFromException s).gpr = s.gpr := rfl
@[simp] theorem returnFromException_fpr (s : State) : (returnFromException s).fpr = s.fpr := rfl
@[simp] theorem returnFromException_fcc (s : State) : (returnFromException s).fcc = s.fcc := rfl
@[simp] theorem returnFromException_hi (s : State) : (returnFromException s).hi = s.hi := rfl
@[simp] theorem returnFromException_lo (s : State) : (returnFromException s).lo = s.lo := rfl
@[simp] theorem returnFromException_pc (s : State) : (returnFromException s).pc = s.epc := rfl
@[simp] theorem returnFromException_npc (s : State) : (returnFromException s).npc = s.epc + 4#32 := rfl
@[simp] theorem returnFromException_ds (s : State) : (returnFromException s).ds = false := rfl
@[simp] theorem returnFromException_status (s : State) :
    (returnFromException s).status = setField s.status 1 0#1 := rfl
@[simp] theorem returnFromException_cause (s : State) : (returnFromException s).cause = s.cause := rfl
@[simp] theorem returnFromException_epc (s : State) : (returnFromException s).epc = s.epc := rfl
@[simp] theorem returnFromException_badVAddr (s : State) : (returnFromException s).badVAddr = s.badVAddr := rfl
@[simp] theorem returnFromException_llbit (s : State) : (returnFromException s).llbit = false := rfl
@[simp] theorem returnFromException_lladdr (s : State) : (returnFromException s).lladdr = s.lladdr := rfl
@[simp] theorem returnFromException_mem (s : State) : (returnFromException s).mem = s.mem := rfl
@[simp] theorem returnFromException_stored (s : State) : (returnFromException s).stored = s.stored := rfl
@[simp] theorem returnFromException_params (s : State) : (returnFromException s).params = s.params := rfl
@[simp] theorem returnFromException_irqInput (s : State) : (returnFromException s).irqInput = s.irqInput := rfl
@[simp] theorem returnFromException_draws (s : State) : (returnFromException s).draws = s.draws := rfl
@[simp] theorem returnFromException_ip (s : State) :
    (returnFromException s).ip = s.ip := rfl
@[simp] theorem returnFromException_excCode (s : State) :
    (returnFromException s).excCode = s.excCode := rfl
@[simp] theorem returnFromException_ce (s : State) :
    (returnFromException s).ce = s.ce := rfl
@[simp] theorem returnFromException_bd (s : State) :
    (returnFromException s).bd = s.bd := rfl
@[simp] theorem returnFromException_fpu (s : State) :
    (returnFromException s).fpu = s.fpu := rfl
@[simp] theorem returnFromException_readHiLo (s : State) :
    (returnFromException s).readHiLo = s.readHiLo := rfl
@[simp] theorem returnFromException_readGpr (s : State) (q : Reg) :
    (returnFromException s).readGpr q = s.readGpr q := rfl
@[simp] theorem returnFromException_readFpr (s : State) (q : FReg) :
    (returnFromException s).readFpr q = s.readFpr q := rfl
@[simp] theorem returnFromException_readDouble (s : State) (q : FReg) :
    (returnFromException s).readDouble q = s.readDouble q := rfl
@[simp] theorem returnFromException_readFcc (s : State) (q : CC) :
    (returnFromException s).readFcc q = s.readFcc q := rfl
@[simp] theorem returnFromException_readByte (s : State) (a : Word) :
    (returnFromException s).readByte a = s.readByte a := rfl
@[simp] theorem returnFromException_readHalf (s : State) (a : Word) :
    (returnFromException s).readHalf a = s.readHalf a := rfl
@[simp] theorem returnFromException_readWord (s : State) (a : Word) :
    (returnFromException s).readWord a = s.readWord a := rfl
@[simp] theorem returnFromException_readDword (s : State) (a : Word) :
    (returnFromException s).readDword a = s.readDword a := rfl

/-! ### `writeDouble`, `branchIf` and `sampleIrq` -/

@[simp] theorem State.writeDouble_gpr (s : State) (r : FReg) (v : Dword) : (s.writeDouble r v).gpr = s.gpr := rfl
@[simp] theorem State.writeDouble_fcc (s : State) (r : FReg) (v : Dword) : (s.writeDouble r v).fcc = s.fcc := rfl
@[simp] theorem State.writeDouble_hi (s : State) (r : FReg) (v : Dword) : (s.writeDouble r v).hi = s.hi := rfl
@[simp] theorem State.writeDouble_lo (s : State) (r : FReg) (v : Dword) : (s.writeDouble r v).lo = s.lo := rfl
@[simp] theorem State.writeDouble_pc (s : State) (r : FReg) (v : Dword) : (s.writeDouble r v).pc = s.pc := rfl
@[simp] theorem State.writeDouble_npc (s : State) (r : FReg) (v : Dword) : (s.writeDouble r v).npc = s.npc := rfl
@[simp] theorem State.writeDouble_ds (s : State) (r : FReg) (v : Dword) : (s.writeDouble r v).ds = s.ds := rfl
@[simp] theorem State.writeDouble_status (s : State) (r : FReg) (v : Dword) : (s.writeDouble r v).status = s.status := rfl
@[simp] theorem State.writeDouble_cause (s : State) (r : FReg) (v : Dword) : (s.writeDouble r v).cause = s.cause := rfl
@[simp] theorem State.writeDouble_epc (s : State) (r : FReg) (v : Dword) : (s.writeDouble r v).epc = s.epc := rfl
@[simp] theorem State.writeDouble_badVAddr (s : State) (r : FReg) (v : Dword) : (s.writeDouble r v).badVAddr = s.badVAddr := rfl
@[simp] theorem State.writeDouble_llbit (s : State) (r : FReg) (v : Dword) : (s.writeDouble r v).llbit = s.llbit := rfl
@[simp] theorem State.writeDouble_lladdr (s : State) (r : FReg) (v : Dword) : (s.writeDouble r v).lladdr = s.lladdr := rfl
@[simp] theorem State.writeDouble_mem (s : State) (r : FReg) (v : Dword) : (s.writeDouble r v).mem = s.mem := rfl
@[simp] theorem State.writeDouble_stored (s : State) (r : FReg) (v : Dword) : (s.writeDouble r v).stored = s.stored := rfl
@[simp] theorem State.writeDouble_params (s : State) (r : FReg) (v : Dword) : (s.writeDouble r v).params = s.params := rfl
@[simp] theorem State.writeDouble_irqInput (s : State) (r : FReg) (v : Dword) : (s.writeDouble r v).irqInput = s.irqInput := rfl
@[simp] theorem State.writeDouble_draws (s : State) (r : FReg) (v : Dword) : (s.writeDouble r v).draws = s.draws := rfl
@[simp] theorem State.writeDouble_exl (s : State) (r : FReg) (v : Dword) :
    (s.writeDouble r v).exl = s.exl := rfl
@[simp] theorem State.writeDouble_um (s : State) (r : FReg) (v : Dword) :
    (s.writeDouble r v).um = s.um := rfl
@[simp] theorem State.writeDouble_ie (s : State) (r : FReg) (v : Dword) :
    (s.writeDouble r v).ie = s.ie := rfl
@[simp] theorem State.writeDouble_im (s : State) (r : FReg) (v : Dword) :
    (s.writeDouble r v).im = s.im := rfl
@[simp] theorem State.writeDouble_cu1 (s : State) (r : FReg) (v : Dword) :
    (s.writeDouble r v).cu1 = s.cu1 := rfl
@[simp] theorem State.writeDouble_userMode (s : State) (r : FReg) (v : Dword) :
    (s.writeDouble r v).userMode = s.userMode := rfl
@[simp] theorem State.writeDouble_ip (s : State) (r : FReg) (v : Dword) :
    (s.writeDouble r v).ip = s.ip := rfl
@[simp] theorem State.writeDouble_excCode (s : State) (r : FReg) (v : Dword) :
    (s.writeDouble r v).excCode = s.excCode := rfl
@[simp] theorem State.writeDouble_ce (s : State) (r : FReg) (v : Dword) :
    (s.writeDouble r v).ce = s.ce := rfl
@[simp] theorem State.writeDouble_bd (s : State) (r : FReg) (v : Dword) :
    (s.writeDouble r v).bd = s.bd := rfl
@[simp] theorem State.writeDouble_fpu (s : State) (r : FReg) (v : Dword) :
    (s.writeDouble r v).fpu = s.fpu := rfl
@[simp] theorem State.writeDouble_readHiLo (s : State) (r : FReg) (v : Dword) :
    (s.writeDouble r v).readHiLo = s.readHiLo := rfl
@[simp] theorem State.writeDouble_readGpr (s : State) (r : FReg) (v : Dword) (q : Reg) :
    (s.writeDouble r v).readGpr q = s.readGpr q := rfl
@[simp] theorem State.writeDouble_readFcc (s : State) (r : FReg) (v : Dword) (q : CC) :
    (s.writeDouble r v).readFcc q = s.readFcc q := rfl
@[simp] theorem State.writeDouble_readByte (s : State) (r : FReg) (v : Dword) (a : Word) :
    (s.writeDouble r v).readByte a = s.readByte a := rfl
@[simp] theorem State.writeDouble_readHalf (s : State) (r : FReg) (v : Dword) (a : Word) :
    (s.writeDouble r v).readHalf a = s.readHalf a := rfl
@[simp] theorem State.writeDouble_readWord (s : State) (r : FReg) (v : Dword) (a : Word) :
    (s.writeDouble r v).readWord a = s.readWord a := rfl
@[simp] theorem State.writeDouble_readDword (s : State) (r : FReg) (v : Dword) (a : Word) :
    (s.writeDouble r v).readDword a = s.readDword a := rfl
@[simp] theorem State.branchIf_gpr (s : State) (c : Bool) (target : Word) : (s.branchIf c target).gpr = s.gpr := by
  cases c <;> rfl
@[simp] theorem State.branchIf_fpr (s : State) (c : Bool) (target : Word) : (s.branchIf c target).fpr = s.fpr := by
  cases c <;> rfl
@[simp] theorem State.branchIf_fcc (s : State) (c : Bool) (target : Word) : (s.branchIf c target).fcc = s.fcc := by
  cases c <;> rfl
@[simp] theorem State.branchIf_hi (s : State) (c : Bool) (target : Word) : (s.branchIf c target).hi = s.hi := by
  cases c <;> rfl
@[simp] theorem State.branchIf_lo (s : State) (c : Bool) (target : Word) : (s.branchIf c target).lo = s.lo := by
  cases c <;> rfl
@[simp] theorem State.branchIf_status (s : State) (c : Bool) (target : Word) : (s.branchIf c target).status = s.status := by
  cases c <;> rfl
@[simp] theorem State.branchIf_cause (s : State) (c : Bool) (target : Word) : (s.branchIf c target).cause = s.cause := by
  cases c <;> rfl
@[simp] theorem State.branchIf_epc (s : State) (c : Bool) (target : Word) : (s.branchIf c target).epc = s.epc := by
  cases c <;> rfl
@[simp] theorem State.branchIf_badVAddr (s : State) (c : Bool) (target : Word) : (s.branchIf c target).badVAddr = s.badVAddr := by
  cases c <;> rfl
@[simp] theorem State.branchIf_llbit (s : State) (c : Bool) (target : Word) : (s.branchIf c target).llbit = s.llbit := by
  cases c <;> rfl
@[simp] theorem State.branchIf_lladdr (s : State) (c : Bool) (target : Word) : (s.branchIf c target).lladdr = s.lladdr := by
  cases c <;> rfl
@[simp] theorem State.branchIf_mem (s : State) (c : Bool) (target : Word) : (s.branchIf c target).mem = s.mem := by
  cases c <;> rfl
@[simp] theorem State.branchIf_stored (s : State) (c : Bool) (target : Word) : (s.branchIf c target).stored = s.stored := by
  cases c <;> rfl
@[simp] theorem State.branchIf_params (s : State) (c : Bool) (target : Word) : (s.branchIf c target).params = s.params := by
  cases c <;> rfl
@[simp] theorem State.branchIf_irqInput (s : State) (c : Bool) (target : Word) : (s.branchIf c target).irqInput = s.irqInput := by
  cases c <;> rfl
@[simp] theorem State.branchIf_draws (s : State) (c : Bool) (target : Word) : (s.branchIf c target).draws = s.draws := by
  cases c <;> rfl
@[simp] theorem State.branchIf_pc (s : State) (c : Bool) (target : Word) : (s.branchIf c target).pc = s.npc := by
  cases c <;> rfl
@[simp] theorem State.branchIf_ds (s : State) (c : Bool) (target : Word) : (s.branchIf c target).ds = true := by
  cases c <;> rfl
@[simp] theorem State.branchIf_npc (s : State) (c : Bool) (target : Word) :
    (s.branchIf c target).npc = if c then target else s.npc + 4#32 := by
  cases c <;> rfl
@[simp] theorem State.branchIf_exl (s : State) (c : Bool) (target : Word) :
    (s.branchIf c target).exl = s.exl := by
  cases c <;> rfl
@[simp] theorem State.branchIf_um (s : State) (c : Bool) (target : Word) :
    (s.branchIf c target).um = s.um := by
  cases c <;> rfl
@[simp] theorem State.branchIf_ie (s : State) (c : Bool) (target : Word) :
    (s.branchIf c target).ie = s.ie := by
  cases c <;> rfl
@[simp] theorem State.branchIf_im (s : State) (c : Bool) (target : Word) :
    (s.branchIf c target).im = s.im := by
  cases c <;> rfl
@[simp] theorem State.branchIf_cu1 (s : State) (c : Bool) (target : Word) :
    (s.branchIf c target).cu1 = s.cu1 := by
  cases c <;> rfl
@[simp] theorem State.branchIf_userMode (s : State) (c : Bool) (target : Word) :
    (s.branchIf c target).userMode = s.userMode := by
  cases c <;> rfl
@[simp] theorem State.branchIf_ip (s : State) (c : Bool) (target : Word) :
    (s.branchIf c target).ip = s.ip := by
  cases c <;> rfl
@[simp] theorem State.branchIf_excCode (s : State) (c : Bool) (target : Word) :
    (s.branchIf c target).excCode = s.excCode := by
  cases c <;> rfl
@[simp] theorem State.branchIf_ce (s : State) (c : Bool) (target : Word) :
    (s.branchIf c target).ce = s.ce := by
  cases c <;> rfl
@[simp] theorem State.branchIf_bd (s : State) (c : Bool) (target : Word) :
    (s.branchIf c target).bd = s.bd := by
  cases c <;> rfl
@[simp] theorem State.branchIf_fpu (s : State) (c : Bool) (target : Word) :
    (s.branchIf c target).fpu = s.fpu := by
  cases c <;> rfl
@[simp] theorem State.branchIf_readHiLo (s : State) (c : Bool) (target : Word) :
    (s.branchIf c target).readHiLo = s.readHiLo := by
  cases c <;> rfl
@[simp] theorem State.branchIf_readGpr (s : State) (c : Bool) (target : Word) (q : Reg) :
    (s.branchIf c target).readGpr q = s.readGpr q := by
  cases c <;> rfl
@[simp] theorem State.branchIf_readFpr (s : State) (c : Bool) (target : Word) (q : FReg) :
    (s.branchIf c target).readFpr q = s.readFpr q := by
  cases c <;> rfl
@[simp] theorem State.branchIf_readDouble (s : State) (c : Bool) (target : Word) (q : FReg) :
    (s.branchIf c target).readDouble q = s.readDouble q := by
  cases c <;> rfl
@[simp] theorem State.branchIf_readFcc (s : State) (c : Bool) (target : Word) (q : CC) :
    (s.branchIf c target).readFcc q = s.readFcc q := by
  cases c <;> rfl
@[simp] theorem State.branchIf_readByte (s : State) (c : Bool) (target : Word) (a : Word) :
    (s.branchIf c target).readByte a = s.readByte a := by
  cases c <;> rfl
@[simp] theorem State.branchIf_readHalf (s : State) (c : Bool) (target : Word) (a : Word) :
    (s.branchIf c target).readHalf a = s.readHalf a := by
  cases c <;> rfl
@[simp] theorem State.branchIf_readWord (s : State) (c : Bool) (target : Word) (a : Word) :
    (s.branchIf c target).readWord a = s.readWord a := by
  cases c <;> rfl
@[simp] theorem State.branchIf_readDword (s : State) (c : Bool) (target : Word) (a : Word) :
    (s.branchIf c target).readDword a = s.readDword a := by
  cases c <;> rfl
@[simp] theorem sampleIrq_gpr (s : State) : (sampleIrq s).gpr = s.gpr := by
  unfold sampleIrq; split <;> rfl
@[simp] theorem sampleIrq_fpr (s : State) : (sampleIrq s).fpr = s.fpr := by
  unfold sampleIrq; split <;> rfl
@[simp] theorem sampleIrq_fcc (s : State) : (sampleIrq s).fcc = s.fcc := by
  unfold sampleIrq; split <;> rfl
@[simp] theorem sampleIrq_hi (s : State) : (sampleIrq s).hi = s.hi := by
  unfold sampleIrq; split <;> rfl
@[simp] theorem sampleIrq_lo (s : State) : (sampleIrq s).lo = s.lo := by
  unfold sampleIrq; split <;> rfl
@[simp] theorem sampleIrq_pc (s : State) : (sampleIrq s).pc = s.pc := by
  unfold sampleIrq; split <;> rfl
@[simp] theorem sampleIrq_npc (s : State) : (sampleIrq s).npc = s.npc := by
  unfold sampleIrq; split <;> rfl
@[simp] theorem sampleIrq_ds (s : State) : (sampleIrq s).ds = s.ds := by
  unfold sampleIrq; split <;> rfl
@[simp] theorem sampleIrq_status (s : State) : (sampleIrq s).status = s.status := by
  unfold sampleIrq; split <;> rfl
@[simp] theorem sampleIrq_epc (s : State) : (sampleIrq s).epc = s.epc := by
  unfold sampleIrq; split <;> rfl
@[simp] theorem sampleIrq_badVAddr (s : State) : (sampleIrq s).badVAddr = s.badVAddr := by
  unfold sampleIrq; split <;> rfl
@[simp] theorem sampleIrq_llbit (s : State) : (sampleIrq s).llbit = s.llbit := by
  unfold sampleIrq; split <;> rfl
@[simp] theorem sampleIrq_lladdr (s : State) : (sampleIrq s).lladdr = s.lladdr := by
  unfold sampleIrq; split <;> rfl
@[simp] theorem sampleIrq_mem (s : State) : (sampleIrq s).mem = s.mem := by
  unfold sampleIrq; split <;> rfl
@[simp] theorem sampleIrq_stored (s : State) : (sampleIrq s).stored = s.stored := by
  unfold sampleIrq; split <;> rfl
@[simp] theorem sampleIrq_params (s : State) : (sampleIrq s).params = s.params := by
  unfold sampleIrq; split <;> rfl
@[simp] theorem sampleIrq_draws (s : State) : (sampleIrq s).draws = s.draws := by
  unfold sampleIrq; split <;> rfl
@[simp] theorem sampleIrq_irqInput (s : State) : (sampleIrq s).irqInput = s.irqInput.tail := by
  unfold sampleIrq; split <;> simp [*]
@[simp] theorem sampleIrq_cause (s : State) :
    (sampleIrq s).cause = setField s.cause 10 (s.irqInput.headD 0#6) := by
  unfold sampleIrq; split <;> simp [*]
@[simp] theorem sampleIrq_exl (s : State) : (sampleIrq s).exl = s.exl := by
  unfold sampleIrq; split <;> rfl
@[simp] theorem sampleIrq_um (s : State) : (sampleIrq s).um = s.um := by
  unfold sampleIrq; split <;> rfl
@[simp] theorem sampleIrq_ie (s : State) : (sampleIrq s).ie = s.ie := by
  unfold sampleIrq; split <;> rfl
@[simp] theorem sampleIrq_im (s : State) : (sampleIrq s).im = s.im := by
  unfold sampleIrq; split <;> rfl
@[simp] theorem sampleIrq_cu1 (s : State) : (sampleIrq s).cu1 = s.cu1 := by
  unfold sampleIrq; split <;> rfl
@[simp] theorem sampleIrq_userMode (s : State) : (sampleIrq s).userMode = s.userMode := by
  unfold sampleIrq; split <;> rfl
@[simp] theorem sampleIrq_fpu (s : State) : (sampleIrq s).fpu = s.fpu := by
  unfold sampleIrq; split <;> rfl
@[simp] theorem sampleIrq_readHiLo (s : State) : (sampleIrq s).readHiLo = s.readHiLo := by
  unfold sampleIrq; split <;> rfl
@[simp] theorem sampleIrq_readGpr (s : State) (q : Reg) : (sampleIrq s).readGpr q = s.readGpr q := by
  unfold sampleIrq; split <;> rfl
@[simp] theorem sampleIrq_readFpr (s : State) (q : FReg) : (sampleIrq s).readFpr q = s.readFpr q := by
  unfold sampleIrq; split <;> rfl
@[simp] theorem sampleIrq_readDouble (s : State) (q : FReg) : (sampleIrq s).readDouble q = s.readDouble q := by
  unfold sampleIrq; split <;> rfl
@[simp] theorem sampleIrq_readFcc (s : State) (q : CC) : (sampleIrq s).readFcc q = s.readFcc q := by
  unfold sampleIrq; split <;> rfl
@[simp] theorem sampleIrq_readByte (s : State) (a : Word) : (sampleIrq s).readByte a = s.readByte a := by
  unfold sampleIrq; split <;> rfl
@[simp] theorem sampleIrq_readHalf (s : State) (a : Word) : (sampleIrq s).readHalf a = s.readHalf a := by
  unfold sampleIrq; split <;> rfl
@[simp] theorem sampleIrq_readWord (s : State) (a : Word) : (sampleIrq s).readWord a = s.readWord a := by
  unfold sampleIrq; split <;> rfl
@[simp] theorem sampleIrq_readDword (s : State) (a : Word) : (sampleIrq s).readDword a = s.readDword a := by
  unfold sampleIrq; split <;> rfl

end Sys2Proof.Machine
end

