-- ==== Sys2Proof/Laws/Memory.lean ====
section
/-! SUPPORT. The laws of memory: what a read after a write gives, and that every memory operation keeps the canonical
form. -/

namespace Sys2Proof.Machine

/-! ### Reading after writing -/

theorem Memory.read_cons (c : Host.Cell) (m : Memory) (a : Nat) :
    Memory.read (c :: m) a = if a = c.1 then c.2 else Memory.read m a := rfl

theorem Memory.read_insert (m : Memory) (a x : Nat) (b : Byte) :
    Memory.read (Memory.insert m a b) x = if x = a then b else Memory.read m x := by
  induction m with
  | nil => rfl
  | cons c rest ih =>
    unfold Memory.insert
    by_cases h1 : a < c.1
    · rw [if_pos h1, Memory.read_cons]
    · rw [if_neg h1]
      by_cases h2 : a = c.1
      · rw [if_pos h2, Memory.read_cons, Memory.read_cons]
        by_cases h3 : x = a
        · simp [h3]
        · have h4 : ¬ x = c.1 := fun h => h3 (h.trans h2.symm)
          simp [h3, h4]
      · rw [if_neg h2, Memory.read_cons, Memory.read_cons, ih]
        by_cases h3 : x = a
        · have h4 : ¬ x = c.1 := fun h => h2 (h3.symm.trans h)
          simp [h3]
          intro h
          exact absurd h h2
        · simp [h3]

theorem Memory.read_erase (m : Memory) (a x : Nat) :
    Memory.read (Memory.erase m a) x = if x = a then Memory.unlisted else Memory.read m x := by
  induction m with
  | nil => simp [Memory.erase, Memory.read]
  | cons c rest ih =>
    unfold Memory.erase at ih ⊢
    rw [List.filter_cons, Memory.read_cons]
    by_cases h : c.1 = a
    · simp only [h, bne_self_eq_false, Bool.false_eq_true, if_false, ih]
      by_cases hx : x = a <;> simp [hx]
    · have hb : (c.1 != a) = true := by simpa using h
      simp only [hb, if_true, Memory.read_cons, ih]
      by_cases hx : x = a
      · subst hx
        have : ¬ x = c.1 := fun e => h e.symm
        simp [this]
      · simp [hx]

/-- A read after a write: the byte written at its address, and what was there before at every other. -/
theorem Memory.read_write (m : Memory) (a x : Nat) (b : Byte) :
    Memory.read (Memory.write m a b) x = if x = a then b else Memory.read m x := by
  unfold Memory.write
  by_cases h : b = Memory.unlisted
  · rw [if_pos h, Memory.read_erase, h]
  · rw [if_neg h, Memory.read_insert]

/-- A read outside the bytes written gives what was there before. -/
theorem Memory.read_writeCells_of_not_mem (m : Memory) (cells : List Host.Cell) (x : Nat)
    (h : x ∉ cells.map Prod.fst) : Memory.read (Memory.writeCells m cells) x = Memory.read m x := by
  induction cells generalizing m with
  | nil => rfl
  | cons c cells ih =>
    simp only [List.map_cons, List.mem_cons, not_or] at h
    unfold Memory.writeCells
    rw [ih _ h.2, Memory.read_write, if_neg h.1]

/-- A read of a byte written, when no address is written twice. -/
theorem Memory.read_writeCells_of_mem (m : Memory) (cells : List Host.Cell) (c : Host.Cell)
    (hn : (cells.map Prod.fst).Nodup) (h : c ∈ cells) :
    Memory.read (Memory.writeCells m cells) c.1 = c.2 := by
  induction cells generalizing m with
  | nil => cases h
  | cons d cells ih =>
    simp only [List.map_cons, List.nodup_cons] at hn
    unfold Memory.writeCells
    rcases List.mem_cons.mp h with rfl | h
    · rw [Memory.read_writeCells_of_not_mem _ _ _ hn.1, Memory.read_write, if_pos rfl]
    · exact ih _ hn.2 h

/-! ### The canonical form -/

theorem Memory.mem_insert {m : Memory} {a : Nat} {b : Byte} {c : Host.Cell} (h : c ∈ Memory.insert m a b) :
    c = (a, b) ∨ c ∈ m := by
  induction m with
  | nil => simpa [Memory.insert] using h
  | cons d rest ih =>
    unfold Memory.insert at h
    split at h
    · simpa using h
    · split at h
      · rcases List.mem_cons.mp h with h | h
        · exact .inl h
        · exact .inr (List.mem_cons_of_mem _ h)
      · rcases List.mem_cons.mp h with h | h
        · exact .inr (h ▸ List.mem_cons_self)
        · rcases ih h with h | h
          · exact .inl h
          · exact .inr (List.mem_cons_of_mem _ h)

theorem Memory.insert_wf {m : Memory} {a : Nat} {b : Byte} (hm : Memory.wf m) (ha : a < 2 ^ 32)
    (hb : b ≠ Memory.unlisted) : Memory.wf (Memory.insert m a b) := by
  refine ⟨?_, fun c hc => ?_⟩
  · obtain ⟨hp, -⟩ := hm
    induction m with
    | nil => simp [Memory.insert]
    | cons d rest ih =>
      rw [List.pairwise_cons] at hp
      unfold Memory.insert
      split
      · rename_i hlt
        refine List.pairwise_cons.mpr ⟨fun c hc => ?_, List.pairwise_cons.mpr hp⟩
        rcases List.mem_cons.mp hc with rfl | hc
        · exact hlt
        · exact lt_trans hlt (hp.1 c hc)
      · split
        · rename_i heq
          refine List.pairwise_cons.mpr ⟨fun c hc => ?_, hp.2⟩
          have := hp.1 c hc
          show a < c.1
          omega
        · rename_i hlt hne
          refine List.pairwise_cons.mpr ⟨fun c hc => ?_, ih hp.2⟩
          rcases Memory.mem_insert hc with rfl | hc
          · show d.1 < a
            omega
          · exact hp.1 c hc
  · rcases Memory.mem_insert hc with rfl | hc
    · exact ⟨ha, hb⟩
    · exact hm.2 c hc

theorem Memory.erase_wf {m : Memory} (a : Nat) (hm : Memory.wf m) : Memory.wf (Memory.erase m a) :=
  ⟨hm.1.filter _, fun c hc => hm.2 c (List.mem_filter.mp hc).1⟩

/-- A write keeps the canonical form. -/
theorem Memory.write_wf {m : Memory} {a : Nat} (b : Byte) (hm : Memory.wf m) (ha : a < 2 ^ 32) :
    Memory.wf (Memory.write m a b) := by
  unfold Memory.write
  split
  · exact Memory.erase_wf a hm
  · exact Memory.insert_wf hm ha ‹_›

/-- Several writes keep the canonical form. -/
theorem Memory.writeCells_wf {m : Memory} (cells : List Host.Cell) (hm : Memory.wf m)
    (h : ∀ c ∈ cells, c.1 < 2 ^ 32) : Memory.wf (Memory.writeCells m cells) := by
  induction cells generalizing m with
  | nil => exact hm
  | cons c cells ih =>
    unfold Memory.writeCells
    exact ih (Memory.write_wf _ hm (h c List.mem_cons_self)) fun d hd => h d (List.mem_cons_of_mem _ hd)

/-! ### Addresses -/

theorem mem_addrsFrom {a : Word} {n x : Nat} :
    x ∈ addrsFrom a n ↔ ∃ i < n, x = (a + BitVec.ofNat 32 i).toNat := by
  induction n generalizing a with
  | zero => simp [addrsFrom]
  | succ n ih =>
    simp only [addrsFrom, List.mem_cons, ih]
    constructor
    · rintro (rfl | ⟨i, hi, rfl⟩)
      · exact ⟨0, by omega, by simp⟩
      · refine ⟨i + 1, by omega, ?_⟩
        rw [BitVec.add_assoc]
        congr 2
        apply BitVec.eq_of_toNat_eq
        simp [BitVec.toNat_add, Nat.add_comm]
    · rintro ⟨i, hi, rfl⟩
      rcases Nat.eq_zero_or_pos i with rfl | hp
      · left; simp
      · right
        refine ⟨i - 1, by omega, ?_⟩
        rw [BitVec.add_assoc]
        congr 2
        apply BitVec.eq_of_toNat_eq
        simp only [BitVec.toNat_add, BitVec.toNat_ofNat]
        omega

theorem addrsFrom_length (a : Word) (n : Nat) : (addrsFrom a n).length = n := by
  induction n generalizing a with
  | zero => rfl
  | succ n ih => simp [addrsFrom, ih]

/-- The addresses of the bytes to write are those from `a` on. -/
theorem cellsAt_fst (a : Word) (bytes : List Byte) : (cellsAt a bytes).map Prod.fst = addrsFrom a bytes.length := by
  induction bytes generalizing a with
  | nil => rfl
  | cons b bytes ih => simp [cellsAt, addrsFrom, ih]

theorem addrsFrom_lt {a : Word} {n x : Nat} (h : x ∈ addrsFrom a n) : x < 2 ^ 32 := by
  obtain ⟨i, -, rfl⟩ := mem_addrsFrom.mp h
  exact BitVec.isLt _

@[simp] theorem splitHalf_length (be : Bool) (v : Half) : (splitHalf be v).length = 2 := by
  cases be <;> rfl
@[simp] theorem splitWord_length (be : Bool) (v : Word) : (splitWord be v).length = 4 := by
  cases be <;> rfl
@[simp] theorem splitDword_length (be : Bool) (v : Dword) : (splitDword be v).length = 8 := by
  cases be <;> rfl

/-- The addresses that a byte store writes. -/
theorem byteCells_fst (a : Word) (v : Byte) : (byteCells a v).map Prod.fst = addrsFrom a 1 := rfl
/-- The addresses that a halfword store writes. -/
theorem halfCells_fst (be : Bool) (a : Word) (v : Half) : (halfCells be a v).map Prod.fst = addrsFrom a 2 := by
  rw [halfCells, cellsAt_fst, splitHalf_length]
/-- The addresses that a word store writes. -/
theorem wordCells_fst (be : Bool) (a : Word) (v : Word) : (wordCells be a v).map Prod.fst = addrsFrom a 4 := by
  rw [wordCells, cellsAt_fst, splitWord_length]
/-- The addresses that a doubleword store writes. -/
theorem dwordCells_fst (be : Bool) (a : Word) (v : Dword) : (dwordCells be a v).map Prod.fst = addrsFrom a 8 := by
  rw [dwordCells, cellsAt_fst, splitDword_length]
/-- The addresses that an unaligned store writes are those it touches. -/
theorem unalignedCells_fst (be left : Bool) (a v : Word) :
    (unalignedCells be left a v).map Prod.fst = unalignedAddrs be left a := by
  simp [unalignedCells, unalignedAddrs, List.map_map, Function.comp_def]

/-- No address is written twice by up to 2^32 consecutive bytes. -/
theorem addrsFrom_nodup (a : Word) {n : Nat} (h : n ≤ 2 ^ 32) : (addrsFrom a n).Nodup := by
  induction n generalizing a with
  | zero => exact List.nodup_nil
  | succ n ih =>
    refine List.nodup_cons.mpr ⟨fun hm => ?_, ih _ (by omega)⟩
    obtain ⟨i, hi, he⟩ := mem_addrsFrom.mp hm
    have := a.isLt
    simp only [BitVec.toNat_add, BitVec.toNat_ofNat] at he
    omega

/-! ### The addresses stored to -/

theorem mem_insertAddr {xs : List Nat} {a x : Nat} : x ∈ insertAddr xs a ↔ x = a ∨ x ∈ xs := by
  induction xs with
  | nil => simp [insertAddr]
  | cons y rest ih =>
    unfold insertAddr
    split
    · simp
    · split
      · rename_i h
        subst h
        simp
      · simp only [List.mem_cons, ih]
        tauto

theorem mem_insertAddrs {xs as : List Nat} {x : Nat} : x ∈ insertAddrs xs as ↔ x ∈ as ∨ x ∈ xs := by
  induction as generalizing xs with
  | nil => simp [insertAddrs]
  | cons a as ih =>
    simp only [insertAddrs, ih, mem_insertAddr, List.mem_cons]
    tauto

theorem insertAddr_pairwise {xs : List Nat} (a : Nat) (h : xs.Pairwise (· < ·)) :
    (insertAddr xs a).Pairwise (· < ·) := by
  induction xs with
  | nil => simp [insertAddr]
  | cons y rest ih =>
    have hp := List.pairwise_cons.mp h
    unfold insertAddr
    split
    · rename_i hlt
      refine List.pairwise_cons.mpr ⟨fun x hx => ?_, h⟩
      rcases List.mem_cons.mp hx with rfl | hx
      · exact hlt
      · exact lt_trans hlt (hp.1 x hx)
    · split
      · exact h
      · refine List.pairwise_cons.mpr ⟨fun x hx => ?_, ih hp.2⟩
        rcases mem_insertAddr.mp hx with rfl | hx
        · omega
        · exact hp.1 x hx

theorem insertAddrs_pairwise {xs : List Nat} (as : List Nat) (h : xs.Pairwise (· < ·)) :
    (insertAddrs xs as).Pairwise (· < ·) := by
  induction as generalizing xs with
  | nil => exact h
  | cons a as ih => exact ih (insertAddr_pairwise a h)

/-! ### Regions -/

theorem firstMissing_none {p : Params} {addrs : List Nat} :
    firstMissing p addrs = none ↔ ∀ a ∈ addrs, inRegions p a = true := by
  simp [firstMissing, List.find?_eq_none]

theorem firstMissing_some {p : Params} {addrs : List Nat} {m : Nat} (h : firstMissing p addrs = some m) :
    m ∈ addrs ∧ inRegions p m = false := by
  refine ⟨List.mem_of_find?_eq_some h, ?_⟩
  simpa using List.find?_some h

end Sys2Proof.Machine
end

