-- ==== Sys2Proof/Laws/Registers.lean ====
section
/-! SUPPORT. What reading a register after a write gives. -/

namespace Sys2Proof.Machine

@[simp] theorem State.readGpr_zero (s : State) : s.readGpr 0#5 = 0#32 := rfl

/-- A read of a general register after a write (R9, R21). -/
theorem State.readGpr_writeGpr (s : State) (r q : Reg) (v : Word) :
    (s.writeGpr r v).readGpr q = if q = 0#5 then 0#32 else if q = r then v else s.readGpr q := by
  unfold State.readGpr
  by_cases hq : q = 0#5
  · simp [hq]
  · by_cases hr : r = 0#5
    · subst hr
      simp [hq]
    · simp only [hq, hr, if_false, State.writeGpr_gpr]
      rw [Vector.getElem_set]
      have : (r.toNat = q.toNat) = (q = r) := propext (by rw [BitVec.toNat_inj]; exact eq_comm)
      simp only [this]

@[simp] theorem State.readGpr_writeGpr_zero (s : State) (q : Reg) (v : Word) :
    (s.writeGpr 0#5 v).readGpr q = s.readGpr q := by
  rw [State.readGpr_writeGpr]
  by_cases hq : q = 0#5 <;> simp [hq]

/-- A read of a floating-point register after a write (R9). -/
theorem State.readFpr_writeFpr (s : State) (r q : FReg) (v : Word) :
    (s.writeFpr r v).readFpr q = if q = r then v else s.readFpr q := by
  unfold State.readFpr
  simp only [State.writeFpr_fpr]
  rw [Vector.getElem_set]
  have : (r.toNat = q.toNat) = (q = r) := propext (by rw [BitVec.toNat_inj]; exact eq_comm)
  simp only [this]

/-- A read of a condition flag after a write (R9, R29). -/
theorem State.readFcc_writeFcc (s : State) (c d : CC) (b : Bool) :
    (s.writeFcc c b).readFcc d = if d = c then b else s.readFcc d := by
  unfold State.readFcc
  simp only [State.writeFcc_fcc]
  rw [Vector.getElem_set]
  have : (c.toNat = d.toNat) = (d = c) := propext (by rw [BitVec.toNat_inj]; exact eq_comm)
  simp only [this]

/-- A register and the next one are two registers. -/
theorem add_one_ne_self (r : FReg) : r + 1#5 ≠ r := by
  intro h
  have := congrArg BitVec.toNat h
  simp [BitVec.toNat_add] at this
  have := r.isLt
  omega

/-- A read of a floating-point register after the write of a double (R9, R33). -/
theorem State.readFpr_writeDouble (s : State) (r q : FReg) (v : Dword) :
    (s.writeDouble r v).readFpr q =
      if q = r + 1#5 then v.extractLsb' 32 32 else if q = r then v.extractLsb' 0 32 else s.readFpr q := by
  unfold State.writeDouble
  simp only [State.readFpr_writeFpr]

/-- The two halves of a doubleword joined again. -/
theorem append_extract (v : Dword) : v.extractLsb' 32 32 ++ v.extractLsb' 0 32 = v := by
  apply BitVec.eq_of_getLsbD_eq
  intro i hi
  simp only [BitVec.getLsbD_append, BitVec.getLsbD_extractLsb']
  by_cases h : i < 32
  · simp [h]
  · have h1 : i - 32 < 32 := by omega
    have h2 : 32 + (i - 32) = i := by omega
    simp [h, h1, h2]

/-- A read of a double after a write to the same register (R9, R33). -/
theorem State.readDouble_writeDouble (s : State) (r : FReg) (v : Dword) :
    (s.writeDouble r v).readDouble r = v := by
  have h : ¬ r = r + 1#5 := fun h => add_one_ne_self r h.symm
  simp only [State.readDouble, State.readFpr_writeDouble, if_true, if_neg h]
  exact append_extract v

/-- The pair `hi ++ lo` after a write (R30). -/
theorem State.readHiLo_writeHiLo (s : State) (v : Dword) : (s.writeHiLo v).readHiLo = v := by
  simp only [State.readHiLo, State.writeHiLo_hi, State.writeHiLo_lo]
  exact append_extract v

end Sys2Proof.Machine
end

