-- ==== Sys2Proof/Laws/Ops.lean ====
section
/-! SUPPORT. What each shared operation can answer, said once: the ends of an instruction, the checks, and the fetch. -/

namespace Sys2Proof.Machine

/-! ### Outcomes -/

@[simp] theorem refused_ne_next {r : Refusal} {t : State} : ((.refused r : Result) = .next t) = False :=
  eq_false fun h => by cases h

@[simp] theorem fault_ne_next {f : Fault} {t : State} : ((.fault f : Result) = .next t) = False :=
  eq_false fun h => by cases h

/-! ### The checks: when they answer a next state -/

theorem raise_next {e : Exc} {s t : State} : raise e s = .next t ↔ t = enterException e s :=
  ⟨fun h => by cases h; rfl, fun h => h ▸ rfl⟩

theorem outsideDelaySlot_next {s t : State} {k : Result} :
    outsideDelaySlot s k = .next t ↔ s.ds = false ∧ k = .next t := by
  unfold outsideDelaySlot
  cases s.ds <;> simp

theorem withCp1_next {s t : State} {k : Result} :
    withCp1 s k = .next t ↔ s.cu1 = true ∧ k = .next t ∨ s.cu1 = false ∧ t = enterException (.cpU 1#2) s := by
  unfold withCp1
  cases s.cu1 <;> simp [raise_next]

theorem withCp0_next {s t : State} {k : Result} :
    withCp0 s k = .next t ↔
      s.userMode = false ∧ k = .next t ∨ s.userMode = true ∧ t = enterException (.cpU 0#2) s := by
  unfold withCp0
  cases s.userMode <;> simp [raise_next]

theorem withEven_next {r : FReg} {t : State} {k : Result} :
    withEven r k = .next t ↔ evenReg r = true ∧ k = .next t := by
  unfold withEven
  cases evenReg r <;> simp

theorem checkedAccess_next {e : Exc} {a : Word} {n : Nat} {touched : List Nat} {s t : State} {k : Result} :
    checkedAccess e a n touched s k = .next t ↔
      (a.toNat % n ≠ 0 ∨ (s.userMode = true ∧ a.msb = true)) ∧ t = enterException e s ∨
      a.toNat % n = 0 ∧ ¬ (s.userMode = true ∧ a.msb = true) ∧ (∀ x ∈ touched, inRegions s.params x = true) ∧
        k = .next t := by
  unfold checkedAccess
  by_cases h1 : a.toNat % n = 0
  · by_cases h2 : s.userMode = true ∧ a.msb = true
    · have : (s.userMode && a.msb) = true := by simp [h2.1, h2.2]
      simp [h1, h2, raise_next]
    · have : ¬ ((s.userMode && a.msb) = true) := by simpa using h2
      rw [if_neg (by simpa using h1), if_neg this]
      cases hm : firstMissing s.params touched with
      | none =>
        have := firstMissing_none.mp hm
        constructor
        · exact fun h => .inr ⟨h1, h2, this, h⟩
        · rintro (⟨h | h, -⟩ | ⟨-, -, -, h⟩)
          · exact absurd h1 h
          · exact absurd h h2
          · exact h
      | some m =>
        obtain ⟨hx, hr⟩ := firstMissing_some hm
        simp only [fault_ne_next, h1, h2, ne_eq, not_true_eq_false, or_self, false_and, not_false_eq_true,
          true_and, false_or, false_iff, not_and]
        intro h
        rw [h m hx] at hr
        cases hr
  · rw [if_pos h1]
    simp only [raise_next, h1, ne_eq, not_false_eq_true, true_or, true_and, false_and, or_false]

/-! ### The ends: what they change -/

/-- Proves a frame from the fields of the two states. -/
theorem changesOnly_iff {parts : List Part} {s t : State} :
    ChangesOnly parts s t ↔
      (.gpr ∉ parts → Unchanged s t .gpr) ∧ (.fpr ∉ parts → Unchanged s t .fpr) ∧
      (.fcc ∉ parts → Unchanged s t .fcc) ∧ (.hiLo ∉ parts → Unchanged s t .hiLo) ∧
      (.cp0 ∉ parts → Unchanged s t .cp0) ∧ (.link ∉ parts → Unchanged s t .link) ∧
      (.mem ∉ parts → Unchanged s t .mem) ∧ (.inputs ∉ parts → Unchanged s t .inputs) :=
  ⟨fun h => ⟨h _, h _, h _, h _, h _, h _, h _, h _⟩, fun ⟨h1, h2, h3, h4, h5, h6, h7, h8⟩ p => by
    cases p <;> assumption⟩

theorem advanced_advance (s : State) (u : State) (hpc : u.npc = s.npc) : Advanced s u.advance := by
  simp [Advanced, hpc]

theorem changedNothing_advance (s : State) : ChangedNothing s s.advance := by
  rw [ChangedNothing, changesOnly_iff]
  simp [Unchanged]

theorem wroteGpr_advance (s : State) (d : Reg) (v : Word) : WroteGpr d v s (s.writeGpr d v).advance := by
  refine ⟨fun r => ?_, changesOnly_iff.mpr ?_⟩
  · rw [State.advance_readGpr, State.readGpr_writeGpr]
  · simp [Unchanged]

theorem wroteFpr_advance (s : State) (d : FReg) (v : Word) : WroteFpr d v s (s.writeFpr d v).advance := by
  refine ⟨fun r => ?_, changesOnly_iff.mpr ?_⟩
  · rw [State.advance_readFpr, State.readFpr_writeFpr]
  · simp [Unchanged]

theorem wroteDouble_advance (s : State) (d : FReg) (v : Dword) :
    WroteDouble d v s (s.writeDouble d v).advance := by
  refine ⟨fun r => ?_, changesOnly_iff.mpr ?_⟩
  · rw [State.advance_readFpr, State.readFpr_writeDouble]
    by_cases h : r = d
    · subst h
      have : ¬ r = r + 1#5 := fun h => add_one_ne_self r h.symm
      simp [this]
    · simp [h]
  · simp [Unchanged]

theorem wroteFcc_advance (s : State) (c : CC) (b : Bool) : WroteFcc c b s (s.writeFcc c b).advance := by
  refine ⟨fun d => ?_, changesOnly_iff.mpr ?_⟩
  · rw [State.advance_readFcc, State.readFcc_writeFcc]
  · simp [Unchanged]

theorem storedOnly_advance (s : State) (cells : List Host.Cell) :
    StoredOnly (cells.map Prod.fst) s (s.store cells).advance := by
  refine ⟨fun a h => ?_, fun a => ?_, changesOnly_iff.mpr ?_⟩
  · rw [State.advance_mem, State.store_mem, Memory.read_writeCells_of_not_mem _ _ _ h]
  · rw [State.advance_stored, State.store_stored, mem_insertAddrs]
  · simp [Unchanged]

/-! ### From the shape of a meaning to what it completes with -/

theorem setsGpr_of {i : Instr} {s : State} {d : Reg} {P : Word → Prop} (v : Word) (h : exec i s = setGpr d v s)
    (hv : P v) : SetsGpr i s d P :=
  ⟨_, h, ⟨v, hv, wroteGpr_advance s d v⟩, advanced_advance s _ rfl⟩

theorem setsFpr_of {i : Instr} {s : State} {d : FReg} {v : Word} (h : exec i s = setFpr d v s) : SetsFpr i s d v :=
  ⟨_, h, wroteFpr_advance s d v, advanced_advance s _ rfl⟩

theorem setsDouble_of {i : Instr} {s : State} {d : FReg} {v : Dword} (h : exec i s = setDouble d v s) :
    SetsDouble i s d v :=
  ⟨_, h, wroteDouble_advance s d v, advanced_advance s _ rfl⟩

theorem setsFcc_of {i : Instr} {s : State} {c : CC} {b : Bool} (h : exec i s = setFcc c b s) : SetsFcc i s c b :=
  ⟨_, h, wroteFcc_advance s c b, advanced_advance s _ rfl⟩

theorem setsHiLo_of {i : Instr} {s : State} {P : Word → Word → Prop} (v : Dword) (h : exec i s = setHiLo v s)
    (hv : P (v.extractLsb' 32 32) (v.extractLsb' 0 32)) : SetsHiLo i s P := by
  refine ⟨_, h, hv, changesOnly_iff.mpr ?_, advanced_advance s _ rfl⟩
  simp [Unchanged]

theorem onlyAdvances_of {i : Instr} {s : State} (h : exec i s = .next s.advance) : OnlyAdvances i s :=
  ⟨_, h, changedNothing_advance s, advanced_advance s _ rfl⟩

theorem outsideSlot_of {i : Instr} {s : State} {k : Result} {P : Prop} (h : exec i s = outsideDelaySlot s k)
    (hk : s.ds = false → exec i s = k → P) : OutsideSlot i s P := by
  refine ⟨fun hd => ?_, fun hd => hk hd ?_⟩ <;> simp [h, outsideDelaySlot, hd]

theorem needsCp1_of {i : Instr} {s : State} {k : Result} {P : Prop} (h : exec i s = withCp1 s k)
    (hk : s.cu1 = true → exec i s = k → P) : NeedsCp1 i s P := by
  refine ⟨fun hd => ?_, fun hd => hk hd ?_⟩ <;> simp [h, Takes, withCp1, hd, raise]

theorem needsKernel_of {i : Instr} {s : State} {k : Result} {P : Prop} (h : exec i s = withCp0 s k)
    (hk : s.userMode = false → exec i s = k → P) : NeedsKernel i s P := by
  refine ⟨fun hd => ?_, fun hd => hk hd ?_⟩ <;> simp [h, Takes, withCp0, hd, raise]

theorem evenReg_iff {r : FReg} : evenReg r = true ↔ r.toNat % 2 = 0 := by
  simp [evenReg]

/-- The even checks of some registers, one after the other. -/
theorem needsEven_of {i : Instr} {s : State} {doubles : List FReg} {k : Result} {P : Prop}
    (h : exec i s = doubles.foldr withEven k) (hk : exec i s = k → P) : NeedsEven i s doubles P := by
  constructor
  · intro hodd
    rw [h]
    clear h hk
    induction doubles with
    | nil => simp at hodd
    | cons r rest ih =>
      by_cases hr : evenReg r = true
      · have hr' := evenReg_iff.mp hr
        obtain ⟨q, hq, hq'⟩ := hodd
        rcases List.mem_cons.mp hq with rfl | hq
        · omega
        · obtain ⟨x, hx, hx'⟩ := ih ⟨q, hq, hq'⟩
          exact ⟨x, List.mem_cons_of_mem _ hx, by simp [withEven, hr, hx']⟩
      · exact ⟨r, List.mem_cons_self, by simp [withEven, hr]⟩
  · intro heven
    apply hk
    rw [h]
    clear h hk
    induction doubles with
    | nil => rfl
    | cons r rest ih =>
      have hr := evenReg_iff.mpr (heven r List.mem_cons_self)
      simp only [List.foldr_cons, withEven, hr, if_true]
      exact ih fun q hq => heven q (List.mem_cons_of_mem _ hq)

/-- The mode check, on the address as a number. -/
theorem allowed_iff {s : State} {a : Word} : AllowedAddress s a ↔ ¬ (s.userMode = true ∧ a.msb = true) := by
  rw [BitVec.msb_eq_decide]
  simp only [AllowedAddress, decide_eq_true_eq]
  constructor
  · rintro h ⟨h1, h2⟩
    have := h h1
    omega
  · intro h h1
    by_contra h2
    exact h ⟨h1, by omega⟩

/-- The addresses of an aligned access do not wrap. -/
theorem addrsFrom_aligned {a : Word} {n k : Nat} (hk : k ∣ 2 ^ 32) (ha : a.toNat % k = 0) (hn : n ≤ k) :
    addrsFrom a n = bytesAt a n := by
  have h : ∀ i < n, (a + BitVec.ofNat 32 i).toNat = a.toNat + i := by
    intro i hi
    have := a.isLt
    obtain ⟨c, hc⟩ := hk
    obtain ⟨d, hd⟩ := Nat.dvd_of_mod_eq_zero ha
    have : d < c := by
      by_contra hcd
      have : k * c ≤ k * d := Nat.mul_le_mul_left _ (by omega)
      omega
    have : k * d + k ≤ k * c := by
      calc k * d + k = k * (d + 1) := by ring
        _ ≤ k * c := Nat.mul_le_mul_left _ (by omega)
    rw [BitVec.toNat_add, BitVec.toNat_ofNat, Nat.mod_eq_of_lt (by omega : i < 2 ^ 32), Nat.mod_eq_of_lt (by omega)]
  clear ha hk hn
  induction n generalizing a with
  | zero => rfl
  | succ n ih =>
    have hsucc : ∀ i < n, (a + 1#32 + BitVec.ofNat 32 i).toNat = (a + 1#32).toNat + i := by
      intro i hi
      have h1 := h (i + 1) (by omega)
      have h2 := h 1 (by omega)
      have h3 : a + 1#32 + BitVec.ofNat 32 i = a + BitVec.ofNat 32 (i + 1) := by
        rw [BitVec.add_assoc]
        congr 1
        apply BitVec.eq_of_toNat_eq
        simp [BitVec.toNat_add, Nat.add_comm]
      rw [h3, h1, show a + 1#32 = a + BitVec.ofNat 32 1 from rfl, h2]
      omega
    rw [addrsFrom, ih hsucc, bytesAt, bytesAt, List.range_succ_eq_map, List.map_cons, List.map_map]
    rcases Nat.eq_zero_or_pos n with rfl | hp
    · simp
    · have h2 := h 1 (by omega)
      simp only [Nat.add_zero, List.cons.injEq, true_and]
      apply List.map_congr_left
      intro i _
      show (a + BitVec.ofNat 32 1).toNat + i = a.toNat + (i + 1)
      rw [h2]
      omega

/-- Memory backs the addresses of an aligned access if it backs every byte. -/
theorem backed_iff {s : State} {a : Word} {n : Nat} :
    Backed s a n ↔ ∀ x ∈ bytesAt a n, inRegions s.params x = true := by
  simp [Backed, bytesAt]

theorem checkedAccess_missing {e : Exc} {a : Word} {n : Nat} {touched : List Nat} {s : State} {k : Result}
    (h1 : a.toNat % n = 0) (h2 : AllowedAddress s a) (h3 : ¬ ∀ x ∈ touched, inRegions s.params x = true)
    (h4 : ∀ x ∈ touched, x < 2 ^ 32) :
    ∃ m : Word, checkedAccess e a n touched s k = .fault (.noMemoryAtAddress m) ∧
      inRegions s.params m.toNat = false := by
  cases hm : firstMissing s.params touched with
  | none => exact absurd (firstMissing_none.mp hm) h3
  | some m =>
    obtain ⟨hx, hr⟩ := firstMissing_some hm
    refine ⟨BitVec.ofNat 32 m, ?_, ?_⟩
    · have := allowed_iff.mp h2
      have : ¬ ((s.userMode && a.msb) = true) := by simpa using this
      rw [checkedAccess, if_neg (by simpa using h1), if_neg this, hm]
    · rw [BitVec.toNat_ofNat, Nat.mod_eq_of_lt (h4 m hx)]
      exact hr

theorem checkedAccess_bad {e : Exc} {a : Word} {n : Nat} {touched : List Nat} {s : State} {k : Result}
    (h : ¬ (a.toNat % n = 0 ∧ AllowedAddress s a)) :
    checkedAccess e a n touched s k = .next (enterException e s) := by
  rw [checkedAccess_next]
  left
  rw [allowed_iff] at h
  by_cases h1 : a.toNat % n = 0
  · exact ⟨.inr (by simpa [h1] using h), rfl⟩
  · exact ⟨.inl h1, rfl⟩

theorem checkedAccess_ok {e : Exc} {a : Word} {n : Nat} {touched : List Nat} {s : State} {k : Result}
    (h1 : a.toNat % n = 0) (h2 : AllowedAddress s a) (h3 : ∀ x ∈ touched, inRegions s.params x = true) :
    checkedAccess e a n touched s k = k := by
  have := allowed_iff.mp h2
  have : ¬ ((s.userMode && a.msb) = true) := by simpa using this
  rw [checkedAccess, if_neg (by simpa using h1), if_neg this, firstMissing_none.mpr h3]

/-- The checks of an access of 1, 2, 4 or 8 bytes (R64). -/
theorem accesses_of {i : Instr} {s : State} {e : Exc} {a : Word} {n : Nat} {k : Result} {P : Prop}
    (hn : n ∣ 2 ^ 32) (h : exec i s = checkedAccess e a n (addrsFrom a n) s k)
    (hk : a.toNat % n = 0 → exec i s = k → P) : Accesses i s e a n P := by
  refine ⟨fun hb => ?_, fun ⟨h1, h2, h3⟩ => ?_, fun ⟨h1, h2, h3⟩ => ?_⟩
  · rw [Takes, h, checkedAccess_bad hb]
  · rw [backed_iff, ← addrsFrom_aligned hn h1 (le_refl n)] at h3
    rw [NoMemory, h]
    exact checkedAccess_missing h1 h2 h3 fun x hx => addrsFrom_lt hx
  · apply hk h1
    rw [h]
    apply checkedAccess_ok h1 h2
    rw [addrsFrom_aligned hn h1 (le_refl n)]
    exact backed_iff.mp h3

theorem unalignedAddrs_lt {be left : Bool} {a : Word} {x : Nat} (h : x ∈ unalignedAddrs be left a) : x < 2 ^ 32 := by
  obtain ⟨i, -, rfl⟩ := List.mem_map.mp h
  exact BitVec.isLt _

/-- The checks of an unaligned access (R317). -/
theorem accessesUnaligned_of {i : Instr} {s : State} {e : Exc} {left : Bool} {a : Word} {k : Result} {P : Prop}
    (h : exec i s = checkedAccess e a 1 (unalignedAddrs s.params.bigEndian left a) s k)
    (hk : exec i s = k → P) : AccessesUnaligned i s e left a P := by
  have h1 : a.toNat % 1 = 0 := Nat.mod_one _
  refine ⟨fun hb => ?_, fun ⟨h2, h3⟩ => ?_, fun ⟨h2, h3⟩ => ?_⟩
  · rw [Takes, h, checkedAccess_bad fun hc => hb hc.2]
  · rw [NoMemory, h]
    exact checkedAccess_missing h1 h2 h3 fun x hx => unalignedAddrs_lt hx
  · apply hk
    rw [h]
    exact checkedAccess_ok h1 h2 h3

/-! ### The fetch and the step -/

theorem fetchInstr_next {s : State} {i : Instr} :
    fetchInstr s = .next i ↔
      (∀ x ∈ addrsFrom s.pc 4, inRegions s.params x = true ∧ x ∉ s.stored) ∧ decode (s.readWord s.pc) = .ok i := by
  unfold fetchInstr
  cases hm : firstMissing s.params (addrsFrom s.pc 4) with
  | some m =>
    obtain ⟨hx, hr⟩ := firstMissing_some hm
    constructor
    · intro h
      cases h
    · rintro ⟨h, -⟩
      rw [(h m hx).1] at hr
      cases hr
  | none =>
    have h1 := firstMissing_none.mp hm
    by_cases h2 : (addrsFrom s.pc 4).any s.stored.contains = true
    · simp only [h2, if_true]
      constructor
      · intro h
        cases h
      · rintro ⟨h, -⟩
        obtain ⟨x, hx, hc⟩ := List.any_eq_true.mp h2
        exact absurd (by simpa using hc) (h x hx).2
    · simp only [h2]
      have h3 : ∀ x ∈ addrsFrom s.pc 4, inRegions s.params x = true ∧ x ∉ s.stored := fun x hx =>
        ⟨h1 x hx, fun hc => h2 (List.any_eq_true.mpr ⟨x, hx, by simpa using hc⟩)⟩
      cases hd : decode (s.readWord s.pc) with
      | ok j =>
        constructor
        · intro h
          cases h
          exact ⟨h3, rfl⟩
        · rintro ⟨-, h⟩
          cases h
          rfl
      | error e =>
        constructor
        · intro h
          cases h
        · rintro ⟨-, h⟩
          cases h

/-- What a step can be: an interrupt, an address error of the fetch, or the instruction at `pc` (R473). -/
theorem step_next {s t : State} :
    step s = .next t ↔
      interruptPending (sampleIrq s) = true ∧ t = enterException .int (sampleIrq s) ∨
      interruptPending (sampleIrq s) = false ∧
        (fetchAddressBad (sampleIrq s) = true ∧ t = enterFetchError (sampleIrq s) ∨
         fetchAddressBad (sampleIrq s) = false ∧
           ∃ i, fetchInstr (sampleIrq s) = .next i ∧ exec i (sampleIrq s) = .next t) := by
  unfold step stepWith stepSampled
  cases interruptPending (sampleIrq s)
  · cases fetchAddressBad (sampleIrq s)
    · cases hf : fetchInstr (sampleIrq s) <;> simp
    · simp [eq_comm]
  · simp [raise_next]

end Sys2Proof.Machine
end

