-- ==== Sys2Proof/Laws/Access.lean ====
section
/-! SUPPORT. The values that aligned loads read and aligned stores leave: each wide access is one number made of the bytes
in the byte order of the run (R62). -/

namespace Sys2Proof.Machine

/-- An aligned access does not wrap. -/
theorem toNat_add_ofNat {a : Word} {n k : Nat} (hd : n ∣ 2 ^ 32) (ha : a.toNat % n = 0) (hk : k < n) :
    (a + BitVec.ofNat 32 k).toNat = a.toNat + k := by
  have h : a.toNat + k ∈ bytesAt a n := List.mem_map.mpr ⟨k, List.mem_range.mpr hk, rfl⟩
  rw [← addrsFrom_aligned hd ha (le_refl n)] at h
  have := addrsFrom_lt h
  rw [BitVec.toNat_add, BitVec.toNat_ofNat, Nat.mod_eq_of_lt (by omega : k < 2 ^ 32), Nat.mod_eq_of_lt this]

theorem toNat_append {m n : Nat} (x : BitVec m) (y : BitVec n) : (x ++ y).toNat = x.toNat * 2 ^ n + y.toNat := by
  rw [BitVec.toNat_append, ← Nat.shiftLeft_add_eq_or_of_lt y.isLt, Nat.shiftLeft_eq]

/-! ### Loads -/

theorem toNat_readByte (s : State) (a : Word) : (s.readByte a).toNat = s.memValue a 1 := by
  unfold State.memValue bytesValue
  cases s.params.bigEndian <;> rfl

theorem toNat_readHalf (s : State) {a : Word} (h : a.toNat % 2 = 0) : (s.readHalf a).toNat = s.memValue a 2 := by
  have k1 : (a + 1#32).toNat = a.toNat + 1 := toNat_add_ofNat (n := 2) (k := 1) (by decide) h (by omega)
  unfold State.memValue bytesValue State.readHalf State.readByte
  rw [k1]
  cases s.params.bigEndian <;> rw [show List.range 2 = [0, 1] from rfl]
  · rw [if_neg (by simp), if_neg (by simp), toNat_append]
    simp only [List.map, List.foldr, Nat.add_zero]
    omega
  · rw [if_pos rfl, if_pos rfl, toNat_append]
    simp only [List.map, List.reverse, List.reverseAux, List.foldr, Nat.add_zero]
    omega

theorem toNat_readWord (s : State) {a : Word} (h : a.toNat % 4 = 0) : (s.readWord a).toNat = s.memValue a 4 := by
  have k1 : (a + 1#32).toNat = a.toNat + 1 := toNat_add_ofNat (n := 4) (k := 1) (by decide) h (by omega)
  have k2 : (a + 2#32).toNat = a.toNat + 2 := toNat_add_ofNat (n := 4) (k := 2) (by decide) h (by omega)
  have k3 : (a + 3#32).toNat = a.toNat + 3 := toNat_add_ofNat (n := 4) (k := 3) (by decide) h (by omega)
  unfold State.memValue bytesValue State.readWord State.readByte joinWord
  rw [k1, k2, k3]
  cases s.params.bigEndian <;> rw [show List.range 4 = [0, 1, 2, 3] from rfl]
  · rw [if_neg (by simp), if_neg (by simp), toNat_append, toNat_append, toNat_append]
    simp only [List.map, List.foldr, Nat.add_zero]
    omega
  · rw [if_pos rfl, if_pos rfl, toNat_append, toNat_append, toNat_append]
    simp only [List.map, List.reverse, List.reverseAux, List.foldr, Nat.add_zero]
    omega

theorem toNat_readDword (s : State) {a : Word} (h : a.toNat % 8 = 0) : (s.readDword a).toNat = s.memValue a 8 := by
  have k4 : (a + 4#32).toNat = a.toNat + 4 := toNat_add_ofNat (n := 8) (k := 4) (by decide) h (by omega)
  have h1 := toNat_readWord s (a := a) (by omega)
  have h2 := toNat_readWord s (a := a + 4#32) (by omega)
  have h3 := (s.readWord a).isLt
  have h4 := (s.readWord (a + 4#32)).isLt
  unfold State.readDword
  unfold State.memValue bytesValue at h1 h2 ⊢
  rw [k4] at h2
  rw [show List.range 4 = [0, 1, 2, 3] from rfl] at h1 h2
  rw [show List.range 8 = [0, 1, 2, 3, 4, 5, 6, 7] from rfl]
  revert h1 h2
  cases s.params.bigEndian
  · rw [if_neg (by simp), if_neg (by simp), if_neg (by simp), if_neg (by simp), toNat_append]
    simp only [List.map, List.foldr, Nat.add_zero, Nat.add_assoc, Nat.reduceAdd]
    omega
  · rw [if_pos rfl, if_pos rfl, if_pos rfl, if_pos rfl, toNat_append]
    simp only [List.map, List.reverse, List.reverseAux, List.foldr, Nat.add_zero, Nat.add_assoc, Nat.reduceAdd]
    omega

/-! ### Stores -/

/-- What memory holds where some bytes have been written from an aligned address on. -/
theorem read_cellsAt (m : Memory) {a : Word} {n : Nat} (bytes : List Byte) (hd : n ∣ 2 ^ 32) (ha : a.toNat % n = 0)
    (hl : bytes.length = n) :
    (List.range n).map (fun i => Memory.read (Memory.writeCells m (cellsAt a bytes)) (a.toNat + i)) = bytes := by
  have hn : n ≤ 2 ^ 32 := Nat.le_of_dvd (by decide) hd
  have hmem : ∀ (bs : List Byte) (b : Word) (i : Nat) (hi : i < bs.length),
      ((b + BitVec.ofNat 32 i).toNat, bs[i]) ∈ cellsAt b bs := by
    intro bs
    induction bs with
    | nil =>
      intro b i hi
      cases hi
    | cons x bs ih =>
      intro b i hi
      cases i with
      | zero => simp [cellsAt]
      | succ i =>
        have h1 := ih (b + 1#32) i (by simpa using hi)
        have h2 : b + 1#32 + BitVec.ofNat 32 i = b + BitVec.ofNat 32 (i + 1) := by
          rw [BitVec.add_assoc]
          congr 1
          apply BitVec.eq_of_toNat_eq
          simp [BitVec.toNat_add, Nat.add_comm]
        rw [h2] at h1
        exact List.mem_cons_of_mem _ h1
  apply List.ext_getElem
  · simp [hl]
  · intro i h1 h2
    have hi : i < n := by omega
    rw [List.getElem_map, List.getElem_range]
    have h3 := Memory.read_writeCells_of_mem m (cellsAt a bytes) _
      (by rw [cellsAt_fst]; exact addrsFrom_nodup a (by omega)) (hmem bytes a i h2)
    rw [toNat_add_ofNat hd ha hi] at h3
    exact h3

/-- The value of the bytes of a halfword. -/
theorem bytesValue_splitHalf (be : Bool) (v : Half) : bytesValue be (splitHalf be v) = v.toNat := by
  have := v.isLt
  unfold bytesValue splitHalf
  cases be <;> simp [Nat.shiftRight_eq_div_pow] <;> omega

/-- The value of the bytes of a word. -/
theorem bytesValue_splitWord (be : Bool) (v : Word) : bytesValue be (splitWord be v) = v.toNat := by
  have := v.isLt
  unfold bytesValue splitWord
  cases be <;> simp [Nat.shiftRight_eq_div_pow] <;> omega

/-- The value of the bytes of a doubleword. -/
theorem bytesValue_splitDword (be : Bool) (v : Dword) : bytesValue be (splitDword be v) = v.toNat := by
  have := v.isLt
  unfold bytesValue splitDword splitWord
  cases be <;> simp [Nat.shiftRight_eq_div_pow] <;> omega

/-- The number that memory holds after a store of some bytes at an aligned address. -/
theorem memValue_store (s : State) {a : Word} {n : Nat} (bytes : List Byte) (hd : n ∣ 2 ^ 32) (ha : a.toNat % n = 0)
    (hl : bytes.length = n) :
    (s.store (cellsAt a bytes)).memValue a n = bytesValue s.params.bigEndian bytes := by
  unfold State.memValue
  rw [State.store_mem, State.store_params, read_cellsAt _ _ hd ha hl]

/-- A store followed by `advance` holds the same. -/
@[simp] theorem memValue_advance (s : State) (a : Word) (n : Nat) : s.advance.memValue a n = s.memValue a n := rfl

end Sys2Proof.Machine
end

