-- ==== Sys2Proof/Laws/Encoding.lean ====
section
/-! SUPPORT. The fields of an encoded word: what each field of a word reads when the word is built by the encoder. -/

namespace Sys2Proof

/-- A field that lies in the upper part of two joined bit strings. -/
theorem extract_append_high {m n : Nat} (a : BitVec m) (b : BitVec n) (lo w : Nat) (h : n ≤ lo) :
    (a ++ b).extractLsb' lo w = a.extractLsb' (lo - n) w := by
  apply BitVec.eq_of_getLsbD_eq
  intro i hi
  simp only [BitVec.getLsbD_extractLsb', BitVec.getLsbD_append, hi, decide_true, Bool.true_and]
  rw [if_neg (by omega), show lo + i - n = lo - n + i by omega]

/-- A field that lies in the lower part of two joined bit strings. -/
theorem extract_append_low {m n : Nat} (a : BitVec m) (b : BitVec n) (lo w : Nat) (h : lo + w ≤ n) :
    (a ++ b).extractLsb' lo w = b.extractLsb' lo w := by
  apply BitVec.eq_of_getLsbD_eq
  intro i hi
  simp only [BitVec.getLsbD_extractLsb', BitVec.getLsbD_append, hi, decide_true, Bool.true_and]
  rw [if_pos (by omega)]

/-- A field that is the whole of the lower part. -/
theorem extract_append_all {m n : Nat} (a : BitVec m) (b : BitVec n) : (a ++ b).extractLsb' 0 n = b := by
  rw [extract_append_low a b 0 n (by omega), BitVec.extractLsb'_eq_self]

/-- A field of a field. -/
theorem extract_extract {n : Nat} (a : BitVec n) (lo w lo' w' : Nat) (h : lo' + w' ≤ w) :
    (a.extractLsb' lo w).extractLsb' lo' w' = a.extractLsb' (lo + lo') w' := by
  apply BitVec.eq_of_getLsbD_eq
  intro i hi
  have : lo' + i < w := by omega
  simp [hi, this, Nat.add_assoc]

/-! ### `encodeR` -/

@[simp] theorem opOf_encodeR (op : BitVec 6) (rs rt rd shamt : BitVec 5) (funct : BitVec 6) :
    opOf (encodeR op rs rt rd shamt funct) = op := by
  unfold opOf encodeR
  rw [extract_append_high _ _ _ _ (by omega), extract_append_high _ _ _ _ (by omega), extract_append_high _ _ _ _ (by omega), extract_append_high _ _ _ _ (by omega), extract_append_high _ _ _ _ (by omega), BitVec.extractLsb'_eq_self]
@[simp] theorem rsOf_encodeR (op : BitVec 6) (rs rt rd shamt : BitVec 5) (funct : BitVec 6) :
    rsOf (encodeR op rs rt rd shamt funct) = rs := by
  unfold rsOf encodeR
  rw [extract_append_high _ _ _ _ (by omega), extract_append_high _ _ _ _ (by omega), extract_append_high _ _ _ _ (by omega), extract_append_high _ _ _ _ (by omega), extract_append_all]
@[simp] theorem rtOf_encodeR (op : BitVec 6) (rs rt rd shamt : BitVec 5) (funct : BitVec 6) :
    rtOf (encodeR op rs rt rd shamt funct) = rt := by
  unfold rtOf encodeR
  rw [extract_append_high _ _ _ _ (by omega), extract_append_high _ _ _ _ (by omega), extract_append_high _ _ _ _ (by omega), extract_append_all]
@[simp] theorem rdOf_encodeR (op : BitVec 6) (rs rt rd shamt : BitVec 5) (funct : BitVec 6) :
    rdOf (encodeR op rs rt rd shamt funct) = rd := by
  unfold rdOf encodeR
  rw [extract_append_high _ _ _ _ (by omega), extract_append_high _ _ _ _ (by omega), extract_append_all]
@[simp] theorem shamtOf_encodeR (op : BitVec 6) (rs rt rd shamt : BitVec 5) (funct : BitVec 6) :
    shamtOf (encodeR op rs rt rd shamt funct) = shamt := by
  unfold shamtOf encodeR
  rw [extract_append_high _ _ _ _ (by omega), extract_append_all]
@[simp] theorem functOf_encodeR (op : BitVec 6) (rs rt rd shamt : BitVec 5) (funct : BitVec 6) :
    functOf (encodeR op rs rt rd shamt funct) = funct := by
  unfold functOf encodeR
  rw [extract_append_all]

/-! ### `encodeI` -/

@[simp] theorem opOf_encodeI (op : BitVec 6) (rs rt : BitVec 5) (imm : Half) :
    opOf (encodeI op rs rt imm) = op := by
  unfold opOf encodeI
  rw [extract_append_high _ _ _ _ (by omega), extract_append_high _ _ _ _ (by omega), extract_append_high _ _ _ _ (by omega), BitVec.extractLsb'_eq_self]
@[simp] theorem rsOf_encodeI (op : BitVec 6) (rs rt : BitVec 5) (imm : Half) :
    rsOf (encodeI op rs rt imm) = rs := by
  unfold rsOf encodeI
  rw [extract_append_high _ _ _ _ (by omega), extract_append_high _ _ _ _ (by omega), extract_append_all]
@[simp] theorem rtOf_encodeI (op : BitVec 6) (rs rt : BitVec 5) (imm : Half) :
    rtOf (encodeI op rs rt imm) = rt := by
  unfold rtOf encodeI
  rw [extract_append_high _ _ _ _ (by omega), extract_append_all]
@[simp] theorem immOf_encodeI (op : BitVec 6) (rs rt : BitVec 5) (imm : Half) :
    immOf (encodeI op rs rt imm) = imm := by
  unfold immOf encodeI
  rw [extract_append_all]

/-! ### `encodeJ` -/

@[simp] theorem opOf_encodeJ (op : BitVec 6) (target : BitVec 26) :
    opOf (encodeJ op target) = op := by
  unfold opOf encodeJ
  rw [extract_append_high _ _ _ _ (by omega), BitVec.extractLsb'_eq_self]
@[simp] theorem targetOf_encodeJ (op : BitVec 6) (target : BitVec 26) :
    targetOf (encodeJ op target) = target := by
  unfold targetOf encodeJ
  rw [extract_append_all]

/-! ### `encodeTR` -/

@[simp] theorem opOf_encodeTR (op : BitVec 6) (rs rt : BitVec 5) (code : BitVec 10) (funct : BitVec 6) :
    opOf (encodeTR op rs rt code funct) = op := by
  unfold opOf encodeTR
  rw [extract_append_high _ _ _ _ (by omega), extract_append_high _ _ _ _ (by omega), extract_append_high _ _ _ _ (by omega), extract_append_high _ _ _ _ (by omega), BitVec.extractLsb'_eq_self]
@[simp] theorem rsOf_encodeTR (op : BitVec 6) (rs rt : BitVec 5) (code : BitVec 10) (funct : BitVec 6) :
    rsOf (encodeTR op rs rt code funct) = rs := by
  unfold rsOf encodeTR
  rw [extract_append_high _ _ _ _ (by omega), extract_append_high _ _ _ _ (by omega), extract_append_high _ _ _ _ (by omega), extract_append_all]
@[simp] theorem rtOf_encodeTR (op : BitVec 6) (rs rt : BitVec 5) (code : BitVec 10) (funct : BitVec 6) :
    rtOf (encodeTR op rs rt code funct) = rt := by
  unfold rtOf encodeTR
  rw [extract_append_high _ _ _ _ (by omega), extract_append_high _ _ _ _ (by omega), extract_append_all]
@[simp] theorem trapCodeOf_encodeTR (op : BitVec 6) (rs rt : BitVec 5) (code : BitVec 10) (funct : BitVec 6) :
    trapCodeOf (encodeTR op rs rt code funct) = code := by
  unfold trapCodeOf encodeTR
  rw [extract_append_high _ _ _ _ (by omega), extract_append_all]
@[simp] theorem functOf_encodeTR (op : BitVec 6) (rs rt : BitVec 5) (code : BitVec 10) (funct : BitVec 6) :
    functOf (encodeTR op rs rt code funct) = funct := by
  unfold functOf encodeTR
  rw [extract_append_all]

/-! ### `encodeSYS` -/

@[simp] theorem opOf_encodeSYS (op : BitVec 6) (code : BitVec 20) (funct : BitVec 6) :
    opOf (encodeSYS op code funct) = op := by
  unfold opOf encodeSYS
  rw [extract_append_high _ _ _ _ (by omega), extract_append_high _ _ _ _ (by omega), BitVec.extractLsb'_eq_self]
@[simp] theorem sysCodeOf_encodeSYS (op : BitVec 6) (code : BitVec 20) (funct : BitVec 6) :
    sysCodeOf (encodeSYS op code funct) = code := by
  unfold sysCodeOf encodeSYS
  rw [extract_append_high _ _ _ _ (by omega), extract_append_all]
@[simp] theorem functOf_encodeSYS (op : BitVec 6) (code : BitVec 20) (funct : BitVec 6) :
    functOf (encodeSYS op code funct) = funct := by
  unfold functOf encodeSYS
  rw [extract_append_all]

/-! ### The fields inside `rt` and `shamt` -/

/-- `cc` and bits 17:16 are the two parts of the `rt` field. -/
theorem ccOf_eq (w : Word) : ccOf w = (rtOf w).extractLsb' 2 3 := by
  unfold ccOf rtOf
  rw [extract_extract _ _ _ _ _ (by omega)]
theorem tfOf_eq (w : Word) : tfOf w = (rtOf w).extractLsb' 0 2 := by
  unfold tfOf rtOf
  rw [extract_extract _ _ _ _ _ (by omega)]
/-- `cc` of a comparison and bits 7:6 are the two parts of the `shamt` field. -/
theorem fcOf_eq (w : Word) : fcOf w = (shamtOf w).extractLsb' 2 3 := by
  unfold fcOf shamtOf
  rw [extract_extract _ _ _ _ _ (by omega)]
theorem fcZeroOf_eq (w : Word) : fcZeroOf w = (shamtOf w).extractLsb' 0 2 := by
  unfold fcZeroOf shamtOf
  rw [extract_extract _ _ _ _ _ (by omega)]

@[simp] theorem encodeCC_cc (cc : CC) (tf : Bool) : (encodeCC cc tf).extractLsb' 2 3 = cc := by
  revert cc tf
  decide
@[simp] theorem encodeCC_tf (cc : CC) (tf : Bool) :
    (encodeCC cc tf).extractLsb' 0 2 = 0#1 ++ BitVec.ofBool tf := by
  revert cc tf
  decide
@[simp] theorem encodeFC_cc (cc : CC) : (encodeFC cc).extractLsb' 2 3 = cc := by
  revert cc
  decide
@[simp] theorem encodeFC_zero (cc : CC) : (encodeFC cc).extractLsb' 0 2 = 0#2 := by
  revert cc
  decide

/-! ### Replacing a field -/

/-- The bits of a word with a field replaced: the field's where it lies, the word's elsewhere. -/
theorem getLsbD_setField {n : Nat} (v : Word) (lo : Nat) (f : BitVec n) (j : Nat) (h : lo + n ≤ 32) :
    (setField v lo f).getLsbD j = if lo ≤ j ∧ j < lo + n then f.getLsbD (j - lo) else v.getLsbD j := by
  unfold setField
  simp only [BitVec.getLsbD_or, BitVec.getLsbD_and, BitVec.getLsbD_not, BitVec.getLsbD_shiftLeft,
    BitVec.zeroExtend_eq_setWidth, BitVec.getLsbD_setWidth, BitVec.getLsbD_allOnes]
  by_cases hj : j < 32
  · by_cases h1 : lo ≤ j
    · have h2 : ¬ j < lo := by omega
      have h3 : j - lo < 32 := by omega
      by_cases h4 : j < lo + n
      · have h5 : j - lo < n := by omega
        simp [h1, h2, h3, h4, h5, hj]
      · have h5 : ¬ j - lo < n := by omega
        have h6 : f.getLsbD (j - lo) = false := BitVec.getLsbD_of_ge _ _ (by omega)
        simp [h1, h2, h4, h5, h6, hj]
    · have h2 : j < lo := by omega
      simp [h1, h2, hj]
  · rw [if_neg (by omega), BitVec.getLsbD_of_ge v _ (by omega)]
    simp [hj]

/-- The replaced field reads as what was put there. -/
theorem extract_setField {n : Nat} (v : Word) (lo : Nat) (f : BitVec n) (h : lo + n ≤ 32) :
    (setField v lo f).extractLsb' lo n = f := by
  apply BitVec.eq_of_getLsbD_eq
  intro j hj
  rw [BitVec.getLsbD_extractLsb', getLsbD_setField _ _ _ _ h, if_pos (by omega)]
  simp [hj]

/-- Every other field reads as before. -/
theorem extract_setField_other {n : Nat} (v : Word) (lo : Nat) (f : BitVec n) (lo' n' : Nat) (h : lo + n ≤ 32)
    (ho : lo' + n' ≤ lo ∨ lo + n ≤ lo') : (setField v lo f).extractLsb' lo' n' = v.extractLsb' lo' n' := by
  apply BitVec.eq_of_getLsbD_eq
  intro j hj
  rw [BitVec.getLsbD_extractLsb', getLsbD_setField _ _ _ _ h, if_neg (by omega), BitVec.getLsbD_extractLsb']

/-- Bits that a mask selects stay 0 when the replaced field lies outside the mask. -/
theorem setField_and_eq_zero {n : Nat} (v m : Word) (lo : Nat) (f : BitVec n) (h : lo + n ≤ 32) (hv : v &&& m = 0#32)
    (hm : ∀ j, lo ≤ j → j < lo + n → m.getLsbD j = false) : setField v lo f &&& m = 0#32 := by
  apply BitVec.eq_of_getLsbD_eq
  intro j hj
  have h1 := congrArg (fun x => x.getLsbD j) hv
  simp only [BitVec.getLsbD_and] at h1 ⊢
  rw [getLsbD_setField _ _ _ _ h]
  split
  · rename_i h2
    rw [hm j h2.1 h2.2]
    simp
  · exact h1

/-! ### A word is built from its fields -/

/-- Two neighbouring fields joined are one field. -/
theorem join_fields {n : Nat} (w : BitVec n) (a b lo : Nat) :
    w.extractLsb' (lo + b) a ++ w.extractLsb' lo b = w.extractLsb' lo (a + b) := by
  apply BitVec.eq_of_getLsbD_eq
  intro i hi
  simp only [BitVec.getLsbD_append, BitVec.getLsbD_extractLsb']
  by_cases h : i < b
  · simp [h]
    omega
  · have h1 : i - b < a := by omega
    simp [h, show lo + b + (i - b) = lo + i by omega, hi, h1]

theorem encodeR_fields (w : Word) : encodeR (opOf w) (rsOf w) (rtOf w) (rdOf w) (shamtOf w) (functOf w) = w := by
  unfold encodeR opOf rsOf rtOf rdOf shamtOf functOf
  rw [join_fields w 6 5 21, join_fields w 11 5 16, join_fields w 16 5 11, join_fields w 21 5 6,
    join_fields w 26 6 0]
  exact BitVec.extractLsb'_eq_self
theorem encodeI_fields (w : Word) : encodeI (opOf w) (rsOf w) (rtOf w) (immOf w) = w := by
  unfold encodeI opOf rsOf rtOf immOf
  rw [join_fields w 6 5 21, join_fields w 11 5 16, join_fields w 16 16 0]
  exact BitVec.extractLsb'_eq_self
theorem encodeJ_fields (w : Word) : encodeJ (opOf w) (targetOf w) = w := by
  unfold encodeJ opOf targetOf
  rw [join_fields w 6 26 0]
  exact BitVec.extractLsb'_eq_self
theorem encodeTR_fields (w : Word) : encodeTR (opOf w) (rsOf w) (rtOf w) (trapCodeOf w) (functOf w) = w := by
  unfold encodeTR opOf rsOf rtOf trapCodeOf functOf
  rw [join_fields w 6 5 21, join_fields w 11 5 16, join_fields w 16 10 6, join_fields w 26 6 0]
  exact BitVec.extractLsb'_eq_self
theorem encodeSYS_fields (w : Word) : encodeSYS (opOf w) (sysCodeOf w) (functOf w) = w := by
  unfold encodeSYS opOf sysCodeOf functOf
  rw [join_fields w 6 20 6, join_fields w 26 6 0]
  exact BitVec.extractLsb'_eq_self

theorem encodeCC_fields_false {w : Word} (h : tfOf w = 0#2) : encodeCC (ccOf w) false = rtOf w := by
  rw [tfOf_eq] at h
  rw [ccOf_eq]
  revert h
  generalize rtOf w = x
  revert x
  decide
theorem encodeCC_fields_true {w : Word} (h : tfOf w = 1#2) : encodeCC (ccOf w) true = rtOf w := by
  rw [tfOf_eq] at h
  rw [ccOf_eq]
  revert h
  generalize rtOf w = x
  revert x
  decide
theorem encodeFC_fields {w : Word} (h : fcZeroOf w = 0#2) : encodeFC (fcOf w) = shamtOf w := by
  rw [fcZeroOf_eq] at h
  rw [fcOf_eq]
  revert h
  generalize shamtOf w = x
  revert x
  decide

/-- When a row whose must-be-zero fields are checked gives an instruction. -/
theorem when_eq_some {fixed : Bool} {i j : Instr} : when fixed i = some j ↔ fixed = true ∧ i = j := by
  cases fixed <;> simp [when]

end Sys2Proof
end

