-- ==== Sys2Proof/Laws/PerInstr.lean ====
section
/-! SUPPORT. One lemma per instruction: its word carries the major opcode of its table row (R110, R116). -/

namespace Sys2Proof.Laws

/-- The major opcode of an instruction (R110). -/
def majorOpcode : Instr → BitVec 6
  | .add _ _ _ | .addu _ _ _ | .and _ _ _ | .div _ _ | .divu _ _ | .mult _ _ | .multu _ _ | .nor _ _ _ | .or _ _ _
  | .sll _ _ _ | .sllv _ _ _ | .sra _ _ _ | .srav _ _ _ | .srl _ _ _ | .srlv _ _ _ | .sub _ _ _ | .subu _ _ _
  | .xor _ _ _ | .slt _ _ _ | .sltu _ _ _ | .jalr _ _ | .jr _ | .teq _ _ _ | .tne _ _ _ | .tge _ _ _ | .tgeu _ _ _
  | .tlt _ _ _ | .tltu _ _ _ | .mfhi _ | .mflo _ | .mthi _ | .mtlo _ | .movn _ _ _ | .movz _ _ _ | .movf _ _ _
  | .movt _ _ _ | .syscall _ | .brk _ | .nop => 0x00#6
  | .addi _ _ _ => 0x08#6
  | .addiu _ _ _ => 0x09#6
  | .andi _ _ _ => 0x0c#6
  | .clo _ _ _ | .clz _ _ _ | .mul _ _ _ | .madd _ _ | .maddu _ _ | .msub _ _ | .msubu _ _ => 0x1c#6
  | .ori _ _ _ => 0x0d#6
  | .xori _ _ _ => 0x0e#6
  | .lui _ _ => 0x0f#6
  | .slti _ _ _ => 0x0a#6
  | .sltiu _ _ _ => 0x0b#6
  | .bc1f _ _ | .bc1t _ _ | .mfc1 _ _ | .mtc1 _ _ | .absD _ _ | .absS _ _ | .addD _ _ _ | .addS _ _ _ | .ceilWD _ _
  | .ceilWS _ _ | .cEqD _ _ _ | .cEqS _ _ _ | .cLeD _ _ _ | .cLeS _ _ _ | .cLtD _ _ _ | .cLtS _ _ _ | .cvtDS _ _
  | .cvtDW _ _ | .cvtSD _ _ | .cvtSW _ _ | .cvtWD _ _ | .cvtWS _ _ | .divD _ _ _ | .divS _ _ _ | .floorWD _ _
  | .floorWS _ _ | .movD _ _ | .movS _ _ | .movfD _ _ _ | .movfS _ _ _ | .movtD _ _ _ | .movtS _ _ _ | .movnD _ _ _
  | .movnS _ _ _ | .movzD _ _ _ | .movzS _ _ _ | .mulD _ _ _ | .mulS _ _ _ | .negD _ _ | .negS _ _ | .roundWD _ _
  | .roundWS _ _ | .sqrtD _ _ | .sqrtS _ _ | .subD _ _ _ | .subS _ _ _ | .truncWD _ _ | .truncWS _ _ => 0x11#6
  | .beq _ _ _ => 0x04#6
  | .bgez _ _ | .bgezal _ _ | .bltzal _ _ | .bltz _ _ | .teqi _ _ | .tnei _ _ | .tgei _ _ | .tgeiu _ _ | .tlti _ _
  | .tltiu _ _ => 0x01#6
  | .bgtz _ _ => 0x07#6
  | .blez _ _ => 0x06#6
  | .bne _ _ _ => 0x05#6
  | .j _ => 0x02#6
  | .jal _ => 0x03#6
  | .lb _ _ _ => 0x20#6
  | .lbu _ _ _ => 0x24#6
  | .lh _ _ _ => 0x21#6
  | .lhu _ _ _ => 0x25#6
  | .lw _ _ _ => 0x23#6
  | .lwc1 _ _ _ => 0x31#6
  | .lwl _ _ _ => 0x22#6
  | .lwr _ _ _ => 0x26#6
  | .ldc1 _ _ _ => 0x35#6
  | .ll _ _ _ => 0x30#6
  | .sb _ _ _ => 0x28#6
  | .sh _ _ _ => 0x29#6
  | .sw _ _ _ => 0x2b#6
  | .swc1 _ _ _ => 0x39#6
  | .sdc1 _ _ _ => 0x3d#6
  | .swl _ _ _ => 0x2a#6
  | .swr _ _ _ => 0x2e#6
  | .sc _ _ _ => 0x38#6
  | .mfc0 _ _ | .mtc0 _ _ | .eret => 0x10#6

/-- The word of an instruction carries its major opcode. -/
def MajorOpcode.Statement (i : Instr) : Prop := opOf (encode i) = majorOpcode i

theorem MajorOpcode.add (rd rs rt : Reg) : MajorOpcode.Statement (.add rd rs rt) := opOf_encodeR ..
theorem MajorOpcode.addu (rd rs rt : Reg) : MajorOpcode.Statement (.addu rd rs rt) := opOf_encodeR ..
theorem MajorOpcode.addi (rt rs : Reg) (imm : Half) : MajorOpcode.Statement (.addi rt rs imm) := opOf_encodeI ..
theorem MajorOpcode.addiu (rt rs : Reg) (imm : Half) : MajorOpcode.Statement (.addiu rt rs imm) := opOf_encodeI ..
theorem MajorOpcode.and (rd rs rt : Reg) : MajorOpcode.Statement (.and rd rs rt) := opOf_encodeR ..
theorem MajorOpcode.andi (rt rs : Reg) (imm : Half) : MajorOpcode.Statement (.andi rt rs imm) := opOf_encodeI ..
theorem MajorOpcode.clo (rd rs rt : Reg) : MajorOpcode.Statement (.clo rd rs rt) := opOf_encodeR ..
theorem MajorOpcode.clz (rd rs rt : Reg) : MajorOpcode.Statement (.clz rd rs rt) := opOf_encodeR ..
theorem MajorOpcode.div (rs rt : Reg) : MajorOpcode.Statement (.div rs rt) := opOf_encodeR ..
theorem MajorOpcode.divu (rs rt : Reg) : MajorOpcode.Statement (.divu rs rt) := opOf_encodeR ..
theorem MajorOpcode.mult (rs rt : Reg) : MajorOpcode.Statement (.mult rs rt) := opOf_encodeR ..
theorem MajorOpcode.multu (rs rt : Reg) : MajorOpcode.Statement (.multu rs rt) := opOf_encodeR ..
theorem MajorOpcode.mul (rd rs rt : Reg) : MajorOpcode.Statement (.mul rd rs rt) := opOf_encodeR ..
theorem MajorOpcode.madd (rs rt : Reg) : MajorOpcode.Statement (.madd rs rt) := opOf_encodeR ..
theorem MajorOpcode.maddu (rs rt : Reg) : MajorOpcode.Statement (.maddu rs rt) := opOf_encodeR ..
theorem MajorOpcode.msub (rs rt : Reg) : MajorOpcode.Statement (.msub rs rt) := opOf_encodeR ..
theorem MajorOpcode.msubu (rs rt : Reg) : MajorOpcode.Statement (.msubu rs rt) := opOf_encodeR ..
theorem MajorOpcode.nor (rd rs rt : Reg) : MajorOpcode.Statement (.nor rd rs rt) := opOf_encodeR ..
theorem MajorOpcode.or (rd rs rt : Reg) : MajorOpcode.Statement (.or rd rs rt) := opOf_encodeR ..
theorem MajorOpcode.ori (rt rs : Reg) (imm : Half) : MajorOpcode.Statement (.ori rt rs imm) := opOf_encodeI ..
theorem MajorOpcode.sll (rd rt : Reg) (shamt : BitVec 5) : MajorOpcode.Statement (.sll rd rt shamt) := opOf_encodeR ..
theorem MajorOpcode.sllv (rd rt rs : Reg) : MajorOpcode.Statement (.sllv rd rt rs) := opOf_encodeR ..
theorem MajorOpcode.sra (rd rt : Reg) (shamt : BitVec 5) : MajorOpcode.Statement (.sra rd rt shamt) := opOf_encodeR ..
theorem MajorOpcode.srav (rd rt rs : Reg) : MajorOpcode.Statement (.srav rd rt rs) := opOf_encodeR ..
theorem MajorOpcode.srl (rd rt : Reg) (shamt : BitVec 5) : MajorOpcode.Statement (.srl rd rt shamt) := opOf_encodeR ..
theorem MajorOpcode.srlv (rd rt rs : Reg) : MajorOpcode.Statement (.srlv rd rt rs) := opOf_encodeR ..
theorem MajorOpcode.sub (rd rs rt : Reg) : MajorOpcode.Statement (.sub rd rs rt) := opOf_encodeR ..
theorem MajorOpcode.subu (rd rs rt : Reg) : MajorOpcode.Statement (.subu rd rs rt) := opOf_encodeR ..
theorem MajorOpcode.xor (rd rs rt : Reg) : MajorOpcode.Statement (.xor rd rs rt) := opOf_encodeR ..
theorem MajorOpcode.xori (rt rs : Reg) (imm : Half) : MajorOpcode.Statement (.xori rt rs imm) := opOf_encodeI ..
theorem MajorOpcode.lui (rt : Reg) (imm : Half) : MajorOpcode.Statement (.lui rt imm) := opOf_encodeI ..
theorem MajorOpcode.slt (rd rs rt : Reg) : MajorOpcode.Statement (.slt rd rs rt) := opOf_encodeR ..
theorem MajorOpcode.sltu (rd rs rt : Reg) : MajorOpcode.Statement (.sltu rd rs rt) := opOf_encodeR ..
theorem MajorOpcode.slti (rt rs : Reg) (imm : Half) : MajorOpcode.Statement (.slti rt rs imm) := opOf_encodeI ..
theorem MajorOpcode.sltiu (rt rs : Reg) (imm : Half) : MajorOpcode.Statement (.sltiu rt rs imm) := opOf_encodeI ..
theorem MajorOpcode.bc1f (cc : CC) (imm : Half) : MajorOpcode.Statement (.bc1f cc imm) := opOf_encodeI ..
theorem MajorOpcode.bc1t (cc : CC) (imm : Half) : MajorOpcode.Statement (.bc1t cc imm) := opOf_encodeI ..
theorem MajorOpcode.beq (rs rt : Reg) (imm : Half) : MajorOpcode.Statement (.beq rs rt imm) := opOf_encodeI ..
theorem MajorOpcode.bgez (rs : Reg) (imm : Half) : MajorOpcode.Statement (.bgez rs imm) := opOf_encodeI ..
theorem MajorOpcode.bgezal (rs : Reg) (imm : Half) : MajorOpcode.Statement (.bgezal rs imm) := opOf_encodeI ..
theorem MajorOpcode.bgtz (rs : Reg) (imm : Half) : MajorOpcode.Statement (.bgtz rs imm) := opOf_encodeI ..
theorem MajorOpcode.blez (rs : Reg) (imm : Half) : MajorOpcode.Statement (.blez rs imm) := opOf_encodeI ..
theorem MajorOpcode.bltzal (rs : Reg) (imm : Half) : MajorOpcode.Statement (.bltzal rs imm) := opOf_encodeI ..
theorem MajorOpcode.bltz (rs : Reg) (imm : Half) : MajorOpcode.Statement (.bltz rs imm) := opOf_encodeI ..
theorem MajorOpcode.bne (rs rt : Reg) (imm : Half) : MajorOpcode.Statement (.bne rs rt imm) := opOf_encodeI ..
theorem MajorOpcode.j (target : BitVec 26) : MajorOpcode.Statement (.j target) := opOf_encodeJ ..
theorem MajorOpcode.jal (target : BitVec 26) : MajorOpcode.Statement (.jal target) := opOf_encodeJ ..
theorem MajorOpcode.jalr (rs rd : Reg) : MajorOpcode.Statement (.jalr rs rd) := opOf_encodeR ..
theorem MajorOpcode.jr (rs : Reg) : MajorOpcode.Statement (.jr rs) := opOf_encodeR ..
theorem MajorOpcode.teq (rs rt : Reg) (code : BitVec 10) : MajorOpcode.Statement (.teq rs rt code) := opOf_encodeTR ..
theorem MajorOpcode.teqi (rs : Reg) (imm : Half) : MajorOpcode.Statement (.teqi rs imm) := opOf_encodeI ..
theorem MajorOpcode.tne (rs rt : Reg) (code : BitVec 10) : MajorOpcode.Statement (.tne rs rt code) := opOf_encodeTR ..
theorem MajorOpcode.tnei (rs : Reg) (imm : Half) : MajorOpcode.Statement (.tnei rs imm) := opOf_encodeI ..
theorem MajorOpcode.tge (rs rt : Reg) (code : BitVec 10) : MajorOpcode.Statement (.tge rs rt code) := opOf_encodeTR ..
theorem MajorOpcode.tgeu (rs rt : Reg) (code : BitVec 10) : MajorOpcode.Statement (.tgeu rs rt code) :=
  opOf_encodeTR ..
theorem MajorOpcode.tgei (rs : Reg) (imm : Half) : MajorOpcode.Statement (.tgei rs imm) := opOf_encodeI ..
theorem MajorOpcode.tgeiu (rs : Reg) (imm : Half) : MajorOpcode.Statement (.tgeiu rs imm) := opOf_encodeI ..
theorem MajorOpcode.tlt (rs rt : Reg) (code : BitVec 10) : MajorOpcode.Statement (.tlt rs rt code) := opOf_encodeTR ..
theorem MajorOpcode.tltu (rs rt : Reg) (code : BitVec 10) : MajorOpcode.Statement (.tltu rs rt code) :=
  opOf_encodeTR ..
theorem MajorOpcode.tlti (rs : Reg) (imm : Half) : MajorOpcode.Statement (.tlti rs imm) := opOf_encodeI ..
theorem MajorOpcode.tltiu (rs : Reg) (imm : Half) : MajorOpcode.Statement (.tltiu rs imm) := opOf_encodeI ..
theorem MajorOpcode.lb (rt rs : Reg) (imm : Half) : MajorOpcode.Statement (.lb rt rs imm) := opOf_encodeI ..
theorem MajorOpcode.lbu (rt rs : Reg) (imm : Half) : MajorOpcode.Statement (.lbu rt rs imm) := opOf_encodeI ..
theorem MajorOpcode.lh (rt rs : Reg) (imm : Half) : MajorOpcode.Statement (.lh rt rs imm) := opOf_encodeI ..
theorem MajorOpcode.lhu (rt rs : Reg) (imm : Half) : MajorOpcode.Statement (.lhu rt rs imm) := opOf_encodeI ..
theorem MajorOpcode.lw (rt rs : Reg) (imm : Half) : MajorOpcode.Statement (.lw rt rs imm) := opOf_encodeI ..
theorem MajorOpcode.lwc1 (ft : FReg) (rs : Reg) (imm : Half) : MajorOpcode.Statement (.lwc1 ft rs imm) :=
  opOf_encodeI ..
theorem MajorOpcode.lwl (rt rs : Reg) (imm : Half) : MajorOpcode.Statement (.lwl rt rs imm) := opOf_encodeI ..
theorem MajorOpcode.lwr (rt rs : Reg) (imm : Half) : MajorOpcode.Statement (.lwr rt rs imm) := opOf_encodeI ..
theorem MajorOpcode.ldc1 (ft : FReg) (rs : Reg) (imm : Half) : MajorOpcode.Statement (.ldc1 ft rs imm) :=
  opOf_encodeI ..
theorem MajorOpcode.ll (rt rs : Reg) (imm : Half) : MajorOpcode.Statement (.ll rt rs imm) := opOf_encodeI ..
theorem MajorOpcode.sb (rt rs : Reg) (imm : Half) : MajorOpcode.Statement (.sb rt rs imm) := opOf_encodeI ..
theorem MajorOpcode.sh (rt rs : Reg) (imm : Half) : MajorOpcode.Statement (.sh rt rs imm) := opOf_encodeI ..
theorem MajorOpcode.sw (rt rs : Reg) (imm : Half) : MajorOpcode.Statement (.sw rt rs imm) := opOf_encodeI ..
theorem MajorOpcode.swc1 (ft : FReg) (rs : Reg) (imm : Half) : MajorOpcode.Statement (.swc1 ft rs imm) :=
  opOf_encodeI ..
theorem MajorOpcode.sdc1 (ft : FReg) (rs : Reg) (imm : Half) : MajorOpcode.Statement (.sdc1 ft rs imm) :=
  opOf_encodeI ..
theorem MajorOpcode.swl (rt rs : Reg) (imm : Half) : MajorOpcode.Statement (.swl rt rs imm) := opOf_encodeI ..
theorem MajorOpcode.swr (rt rs : Reg) (imm : Half) : MajorOpcode.Statement (.swr rt rs imm) := opOf_encodeI ..
theorem MajorOpcode.sc (rt rs : Reg) (imm : Half) : MajorOpcode.Statement (.sc rt rs imm) := opOf_encodeI ..
theorem MajorOpcode.mfhi (rd : Reg) : MajorOpcode.Statement (.mfhi rd) := opOf_encodeR ..
theorem MajorOpcode.mflo (rd : Reg) : MajorOpcode.Statement (.mflo rd) := opOf_encodeR ..
theorem MajorOpcode.mthi (rs : Reg) : MajorOpcode.Statement (.mthi rs) := opOf_encodeR ..
theorem MajorOpcode.mtlo (rs : Reg) : MajorOpcode.Statement (.mtlo rs) := opOf_encodeR ..
theorem MajorOpcode.mfc0 (rt rd : Reg) : MajorOpcode.Statement (.mfc0 rt rd) := opOf_encodeR ..
theorem MajorOpcode.mfc1 (rt : Reg) (fs : FReg) : MajorOpcode.Statement (.mfc1 rt fs) := opOf_encodeR ..
theorem MajorOpcode.mtc0 (rt rd : Reg) : MajorOpcode.Statement (.mtc0 rt rd) := opOf_encodeR ..
theorem MajorOpcode.mtc1 (rt : Reg) (fs : FReg) : MajorOpcode.Statement (.mtc1 rt fs) := opOf_encodeR ..
theorem MajorOpcode.movn (rd rs rt : Reg) : MajorOpcode.Statement (.movn rd rs rt) := opOf_encodeR ..
theorem MajorOpcode.movz (rd rs rt : Reg) : MajorOpcode.Statement (.movz rd rs rt) := opOf_encodeR ..
theorem MajorOpcode.movf (rd rs : Reg) (cc : CC) : MajorOpcode.Statement (.movf rd rs cc) := opOf_encodeR ..
theorem MajorOpcode.movt (rd rs : Reg) (cc : CC) : MajorOpcode.Statement (.movt rd rs cc) := opOf_encodeR ..
theorem MajorOpcode.absD (fd fs : FReg) : MajorOpcode.Statement (.absD fd fs) := opOf_encodeR ..
theorem MajorOpcode.absS (fd fs : FReg) : MajorOpcode.Statement (.absS fd fs) := opOf_encodeR ..
theorem MajorOpcode.addD (fd fs ft : FReg) : MajorOpcode.Statement (.addD fd fs ft) := opOf_encodeR ..
theorem MajorOpcode.addS (fd fs ft : FReg) : MajorOpcode.Statement (.addS fd fs ft) := opOf_encodeR ..
theorem MajorOpcode.ceilWD (fd fs : FReg) : MajorOpcode.Statement (.ceilWD fd fs) := opOf_encodeR ..
theorem MajorOpcode.ceilWS (fd fs : FReg) : MajorOpcode.Statement (.ceilWS fd fs) := opOf_encodeR ..
theorem MajorOpcode.cEqD (cc : CC) (fs ft : FReg) : MajorOpcode.Statement (.cEqD cc fs ft) := opOf_encodeR ..
theorem MajorOpcode.cEqS (cc : CC) (fs ft : FReg) : MajorOpcode.Statement (.cEqS cc fs ft) := opOf_encodeR ..
theorem MajorOpcode.cLeD (cc : CC) (fs ft : FReg) : MajorOpcode.Statement (.cLeD cc fs ft) := opOf_encodeR ..
theorem MajorOpcode.cLeS (cc : CC) (fs ft : FReg) : MajorOpcode.Statement (.cLeS cc fs ft) := opOf_encodeR ..
theorem MajorOpcode.cLtD (cc : CC) (fs ft : FReg) : MajorOpcode.Statement (.cLtD cc fs ft) := opOf_encodeR ..
theorem MajorOpcode.cLtS (cc : CC) (fs ft : FReg) : MajorOpcode.Statement (.cLtS cc fs ft) := opOf_encodeR ..
theorem MajorOpcode.cvtDS (fd fs : FReg) : MajorOpcode.Statement (.cvtDS fd fs) := opOf_encodeR ..
theorem MajorOpcode.cvtDW (fd fs : FReg) : MajorOpcode.Statement (.cvtDW fd fs) := opOf_encodeR ..
theorem MajorOpcode.cvtSD (fd fs : FReg) : MajorOpcode.Statement (.cvtSD fd fs) := opOf_encodeR ..
theorem MajorOpcode.cvtSW (fd fs : FReg) : MajorOpcode.Statement (.cvtSW fd fs) := opOf_encodeR ..
theorem MajorOpcode.cvtWD (fd fs : FReg) : MajorOpcode.Statement (.cvtWD fd fs) := opOf_encodeR ..
theorem MajorOpcode.cvtWS (fd fs : FReg) : MajorOpcode.Statement (.cvtWS fd fs) := opOf_encodeR ..
theorem MajorOpcode.divD (fd fs ft : FReg) : MajorOpcode.Statement (.divD fd fs ft) := opOf_encodeR ..
theorem MajorOpcode.divS (fd fs ft : FReg) : MajorOpcode.Statement (.divS fd fs ft) := opOf_encodeR ..
theorem MajorOpcode.floorWD (fd fs : FReg) : MajorOpcode.Statement (.floorWD fd fs) := opOf_encodeR ..
theorem MajorOpcode.floorWS (fd fs : FReg) : MajorOpcode.Statement (.floorWS fd fs) := opOf_encodeR ..
theorem MajorOpcode.movD (fd fs : FReg) : MajorOpcode.Statement (.movD fd fs) := opOf_encodeR ..
theorem MajorOpcode.movS (fd fs : FReg) : MajorOpcode.Statement (.movS fd fs) := opOf_encodeR ..
theorem MajorOpcode.movfD (fd fs : FReg) (cc : CC) : MajorOpcode.Statement (.movfD fd fs cc) := opOf_encodeR ..
theorem MajorOpcode.movfS (fd fs : FReg) (cc : CC) : MajorOpcode.Statement (.movfS fd fs cc) := opOf_encodeR ..
theorem MajorOpcode.movtD (fd fs : FReg) (cc : CC) : MajorOpcode.Statement (.movtD fd fs cc) := opOf_encodeR ..
theorem MajorOpcode.movtS (fd fs : FReg) (cc : CC) : MajorOpcode.Statement (.movtS fd fs cc) := opOf_encodeR ..
theorem MajorOpcode.movnD (fd fs : FReg) (rt : Reg) : MajorOpcode.Statement (.movnD fd fs rt) := opOf_encodeR ..
theorem MajorOpcode.movnS (fd fs : FReg) (rt : Reg) : MajorOpcode.Statement (.movnS fd fs rt) := opOf_encodeR ..
theorem MajorOpcode.movzD (fd fs : FReg) (rt : Reg) : MajorOpcode.Statement (.movzD fd fs rt) := opOf_encodeR ..
theorem MajorOpcode.movzS (fd fs : FReg) (rt : Reg) : MajorOpcode.Statement (.movzS fd fs rt) := opOf_encodeR ..
theorem MajorOpcode.mulD (fd fs ft : FReg) : MajorOpcode.Statement (.mulD fd fs ft) := opOf_encodeR ..
theorem MajorOpcode.mulS (fd fs ft : FReg) : MajorOpcode.Statement (.mulS fd fs ft) := opOf_encodeR ..
theorem MajorOpcode.negD (fd fs : FReg) : MajorOpcode.Statement (.negD fd fs) := opOf_encodeR ..
theorem MajorOpcode.negS (fd fs : FReg) : MajorOpcode.Statement (.negS fd fs) := opOf_encodeR ..
theorem MajorOpcode.roundWD (fd fs : FReg) : MajorOpcode.Statement (.roundWD fd fs) := opOf_encodeR ..
theorem MajorOpcode.roundWS (fd fs : FReg) : MajorOpcode.Statement (.roundWS fd fs) := opOf_encodeR ..
theorem MajorOpcode.sqrtD (fd fs : FReg) : MajorOpcode.Statement (.sqrtD fd fs) := opOf_encodeR ..
theorem MajorOpcode.sqrtS (fd fs : FReg) : MajorOpcode.Statement (.sqrtS fd fs) := opOf_encodeR ..
theorem MajorOpcode.subD (fd fs ft : FReg) : MajorOpcode.Statement (.subD fd fs ft) := opOf_encodeR ..
theorem MajorOpcode.subS (fd fs ft : FReg) : MajorOpcode.Statement (.subS fd fs ft) := opOf_encodeR ..
theorem MajorOpcode.truncWD (fd fs : FReg) : MajorOpcode.Statement (.truncWD fd fs) := opOf_encodeR ..
theorem MajorOpcode.truncWS (fd fs : FReg) : MajorOpcode.Statement (.truncWS fd fs) := opOf_encodeR ..
theorem MajorOpcode.eret : MajorOpcode.Statement (.eret) := rfl
theorem MajorOpcode.syscall (code : BitVec 20) : MajorOpcode.Statement (.syscall code) := opOf_encodeSYS ..
theorem MajorOpcode.brk (code : BitVec 20) : MajorOpcode.Statement (.brk code) := opOf_encodeSYS ..
theorem MajorOpcode.nop : MajorOpcode.Statement (.nop) := rfl

end Sys2Proof.Laws
end

