-- ==== Sys2Proof/Tests/Slice0.lean ====
section
/-! SUPPORT. Tests: decoding, well-formedness and one step at a time, with the expected results of
spec/95_test_vectors.md and spec/96_test_vectors_more.md; and for each statement a witness of its hypotheses. -/

open Sys2Proof Sys2Proof.Machine

namespace Sys2Proof.Tests

set_option Elab.async false

/-! ### Helpers -/

/-- The starting state of the vectors: code at 0x1000, data at 0x2000, the bytes 00 11 22 … FF there. -/
def machine (bigEndian : Bool) : State :=
  { State.boot 0x1000#32
      { bigEndian := bigEndian, regions := [⟨0x1000, 0x200⟩, ⟨0x2000, 0x40⟩], fpu := .recommended
        sdivNeg := .recommended, scSpuriousFail := false } [] with
    mem := [(0x2001, 0x11#8), (0x2002, 0x22#8), (0x2003, 0x33#8), (0x2004, 0x44#8), (0x2005, 0x55#8),
      (0x2006, 0x66#8), (0x2007, 0x77#8), (0x2008, 0x88#8), (0x2009, 0x99#8), (0x200a, 0xaa#8), (0x200b, 0xbb#8),
      (0x200c, 0xcc#8), (0x200d, 0xdd#8), (0x200e, 0xee#8), (0x200f, 0xff#8)] }

/-- One step at an instruction word, from the starting state changed by `f`. -/
def ran (bigEndian : Bool) (w : Word) (f : State → State) : Result := step (placeWord (f (machine bigEndian)) w)

/-- The outcome is a next state with a property. -/
def endsIn (r : Result) (p : State → Bool) : Bool :=
  match r with
  | .next t => p t
  | .fault _ => false
  | .refused _ => false

/-- Every word of a list decodes to its instruction, and the instruction encodes to the word. -/
def decodesAs (rows : List (Word × Instr)) : Bool := rows.all fun p => decodeOp p.1 == some p.2 && encode p.2 == p.1

/-! ### Decoding: a word of spec/ for every constructor -/

/-- Arithmetic and logic (40_arith_logic.md). -/
theorem test_decode_arithmetic_1 : decodesAs [
    (0x01095020#32, .add 10 8 9),
    (0x01095021#32, .addu 10 8 9),
    (0x2109FFFD#32, .addi 9 8 0xFFFD),
    (0x25090001#32, .addiu 9 8 0x1),
    (0x01095024#32, .and 10 8 9),
    (0x3109FFFF#32, .andi 9 8 0xFFFF),
    (0x71094821#32, .clo 9 8 9),
    (0x710A4820#32, .clz 9 8 10),
    (0x0109001A#32, .div 8 9),
    (0x0109001B#32, .divu 8 9),
    (0x01090018#32, .mult 8 9),
    (0x01090019#32, .multu 8 9),
    (0x71095002#32, .mul 10 8 9),
    (0x71090000#32, .madd 8 9),
    (0x71090001#32, .maddu 8 9),
    (0x71090004#32, .msub 8 9),
    (0x71090005#32, .msubu 8 9),
    (0x01095027#32, .nor 10 8 9),
    (0x01095025#32, .or 10 8 9),
    (0x35098000#32, .ori 9 8 0x8000)] = true := by
  decide +kernel

/-- Arithmetic and logic (40_arith_logic.md). -/
theorem test_decode_arithmetic_2 : decodesAs [
    (0x00084900#32, .sll 9 8 4),
    (0x01285004#32, .sllv 10 8 9),
    (0x00084903#32, .sra 9 8 4),
    (0x01285007#32, .srav 10 8 9),
    (0x00084902#32, .srl 9 8 4),
    (0x01285006#32, .srlv 10 8 9),
    (0x01095022#32, .sub 10 8 9),
    (0x01095023#32, .subu 10 8 9),
    (0x01095026#32, .xor 10 8 9),
    (0x3909FFFF#32, .xori 9 8 0xFFFF)] = true := by
  decide +kernel

/-- Constants and comparisons (41_const_compare.md). -/
theorem test_decode_compare : decodesAs [
    (0x3C091234#32, .lui 9 0x1234),
    (0x0109502A#32, .slt 10 8 9),
    (0x0109502B#32, .sltu 10 8 9),
    (0x2909FFFD#32, .slti 9 8 0xFFFD),
    (0x2D09FFFF#32, .sltiu 9 8 0xFFFF)] = true := by
  decide +kernel

/-- Branches and jumps (42_branch_jump.md). -/
theorem test_decode_branch : decodesAs [
    (0x451C0003#32, .bc1f 7 0x3),
    (0x45010003#32, .bc1t 0 0x3),
    (0x11090003#32, .beq 8 9 0x3),
    (0x05010003#32, .bgez 8 0x3),
    (0x05110003#32, .bgezal 8 0x3),
    (0x1D000003#32, .bgtz 8 0x3),
    (0x19000003#32, .blez 8 0x3),
    (0x05100003#32, .bltzal 8 0x3),
    (0x05000003#32, .bltz 8 0x3),
    (0x15090003#32, .bne 8 9 0x3),
    (0x08000410#32, .j 0x410),
    (0x0C000410#32, .jal 0x410),
    (0x0100F809#32, .jalr 8 31),
    (0x01000008#32, .jr 8)] = true := by
  decide +kernel

/-- Traps (43_trap.md). -/
theorem test_decode_trap : decodesAs [
    (0x01090034#32, .teq 8 9 0),
    (0x050CFFFF#32, .teqi 8 0xFFFF),
    (0x01090036#32, .tne 8 9 0),
    (0x050E0000#32, .tnei 8 0x0),
    (0x01090030#32, .tge 8 9 0),
    (0x01090031#32, .tgeu 8 9 0),
    (0x0508FFFB#32, .tgei 8 0xFFFB),
    (0x0509FFFF#32, .tgeiu 8 0xFFFF),
    (0x01090032#32, .tlt 8 9 0),
    (0x01090033#32, .tltu 8 9 0),
    (0x050A0000#32, .tlti 8 0x0),
    (0x050BFFFF#32, .tltiu 8 0xFFFF)] = true := by
  decide +kernel

/-- Loads and stores (44_load_store.md). -/
theorem test_decode_memory : decodesAs [
    (0x81090001#32, .lb 9 8 0x1),
    (0x9109000F#32, .lbu 9 8 0xF),
    (0x85090002#32, .lh 9 8 0x2),
    (0x9509000E#32, .lhu 9 8 0xE),
    (0x8D090004#32, .lw 9 8 0x4),
    (0xC5030004#32, .lwc1 3 8 0x4),
    (0x89090004#32, .lwl 9 8 0x4),
    (0x99090004#32, .lwr 9 8 0x4),
    (0xD5020004#32, .ldc1 2 8 0x4),
    (0xC1090004#32, .ll 9 8 0x4),
    (0xA1090005#32, .sb 9 8 0x5),
    (0xA5090006#32, .sh 9 8 0x6),
    (0xAD090004#32, .sw 9 8 0x4),
    (0xE5030004#32, .swc1 3 8 0x4),
    (0xF502000C#32, .sdc1 2 8 0xC),
    (0xA9090004#32, .swl 9 8 0x4),
    (0xB9090004#32, .swr 9 8 0x4),
    (0xE1090004#32, .sc 9 8 0x4)] = true := by
  decide +kernel

/-- Data movement (45_data_move.md). -/
theorem test_decode_move : decodesAs [
    (0x00004810#32, .mfhi 9),
    (0x00004812#32, .mflo 9),
    (0x01000011#32, .mthi 8),
    (0x01000013#32, .mtlo 8),
    (0x40096000#32, .mfc0 9 12),
    (0x44092000#32, .mfc1 9 4),
    (0x40886000#32, .mtc0 8 12),
    (0x44892000#32, .mtc1 9 4),
    (0x0109500B#32, .movn 10 8 9),
    (0x0109500A#32, .movz 10 8 9),
    (0x01005001#32, .movf 10 8 0),
    (0x01155001#32, .movt 10 8 5)] = true := by
  decide +kernel

/-- Floating point (46_float.md). -/
theorem test_decode_float_1 : decodesAs [
    (0x46201185#32, .absD 6 2),
    (0x46001185#32, .absS 6 2),
    (0x46241180#32, .addD 6 2 4),
    (0x46041180#32, .addS 6 2 4),
    (0x4620118E#32, .ceilWD 6 2),
    (0x4600118E#32, .ceilWS 6 2),
    (0x46241732#32, .cEqD 7 2 4),
    (0x46041032#32, .cEqS 0 2 4),
    (0x4624103E#32, .cLeD 0 2 4),
    (0x4604133E#32, .cLeS 3 2 4),
    (0x4624103C#32, .cLtD 0 2 4),
    (0x4604103C#32, .cLtS 0 2 4),
    (0x460011A1#32, .cvtDS 6 2),
    (0x468011A1#32, .cvtDW 6 2),
    (0x462011A0#32, .cvtSD 6 2),
    (0x468011A0#32, .cvtSW 6 2),
    (0x462011A4#32, .cvtWD 6 2),
    (0x460011A4#32, .cvtWS 6 2),
    (0x46241183#32, .divD 6 2 4),
    (0x46041183#32, .divS 6 2 4)] = true := by
  decide +kernel

/-- Floating point (46_float.md). -/
theorem test_decode_float_2 : decodesAs [
    (0x4620118F#32, .floorWD 6 2),
    (0x4600118F#32, .floorWS 6 2),
    (0x46201186#32, .movD 6 2),
    (0x46001186#32, .movS 6 2),
    (0x46201191#32, .movfD 6 2 0),
    (0x46001191#32, .movfS 6 2 0),
    (0x46211191#32, .movtD 6 2 0),
    (0x46091191#32, .movtS 6 2 2),
    (0x46291193#32, .movnD 6 2 9),
    (0x46091193#32, .movnS 6 2 9),
    (0x46291192#32, .movzD 6 2 9),
    (0x46091192#32, .movzS 6 2 9),
    (0x46241182#32, .mulD 6 2 4),
    (0x46041182#32, .mulS 6 2 4),
    (0x46201187#32, .negD 6 2),
    (0x46001187#32, .negS 6 2),
    (0x4620118C#32, .roundWD 6 2),
    (0x4600118C#32, .roundWS 6 2),
    (0x46201184#32, .sqrtD 6 2),
    (0x46001184#32, .sqrtS 6 2)] = true := by
  decide +kernel

/-- Floating point (46_float.md). -/
theorem test_decode_float_3 : decodesAs [
    (0x46241181#32, .subD 6 2 4),
    (0x46041181#32, .subS 6 2 4),
    (0x4620118D#32, .truncWD 6 2),
    (0x4600118D#32, .truncWS 6 2)] = true := by
  decide +kernel

/-- Exception instructions (47_exception_instr.md). -/
theorem test_decode_exception : decodesAs [
    (0x42000018#32, .eret),
    (0x03FFFFCC#32, .syscall 1048575),
    (0x0000004D#32, .brk 1),
    (0x00000000#32, .nop)] = true := by
  decide +kernel

/-- Words that are no instruction (96_test_vectors_more.md section 2.9). -/
theorem test_refused_words : ([
        0x00200000#32, 0x00200002#32, 0x00000046#32, 0x00020001#32, 0x00000005#32, 0x0000000F#32, 0x00000408#32,
      0x01095018#32,
        0x01090035#32, 0x04020000#32, 0x04030000#32, 0x04120000#32, 0x041F0000#32, 0x18010000#32, 0x50000000#32,
      0x54000000#32,
        0x58000000#32, 0x5C000000#32, 0x3C281234#32, 0x40086001#32, 0x41606000#32, 0x42000020#32, 0x42000002#32,
      0x4200001F#32,
        0x41000000#32, 0x4448F800#32, 0x44C8F800#32, 0x45020000#32, 0x45030000#32, 0x46800000#32, 0x46010004#32,
      0x46000020#32,
        0x46200021#32, 0x46800024#32, 0x46000015#32, 0x46000030#32, 0x46000031#32, 0x46000072#32, 0x4600003F#32,
      0x48000000#32,
        0x4C000000#32, 0x7000003F#32, 0x7C00003B#32, 0x9C000000#32, 0xBC000000#32, 0xC8000000#32, 0xCC000000#32,
      0xD8000000#32,
    0xFC000000#32, 0xFFFFFFFF#32] : List Word).all (fun w => decodeOp w == none) = true := by decide +kernel

/-! ### Well-formed terms and operand constraints: each check refuses an ill-formed term -/

/-- `sll $0, $0, 0` is the one term that is no decoded word (R453). -/
theorem test_wf_smoke :
    Instr.wf (.sll 0 0 0) = false ∧ Instr.wf (.sll 1 0 0) = true ∧ Instr.wf (.sll 0 1 0) = true ∧
    Instr.wf (.sll 0 0 1) = true ∧ Instr.wf .nop = true := by decide

/-- The operand constraints of R121 but for the doubles: refused, and accepted beside the boundary. -/
theorem test_operands_smoke :
    ([.clo 10 8 9, .clz 10 8 9, .bgezal 31 2, .bltzal 31 2, .jalr 8 8, .mfc0 8 9, .mfc0 8 15, .mtc0 8 11,
      .mtc0 8 0] : List Instr).all (fun i => !i.operandsOk) = true ∧
    ([.clo 10 8 10, .clo 10 8 0, .clz 10 8 10, .clz 10 8 0, .bgezal 30 2, .bltzal 30 2, .jalr 8 31, .mfc0 8 8,
      .mfc0 8 12, .mtc0 8 13, .mtc0 8 14] : List Instr).all (fun i => i.operandsOk) = true := by decide

/-- An odd register is refused in each place that names a double (R33), and nowhere else. -/
theorem test_even_smoke :
    ([.ldc1 3 8 0, .sdc1 3 8 0, .absD 1 2, .absD 2 1, .movD 1 2, .movD 2 1, .movfD 1 2 0, .movfD 2 1 0,
      .movtD 1 2 0, .movtD 2 1 0, .movnD 1 2 8, .movnD 2 1 8, .movzD 1 2 8, .movzD 2 1 8, .negD 1 2, .negD 2 1,
      .sqrtD 1 2, .sqrtD 2 1, .addD 1 2 4, .addD 2 1 4, .addD 2 4 1, .divD 1 2 4, .divD 2 1 4, .divD 2 4 1,
      .mulD 1 2 4, .mulD 2 1 4, .mulD 2 4 1, .subD 1 2 4, .subD 2 1 4, .subD 2 4 1, .ceilWD 2 1, .cvtSD 2 1,
      .cvtWD 2 1, .floorWD 2 1, .roundWD 2 1, .truncWD 2 1, .cEqD 0 1 2, .cEqD 0 2 1, .cLeD 0 1 2, .cLeD 0 2 1,
      .cLtD 0 1 2, .cLtD 0 2 1, .cvtDS 1 2, .cvtDW 1 2] : List Instr).all (fun i => !i.operandsOk) = true ∧
    ([.ceilWD 1 2, .cvtSD 1 2, .cvtWD 1 2, .floorWD 1 2, .roundWD 1 2, .truncWD 1 2, .cvtDS 2 1, .cvtDW 2 1,
      .addS 1 3 5, .lwc1 3 8 0, .swc1 3 8 0] : List Instr).all (fun i => i.operandsOk) = true := by decide

/-! ### One step of each instruction -/

/-! Arithmetic and logic (40_arith_logic.md) -/

/-- `add $10, $8, $9` with $8 = 0x80000000, $9 = 0x7FFFFFFF (spec/95_test_vectors.md line 102). -/
theorem test_add_1 : endsIn
    (ran true 0x01095020#32 (fun s => (s.writeGpr 8 0x80000000#32).writeGpr 9 0x7fffffff#32))
    (fun t => t.readGpr 10 == 0xffffffff#32 && t.pc == 0x1004#32) = true := by decide +kernel

/-- `add $10, $8, $9` with $8 = 0x7FFFFFFF, $9 = 0x00000001, $10 = 0x00000055 (spec/95_test_vectors.md line 100). -/
theorem test_add_2 : endsIn
    (ran true 0x01095020#32 (fun s => ((s.writeGpr 8 0x7fffffff#32).writeGpr 9 0x1#32).writeGpr 10 0x55#32))
        (fun t => t.readGpr 10 == 0x55#32 && t.epc == 0x1000#32 && t.cause == 0x30#32 && t.pc == 0x80000180#32 &&
      t.excCode == 12#5) = true := by decide +kernel

/-- `addu $10, $8, $9` with $8 = 0x7FFFFFFF, $9 = 0x00000001 (spec/95_test_vectors.md line 105). -/
theorem test_addu_1 : endsIn
    (ran true 0x01095021#32 (fun s => (s.writeGpr 8 0x7fffffff#32).writeGpr 9 0x1#32))
    (fun t => t.readGpr 10 == 0x80000000#32 && t.pc == 0x1004#32) = true := by decide +kernel

/-- `addu $10, $8, $9` with $8 = 0xFFFFFFFF, $9 = 0xFFFFFFFF (spec/95_test_vectors.md line 106). -/
theorem test_addu_2 : endsIn
    (ran true 0x01095021#32 (fun s => (s.writeGpr 8 0xffffffff#32).writeGpr 9 0xffffffff#32))
    (fun t => t.readGpr 10 == 0xfffffffe#32 && t.pc == 0x1004#32) = true := by decide +kernel

/-- `addi $9, $8, 0x7FFF` with $8 = 0x7FFF8000 (spec/95_test_vectors.md line 110). -/
theorem test_addi_1 : endsIn
    (ran true 0x21097FFF#32 (fun s => s.writeGpr 8 0x7fff8000#32))
    (fun t => t.readGpr 9 == 0x7fffffff#32 && t.pc == 0x1004#32) = true := by decide +kernel

/-- `addi $9, $8, 1` with $8 = 0x7FFFFFFF, $9 = 0x00000055 (spec/95_test_vectors.md line 108). -/
theorem test_addi_2 : endsIn
    (ran true 0x21090001#32 (fun s => (s.writeGpr 8 0x7fffffff#32).writeGpr 9 0x55#32))
        (fun t => t.readGpr 9 == 0x55#32 && t.cause == 0x30#32 && t.pc == 0x80000180#32 && t.excCode == 12#5) = true
      := by decide +kernel

/-- `addiu $9, $8, 1` with $8 = 0x7FFFFFFF (spec/95_test_vectors.md line 111). -/
theorem test_addiu_1 : endsIn
    (ran true 0x25090001#32 (fun s => s.writeGpr 8 0x7fffffff#32))
    (fun t => t.readGpr 9 == 0x80000000#32 && t.pc == 0x1004#32) = true := by decide +kernel

/-- `addiu $9, $0, -32768` with nothing set (spec/95_test_vectors.md line 112). -/
theorem test_addiu_2 : endsIn
    (ran true 0x24098000#32 id)
    (fun t => t.readGpr 9 == 0xffff8000#32 && t.pc == 0x1004#32) = true := by decide +kernel

/-- `and $10, $8, $9` with $8 = 0xFF00FF00, $9 = 0x0FF00FF0 (spec/95_test_vectors.md line 114). -/
theorem test_and_1 : endsIn
    (ran true 0x01095024#32 (fun s => (s.writeGpr 8 0xff00ff00#32).writeGpr 9 0xff00ff0#32))
    (fun t => t.readGpr 10 == 0xf000f00#32 && t.pc == 0x1004#32) = true := by decide +kernel

/-- `andi $9, $8, 0x8000` with $8 = 0xFFFF8000 (spec/95_test_vectors.md line 116). -/
theorem test_andi_1 : endsIn
    (ran true 0x31098000#32 (fun s => s.writeGpr 8 0xffff8000#32))
    (fun t => t.readGpr 9 == 0x8000#32 && t.pc == 0x1004#32) = true := by decide +kernel

/-- `andi $9, $8, 0xFFFF` with $8 = 0xFFFFFFFF (spec/95_test_vectors.md line 115). -/
theorem test_andi_2 : endsIn
    (ran true 0x3109FFFF#32 (fun s => s.writeGpr 8 0xffffffff#32))
    (fun t => t.readGpr 9 == 0xffff#32 && t.pc == 0x1004#32) = true := by decide +kernel

/-- `clo $9, $8` with $8 = 0xFFFFFFFF (spec/95_test_vectors.md line 123). -/
theorem test_clo_1 : endsIn
    (ran true 0x71094821#32 (fun s => s.writeGpr 8 0xffffffff#32))
    (fun t => t.readGpr 9 == 0x20#32 && t.pc == 0x1004#32) = true := by decide +kernel

/-- `clo $9, $8` with $8 = 0xF0000000 (spec/95_test_vectors.md line 125). -/
theorem test_clo_2 : endsIn
    (ran true 0x71094821#32 (fun s => s.writeGpr 8 0xf0000000#32))
    (fun t => t.readGpr 9 == 0x4#32 && t.pc == 0x1004#32) = true := by decide +kernel

/-- `clz $9, $8` with $8 = 0x80000000 (spec/95_test_vectors.md line 129). -/
theorem test_clz_1 : endsIn
    (ran true 0x71094820#32 (fun s => s.writeGpr 8 0x80000000#32))
    (fun t => t.readGpr 9 == 0x0#32 && t.pc == 0x1004#32) = true := by decide +kernel

/-- `clz $9, $8` with $8 = 0x00000001 (spec/95_test_vectors.md line 128). -/
theorem test_clz_2 : endsIn
    (ran true 0x71094820#32 (fun s => s.writeGpr 8 0x1#32))
    (fun t => t.readGpr 9 == 0x1f#32 && t.pc == 0x1004#32) = true := by decide +kernel

/-- `div $8, $9` with $8 = 0xFFFFFF9C, $9 = 0x00000007 (spec/95_test_vectors.md line 132). -/
theorem test_div_1 : endsIn
    (ran true 0x0109001A#32 (fun s => (s.writeGpr 8 0xffffff9c#32).writeGpr 9 0x7#32))
    (fun t => t.lo == 0xfffffff2#32 && t.hi == 0xfffffffe#32 && t.pc == 0x1004#32) = true := by decide +kernel

/-- `div $8, $9` with $8 = 0x00000064, $9 = 0xFFFFFFF9 (spec/95_test_vectors.md line 133). -/
theorem test_div_2 : endsIn
    (ran true 0x0109001A#32 (fun s => (s.writeGpr 8 0x64#32).writeGpr 9 0xfffffff9#32))
    (fun t => t.lo == 0xfffffff2#32 && t.hi == 0x2#32 && t.pc == 0x1004#32) = true := by decide +kernel

/-- `divu $8, $9` with $8 = 0xFFFFFF9C, $9 = 0x00000007 (spec/95_test_vectors.md line 138). -/
theorem test_divu_1 : endsIn
    (ran true 0x0109001B#32 (fun s => (s.writeGpr 8 0xffffff9c#32).writeGpr 9 0x7#32))
    (fun t => t.lo == 0x24924916#32 && t.hi == 0x2#32 && t.pc == 0x1004#32) = true := by decide +kernel

/-- `divu $8, $9` with $8 = 0xFFFFFFFF, $9 = 0x00000002 (spec/95_test_vectors.md line 137). -/
theorem test_divu_2 : endsIn
    (ran true 0x0109001B#32 (fun s => (s.writeGpr 8 0xffffffff#32).writeGpr 9 0x2#32))
    (fun t => t.lo == 0x7fffffff#32 && t.hi == 0x1#32 && t.pc == 0x1004#32) = true := by decide +kernel

/-- `mult $8, $9` with $8 = 0xFFFFFFFE, $9 = 0x00000003 (spec/95_test_vectors.md line 140). -/
theorem test_mult_1 : endsIn
    (ran true 0x01090018#32 (fun s => (s.writeGpr 8 0xfffffffe#32).writeGpr 9 0x3#32))
    (fun t => t.hi == 0xffffffff#32 && t.lo == 0xfffffffa#32 && t.pc == 0x1004#32) = true := by decide +kernel

/-- `mult $8, $9` with $8 = 0x80000000, $9 = 0x80000000 (spec/95_test_vectors.md line 142). -/
theorem test_mult_2 : endsIn
    (ran true 0x01090018#32 (fun s => (s.writeGpr 8 0x80000000#32).writeGpr 9 0x80000000#32))
    (fun t => t.hi == 0x40000000#32 && t.lo == 0x0#32 && t.pc == 0x1004#32) = true := by decide +kernel

/-- `multu $8, $9` with $8 = 0xFFFFFFFE, $9 = 0x00000003 (spec/95_test_vectors.md line 144). -/
theorem test_multu_1 : endsIn
    (ran true 0x01090019#32 (fun s => (s.writeGpr 8 0xfffffffe#32).writeGpr 9 0x3#32))
    (fun t => t.hi == 0x2#32 && t.lo == 0xfffffffa#32 && t.pc == 0x1004#32) = true := by decide +kernel

/-- `multu $8, $9` with $8 = 0xFFFFFFFF, $9 = 0xFFFFFFFF (spec/95_test_vectors.md line 143). -/
theorem test_multu_2 : endsIn
    (ran true 0x01090019#32 (fun s => (s.writeGpr 8 0xffffffff#32).writeGpr 9 0xffffffff#32))
    (fun t => t.hi == 0xfffffffe#32 && t.lo == 0x1#32 && t.pc == 0x1004#32) = true := by decide +kernel

/-- `mul $10, $8, $9` with $8 = 0xFFFFFFFE, $9 = 0x00000003, hi = 0x00000011, lo = 0x00000022 (spec/95_test_vectors.md
line 145). -/
theorem test_mul_1 : endsIn
    (ran true 0x71095002#32 (fun s => { (s.writeGpr 8 0xfffffffe#32).writeGpr 9 0x3#32 with
      hi := 0x11#32, lo := 0x22#32 }))
    (fun t => t.readGpr 10 == 0xfffffffa#32 && t.pc == 0x1004#32) = true := by decide +kernel

/-- `mul $10, $8, $9` with $8 = 0x7FFFFFFF, $9 = 0x7FFFFFFF (spec/95_test_vectors.md line 147). -/
theorem test_mul_2 : endsIn
    (ran true 0x71095002#32 (fun s => (s.writeGpr 8 0x7fffffff#32).writeGpr 9 0x7fffffff#32))
    (fun t => t.readGpr 10 == 0x1#32 && t.pc == 0x1004#32) = true := by decide +kernel

/-- `madd $8, $9` with $8 = 0x00000002, $9 = 0x00000003, hi = 0x00000000, lo = 0xFFFFFFFF (spec/95_test_vectors.md
line 148). -/
theorem test_madd_1 : endsIn
    (ran true 0x71090000#32 (fun s => { (s.writeGpr 8 0x2#32).writeGpr 9 0x3#32 with
      hi := 0x0#32, lo := 0xffffffff#32 }))
    (fun t => t.hi == 0x1#32 && t.lo == 0x5#32 && t.pc == 0x1004#32) = true := by decide +kernel

/-- `madd $8, $9` with $8 = 0x7FFFFFFF, $9 = 0x7FFFFFFF, hi = 0x7FFFFFFF, lo = 0xFFFFFFFF (spec/95_test_vectors.md
line 150). -/
theorem test_madd_2 : endsIn
    (ran true 0x71090000#32 (fun s => { (s.writeGpr 8 0x7fffffff#32).writeGpr 9 0x7fffffff#32 with
      hi := 0x7fffffff#32, lo := 0xffffffff#32 }))
    (fun t => t.hi == 0xbfffffff#32 && t.lo == 0x0#32 && t.pc == 0x1004#32) = true := by decide +kernel

/-- `maddu $8, $9` with $8 = 0xFFFFFFFF, $9 = 0xFFFFFFFF, hi = 0x00000000, lo = 0x00000001 (spec/95_test_vectors.md
line 151). -/
theorem test_maddu_1 : endsIn
    (ran true 0x71090001#32 (fun s => { (s.writeGpr 8 0xffffffff#32).writeGpr 9 0xffffffff#32 with
      hi := 0x0#32, lo := 0x1#32 }))
    (fun t => t.hi == 0xfffffffe#32 && t.lo == 0x2#32 && t.pc == 0x1004#32) = true := by decide +kernel

/-- `maddu $8, $9` with $8 = 0xFFFFFFFF, $9 = 0xFFFFFFFF, hi = 0xFFFFFFFF, lo = 0xFFFFFFFF (spec/95_test_vectors.md
line 152). -/
theorem test_maddu_2 : endsIn
    (ran true 0x71090001#32 (fun s => { (s.writeGpr 8 0xffffffff#32).writeGpr 9 0xffffffff#32 with
      hi := 0xffffffff#32, lo := 0xffffffff#32 }))
    (fun t => t.hi == 0xfffffffe#32 && t.lo == 0x0#32 && t.pc == 0x1004#32) = true := by decide +kernel

/-- `msub $8, $9` with $8 = 0x00000002, $9 = 0x00000003, hi = 0x00000000, lo = 0x00000005 (spec/95_test_vectors.md
line 153). -/
theorem test_msub_1 : endsIn
    (ran true 0x71090004#32 (fun s => { (s.writeGpr 8 0x2#32).writeGpr 9 0x3#32 with hi := 0x0#32, lo := 0x5#32 }))
    (fun t => t.hi == 0xffffffff#32 && t.lo == 0xffffffff#32 && t.pc == 0x1004#32) = true := by decide +kernel

/-- `msub $8, $9` with $8 = 0xFFFFFFFE, $9 = 0x00000003, hi = 0x00000000, lo = 0x00000000 (spec/95_test_vectors.md
line 154). -/
theorem test_msub_2 : endsIn
    (ran true 0x71090004#32 (fun s => { (s.writeGpr 8 0xfffffffe#32).writeGpr 9 0x3#32 with
      hi := 0x0#32, lo := 0x0#32 }))
    (fun t => t.hi == 0x0#32 && t.lo == 0x6#32 && t.pc == 0x1004#32) = true := by decide +kernel

/-- `msubu $8, $9` with $8 = 0xFFFFFFFF, $9 = 0x00000001, hi = 0x00000001, lo = 0x00000000 (spec/95_test_vectors.md
line 155). -/
theorem test_msubu_1 : endsIn
    (ran true 0x71090005#32 (fun s => { (s.writeGpr 8 0xffffffff#32).writeGpr 9 0x1#32 with
      hi := 0x1#32, lo := 0x0#32 }))
    (fun t => t.hi == 0x0#32 && t.lo == 0x1#32 && t.pc == 0x1004#32) = true := by decide +kernel

/-- `msubu $8, $9` with $8 = 0x00000001, $9 = 0x00000001, hi = 0x00000000, lo = 0x00000000 (spec/95_test_vectors.md
line 156). -/
theorem test_msubu_2 : endsIn
    (ran true 0x71090005#32 (fun s => { (s.writeGpr 8 0x1#32).writeGpr 9 0x1#32 with hi := 0x0#32, lo := 0x0#32 }))
    (fun t => t.hi == 0xffffffff#32 && t.lo == 0xffffffff#32 && t.pc == 0x1004#32) = true := by decide +kernel

/-- `nor $10, $8, $0` with $8 = 0x12345678 (spec/95_test_vectors.md line 122). -/
theorem test_nor_1 : endsIn
    (ran true 0x01005027#32 (fun s => s.writeGpr 8 0x12345678#32))
    (fun t => t.readGpr 10 == 0xedcba987#32 && t.pc == 0x1004#32) = true := by decide +kernel

/-- `nor $10, $8, $9` with $8 = 0xFF00FF00, $9 = 0x0FF00FF0 (spec/95_test_vectors.md line 121). -/
theorem test_nor_2 : endsIn
    (ran true 0x01095027#32 (fun s => (s.writeGpr 8 0xff00ff00#32).writeGpr 9 0xff00ff0#32))
    (fun t => t.readGpr 10 == 0xf000f#32 && t.pc == 0x1004#32) = true := by decide +kernel

/-- `or $10, $8, $9` with $8 = 0xFF00FF00, $9 = 0x0FF00FF0 (spec/95_test_vectors.md line 117). -/
theorem test_or_1 : endsIn
    (ran true 0x01095025#32 (fun s => (s.writeGpr 8 0xff00ff00#32).writeGpr 9 0xff00ff0#32))
    (fun t => t.readGpr 10 == 0xfff0fff0#32 && t.pc == 0x1004#32) = true := by decide +kernel

/-- `ori $9, $8, 0x8000` with $8 = 0x00010000 (spec/95_test_vectors.md line 118). -/
theorem test_ori_1 : endsIn
    (ran true 0x35098000#32 (fun s => s.writeGpr 8 0x10000#32))
    (fun t => t.readGpr 9 == 0x18000#32 && t.pc == 0x1004#32) = true := by decide +kernel

/-- `sll $9, $8, 0` with $8 = 0x12345678 (spec/95_test_vectors.md line 159). -/
theorem test_sll_1 : endsIn
    (ran true 0x00084800#32 (fun s => s.writeGpr 8 0x12345678#32))
    (fun t => t.readGpr 9 == 0x12345678#32 && t.pc == 0x1004#32) = true := by decide +kernel

/-- `sll $9, $8, 31` with $8 = 0x00000001 (spec/95_test_vectors.md line 158). -/
theorem test_sll_2 : endsIn
    (ran true 0x00084FC0#32 (fun s => s.writeGpr 8 0x1#32))
    (fun t => t.readGpr 9 == 0x80000000#32 && t.pc == 0x1004#32) = true := by decide +kernel

/-- `sllv $10, $8, $9` with $8 = 0x00000001, $9 = 0xFFFFFFFF (spec/95_test_vectors.md line 167). -/
theorem test_sllv_1 : endsIn
    (ran true 0x01285004#32 (fun s => (s.writeGpr 8 0x1#32).writeGpr 9 0xffffffff#32))
    (fun t => t.readGpr 10 == 0x80000000#32 && t.pc == 0x1004#32) = true := by decide +kernel

/-- `sllv $10, $8, $9` with $8 = 0x00000001, $9 = 0x00000004 (spec/95_test_vectors.md line 165). -/
theorem test_sllv_2 : endsIn
    (ran true 0x01285004#32 (fun s => (s.writeGpr 8 0x1#32).writeGpr 9 0x4#32))
    (fun t => t.readGpr 10 == 0x10#32 && t.pc == 0x1004#32) = true := by decide +kernel

/-- `sra $9, $8, 31` with $8 = 0x80000000 (spec/95_test_vectors.md line 163). -/
theorem test_sra_1 : endsIn
    (ran true 0x00084FC3#32 (fun s => s.writeGpr 8 0x80000000#32))
    (fun t => t.readGpr 9 == 0xffffffff#32 && t.pc == 0x1004#32) = true := by decide +kernel

/-- `sra $9, $8, 4` with $8 = 0xF000000F (spec/95_test_vectors.md line 162). -/
theorem test_sra_2 : endsIn
    (ran true 0x00084903#32 (fun s => s.writeGpr 8 0xf000000f#32))
    (fun t => t.readGpr 9 == 0xff000000#32 && t.pc == 0x1004#32) = true := by decide +kernel

/-- `srav $10, $8, $9` with $8 = 0x80000000, $9 = 0x00000023 (spec/95_test_vectors.md line 169). -/
theorem test_srav_1 : endsIn
    (ran true 0x01285007#32 (fun s => (s.writeGpr 8 0x80000000#32).writeGpr 9 0x23#32))
    (fun t => t.readGpr 10 == 0xf0000000#32 && t.pc == 0x1004#32) = true := by decide +kernel

/-- `srl $9, $8, 31` with $8 = 0x80000000 (spec/95_test_vectors.md line 161). -/
theorem test_srl_1 : endsIn
    (ran true 0x00084FC2#32 (fun s => s.writeGpr 8 0x80000000#32))
    (fun t => t.readGpr 9 == 0x1#32 && t.pc == 0x1004#32) = true := by decide +kernel

/-- `srl $9, $8, 4` with $8 = 0xF000000F (spec/95_test_vectors.md line 160). -/
theorem test_srl_2 : endsIn
    (ran true 0x00084902#32 (fun s => s.writeGpr 8 0xf000000f#32))
    (fun t => t.readGpr 9 == 0xf000000#32 && t.pc == 0x1004#32) = true := by decide +kernel

/-- `srlv $10, $8, $9` with $8 = 0x80000000, $9 = 0x00000021 (spec/95_test_vectors.md line 168). -/
theorem test_srlv_1 : endsIn
    (ran true 0x01285006#32 (fun s => (s.writeGpr 8 0x80000000#32).writeGpr 9 0x21#32))
    (fun t => t.readGpr 10 == 0x40000000#32 && t.pc == 0x1004#32) = true := by decide +kernel

/-- `sub $10, $8, $9` with $8 = 0x00000005, $9 = 0x00000007 (spec/95_test_vectors.md line 170). -/
theorem test_sub_1 : endsIn
    (ran true 0x01095022#32 (fun s => (s.writeGpr 8 0x5#32).writeGpr 9 0x7#32))
    (fun t => t.readGpr 10 == 0xfffffffe#32 && t.pc == 0x1004#32) = true := by decide +kernel

/-- `sub $10, $8, $9` with $8 = 0x80000000, $9 = 0x00000001, $10 = 0x00000055 (spec/95_test_vectors.md line 171). -/
theorem test_sub_2 : endsIn
    (ran true 0x01095022#32 (fun s => ((s.writeGpr 8 0x80000000#32).writeGpr 9 0x1#32).writeGpr 10 0x55#32))
        (fun t => t.readGpr 10 == 0x55#32 && t.cause == 0x30#32 && t.pc == 0x80000180#32 && t.excCode == 12#5) = true
      := by decide +kernel

/-- `subu $10, $8, $9` with $8 = 0x80000000, $9 = 0x00000001 (spec/95_test_vectors.md line 174). -/
theorem test_subu_1 : endsIn
    (ran true 0x01095023#32 (fun s => (s.writeGpr 8 0x80000000#32).writeGpr 9 0x1#32))
    (fun t => t.readGpr 10 == 0x7fffffff#32 && t.pc == 0x1004#32) = true := by decide +kernel

/-- `subu $10, $8, $9` with $8 = 0x00000000, $9 = 0x00000001 (spec/95_test_vectors.md line 175). -/
theorem test_subu_2 : endsIn
    (ran true 0x01095023#32 (fun s => (s.writeGpr 8 0x0#32).writeGpr 9 0x1#32))
    (fun t => t.readGpr 10 == 0xffffffff#32 && t.pc == 0x1004#32) = true := by decide +kernel

/-- `xor $10, $8, $9` with $8 = 0xFF00FF00, $9 = 0x0FF00FF0 (spec/95_test_vectors.md line 119). -/
theorem test_xor_1 : endsIn
    (ran true 0x01095026#32 (fun s => (s.writeGpr 8 0xff00ff00#32).writeGpr 9 0xff00ff0#32))
    (fun t => t.readGpr 10 == 0xf0f0f0f0#32 && t.pc == 0x1004#32) = true := by decide +kernel

/-- `xori $9, $8, 0xFFFF` with $8 = 0xFFFFFFFF (spec/95_test_vectors.md line 120). -/
theorem test_xori_1 : endsIn
    (ran true 0x3909FFFF#32 (fun s => s.writeGpr 8 0xffffffff#32))
    (fun t => t.readGpr 9 == 0xffff0000#32 && t.pc == 0x1004#32) = true := by decide +kernel

/-! Constants and comparisons (41_const_compare.md) -/

/-- `lui $9, 0x1234` with $9 = 0xFFFFFFFF (spec/95_test_vectors.md line 197). -/
theorem test_lui_1 : endsIn
    (ran true 0x3C091234#32 (fun s => s.writeGpr 9 0xffffffff#32))
    (fun t => t.readGpr 9 == 0x12340000#32 && t.pc == 0x1004#32) = true := by decide +kernel

/-- `lui $9, 0xFFFF` with nothing set (spec/95_test_vectors.md line 198). -/
theorem test_lui_2 : endsIn
    (ran true 0x3C09FFFF#32 id)
    (fun t => t.readGpr 9 == 0xffff0000#32 && t.pc == 0x1004#32) = true := by decide +kernel

/-- `slt $10, $8, $9` with $8 = 0x80000000, $9 = 0x7FFFFFFF (spec/95_test_vectors.md line 203). -/
theorem test_slt_1 : endsIn
    (ran true 0x0109502A#32 (fun s => (s.writeGpr 8 0x80000000#32).writeGpr 9 0x7fffffff#32))
    (fun t => t.readGpr 10 == 0x1#32 && t.pc == 0x1004#32) = true := by decide +kernel

/-- `slt $10, $8, $9` with $8 = 0x00000001, $9 = 0xFFFFFFFF (spec/95_test_vectors.md line 201). -/
theorem test_slt_2 : endsIn
    (ran true 0x0109502A#32 (fun s => (s.writeGpr 8 0x1#32).writeGpr 9 0xffffffff#32))
    (fun t => t.readGpr 10 == 0x0#32 && t.pc == 0x1004#32) = true := by decide +kernel

/-- `sltu $10, $8, $9` with $8 = 0xFFFFFFFF, $9 = 0x00000001 (spec/95_test_vectors.md line 204). -/
theorem test_sltu_1 : endsIn
    (ran true 0x0109502B#32 (fun s => (s.writeGpr 8 0xffffffff#32).writeGpr 9 0x1#32))
    (fun t => t.readGpr 10 == 0x0#32 && t.pc == 0x1004#32) = true := by decide +kernel

/-- `sltu $10, $8, $9` with $8 = 0x00000001, $9 = 0xFFFFFFFF (spec/95_test_vectors.md line 205). -/
theorem test_sltu_2 : endsIn
    (ran true 0x0109502B#32 (fun s => (s.writeGpr 8 0x1#32).writeGpr 9 0xffffffff#32))
    (fun t => t.readGpr 10 == 0x1#32 && t.pc == 0x1004#32) = true := by decide +kernel

/-- `slti $9, $8, -3` with $8 = 0xFFFFFFFB (spec/95_test_vectors.md line 207). -/
theorem test_slti_1 : endsIn
    (ran true 0x2909FFFD#32 (fun s => s.writeGpr 8 0xfffffffb#32))
    (fun t => t.readGpr 9 == 0x1#32 && t.pc == 0x1004#32) = true := by decide +kernel

/-- `slti $9, $8, -3` with $8 = 0x00000005 (spec/95_test_vectors.md line 208). -/
theorem test_slti_2 : endsIn
    (ran true 0x2909FFFD#32 (fun s => s.writeGpr 8 0x5#32))
    (fun t => t.readGpr 9 == 0x0#32 && t.pc == 0x1004#32) = true := by decide +kernel

/-- `sltiu $9, $8, -32768` with $8 = 0xFFFF7FFF (spec/95_test_vectors.md line 214). -/
theorem test_sltiu_1 : endsIn
    (ran true 0x2D098000#32 (fun s => s.writeGpr 8 0xffff7fff#32))
    (fun t => t.readGpr 9 == 0x1#32 && t.pc == 0x1004#32) = true := by decide +kernel

/-- `sltiu $9, $8, -1` with $8 = 0xFFFFFFFF (spec/95_test_vectors.md line 211). -/
theorem test_sltiu_2 : endsIn
    (ran true 0x2D09FFFF#32 (fun s => s.writeGpr 8 0xffffffff#32))
    (fun t => t.readGpr 9 == 0x0#32 && t.pc == 0x1004#32) = true := by decide +kernel

/-! Branches and jumps (42_branch_jump.md) -/

/-- `bc1f 0x1010` with Status.CU1 = 1, fcc[0] = 1 (spec/95_test_vectors.md line 253). -/
theorem test_bc1f_1 : endsIn
    (ran true 0x45000003#32 (fun s => { s.writeFcc 0 true with status := 0x20000000#32 }))
    (fun t => t.pc == 0x1004#32 && t.npc == 0x1008#32 && t.ds == true) = true := by decide +kernel

/-- `bc1f 0x1010` with Status.CU1 = 1, fcc[0] = 0 (spec/95_test_vectors.md line 252). -/
theorem test_bc1f_2 : endsIn
    (ran true 0x45000003#32 (fun s => { s.writeFcc 0 false with status := 0x20000000#32 }))
    (fun t => t.pc == 0x1004#32 && t.npc == 0x1010#32 && t.ds == true) = true := by decide +kernel

/-- `bc1t 0x1010` with Status.CU1 = 1, fcc[0] = 0 (spec/95_test_vectors.md line 251). -/
theorem test_bc1t_1 : endsIn
    (ran true 0x45010003#32 (fun s => { s.writeFcc 0 false with status := 0x20000000#32 }))
    (fun t => t.pc == 0x1004#32 && t.npc == 0x1008#32 && t.ds == true) = true := by decide +kernel

/-- `bc1t 0x1010` with Status.CU1 = 1, fcc[0] = 1 (spec/95_test_vectors.md line 250). -/
theorem test_bc1t_2 : endsIn
    (ran true 0x45010003#32 (fun s => { s.writeFcc 0 true with status := 0x20000000#32 }))
    (fun t => t.pc == 0x1004#32 && t.npc == 0x1010#32 && t.ds == true) = true := by decide +kernel

/-- `beq $0, $0, offset field 0x8000` with nothing set (spec/95_test_vectors.md line 230). -/
theorem test_beq_1 : endsIn
    (ran true 0x10008000#32 id)
    (fun t => t.pc == 0x1004#32 && t.npc == 0xfffe1004#32 && t.ds == true) = true := by decide +kernel

/-- `beq $8, $9, 0x1010` with $8 = 0x00000007, $9 = 0x00000008 (spec/95_test_vectors.md line 226). -/
theorem test_beq_2 : endsIn
    (ran true 0x11090003#32 (fun s => (s.writeGpr 8 0x7#32).writeGpr 9 0x8#32))
    (fun t => t.pc == 0x1004#32 && t.npc == 0x1008#32 && t.ds == true) = true := by decide +kernel

/-- `bgez $8, 0x1010` with $8 = 0xFFFFFFFF (spec/95_test_vectors.md line 234). -/
theorem test_bgez_1 : endsIn
    (ran true 0x05010003#32 (fun s => s.writeGpr 8 0xffffffff#32))
    (fun t => t.pc == 0x1004#32 && t.npc == 0x1008#32 && t.ds == true) = true := by decide +kernel

/-- `bgez $8, 0x1010` with $8 = 0x00000000 (spec/95_test_vectors.md line 233). -/
theorem test_bgez_2 : endsIn
    (ran true 0x05010003#32 (fun s => s.writeGpr 8 0x0#32))
    (fun t => t.pc == 0x1004#32 && t.npc == 0x1010#32 && t.ds == true) = true := by decide +kernel

/-- `bgezal $8, 0x1010` with $8 = 0xFFFFFFFF, $31 = 0x00000055 (spec/95_test_vectors.md line 244). -/
theorem test_bgezal_1 : endsIn
    (ran true 0x05110003#32 (fun s => (s.writeGpr 8 0xffffffff#32).writeGpr 31 0x55#32))
        (fun t => t.pc == 0x1004#32 && t.npc == 0x1008#32 && t.ds == true && t.readGpr 31 == 0x1008#32) = true := by
      decide +kernel

/-- `bgezal $8, 0x1010` with $8 = 0x00000000, $31 = 0x00000055 (spec/95_test_vectors.md line 243). -/
theorem test_bgezal_2 : endsIn
    (ran true 0x05110003#32 (fun s => (s.writeGpr 8 0x0#32).writeGpr 31 0x55#32))
        (fun t => t.pc == 0x1004#32 && t.npc == 0x1010#32 && t.ds == true && t.readGpr 31 == 0x1008#32) = true := by
      decide +kernel

/-- `bgtz $8, 0x1010` with $8 = 0x80000000 (spec/95_test_vectors.md line 237). -/
theorem test_bgtz_1 : endsIn
    (ran true 0x1D000003#32 (fun s => s.writeGpr 8 0x80000000#32))
    (fun t => t.pc == 0x1004#32 && t.npc == 0x1008#32 && t.ds == true) = true := by decide +kernel

/-- `bgtz $8, 0x1010` with $8 = 0x00000001 (spec/95_test_vectors.md line 236). -/
theorem test_bgtz_2 : endsIn
    (ran true 0x1D000003#32 (fun s => s.writeGpr 8 0x1#32))
    (fun t => t.pc == 0x1004#32 && t.npc == 0x1010#32 && t.ds == true) = true := by decide +kernel

/-- `blez $8, 0x1010` with $8 = 0xFFFFFFFF (spec/95_test_vectors.md line 240). -/
theorem test_blez_1 : endsIn
    (ran true 0x19000003#32 (fun s => s.writeGpr 8 0xffffffff#32))
    (fun t => t.pc == 0x1004#32 && t.npc == 0x1010#32 && t.ds == true) = true := by decide +kernel

/-- `blez $8, 0x1010` with $8 = 0x00000001 (spec/95_test_vectors.md line 239). -/
theorem test_blez_2 : endsIn
    (ran true 0x19000003#32 (fun s => s.writeGpr 8 0x1#32))
    (fun t => t.pc == 0x1004#32 && t.npc == 0x1008#32 && t.ds == true) = true := by decide +kernel

/-- `bltzal $8, 0x1010` with $8 = 0xFFFFFFFF, $31 = 0x00000055 (spec/95_test_vectors.md line 245). -/
theorem test_bltzal_1 : endsIn
    (ran true 0x05100003#32 (fun s => (s.writeGpr 8 0xffffffff#32).writeGpr 31 0x55#32))
        (fun t => t.pc == 0x1004#32 && t.npc == 0x1010#32 && t.ds == true && t.readGpr 31 == 0x1008#32) = true := by
      decide +kernel

/-- `bltzal $8, 0x1010` with $8 = 0x00000000, $31 = 0x00000055 (spec/95_test_vectors.md line 246). -/
theorem test_bltzal_2 : endsIn
    (ran true 0x05100003#32 (fun s => (s.writeGpr 8 0x0#32).writeGpr 31 0x55#32))
        (fun t => t.pc == 0x1004#32 && t.npc == 0x1008#32 && t.ds == true && t.readGpr 31 == 0x1008#32) = true := by
      decide +kernel

/-- `bltz $8, 0x1010` with $8 = 0xFFFFFFFF (spec/95_test_vectors.md line 241). -/
theorem test_bltz_1 : endsIn
    (ran true 0x05000003#32 (fun s => s.writeGpr 8 0xffffffff#32))
    (fun t => t.pc == 0x1004#32 && t.npc == 0x1010#32 && t.ds == true) = true := by decide +kernel

/-- `bltz $8, 0x1010` with $8 = 0x00000000 (spec/95_test_vectors.md line 242). -/
theorem test_bltz_2 : endsIn
    (ran true 0x05000003#32 (fun s => s.writeGpr 8 0x0#32))
    (fun t => t.pc == 0x1004#32 && t.npc == 0x1008#32 && t.ds == true) = true := by decide +kernel

/-- `bne $8, $9, 0x1010` with $8 = 0x00000007, $9 = 0x00000008 (spec/95_test_vectors.md line 231). -/
theorem test_bne_1 : endsIn
    (ran true 0x15090003#32 (fun s => (s.writeGpr 8 0x7#32).writeGpr 9 0x8#32))
    (fun t => t.pc == 0x1004#32 && t.npc == 0x1010#32 && t.ds == true) = true := by decide +kernel

/-- `bne $8, $9, 0x1010` with $8 = 0x00000007, $9 = 0x00000007 (spec/95_test_vectors.md line 232). -/
theorem test_bne_2 : endsIn
    (ran true 0x15090003#32 (fun s => (s.writeGpr 8 0x7#32).writeGpr 9 0x7#32))
    (fun t => t.pc == 0x1004#32 && t.npc == 0x1008#32 && t.ds == true) = true := by decide +kernel

/-- `j 0x0FFFFFFC` with nothing set (spec/95_test_vectors.md line 258). -/
theorem test_j_1 : endsIn
    (ran true 0x0BFFFFFF#32 id)
    (fun t => t.pc == 0x1004#32 && t.npc == 0xffffffc#32 && t.ds == true) = true := by decide +kernel

/-- `j 0x1040` with nothing set (spec/95_test_vectors.md line 257). -/
theorem test_j_2 : endsIn
    (ran true 0x08000410#32 id)
    (fun t => t.pc == 0x1004#32 && t.npc == 0x1040#32 && t.ds == true) = true := by decide +kernel

/-- `jal 0x1040` with $31 = 0x00000055 (spec/95_test_vectors.md line 259). -/
theorem test_jal_1 : endsIn
    (ran true 0x0C000410#32 (fun s => s.writeGpr 31 0x55#32))
        (fun t => t.pc == 0x1004#32 && t.npc == 0x1040#32 && t.ds == true && t.readGpr 31 == 0x1008#32) = true := by
      decide +kernel

/-- `jalr $8` with $8 = 0x00001040, $31 = 0x00000055 (spec/95_test_vectors.md line 262). -/
theorem test_jalr_1 : endsIn
    (ran true 0x0100F809#32 (fun s => (s.writeGpr 8 0x1040#32).writeGpr 31 0x55#32))
        (fun t => t.pc == 0x1004#32 && t.npc == 0x1040#32 && t.ds == true && t.readGpr 31 == 0x1008#32) = true := by
      decide +kernel

/-- `jalr $8, $9` with $8 = 0x00001040, $31 = 0x00000055 (spec/95_test_vectors.md line 263). -/
theorem test_jalr_2 : endsIn
    (ran true 0x01004809#32 (fun s => (s.writeGpr 8 0x1040#32).writeGpr 31 0x55#32))
        (fun t => t.pc == 0x1004#32 && t.npc == 0x1040#32 && t.ds == true && t.readGpr 9 == 0x1008#32 && t.readGpr 31
      == 0x55#32) = true := by decide +kernel

/-- `jr $8` with $8 = 0x80001042 (spec/95_test_vectors.md line 261). -/
theorem test_jr_1 : endsIn
    (ran true 0x01000008#32 (fun s => s.writeGpr 8 0x80001042#32))
    (fun t => t.pc == 0x1004#32 && t.npc == 0x80001042#32 && t.ds == true) = true := by decide +kernel

/-- `jr $8` with $8 = 0x00001040 (spec/95_test_vectors.md line 260). -/
theorem test_jr_2 : endsIn
    (ran true 0x01000008#32 (fun s => s.writeGpr 8 0x1040#32))
    (fun t => t.pc == 0x1004#32 && t.npc == 0x1040#32 && t.ds == true) = true := by decide +kernel

/-! Traps (43_trap.md) -/

/-- `teq $8, $9` with $8 = 0x00000005, $9 = 0x00000005 (spec/95_test_vectors.md line 343). -/
theorem test_teq_1 : endsIn
    (ran true 0x01090034#32 (fun s => (s.writeGpr 8 0x5#32).writeGpr 9 0x5#32))
        (fun t => t.epc == 0x1000#32 && t.cause == 0x34#32 && t.status == 0x2#32 && t.pc == 0x80000180#32 && t.excCode
      == 13#5) = true := by decide +kernel

/-- `teq $8, $9` with $8 = 0x00000005, $9 = 0x00000006 (spec/95_test_vectors.md line 344). -/
theorem test_teq_2 : endsIn
    (ran true 0x01090034#32 (fun s => (s.writeGpr 8 0x5#32).writeGpr 9 0x6#32))
    (fun t => t.pc == 0x1004#32) = true := by decide +kernel

/-- `teqi $8, -1` with $8 = 0xFFFFFFFF (spec/95_test_vectors.md line 355). -/
theorem test_teqi_1 : endsIn
    (ran true 0x050CFFFF#32 (fun s => s.writeGpr 8 0xffffffff#32))
    (fun t => t.cause == 0x34#32 && t.pc == 0x80000180#32 && t.excCode == 13#5) = true := by decide +kernel

/-- `teqi $8, 0x7FFF` with $8 = 0xFFFF7FFF (spec/95_test_vectors.md line 356). -/
theorem test_teqi_2 : endsIn
    (ran true 0x050C7FFF#32 (fun s => s.writeGpr 8 0xffff7fff#32))
    (fun t => t.pc == 0x1004#32) = true := by decide +kernel

/-- `tne $8, $9` with $8 = 0x00000005, $9 = 0x00000006 (spec/95_test_vectors.md line 345). -/
theorem test_tne_1 : endsIn
    (ran true 0x01090036#32 (fun s => (s.writeGpr 8 0x5#32).writeGpr 9 0x6#32))
    (fun t => t.cause == 0x34#32 && t.pc == 0x80000180#32 && t.excCode == 13#5) = true := by decide +kernel

/-- `tne $8, $9` with $8 = 0x00000005, $9 = 0x00000005 (spec/95_test_vectors.md line 346). -/
theorem test_tne_2 : endsIn
    (ran true 0x01090036#32 (fun s => (s.writeGpr 8 0x5#32).writeGpr 9 0x5#32))
    (fun t => t.pc == 0x1004#32) = true := by decide +kernel

/-- `tnei $8, 0` with $8 = 0x00000001 (spec/95_test_vectors.md line 357). -/
theorem test_tnei_1 : endsIn
    (ran true 0x050E0000#32 (fun s => s.writeGpr 8 0x1#32))
    (fun t => t.cause == 0x34#32 && t.pc == 0x80000180#32 && t.excCode == 13#5) = true := by decide +kernel

/-- `tnei $8, 0` with $8 = 0x00000000 (spec/95_test_vectors.md line 358). -/
theorem test_tnei_2 : endsIn
    (ran true 0x050E0000#32 (fun s => s.writeGpr 8 0x0#32))
    (fun t => t.pc == 0x1004#32) = true := by decide +kernel

/-- `tge $8, $9` with $8 = 0x00000005, $9 = 0x00000005 (spec/95_test_vectors.md line 347). -/
theorem test_tge_1 : endsIn
    (ran true 0x01090030#32 (fun s => (s.writeGpr 8 0x5#32).writeGpr 9 0x5#32))
    (fun t => t.cause == 0x34#32 && t.pc == 0x80000180#32 && t.excCode == 13#5) = true := by decide +kernel

/-- `tge $8, $9` with $8 = 0xFFFFFFFF, $9 = 0x00000001 (spec/95_test_vectors.md line 348). -/
theorem test_tge_2 : endsIn
    (ran true 0x01090030#32 (fun s => (s.writeGpr 8 0xffffffff#32).writeGpr 9 0x1#32))
    (fun t => t.pc == 0x1004#32) = true := by decide +kernel

/-- `tgeu $8, $9` with $8 = 0xFFFFFFFF, $9 = 0x00000001 (spec/95_test_vectors.md line 349). -/
theorem test_tgeu_1 : endsIn
    (ran true 0x01090031#32 (fun s => (s.writeGpr 8 0xffffffff#32).writeGpr 9 0x1#32))
    (fun t => t.cause == 0x34#32 && t.pc == 0x80000180#32 && t.excCode == 13#5) = true := by decide +kernel

/-- `tgeu $8, $9` with $8 = 0x00000000, $9 = 0x00000001 (spec/95_test_vectors.md line 350). -/
theorem test_tgeu_2 : endsIn
    (ran true 0x01090031#32 (fun s => (s.writeGpr 8 0x0#32).writeGpr 9 0x1#32))
    (fun t => t.pc == 0x1004#32) = true := by decide +kernel

/-- `tgei $8, -5` with $8 = 0xFFFFFFFB (spec/95_test_vectors.md line 359). -/
theorem test_tgei_1 : endsIn
    (ran true 0x0508FFFB#32 (fun s => s.writeGpr 8 0xfffffffb#32))
    (fun t => t.cause == 0x34#32 && t.pc == 0x80000180#32 && t.excCode == 13#5) = true := by decide +kernel

/-- `tgei $8, -5` with $8 = 0xFFFFFFFA (spec/95_test_vectors.md line 360). -/
theorem test_tgei_2 : endsIn
    (ran true 0x0508FFFB#32 (fun s => s.writeGpr 8 0xfffffffa#32))
    (fun t => t.pc == 0x1004#32) = true := by decide +kernel

/-- `tgeiu $8, -1` with $8 = 0xFFFFFFFF (spec/95_test_vectors.md line 361). -/
theorem test_tgeiu_1 : endsIn
    (ran true 0x0509FFFF#32 (fun s => s.writeGpr 8 0xffffffff#32))
    (fun t => t.cause == 0x34#32 && t.pc == 0x80000180#32 && t.excCode == 13#5) = true := by decide +kernel

/-- `tgeiu $8, -1` with $8 = 0xFFFFFFFE (spec/95_test_vectors.md line 362). -/
theorem test_tgeiu_2 : endsIn
    (ran true 0x0509FFFF#32 (fun s => s.writeGpr 8 0xfffffffe#32))
    (fun t => t.pc == 0x1004#32) = true := by decide +kernel

/-- `tlt $8, $9` with $8 = 0xFFFFFFFF, $9 = 0x00000001 (spec/95_test_vectors.md line 351). -/
theorem test_tlt_1 : endsIn
    (ran true 0x01090032#32 (fun s => (s.writeGpr 8 0xffffffff#32).writeGpr 9 0x1#32))
    (fun t => t.cause == 0x34#32 && t.pc == 0x80000180#32 && t.excCode == 13#5) = true := by decide +kernel

/-- `tlt $8, $9` with $8 = 0x00000001, $9 = 0xFFFFFFFF (spec/95_test_vectors.md line 352). -/
theorem test_tlt_2 : endsIn
    (ran true 0x01090032#32 (fun s => (s.writeGpr 8 0x1#32).writeGpr 9 0xffffffff#32))
    (fun t => t.pc == 0x1004#32) = true := by decide +kernel

/-- `tltu $8, $9` with $8 = 0x00000001, $9 = 0xFFFFFFFF (spec/95_test_vectors.md line 353). -/
theorem test_tltu_1 : endsIn
    (ran true 0x01090033#32 (fun s => (s.writeGpr 8 0x1#32).writeGpr 9 0xffffffff#32))
    (fun t => t.cause == 0x34#32 && t.pc == 0x80000180#32 && t.excCode == 13#5) = true := by decide +kernel

/-- `tltu $8, $9` with $8 = 0xFFFFFFFF, $9 = 0x00000001 (spec/95_test_vectors.md line 354). -/
theorem test_tltu_2 : endsIn
    (ran true 0x01090033#32 (fun s => (s.writeGpr 8 0xffffffff#32).writeGpr 9 0x1#32))
    (fun t => t.pc == 0x1004#32) = true := by decide +kernel

/-- `tlti $8, 0` with $8 = 0xFFFFFFFF (spec/95_test_vectors.md line 363). -/
theorem test_tlti_1 : endsIn
    (ran true 0x050A0000#32 (fun s => s.writeGpr 8 0xffffffff#32))
    (fun t => t.cause == 0x34#32 && t.pc == 0x80000180#32 && t.excCode == 13#5) = true := by decide +kernel

/-- `tlti $8, 0` with $8 = 0x00000000 (spec/95_test_vectors.md line 364). -/
theorem test_tlti_2 : endsIn
    (ran true 0x050A0000#32 (fun s => s.writeGpr 8 0x0#32))
    (fun t => t.pc == 0x1004#32) = true := by decide +kernel

/-- `tltiu $8, -1` with $8 = 0x00000005 (spec/95_test_vectors.md line 365). -/
theorem test_tltiu_1 : endsIn
    (ran true 0x050BFFFF#32 (fun s => s.writeGpr 8 0x5#32))
    (fun t => t.cause == 0x34#32 && t.pc == 0x80000180#32 && t.excCode == 13#5) = true := by decide +kernel

/-- `tltiu $8, 1` with $8 = 0x00000001 (spec/95_test_vectors.md line 366). -/
theorem test_tltiu_2 : endsIn
    (ran true 0x050B0001#32 (fun s => s.writeGpr 8 0x1#32))
    (fun t => t.pc == 0x1004#32) = true := by decide +kernel

/-! Loads and stores (44_load_store.md) -/

/-- `lb $9, 8($8)` with $8 = 0x00002000 (spec/95_test_vectors.md line 377). -/
theorem test_lb_1 : endsIn
    (ran true 0x81090008#32 (fun s => s.writeGpr 8 0x2000#32))
    (fun t => t.readGpr 9 == 0xffffff88#32 && t.pc == 0x1004#32) = true := by decide +kernel

/-- `lb $9, 0($8)` with $8 = 0xFFFFFFFF, Status.UM = 1 (spec/95_test_vectors.md line 487). -/
theorem test_lb_2 : endsIn
    (ran false 0x81090000#32 (fun s => { s.writeGpr 8 0xffffffff#32 with status := 0x10#32 }))
        (fun t => t.badVAddr == 0xffffffff#32 && t.cause == 0x10#32 && t.pc == 0x80000180#32 && t.excCode == 4#5) =
      true := by decide +kernel

/-- `lbu $9, 8($8)` with $8 = 0x00002000 (spec/95_test_vectors.md line 379). -/
theorem test_lbu_1 : endsIn
    (ran true 0x91090008#32 (fun s => s.writeGpr 8 0x2000#32))
    (fun t => t.readGpr 9 == 0x88#32 && t.pc == 0x1004#32) = true := by decide +kernel

/-- `lbu $9, 15($8)` with $8 = 0x00002000 (spec/95_test_vectors.md line 434). -/
theorem test_lbu_2 : endsIn
    (ran false 0x9109000F#32 (fun s => s.writeGpr 8 0x2000#32))
    (fun t => t.readGpr 9 == 0xff#32 && t.pc == 0x1004#32) = true := by decide +kernel

/-- `lh $9, 8($8)` with $8 = 0x00002000 (spec/95_test_vectors.md line 381). -/
theorem test_lh_1 : endsIn
    (ran true 0x85090008#32 (fun s => s.writeGpr 8 0x2000#32))
    (fun t => t.readGpr 9 == 0xffff8899#32 && t.pc == 0x1004#32) = true := by decide +kernel

/-- `lh $9, 1($8)` with $8 = 0x00002000, $9 = 0xAAAAAAAA (spec/95_test_vectors.md line 385). -/
theorem test_lh_2 : endsIn
    (ran true 0x85090001#32 (fun s => (s.writeGpr 8 0x2000#32).writeGpr 9 0xaaaaaaaa#32))
        (fun t => t.readGpr 9 == 0xaaaaaaaa#32 && t.badVAddr == 0x2001#32 && t.cause == 0x10#32 && t.pc ==
      0x80000180#32 && t.excCode == 4#5) = true := by decide +kernel

/-- `lhu $9, 8($8)` with $8 = 0x00002000 (spec/95_test_vectors.md line 383). -/
theorem test_lhu_1 : endsIn
    (ran true 0x95090008#32 (fun s => s.writeGpr 8 0x2000#32))
    (fun t => t.readGpr 9 == 0x8899#32 && t.pc == 0x1004#32) = true := by decide +kernel

/-- `lhu $9, 8($8)` with $8 = 0x00002000 (spec/95_test_vectors.md line 437). -/
theorem test_lhu_2 : endsIn
    (ran false 0x95090008#32 (fun s => s.writeGpr 8 0x2000#32))
    (fun t => t.readGpr 9 == 0x9988#32 && t.pc == 0x1004#32) = true := by decide +kernel

/-- `lw $9, 12($8)` with $8 = 0x00002000 (spec/95_test_vectors.md line 387). -/
theorem test_lw_1 : endsIn
    (ran true 0x8D09000C#32 (fun s => s.writeGpr 8 0x2000#32))
    (fun t => t.readGpr 9 == 0xccddeeff#32 && t.pc == 0x1004#32) = true := by decide +kernel

/-- `lw $9, 6($8)` with $8 = 0x00002000, $9 = 0xAAAAAAAA (spec/95_test_vectors.md line 389). -/
theorem test_lw_2 : endsIn
    (ran true 0x8D090006#32 (fun s => (s.writeGpr 8 0x2000#32).writeGpr 9 0xaaaaaaaa#32))
        (fun t => t.readGpr 9 == 0xaaaaaaaa#32 && t.badVAddr == 0x2006#32 && t.cause == 0x10#32 && t.pc ==
      0x80000180#32 && t.excCode == 4#5) = true := by decide +kernel

/-- `lwc1 $f3, 4($8)` with $8 = 0x00002000, Status.CU1 = 1 (spec/95_test_vectors.md line 418). -/
theorem test_lwc1_1 : endsIn
    (ran true 0xC5030004#32 (fun s => { s.writeGpr 8 0x2000#32 with status := 0x20000000#32 }))
    (fun t => t.readFpr 3 == 0x44556677#32 && t.pc == 0x1004#32) = true := by decide +kernel

/-- `lwc1 $f3, 4($8)` with $8 = 0x00002000, Status.CU1 = 1 (spec/95_test_vectors.md line 472). -/
theorem test_lwc1_2 : endsIn
    (ran false 0xC5030004#32 (fun s => { s.writeGpr 8 0x2000#32 with status := 0x20000000#32 }))
    (fun t => t.readFpr 3 == 0x77665544#32 && t.pc == 0x1004#32) = true := by decide +kernel

/-- `lwl $9, 4($8)` with $8 = 0x00002000, $9 = 0xAABBCCDD (spec/95_test_vectors.md line 391). -/
theorem test_lwl_1 : endsIn
    (ran true 0x89090004#32 (fun s => (s.writeGpr 8 0x2000#32).writeGpr 9 0xaabbccdd#32))
    (fun t => t.readGpr 9 == 0x44556677#32 && t.pc == 0x1004#32) = true := by decide +kernel

/-- `lwl $9, 1($8)` with $8 = 0x80000000, Status.UM = 1 (spec/95_test_vectors.md line 495). -/
theorem test_lwl_2 : endsIn
    (ran false 0x89090001#32 (fun s => { s.writeGpr 8 0x80000000#32 with status := 0x10#32 }))
        (fun t => t.badVAddr == 0x80000001#32 && t.cause == 0x10#32 && t.pc == 0x80000180#32 && t.excCode == 4#5) =
      true := by decide +kernel

/-- `lwr $9, 7($8)` with $8 = 0x00002000, $9 = 0xAABBCCDD (spec/95_test_vectors.md line 398). -/
theorem test_lwr_1 : endsIn
    (ran true 0x99090007#32 (fun s => (s.writeGpr 8 0x2000#32).writeGpr 9 0xaabbccdd#32))
    (fun t => t.readGpr 9 == 0x44556677#32 && t.pc == 0x1004#32) = true := by decide +kernel

/-- `lwr $9, 4($8)` with $8 = 0x00002000, $9 = 0xAABBCCDD (spec/95_test_vectors.md line 449). -/
theorem test_lwr_2 : endsIn
    (ran false 0x99090004#32 (fun s => (s.writeGpr 8 0x2000#32).writeGpr 9 0xaabbccdd#32))
    (fun t => t.readGpr 9 == 0x77665544#32 && t.pc == 0x1004#32) = true := by decide +kernel

/-- `ldc1 $f2, 8($8)` with $8 = 0x00002000, Status.CU1 = 1 (spec/95_test_vectors.md line 419). -/
theorem test_ldc1_1 : endsIn
    (ran true 0xD5020008#32 (fun s => { s.writeGpr 8 0x2000#32 with status := 0x20000000#32 }))
        (fun t => t.readFpr 2 == 0xccddeeff#32 && t.readFpr 3 == 0x8899aabb#32 && t.pc == 0x1004#32) = true := by
      decide +kernel

/-- `ldc1 $f2, 4($8)` with $8 = 0x00002000, Status.CU1 = 1 (spec/95_test_vectors.md line 420). -/
theorem test_ldc1_2 : endsIn
    (ran true 0xD5020004#32 (fun s => { s.writeGpr 8 0x2000#32 with status := 0x20000000#32 }))
        (fun t => t.badVAddr == 0x2004#32 && t.cause == 0x10#32 && t.pc == 0x80000180#32 && t.excCode == 4#5) = true
      := by decide +kernel

/-- `ll $9, 4($8)` with $8 = 0x00002000 (spec/95_test_vectors.md line 399). -/
theorem test_ll_1 : endsIn
    (ran true 0xC1090004#32 (fun s => s.writeGpr 8 0x2000#32))
        (fun t => t.readGpr 9 == 0x44556677#32 && t.llbit == true && t.lladdr == 0x2004#32 && t.pc == 0x1004#32) =
      true := by decide +kernel

/-- `ll $9, 2($8)` with $8 = 0x00002000 (spec/95_test_vectors.md line 400). -/
theorem test_ll_2 : endsIn
    (ran true 0xC1090002#32 (fun s => s.writeGpr 8 0x2000#32))
        (fun t => t.llbit == false && t.badVAddr == 0x2002#32 && t.cause == 0x10#32 && t.pc == 0x80000180#32 &&
      t.excCode == 4#5) = true := by decide +kernel

/-- `sb $9, 5($8)` with $8 = 0x00002000, $9 = 0xA1B2C3D4 (spec/95_test_vectors.md line 401). -/
theorem test_sb_1 : endsIn
    (ran true 0xA1090005#32 (fun s => (s.writeGpr 8 0x2000#32).writeGpr 9 0xa1b2c3d4#32))
        (fun t => Memory.read t.mem 0x2004 == 0x44#8 && Memory.read t.mem 0x2005 == 0xD4#8 && Memory.read t.mem 0x2006
      == 0x66#8 && Memory.read t.mem 0x2007 == 0x77#8 && t.pc == 0x1004#32) = true := by decide +kernel

/-- `sb $9, 5($8)` with $8 = 0x00002000, $9 = 0xA1B2C3D4 (spec/95_test_vectors.md line 455). -/
theorem test_sb_2 : endsIn
    (ran false 0xA1090005#32 (fun s => (s.writeGpr 8 0x2000#32).writeGpr 9 0xa1b2c3d4#32))
        (fun t => Memory.read t.mem 0x2004 == 0x44#8 && Memory.read t.mem 0x2005 == 0xD4#8 && Memory.read t.mem 0x2006
      == 0x66#8 && Memory.read t.mem 0x2007 == 0x77#8 && t.pc == 0x1004#32) = true := by decide +kernel

/-- `sh $9, 6($8)` with $8 = 0x00002000, $9 = 0xA1B2C3D4 (spec/95_test_vectors.md line 402). -/
theorem test_sh_1 : endsIn
    (ran true 0xA5090006#32 (fun s => (s.writeGpr 8 0x2000#32).writeGpr 9 0xa1b2c3d4#32))
        (fun t => Memory.read t.mem 0x2004 == 0x44#8 && Memory.read t.mem 0x2005 == 0x55#8 && Memory.read t.mem 0x2006
      == 0xC3#8 && Memory.read t.mem 0x2007 == 0xD4#8 && t.pc == 0x1004#32) = true := by decide +kernel

/-- `sh $9, 5($8)` with $8 = 0x00002000, $9 = 0xA1B2C3D4 (spec/95_test_vectors.md line 403). -/
theorem test_sh_2 : endsIn
    (ran true 0xA5090005#32 (fun s => (s.writeGpr 8 0x2000#32).writeGpr 9 0xa1b2c3d4#32))
        (fun t => t.badVAddr == 0x2005#32 && t.cause == 0x14#32 && Memory.read t.mem 0x2004 == 0x44#8 && Memory.read
      t.mem 0x2005 == 0x55#8 && Memory.read t.mem 0x2006 == 0x66#8 && Memory.read t.mem 0x2007 == 0x77#8 && t.pc ==
      0x80000180#32 && t.excCode == 5#5) = true := by decide +kernel

/-- `sw $9, 4($8)` with $8 = 0x00002000, $9 = 0xA1B2C3D4 (spec/95_test_vectors.md line 404). -/
theorem test_sw_1 : endsIn
    (ran true 0xAD090004#32 (fun s => (s.writeGpr 8 0x2000#32).writeGpr 9 0xa1b2c3d4#32))
        (fun t => Memory.read t.mem 0x2004 == 0xA1#8 && Memory.read t.mem 0x2005 == 0xB2#8 && Memory.read t.mem 0x2006
      == 0xC3#8 && Memory.read t.mem 0x2007 == 0xD4#8 && t.pc == 0x1004#32) = true := by decide +kernel

/-- `sw $9, 5($8)` with $8 = 0x00002000, $9 = 0xA1B2C3D4 (spec/95_test_vectors.md line 405). -/
theorem test_sw_2 : endsIn
    (ran true 0xAD090005#32 (fun s => (s.writeGpr 8 0x2000#32).writeGpr 9 0xa1b2c3d4#32))
        (fun t => t.badVAddr == 0x2005#32 && t.cause == 0x14#32 && Memory.read t.mem 0x2004 == 0x44#8 && Memory.read
      t.mem 0x2005 == 0x55#8 && Memory.read t.mem 0x2006 == 0x66#8 && Memory.read t.mem 0x2007 == 0x77#8 && t.pc ==
      0x80000180#32 && t.excCode == 5#5) = true := by decide +kernel

/-- `swc1 $f3, 4($8)` with $8 = 0x00002000, Status.CU1 = 1, $f3 = 0xA1B2C3D4 (spec/95_test_vectors.md line 422). -/
theorem test_swc1_1 : endsIn
    (ran true 0xE5030004#32 (fun s => { (s.writeGpr 8 0x2000#32).writeFpr 3 0xa1b2c3d4#32 with
      status := 0x20000000#32 }))
        (fun t => Memory.read t.mem 0x2004 == 0xA1#8 && Memory.read t.mem 0x2005 == 0xB2#8 && Memory.read t.mem 0x2006
      == 0xC3#8 && Memory.read t.mem 0x2007 == 0xD4#8 && t.pc == 0x1004#32) = true := by decide +kernel

/-- `swc1 $f3, 4($8)` with $8 = 0x00002000, Status.CU1 = 1, $f3 = 0xA1B2C3D4 (spec/95_test_vectors.md line 476). -/
theorem test_swc1_2 : endsIn
    (ran false 0xE5030004#32 (fun s => { (s.writeGpr 8 0x2000#32).writeFpr 3 0xa1b2c3d4#32 with
      status := 0x20000000#32 }))
        (fun t => Memory.read t.mem 0x2004 == 0xD4#8 && Memory.read t.mem 0x2005 == 0xC3#8 && Memory.read t.mem 0x2006
      == 0xB2#8 && Memory.read t.mem 0x2007 == 0xA1#8 && t.pc == 0x1004#32) = true := by decide +kernel

/-- `sdc1 $f2, 8($8)` with $8 = 0x00002000, Status.CU1 = 1, $f2 = 0xA1B2C3D4, $f3 = 0x01020304
(spec/95_test_vectors.md line 423). -/
theorem test_sdc1_1 : endsIn
    (ran true 0xF5020008#32 (fun s => { ((s.writeGpr 8 0x2000#32).writeFpr 2 0xa1b2c3d4#32).writeFpr 3 0x1020304#32 with
      status := 0x20000000#32 }))
        (fun t => Memory.read t.mem 0x2008 == 0x01#8 && Memory.read t.mem 0x2009 == 0x02#8 && Memory.read t.mem 0x200a
      == 0x03#8 && Memory.read t.mem 0x200b == 0x04#8 && Memory.read t.mem 0x200c == 0xA1#8 && Memory.read t.mem
      0x200d == 0xB2#8 && Memory.read t.mem 0x200e == 0xC3#8 && Memory.read t.mem 0x200f == 0xD4#8 && t.pc ==
      0x1004#32) = true := by decide +kernel

/-- `sdc1 $f2, 12($8)` with $8 = 0x00002000, Status.CU1 = 1, $f2 = 0xA1B2C3D4, $f3 = 0x01020304
(spec/95_test_vectors.md line 424). -/
theorem test_sdc1_2 : endsIn
    (ran true 0xF502000C#32 (fun s => { ((s.writeGpr 8 0x2000#32).writeFpr 2 0xa1b2c3d4#32).writeFpr 3 0x1020304#32 with
      status := 0x20000000#32 }))
        (fun t => t.badVAddr == 0x200c#32 && t.cause == 0x14#32 && Memory.read t.mem 0x2008 == 0x88#8 && Memory.read
      t.mem 0x2009 == 0x99#8 && Memory.read t.mem 0x200a == 0xAA#8 && Memory.read t.mem 0x200b == 0xBB#8 &&
      Memory.read t.mem 0x200c == 0xCC#8 && Memory.read t.mem 0x200d == 0xDD#8 && Memory.read t.mem 0x200e == 0xEE#8
      && Memory.read t.mem 0x200f == 0xFF#8 && t.pc == 0x80000180#32 && t.excCode == 5#5) = true := by decide +kernel

/-- `swl $9, 4($8)` with $8 = 0x00002000, $9 = 0xA1B2C3D4 (spec/95_test_vectors.md line 406). -/
theorem test_swl_1 : endsIn
    (ran true 0xA9090004#32 (fun s => (s.writeGpr 8 0x2000#32).writeGpr 9 0xa1b2c3d4#32))
        (fun t => Memory.read t.mem 0x2004 == 0xA1#8 && Memory.read t.mem 0x2005 == 0xB2#8 && Memory.read t.mem 0x2006
      == 0xC3#8 && Memory.read t.mem 0x2007 == 0xD4#8 && t.pc == 0x1004#32) = true := by decide +kernel

/-- `swl $9, 4($8)` with $8 = 0x00002000, $9 = 0xA1B2C3D4 (spec/95_test_vectors.md line 460). -/
theorem test_swl_2 : endsIn
    (ran false 0xA9090004#32 (fun s => (s.writeGpr 8 0x2000#32).writeGpr 9 0xa1b2c3d4#32))
        (fun t => Memory.read t.mem 0x2004 == 0xA1#8 && Memory.read t.mem 0x2005 == 0x55#8 && Memory.read t.mem 0x2006
      == 0x66#8 && Memory.read t.mem 0x2007 == 0x77#8 && t.pc == 0x1004#32) = true := by decide +kernel

/-- `swr $9, 4($8)` with $8 = 0x00002000, $9 = 0xA1B2C3D4 (spec/95_test_vectors.md line 410). -/
theorem test_swr_1 : endsIn
    (ran true 0xB9090004#32 (fun s => (s.writeGpr 8 0x2000#32).writeGpr 9 0xa1b2c3d4#32))
        (fun t => Memory.read t.mem 0x2004 == 0xD4#8 && Memory.read t.mem 0x2005 == 0x55#8 && Memory.read t.mem 0x2006
      == 0x66#8 && Memory.read t.mem 0x2007 == 0x77#8 && t.pc == 0x1004#32) = true := by decide +kernel

/-- `swr $9, 4($8)` with $8 = 0x00002000, $9 = 0xA1B2C3D4 (spec/95_test_vectors.md line 464). -/
theorem test_swr_2 : endsIn
    (ran false 0xB9090004#32 (fun s => (s.writeGpr 8 0x2000#32).writeGpr 9 0xa1b2c3d4#32))
        (fun t => Memory.read t.mem 0x2004 == 0xD4#8 && Memory.read t.mem 0x2005 == 0xC3#8 && Memory.read t.mem 0x2006
      == 0xB2#8 && Memory.read t.mem 0x2007 == 0xA1#8 && t.pc == 0x1004#32) = true := by decide +kernel

/-- `sc $9, 4($8)` with $8 = 0x00002000, $9 = 0xA1B2C3D4, llbit = 1, lladdr = 0x00002004 (spec/95_test_vectors.md line
414). -/
theorem test_sc_1 : endsIn
    (ran true 0xE1090004#32 (fun s => { (s.writeGpr 8 0x2000#32).writeGpr 9 0xa1b2c3d4#32 with
      llbit := true, lladdr := 0x2004#32 }))
        (fun t => t.readGpr 9 == 0x1#32 && t.llbit == false && Memory.read t.mem 0x2004 == 0xA1#8 && Memory.read t.mem
      0x2005 == 0xB2#8 && Memory.read t.mem 0x2006 == 0xC3#8 && Memory.read t.mem 0x2007 == 0xD4#8 && t.pc ==
      0x1004#32) = true := by decide +kernel

/-- `sc $9, 6($8)` with $8 = 0x00002000, $9 = 0xA1B2C3D4, llbit = 1, lladdr = 0x00002004 (spec/95_test_vectors.md line
417). -/
theorem test_sc_2 : endsIn
    (ran true 0xE1090006#32 (fun s => { (s.writeGpr 8 0x2000#32).writeGpr 9 0xa1b2c3d4#32 with
      llbit := true, lladdr := 0x2004#32 }))
        (fun t => t.readGpr 9 == 0xa1b2c3d4#32 && t.llbit == false && t.badVAddr == 0x2006#32 && t.cause == 0x14#32 &&
      Memory.read t.mem 0x2004 == 0x44#8 && Memory.read t.mem 0x2005 == 0x55#8 && Memory.read t.mem 0x2006 == 0x66#8
      && Memory.read t.mem 0x2007 == 0x77#8 && t.pc == 0x80000180#32 && t.excCode == 5#5) = true := by decide +kernel

/-! Data movement (45_data_move.md) -/

/-- `mfhi $9` with hi = 0x12345678 (spec/95_test_vectors.md line 509). -/
theorem test_mfhi_1 : endsIn
    (ran true 0x00004810#32 (fun s => { s with hi := 0x12345678#32 }))
    (fun t => t.readGpr 9 == 0x12345678#32 && t.pc == 0x1004#32) = true := by decide +kernel

/-- `mflo $9` with lo = 0x9ABCDEF0 (spec/95_test_vectors.md line 510). -/
theorem test_mflo_1 : endsIn
    (ran true 0x00004812#32 (fun s => { s with lo := 0x9abcdef0#32 }))
    (fun t => t.readGpr 9 == 0x9abcdef0#32 && t.pc == 0x1004#32) = true := by decide +kernel

/-- `mthi $8` with $8 = 0x11111111, lo = 0x00000022 (spec/95_test_vectors.md line 511). -/
theorem test_mthi_1 : endsIn
    (ran true 0x01000011#32 (fun s => { s.writeGpr 8 0x11111111#32 with lo := 0x22#32 }))
    (fun t => t.hi == 0x11111111#32 && t.lo == 0x22#32 && t.pc == 0x1004#32) = true := by decide +kernel

/-- `mtlo $8` with $8 = 0x11111111, hi = 0x00000022 (spec/95_test_vectors.md line 512). -/
theorem test_mtlo_1 : endsIn
    (ran true 0x01000013#32 (fun s => { s.writeGpr 8 0x11111111#32 with hi := 0x22#32 }))
    (fun t => t.hi == 0x22#32 && t.lo == 0x11111111#32 && t.pc == 0x1004#32) = true := by decide +kernel

/-- `mfc0 $9, $12` with Status.IE = 1, Status.IM = 0xFF, Status.CU1 = 1 (spec/95_test_vectors.md line 528). -/
theorem test_mfc0_1 : endsIn
    (ran true 0x40096000#32 (fun s => { s with status := 0x2000ff01#32 }))
    (fun t => t.readGpr 9 == 0x2000ff01#32 && t.pc == 0x1004#32) = true := by decide +kernel

/-- `mfc0 $9, $13` with Cause.IP1:0 = 3, IRQ = 0x21 (spec/95_test_vectors.md line 529). -/
theorem test_mfc0_2 : endsIn
    (ran true 0x40096800#32 (fun s => { s.setSoftIp 3#2 with irqInput := [0x21#6] }))
    (fun t => t.readGpr 9 == 0x8700#32 && t.pc == 0x1004#32) = true := by decide +kernel

/-- `mfc1 $9, $f4` with Status.CU1 = 1, $f4 = 0xC0490FDB (spec/95_test_vectors.md line 523). -/
theorem test_mfc1_1 : endsIn
    (ran true 0x44092000#32 (fun s => { s.writeFpr 4 0xc0490fdb#32 with status := 0x20000000#32 }))
    (fun t => t.readGpr 9 == 0xc0490fdb#32 && t.pc == 0x1004#32) = true := by decide +kernel

/-- `mfc1 $9, $f4` with $f4 = 0x00000001, $9 = 0x00000055, Status.UM = 1, Status.CU1 = 1 (spec/95_test_vectors.md line
527). -/
theorem test_mfc1_2 : endsIn
    (ran true 0x44092000#32 (fun s => { (s.writeFpr 4 0x1#32).writeGpr 9 0x55#32 with status := 0x20000010#32 }))
    (fun t => t.readGpr 9 == 0x1#32 && t.pc == 0x1004#32) = true := by decide +kernel

/-- `mtc0 $8, $13` with $8 = 0xFF3FFFFF, IRQ = 0x01 (spec/95_test_vectors.md line 540). -/
theorem test_mtc0_1 : endsIn
    (ran true 0x40886800#32 (fun s => { s.writeGpr 8 0xff3fffff#32 with irqInput := [0x1#6] }))
    (fun t => t.cause == 0x700#32 && t.pc == 0x1004#32) = true := by decide +kernel

/-- `mtc0 $8, $8` with $8 = 0x00001234 (spec/95_test_vectors.md line 543). -/
theorem test_mtc0_2 : endsIn
    (ran true 0x40884000#32 (fun s => s.writeGpr 8 0x1234#32))
    (fun t => t.badVAddr == 0x0#32 && t.pc == 0x1004#32) = true := by decide +kernel

/-- `mtc1 $9, $f4` with Status.CU1 = 1, $9 = 0x3F800000 (spec/95_test_vectors.md line 524). -/
theorem test_mtc1_1 : endsIn
    (ran true 0x44892000#32 (fun s => { s.writeGpr 9 0x3f800000#32 with status := 0x20000000#32 }))
    (fun t => t.readFpr 4 == 0x3f800000#32 && t.pc == 0x1004#32) = true := by decide +kernel

/-- `mtc1 $0, $f5` with Status.CU1 = 1, $f5 = 0x00000055 (spec/95_test_vectors.md line 525). -/
theorem test_mtc1_2 : endsIn
    (ran true 0x44802800#32 (fun s => { s.writeFpr 5 0x55#32 with status := 0x20000000#32 }))
    (fun t => t.readFpr 5 == 0x0#32 && t.pc == 0x1004#32) = true := by decide +kernel

/-- `movn $10, $8, $9` with $8 = 0x00000007, $9 = 0x00000001, $10 = 0x00000055 (spec/95_test_vectors.md line 513). -/
theorem test_movn_1 : endsIn
    (ran true 0x0109500B#32 (fun s => ((s.writeGpr 8 0x7#32).writeGpr 9 0x1#32).writeGpr 10 0x55#32))
    (fun t => t.readGpr 10 == 0x7#32 && t.pc == 0x1004#32) = true := by decide +kernel

/-- `movn $10, $8, $9` with $8 = 0x00000007, $9 = 0x00000000, $10 = 0x00000055 (spec/95_test_vectors.md line 514). -/
theorem test_movn_2 : endsIn
    (ran true 0x0109500B#32 (fun s => ((s.writeGpr 8 0x7#32).writeGpr 9 0x0#32).writeGpr 10 0x55#32))
    (fun t => t.readGpr 10 == 0x55#32 && t.pc == 0x1004#32) = true := by decide +kernel

/-- `movz $10, $8, $9` with $8 = 0x00000007, $9 = 0x80000000, $10 = 0x00000055 (spec/95_test_vectors.md line 516). -/
theorem test_movz_1 : endsIn
    (ran true 0x0109500A#32 (fun s => ((s.writeGpr 8 0x7#32).writeGpr 9 0x80000000#32).writeGpr 10 0x55#32))
    (fun t => t.readGpr 10 == 0x55#32 && t.pc == 0x1004#32) = true := by decide +kernel

/-- `movz $10, $8, $9` with $8 = 0x00000007, $9 = 0x00000000, $10 = 0x00000055 (spec/95_test_vectors.md line 515). -/
theorem test_movz_2 : endsIn
    (ran true 0x0109500A#32 (fun s => ((s.writeGpr 8 0x7#32).writeGpr 9 0x0#32).writeGpr 10 0x55#32))
    (fun t => t.readGpr 10 == 0x7#32 && t.pc == 0x1004#32) = true := by decide +kernel

/-- `movf $10, $8, 0` with $8 = 0x00000007, $10 = 0x00000055, Status.CU1 = 1, fcc[0] = 0 (spec/95_test_vectors.md line
517). -/
theorem test_movf_1 : endsIn
    (ran true 0x01005001#32 (fun s => { ((s.writeGpr 8 0x7#32).writeGpr 10 0x55#32).writeFcc 0 false with
      status := 0x20000000#32 }))
    (fun t => t.readGpr 10 == 0x7#32 && t.pc == 0x1004#32) = true := by decide +kernel

/-- `movf $10, $8, 0` with $8 = 0x00000007, $10 = 0x00000055, Status.CU1 = 1, fcc[0] = 1 (spec/95_test_vectors.md line
518). -/
theorem test_movf_2 : endsIn
    (ran true 0x01005001#32 (fun s => { ((s.writeGpr 8 0x7#32).writeGpr 10 0x55#32).writeFcc 0 true with
      status := 0x20000000#32 }))
    (fun t => t.readGpr 10 == 0x55#32 && t.pc == 0x1004#32) = true := by decide +kernel

/-- `movt $10, $8, 0` with $8 = 0x00000007, $10 = 0x00000055, Status.CU1 = 1, fcc[0] = 1 (spec/95_test_vectors.md line
519). -/
theorem test_movt_1 : endsIn
    (ran true 0x01015001#32 (fun s => { ((s.writeGpr 8 0x7#32).writeGpr 10 0x55#32).writeFcc 0 true with
      status := 0x20000000#32 }))
    (fun t => t.readGpr 10 == 0x7#32 && t.pc == 0x1004#32) = true := by decide +kernel

/-- `movt $10, $8, 5` with $8 = 0x00000007, $10 = 0x00000055, Status.CU1 = 1, fcc[0] = 1, fcc[5] = 0
(spec/95_test_vectors.md line 521). -/
theorem test_movt_2 : endsIn
    (ran true 0x01155001#32 (fun s =>
      { (((s.writeGpr 8 0x7#32).writeGpr 10 0x55#32).writeFcc 0 true).writeFcc 5 false with
      status := 0x20000000#32 }))
    (fun t => t.readGpr 10 == 0x55#32 && t.pc == 0x1004#32) = true := by decide +kernel

/-! Floating point (46_float.md) -/

/-- `abs.d $f6, $f2` with Status.CU1 = 1, $f3 = 0xBFF80000, $f2 = 0x00000001 (spec/96_test_vectors_more.md line 35).
-/
theorem test_absD_1 : endsIn
    (ran true 0x46201185#32 (fun s => { (s.writeFpr 3 0xbff80000#32).writeFpr 2 0x1#32 with
      status := 0x20000000#32 }))
    (fun t => t.readFpr 7 == 0x3ff80000#32 && t.readFpr 6 == 0x1#32 && t.pc == 0x1004#32) = true := by decide +kernel

/-- `abs.s $f6, $f2` with Status.CU1 = 1, $f2 = 0xBFC00000 (spec/96_test_vectors_more.md line 34). -/
theorem test_absS_1 : endsIn
    (ran true 0x46001185#32 (fun s => { s.writeFpr 2 0xbfc00000#32 with status := 0x20000000#32 }))
    (fun t => t.readFpr 6 == 0x3fc00000#32 && t.pc == 0x1004#32) = true := by decide +kernel

/-- `add.d $f6, $f2, $f4` with Status.CU1 = 1, $f3 = 0x3FF80000, $f2 = 0x00000000, $f5 = 0x40020000, $f4 = 0x00000000
(spec/96_test_vectors_more.md line 21). -/
theorem test_addD_1 : endsIn
    (ran true 0x46241180#32 (fun s =>
      { (((s.writeFpr 3 0x3ff80000#32).writeFpr 2 0x0#32).writeFpr 5 0x40020000#32).writeFpr 4 0x0#32 with
      status := 0x20000000#32 }))
    (fun t => t.readFpr 7 == 0x400e0000#32 && t.readFpr 6 == 0x0#32 && t.pc == 0x1004#32) = true := by decide +kernel

/-- `add.s $f6, $f2, $f4` with Status.CU1 = 1, $f2 = 0x7F800000, $f4 = 0xFF800000 (spec/96_test_vectors_more.md line
17). -/
theorem test_addS_1 : endsIn
    (ran true 0x46041180#32 (fun s => { (s.writeFpr 2 0x7f800000#32).writeFpr 4 0xff800000#32 with
      status := 0x20000000#32 }))
    (fun t => t.readFpr 6 == 0x7fc00000#32 && t.pc == 0x1004#32) = true := by decide +kernel

/-- `add.s $f6, $f2, $f4` with Status.CU1 = 1, $f2 = 0x3FC00000, $f4 = 0x40100000 (spec/96_test_vectors_more.md line
16). -/
theorem test_addS_2 : endsIn
    (ran true 0x46041180#32 (fun s => { (s.writeFpr 2 0x3fc00000#32).writeFpr 4 0x40100000#32 with
      status := 0x20000000#32 }))
    (fun t => t.readFpr 6 == 0x40700000#32 && t.pc == 0x1004#32) = true := by decide +kernel

/-- `ceil.w.d $f6, $f2` with Status.CU1 = 1, $f3 = 0x4005999A, $f2 = 0x00000000 (spec/96_test_vectors_more.md line
75). -/
theorem test_ceilWD_1 : endsIn
    (ran true 0x4620118E#32 (fun s => { (s.writeFpr 3 0x4005999a#32).writeFpr 2 0x0#32 with
      status := 0x20000000#32 }))
    (fun t => t.readFpr 6 == 0x3#32 && t.pc == 0x1004#32) = true := by decide +kernel

/-- `ceil.w.s $f6, $f2` with Status.CU1 = 1, $f2 = 0xC0200000 (spec/96_test_vectors_more.md line 66). -/
theorem test_ceilWS_1 : endsIn
    (ran true 0x4600118E#32 (fun s => { s.writeFpr 2 0xc0200000#32 with status := 0x20000000#32 }))
    (fun t => t.readFpr 6 == 0xfffffffe#32 && t.pc == 0x1004#32) = true := by decide +kernel

/-- `ceil.w.s $f6, $f2` with Status.CU1 = 1, $f2 = 0x40200000 (spec/96_test_vectors_more.md line 65). -/
theorem test_ceilWS_2 : endsIn
    (ran true 0x4600118E#32 (fun s => { s.writeFpr 2 0x40200000#32 with status := 0x20000000#32 }))
    (fun t => t.readFpr 6 == 0x3#32 && t.pc == 0x1004#32) = true := by decide +kernel

/-- `c.eq.d 7, $f2, $f4` with Status.CU1 = 1, $f3 = 0x3FF00000, $f2 = 0x00000000, $f5 = 0x3FF00000, $f4 = 0x00000000,
fcc[7] = 0 (spec/96_test_vectors_more.md line 51). -/
theorem test_cEqD_1 : endsIn
    (ran true 0x46241732#32 (fun s =>
      { ((((s.writeFpr 3 0x3ff00000#32).writeFpr 2 0x0#32).writeFpr 5 0x3ff00000#32).writeFpr 4 0x0#32).writeFcc 7 false with
      status := 0x20000000#32 }))
    (fun t => t.readFcc 7 == true && t.pc == 0x1004#32) = true := by decide +kernel

/-- `c.eq.s $f2, $f4` with Status.CU1 = 1, $f2 = 0x00000000, $f4 = 0x80000000, fcc[0] = 0
(spec/96_test_vectors_more.md line 42). -/
theorem test_cEqS_1 : endsIn
    (ran true 0x46041032#32 (fun s => { ((s.writeFpr 2 0x0#32).writeFpr 4 0x80000000#32).writeFcc 0 false with
      status := 0x20000000#32 }))
    (fun t => t.readFcc 0 == true && t.pc == 0x1004#32) = true := by decide +kernel

/-- `c.eq.s $f2, $f4` with Status.CU1 = 1, $f2 = 0x7FC00000, $f4 = 0x7FC00000, fcc[0] = 1
(spec/96_test_vectors_more.md line 43). -/
theorem test_cEqS_2 : endsIn
    (ran true 0x46041032#32 (fun s => { ((s.writeFpr 2 0x7fc00000#32).writeFpr 4 0x7fc00000#32).writeFcc 0 true with
      status := 0x20000000#32 }))
    (fun t => t.readFcc 0 == false && t.pc == 0x1004#32) = true := by decide +kernel

/-- `c.le.d $f2, $f4` with Status.CU1 = 1, $f3 = 0x40000000, $f2 = 0x00000000, $f5 = 0x3FF00000, $f4 = 0x00000000,
fcc[0] = 1 (spec/96_test_vectors_more.md line 49). -/
theorem test_cLeD_1 : endsIn
    (ran true 0x4624103E#32 (fun s =>
      { ((((s.writeFpr 3 0x40000000#32).writeFpr 2 0x0#32).writeFpr 5 0x3ff00000#32).writeFpr 4 0x0#32).writeFcc 0 true with
      status := 0x20000000#32 }))
    (fun t => t.readFcc 0 == false && t.pc == 0x1004#32) = true := by decide +kernel

/-- `c.le.s 3, $f2, $f4` with Status.CU1 = 1, $f2 = 0x3FC00000, $f4 = 0x40100000, fcc[0] = 0, fcc[3] = 0
(spec/96_test_vectors_more.md line 48). -/
theorem test_cLeS_1 : endsIn
    (ran true 0x4604133E#32 (fun s =>
      { (((s.writeFpr 2 0x3fc00000#32).writeFpr 4 0x40100000#32).writeFcc 0 false).writeFcc 3 false with
      status := 0x20000000#32 }))
    (fun t => t.readFcc 0 == false && t.readFcc 3 == true && t.pc == 0x1004#32) = true := by decide +kernel

/-- `c.le.s $f2, $f4` with Status.CU1 = 1, $f2 = 0x3FC00000, $f4 = 0x3FC00000, fcc[0] = 0
(spec/96_test_vectors_more.md line 47). -/
theorem test_cLeS_2 : endsIn
    (ran true 0x4604103E#32 (fun s => { ((s.writeFpr 2 0x3fc00000#32).writeFpr 4 0x3fc00000#32).writeFcc 0 false with
      status := 0x20000000#32 }))
    (fun t => t.readFcc 0 == true && t.pc == 0x1004#32) = true := by decide +kernel

/-- `c.lt.d $f2, $f4` with Status.CU1 = 1, $f3 = 0xBFF00000, $f2 = 0x00000000, $f5 = 0x3FF00000, $f4 = 0x00000000,
fcc[0] = 0 (spec/96_test_vectors_more.md line 50). -/
theorem test_cLtD_1 : endsIn
    (ran true 0x4624103C#32 (fun s =>
      { ((((s.writeFpr 3 0xbff00000#32).writeFpr 2 0x0#32).writeFpr 5 0x3ff00000#32).writeFpr 4 0x0#32).writeFcc 0 false with
      status := 0x20000000#32 }))
    (fun t => t.readFcc 0 == true && t.pc == 0x1004#32) = true := by decide +kernel

/-- `c.lt.s $f2, $f4` with Status.CU1 = 1, $f2 = 0x3FC00000, $f4 = 0x40100000, fcc[0] = 0
(spec/96_test_vectors_more.md line 44). -/
theorem test_cLtS_1 : endsIn
    (ran true 0x4604103C#32 (fun s => { ((s.writeFpr 2 0x3fc00000#32).writeFpr 4 0x40100000#32).writeFcc 0 false with
      status := 0x20000000#32 }))
    (fun t => t.readFcc 0 == true && t.pc == 0x1004#32) = true := by decide +kernel

/-- `c.lt.s $f2, $f4` with Status.CU1 = 1, $f2 = 0x40100000, $f4 = 0x3FC00000, fcc[0] = 1
(spec/96_test_vectors_more.md line 45). -/
theorem test_cLtS_2 : endsIn
    (ran true 0x4604103C#32 (fun s => { ((s.writeFpr 2 0x40100000#32).writeFpr 4 0x3fc00000#32).writeFcc 0 true with
      status := 0x20000000#32 }))
    (fun t => t.readFcc 0 == false && t.pc == 0x1004#32) = true := by decide +kernel

/-- `cvt.d.s $f6, $f2` with Status.CU1 = 1, $f2 = 0x3FC00000 (spec/96_test_vectors_more.md line 52). -/
theorem test_cvtDS_1 : endsIn
    (ran true 0x460011A1#32 (fun s => { s.writeFpr 2 0x3fc00000#32 with status := 0x20000000#32 }))
    (fun t => t.readFpr 7 == 0x3ff80000#32 && t.readFpr 6 == 0x0#32 && t.pc == 0x1004#32) = true := by decide +kernel

/-- `cvt.d.w $f6, $f2` with Status.CU1 = 1, $f2 = 0xFFFFFFFF (spec/96_test_vectors_more.md line 53). -/
theorem test_cvtDW_1 : endsIn
    (ran true 0x468011A1#32 (fun s => { s.writeFpr 2 0xffffffff#32 with status := 0x20000000#32 }))
    (fun t => t.readFpr 7 == 0xbff00000#32 && t.readFpr 6 == 0x0#32 && t.pc == 0x1004#32) = true := by decide +kernel

/-- `cvt.s.d $f6, $f2` with Status.CU1 = 1, $f3 = 0x3FB99999, $f2 = 0x9999999A (spec/96_test_vectors_more.md line 55).
-/
theorem test_cvtSD_1 : endsIn
    (ran true 0x462011A0#32 (fun s => { (s.writeFpr 3 0x3fb99999#32).writeFpr 2 0x9999999a#32 with
      status := 0x20000000#32 }))
    (fun t => t.readFpr 6 == 0x3dcccccd#32 && t.pc == 0x1004#32) = true := by decide +kernel

/-- `cvt.s.d $f6, $f2` with Status.CU1 = 1, $f3 = 0x3FF80000, $f2 = 0x00000000 (spec/96_test_vectors_more.md line 54).
-/
theorem test_cvtSD_2 : endsIn
    (ran true 0x462011A0#32 (fun s => { (s.writeFpr 3 0x3ff80000#32).writeFpr 2 0x0#32 with
      status := 0x20000000#32 }))
    (fun t => t.readFpr 6 == 0x3fc00000#32 && t.pc == 0x1004#32) = true := by decide +kernel

/-- `cvt.s.w $f6, $f2` with Status.CU1 = 1, $f2 = 0xFFFFFFFF (spec/96_test_vectors_more.md line 56). -/
theorem test_cvtSW_1 : endsIn
    (ran true 0x468011A0#32 (fun s => { s.writeFpr 2 0xffffffff#32 with status := 0x20000000#32 }))
    (fun t => t.readFpr 6 == 0xbf800000#32 && t.pc == 0x1004#32) = true := by decide +kernel

/-- `cvt.s.w $f6, $f2` with Status.CU1 = 1, $f2 = 0x01000001 (spec/96_test_vectors_more.md line 57). -/
theorem test_cvtSW_2 : endsIn
    (ran true 0x468011A0#32 (fun s => { s.writeFpr 2 0x1000001#32 with status := 0x20000000#32 }))
    (fun t => t.readFpr 6 == 0x4b800000#32 && t.pc == 0x1004#32) = true := by decide +kernel

/-- `cvt.w.d $f6, $f2` with Status.CU1 = 1, $f3 = 0x40058000, $f2 = 0x00000000 (spec/96_test_vectors_more.md line 64).
-/
theorem test_cvtWD_1 : endsIn
    (ran true 0x462011A4#32 (fun s => { (s.writeFpr 3 0x40058000#32).writeFpr 2 0x0#32 with
      status := 0x20000000#32 }))
    (fun t => t.readFpr 6 == 0x3#32 && t.pc == 0x1004#32) = true := by decide +kernel

/-- `cvt.w.s $f6, $f2` with Status.CU1 = 1, $f2 = 0xC0200000 (spec/96_test_vectors_more.md line 60). -/
theorem test_cvtWS_1 : endsIn
    (ran true 0x460011A4#32 (fun s => { s.writeFpr 2 0xc0200000#32 with status := 0x20000000#32 }))
    (fun t => t.readFpr 6 == 0xfffffffe#32 && t.pc == 0x1004#32) = true := by decide +kernel

/-- `cvt.w.s $f6, $f2` with Status.CU1 = 1, $f2 = 0xCF000000 (spec/96_test_vectors_more.md line 63). -/
theorem test_cvtWS_2 : endsIn
    (ran true 0x460011A4#32 (fun s => { s.writeFpr 2 0xcf000000#32 with status := 0x20000000#32 }))
    (fun t => t.readFpr 6 == 0x80000000#32 && t.pc == 0x1004#32) = true := by decide +kernel

/-- `div.d $f6, $f2, $f4` with Status.CU1 = 1, $f3 = 0x3FF00000, $f2 = 0x00000000, $f5 = 0x40080000, $f4 = 0x00000000
(spec/96_test_vectors_more.md line 29). -/
theorem test_divD_1 : endsIn
    (ran true 0x46241183#32 (fun s =>
      { (((s.writeFpr 3 0x3ff00000#32).writeFpr 2 0x0#32).writeFpr 5 0x40080000#32).writeFpr 4 0x0#32 with
      status := 0x20000000#32 }))
        (fun t => t.readFpr 7 == 0x3fd55555#32 && t.readFpr 6 == 0x55555555#32 && t.pc == 0x1004#32) = true := by
      decide +kernel

/-- `div.s $f6, $f2, $f4` with Status.CU1 = 1, $f2 = 0x3F800000, $f4 = 0x40400000 (spec/96_test_vectors_more.md line
26). -/
theorem test_divS_1 : endsIn
    (ran true 0x46041183#32 (fun s => { (s.writeFpr 2 0x3f800000#32).writeFpr 4 0x40400000#32 with
      status := 0x20000000#32 }))
    (fun t => t.readFpr 6 == 0x3eaaaaab#32 && t.pc == 0x1004#32) = true := by decide +kernel

/-- `div.s $f6, $f2, $f4` with Status.CU1 = 1, $f2 = 0x3F800000, $f4 = 0x00000000 (spec/96_test_vectors_more.md line
27). -/
theorem test_divS_2 : endsIn
    (ran true 0x46041183#32 (fun s => { (s.writeFpr 2 0x3f800000#32).writeFpr 4 0x0#32 with
      status := 0x20000000#32 }))
    (fun t => t.readFpr 6 == 0x7f800000#32 && t.pc == 0x1004#32) = true := by decide +kernel

/-- `floor.w.d $f6, $f2` with Status.CU1 = 1, $f3 = 0xC005999A, $f2 = 0x00000000 (spec/96_test_vectors_more.md line
76). -/
theorem test_floorWD_1 : endsIn
    (ran true 0x4620118F#32 (fun s => { (s.writeFpr 3 0xc005999a#32).writeFpr 2 0x0#32 with
      status := 0x20000000#32 }))
    (fun t => t.readFpr 6 == 0xfffffffd#32 && t.pc == 0x1004#32) = true := by decide +kernel

/-- `floor.w.s $f6, $f2` with Status.CU1 = 1, $f2 = 0xC0200000 (spec/96_test_vectors_more.md line 68). -/
theorem test_floorWS_1 : endsIn
    (ran true 0x4600118F#32 (fun s => { s.writeFpr 2 0xc0200000#32 with status := 0x20000000#32 }))
    (fun t => t.readFpr 6 == 0xfffffffd#32 && t.pc == 0x1004#32) = true := by decide +kernel

/-- `floor.w.s $f6, $f2` with Status.CU1 = 1, $f2 = 0x40200000 (spec/96_test_vectors_more.md line 67). -/
theorem test_floorWS_2 : endsIn
    (ran true 0x4600118F#32 (fun s => { s.writeFpr 2 0x40200000#32 with status := 0x20000000#32 }))
    (fun t => t.readFpr 6 == 0x2#32 && t.pc == 0x1004#32) = true := by decide +kernel

/-- `mov.d $f6, $f2` with Status.CU1 = 1, $f3 = 0x12345678, $f2 = 0x9ABCDEF0 (spec/96_test_vectors_more.md line 40).
-/
theorem test_movD_1 : endsIn
    (ran true 0x46201186#32 (fun s => { (s.writeFpr 3 0x12345678#32).writeFpr 2 0x9abcdef0#32 with
      status := 0x20000000#32 }))
        (fun t => t.readFpr 7 == 0x12345678#32 && t.readFpr 6 == 0x9abcdef0#32 && t.pc == 0x1004#32) = true := by
      decide +kernel

/-- `mov.s $f6, $f2` with Status.CU1 = 1, $f2 = 0x7FA00001 (spec/96_test_vectors_more.md line 39). -/
theorem test_movS_1 : endsIn
    (ran true 0x46001186#32 (fun s => { s.writeFpr 2 0x7fa00001#32 with status := 0x20000000#32 }))
    (fun t => t.readFpr 6 == 0x7fa00001#32 && t.pc == 0x1004#32) = true := by decide +kernel

/-- `movf.d $f6, $f2, 0` with Status.CU1 = 1, $f2 = 0x00000011, $f3 = 0x00000022, $f6 = 0x00000055, $f7 = 0x00000066,
fcc[0] = 1 (spec/96_test_vectors_more.md line 83). -/
theorem test_movfD_1 : endsIn
    (ran true 0x46201191#32 (fun s =>
      { ((((s.writeFpr 2 0x11#32).writeFpr 3 0x22#32).writeFpr 6 0x55#32).writeFpr 7 0x66#32).writeFcc 0 true with
      status := 0x20000000#32 }))
    (fun t => t.readFpr 7 == 0x66#32 && t.readFpr 6 == 0x55#32 && t.pc == 0x1004#32) = true := by decide +kernel

/-- `movf.s $f6, $f2, 0` with Status.CU1 = 1, $f2 = 0x00000011, $f6 = 0x00000055, fcc[0] = 0
(spec/96_test_vectors_more.md line 79). -/
theorem test_movfS_1 : endsIn
    (ran true 0x46001191#32 (fun s => { ((s.writeFpr 2 0x11#32).writeFpr 6 0x55#32).writeFcc 0 false with
      status := 0x20000000#32 }))
    (fun t => t.readFpr 6 == 0x11#32 && t.pc == 0x1004#32) = true := by decide +kernel

/-- `movf.s $f6, $f2, 0` with Status.CU1 = 1, $f2 = 0x00000011, $f6 = 0x00000055, fcc[0] = 1
(spec/96_test_vectors_more.md line 80). -/
theorem test_movfS_2 : endsIn
    (ran true 0x46001191#32 (fun s => { ((s.writeFpr 2 0x11#32).writeFpr 6 0x55#32).writeFcc 0 true with
      status := 0x20000000#32 }))
    (fun t => t.readFpr 6 == 0x55#32 && t.pc == 0x1004#32) = true := by decide +kernel

/-- `movt.d $f6, $f2, 0` with Status.CU1 = 1, $f2 = 0x00000011, $f3 = 0x00000022, $f6 = 0x00000055, $f7 = 0x00000066,
fcc[0] = 1 (spec/96_test_vectors_more.md line 82). -/
theorem test_movtD_1 : endsIn
    (ran true 0x46211191#32 (fun s =>
      { ((((s.writeFpr 2 0x11#32).writeFpr 3 0x22#32).writeFpr 6 0x55#32).writeFpr 7 0x66#32).writeFcc 0 true with
      status := 0x20000000#32 }))
    (fun t => t.readFpr 7 == 0x22#32 && t.readFpr 6 == 0x11#32 && t.pc == 0x1004#32) = true := by decide +kernel

/-- `movt.s $f6, $f2, 2` with Status.CU1 = 1, $f2 = 0x00000011, $f6 = 0x00000055, fcc[2] = 1
(spec/96_test_vectors_more.md line 81). -/
theorem test_movtS_1 : endsIn
    (ran true 0x46091191#32 (fun s => { ((s.writeFpr 2 0x11#32).writeFpr 6 0x55#32).writeFcc 2 true with
      status := 0x20000000#32 }))
    (fun t => t.readFpr 6 == 0x11#32 && t.pc == 0x1004#32) = true := by decide +kernel

/-- `movn.d $f6, $f2, $9` with Status.CU1 = 1, $f2 = 0x00000011, $f3 = 0x00000022, $f6 = 0x00000055, $f7 = 0x00000066,
$9 = 0x00000000 (spec/96_test_vectors_more.md line 88). -/
theorem test_movnD_1 : endsIn
    (ran true 0x46291193#32 (fun s =>
      { ((((s.writeFpr 2 0x11#32).writeFpr 3 0x22#32).writeFpr 6 0x55#32).writeFpr 7 0x66#32).writeGpr 9 0x0#32 with
      status := 0x20000000#32 }))
    (fun t => t.readFpr 7 == 0x66#32 && t.readFpr 6 == 0x55#32 && t.pc == 0x1004#32) = true := by decide +kernel

/-- `movn.s $f6, $f2, $9` with Status.CU1 = 1, $f2 = 0x00000011, $f6 = 0x00000055, $9 = 0x00000001
(spec/96_test_vectors_more.md line 84). -/
theorem test_movnS_1 : endsIn
    (ran true 0x46091193#32 (fun s => { ((s.writeFpr 2 0x11#32).writeFpr 6 0x55#32).writeGpr 9 0x1#32 with
      status := 0x20000000#32 }))
    (fun t => t.readFpr 6 == 0x11#32 && t.pc == 0x1004#32) = true := by decide +kernel

/-- `movn.s $f6, $f2, $9` with Status.CU1 = 1, $f2 = 0x00000011, $f6 = 0x00000055, $9 = 0x00000000
(spec/96_test_vectors_more.md line 85). -/
theorem test_movnS_2 : endsIn
    (ran true 0x46091193#32 (fun s => { ((s.writeFpr 2 0x11#32).writeFpr 6 0x55#32).writeGpr 9 0x0#32 with
      status := 0x20000000#32 }))
    (fun t => t.readFpr 6 == 0x55#32 && t.pc == 0x1004#32) = true := by decide +kernel

/-- `movz.d $f6, $f2, $9` with Status.CU1 = 1, $f2 = 0x00000011, $f3 = 0x00000022, $f6 = 0x00000055, $f7 = 0x00000066,
$9 = 0x00000000 (spec/96_test_vectors_more.md line 87). -/
theorem test_movzD_1 : endsIn
    (ran true 0x46291192#32 (fun s =>
      { ((((s.writeFpr 2 0x11#32).writeFpr 3 0x22#32).writeFpr 6 0x55#32).writeFpr 7 0x66#32).writeGpr 9 0x0#32 with
      status := 0x20000000#32 }))
    (fun t => t.readFpr 7 == 0x22#32 && t.readFpr 6 == 0x11#32 && t.pc == 0x1004#32) = true := by decide +kernel

/-- `movz.s $f6, $f2, $9` with Status.CU1 = 1, $f2 = 0x00000011, $f6 = 0x00000055, $9 = 0x00000000
(spec/96_test_vectors_more.md line 86). -/
theorem test_movzS_1 : endsIn
    (ran true 0x46091192#32 (fun s => { ((s.writeFpr 2 0x11#32).writeFpr 6 0x55#32).writeGpr 9 0x0#32 with
      status := 0x20000000#32 }))
    (fun t => t.readFpr 6 == 0x11#32 && t.pc == 0x1004#32) = true := by decide +kernel

/-- `mul.d $f6, $f2, $f4` with Status.CU1 = 1, $f3 = 0x40000000, $f2 = 0x00000000, $f5 = 0xC0080000, $f4 = 0x00000000
(spec/96_test_vectors_more.md line 25). -/
theorem test_mulD_1 : endsIn
    (ran true 0x46241182#32 (fun s =>
      { (((s.writeFpr 3 0x40000000#32).writeFpr 2 0x0#32).writeFpr 5 0xc0080000#32).writeFpr 4 0x0#32 with
      status := 0x20000000#32 }))
    (fun t => t.readFpr 7 == 0xc0180000#32 && t.readFpr 6 == 0x0#32 && t.pc == 0x1004#32) = true := by decide +kernel

/-- `mul.s $f6, $f2, $f4` with Status.CU1 = 1, $f2 = 0x3FC00000, $f4 = 0x40100000 (spec/96_test_vectors_more.md line
24). -/
theorem test_mulS_1 : endsIn
    (ran true 0x46041182#32 (fun s => { (s.writeFpr 2 0x3fc00000#32).writeFpr 4 0x40100000#32 with
      status := 0x20000000#32 }))
    (fun t => t.readFpr 6 == 0x40580000#32 && t.pc == 0x1004#32) = true := by decide +kernel

/-- `neg.d $f6, $f2` with Status.CU1 = 1, $f3 = 0x3FF80000, $f2 = 0x00000001 (spec/96_test_vectors_more.md line 38).
-/
theorem test_negD_1 : endsIn
    (ran true 0x46201187#32 (fun s => { (s.writeFpr 3 0x3ff80000#32).writeFpr 2 0x1#32 with
      status := 0x20000000#32 }))
    (fun t => t.readFpr 7 == 0xbff80000#32 && t.readFpr 6 == 0x1#32 && t.pc == 0x1004#32) = true := by decide +kernel

/-- `neg.s $f6, $f2` with Status.CU1 = 1, $f2 = 0x3FC00000 (spec/96_test_vectors_more.md line 36). -/
theorem test_negS_1 : endsIn
    (ran true 0x46001187#32 (fun s => { s.writeFpr 2 0x3fc00000#32 with status := 0x20000000#32 }))
    (fun t => t.readFpr 6 == 0xbfc00000#32 && t.pc == 0x1004#32) = true := by decide +kernel

/-- `neg.s $f6, $f2` with Status.CU1 = 1, $f2 = 0x00000000 (spec/96_test_vectors_more.md line 37). -/
theorem test_negS_2 : endsIn
    (ran true 0x46001187#32 (fun s => { s.writeFpr 2 0x0#32 with status := 0x20000000#32 }))
    (fun t => t.readFpr 6 == 0x80000000#32 && t.pc == 0x1004#32) = true := by decide +kernel

/-- `round.w.d $f6, $f2` with Status.CU1 = 1, $f3 = 0x4005999A, $f2 = 0x00000000 (spec/96_test_vectors_more.md line
77). -/
theorem test_roundWD_1 : endsIn
    (ran true 0x4620118C#32 (fun s => { (s.writeFpr 3 0x4005999a#32).writeFpr 2 0x0#32 with
      status := 0x20000000#32 }))
    (fun t => t.readFpr 6 == 0x3#32 && t.pc == 0x1004#32) = true := by decide +kernel

/-- `round.w.s $f6, $f2` with Status.CU1 = 1, $f2 = 0xC0200000 (spec/96_test_vectors_more.md line 71). -/
theorem test_roundWS_1 : endsIn
    (ran true 0x4600118C#32 (fun s => { s.writeFpr 2 0xc0200000#32 with status := 0x20000000#32 }))
    (fun t => t.readFpr 6 == 0xfffffffe#32 && t.pc == 0x1004#32) = true := by decide +kernel

/-- `round.w.s $f6, $f2` with Status.CU1 = 1, $f2 = 0x40200000 (spec/96_test_vectors_more.md line 69). -/
theorem test_roundWS_2 : endsIn
    (ran true 0x4600118C#32 (fun s => { s.writeFpr 2 0x40200000#32 with status := 0x20000000#32 }))
    (fun t => t.readFpr 6 == 0x2#32 && t.pc == 0x1004#32) = true := by decide +kernel

/-- `sqrt.d $f6, $f2` with Status.CU1 = 1, $f3 = 0x40000000, $f2 = 0x00000000 (spec/96_test_vectors_more.md line 33).
-/
theorem test_sqrtD_1 : endsIn
    (ran true 0x46201184#32 (fun s => { (s.writeFpr 3 0x40000000#32).writeFpr 2 0x0#32 with
      status := 0x20000000#32 }))
        (fun t => t.readFpr 7 == 0x3ff6a09e#32 && t.readFpr 6 == 0x667f3bcd#32 && t.pc == 0x1004#32) = true := by
      decide +kernel

/-- `sqrt.s $f6, $f2` with Status.CU1 = 1, $f2 = 0xBF800000 (spec/96_test_vectors_more.md line 31). -/
theorem test_sqrtS_1 : endsIn
    (ran true 0x46001184#32 (fun s => { s.writeFpr 2 0xbf800000#32 with status := 0x20000000#32 }))
    (fun t => t.readFpr 6 == 0x7fc00000#32 && t.pc == 0x1004#32) = true := by decide +kernel

/-- `sqrt.s $f6, $f2` with Status.CU1 = 1, $f2 = 0x40000000 (spec/96_test_vectors_more.md line 30). -/
theorem test_sqrtS_2 : endsIn
    (ran true 0x46001184#32 (fun s => { s.writeFpr 2 0x40000000#32 with status := 0x20000000#32 }))
    (fun t => t.readFpr 6 == 0x3fb504f3#32 && t.pc == 0x1004#32) = true := by decide +kernel

/-- `sub.d $f6, $f2, $f4` with Status.CU1 = 1, $f3 = 0x3FF00000, $f2 = 0x00000000, $f5 = 0x3FF00000, $f4 = 0x00000000
(spec/96_test_vectors_more.md line 23). -/
theorem test_subD_1 : endsIn
    (ran true 0x46241181#32 (fun s =>
      { (((s.writeFpr 3 0x3ff00000#32).writeFpr 2 0x0#32).writeFpr 5 0x3ff00000#32).writeFpr 4 0x0#32 with
      status := 0x20000000#32 }))
    (fun t => t.readFpr 7 == 0x0#32 && t.readFpr 6 == 0x0#32 && t.pc == 0x1004#32) = true := by decide +kernel

/-- `sub.s $f6, $f2, $f4` with Status.CU1 = 1, $f2 = 0x3FC00000, $f4 = 0x40100000 (spec/96_test_vectors_more.md line
22). -/
theorem test_subS_1 : endsIn
    (ran true 0x46041181#32 (fun s => { (s.writeFpr 2 0x3fc00000#32).writeFpr 4 0x40100000#32 with
      status := 0x20000000#32 }))
    (fun t => t.readFpr 6 == 0xbf400000#32 && t.pc == 0x1004#32) = true := by decide +kernel

/-- `trunc.w.d $f6, $f2` with Status.CU1 = 1, $f3 = 0xC005999A, $f2 = 0x00000000 (spec/96_test_vectors_more.md line
78). -/
theorem test_truncWD_1 : endsIn
    (ran true 0x4620118D#32 (fun s => { (s.writeFpr 3 0xc005999a#32).writeFpr 2 0x0#32 with
      status := 0x20000000#32 }))
    (fun t => t.readFpr 6 == 0xfffffffe#32 && t.pc == 0x1004#32) = true := by decide +kernel

/-- `trunc.w.s $f6, $f2` with Status.CU1 = 1, $f2 = 0xC0200000 (spec/96_test_vectors_more.md line 73). -/
theorem test_truncWS_1 : endsIn
    (ran true 0x4600118D#32 (fun s => { s.writeFpr 2 0xc0200000#32 with status := 0x20000000#32 }))
    (fun t => t.readFpr 6 == 0xfffffffe#32 && t.pc == 0x1004#32) = true := by decide +kernel

/-- `trunc.w.s $f6, $f2` with Status.CU1 = 1, $f2 = 0x7F800000 (spec/96_test_vectors_more.md line 74). -/
theorem test_truncWS_2 : endsIn
    (ran true 0x4600118D#32 (fun s => { s.writeFpr 2 0x7f800000#32 with status := 0x20000000#32 }))
    (fun t => t.readFpr 6 == 0x7fffffff#32 && t.pc == 0x1004#32) = true := by decide +kernel

/-! Exception instructions (47_exception_instr.md) -/

/-- `eret` with Status.EXL = 1, EPC = 0x00001040, llbit = 1 (spec/96_test_vectors_more.md line 119). -/
theorem test_eret_1 : endsIn
    (ran true 0x42000018#32 (fun s => { s with epc := 0x1040#32, llbit := true, status := 0x2#32 }))
        (fun t => t.pc == 0x1040#32 && t.npc == 0x1044#32 && t.ds == false && t.status == 0x0#32 && t.llbit == false)
      = true := by decide +kernel

/-- `eret` with Status.EXL = 1, Status.UM = 1, EPC = 0x00401000, Status.IE = 1, Status.IM = 0x80
(spec/96_test_vectors_more.md line 120). -/
theorem test_eret_2 : endsIn
    (ran true 0x42000018#32 (fun s => { s with epc := 0x401000#32, status := 0x8013#32 }))
        (fun t => t.pc == 0x401000#32 && t.npc == 0x401004#32 && t.ds == false && t.status == 0x8011#32) = true := by
      decide +kernel

/-- `syscall` with $2 = 0x0000000A (spec/96_test_vectors_more.md line 113). -/
theorem test_syscall_1 : endsIn
    (ran true 0x0000000C#32 (fun s => s.writeGpr 2 0xa#32))
        (fun t => t.epc == 0x1000#32 && t.cause == 0x20#32 && t.status == 0x2#32 && t.pc == 0x80000180#32 && t.npc ==
      0x80000184#32 && t.ds == false && t.pc == 0x80000180#32 && t.excCode == 8#5) = true := by decide +kernel

/-- `syscall with code field 0xFFFFF` with nothing set (spec/96_test_vectors_more.md line 114). -/
theorem test_syscall_2 : endsIn
    (ran true 0x03FFFFCC#32 id)
    (fun t => t.cause == 0x20#32 && t.pc == 0x80000180#32 && t.excCode == 8#5) = true := by decide +kernel

/-- `break 1` with nothing set (spec/96_test_vectors_more.md line 115). -/
theorem test_brk_1 : endsIn
    (ran true 0x0000004D#32 id)
        (fun t => t.epc == 0x1000#32 && t.cause == 0x24#32 && t.status == 0x2#32 && t.pc == 0x80000180#32 && t.excCode
      == 9#5) = true := by decide +kernel

/-- `break 0` with nothing set (spec/96_test_vectors_more.md line 116). -/
theorem test_brk_2 : endsIn
    (ran true 0x0000000D#32 id)
    (fun t => t.cause == 0x24#32 && t.pc == 0x80000180#32 && t.excCode == 9#5) = true := by decide +kernel

/-- `nop` with Status.IE = 1, Status.IM = 0xFF, IRQ = 0x00 (spec/96_test_vectors_more.md line 133). -/
theorem test_nop_1 : endsIn
    (ran true 0x00000000#32 (fun s => { s with irqInput := [0x0#6], status := 0xff01#32 }))
        (fun t => t.cause == 0x0#32 && t.status == 0xff01#32 && t.pc == 0x1004#32 && t.npc == 0x1008#32 && t.ds ==
      false) = true := by decide +kernel

/-- `nop` with Status.IE = 1, Status.IM = 0x01, Cause.IP1:0 = 1, $8 = 0x00000005 (spec/96_test_vectors_more.md line
126). -/
theorem test_nop_2 : endsIn
    (ran true 0x00000000#32 (fun s => { (s.setSoftIp 1#2).writeGpr 8 0x5#32 with status := 0x101#32 }))
        (fun t => t.epc == 0x1000#32 && t.cause == 0x100#32 && t.status == 0x103#32 && t.pc == 0x80000180#32 && t.npc
      == 0x80000184#32 && t.ds == false && t.pc == 0x80000180#32 && t.excCode == 0#5) = true := by decide +kernel

/-! ### Witnesses: states and operands that meet the hypotheses of the statements -/

/-- The starting state with a `Status` and a delay-slot flag. -/
def inState (status : Word) (ds : Bool) : State := { machine true with status := status, ds := ds }

/-- Kernel mode, coprocessor 1 unusable. -/
def kernel : State := inState 0#32 false

/-- User mode. -/
def user : State := inState 0x10#32 false

/-- Kernel mode, coprocessor 1 usable. -/
def withFpu : State := inState 0x20000000#32 false

/-- The effective address of `imm($8)` is `a`. -/
def pointing (s : State) (a : Word) : State := s.writeGpr 8 a

theorem witness_DecodeOfEncode :
    (Instr.add 10 8 9).wf = true ∧ (Instr.sll 0 0 31).wf = true ∧ (Instr.j 0x3FFFFFF).wf = true := by decide

theorem witness_EncodeOfDecode : decode 0x01095020#32 = .ok (.add 10 8 9) ∧ decode 0x00000000#32 = .ok .nop := by
  decide +kernel

theorem witness_BranchLikelyRefused :
    (0x50000000#32).extractLsb' 26 6 = 0x14#6 ∧ (0x5FFFFFFF#32).extractLsb' 26 6 = 0x17#6 ∧
    ((0x04020000#32).extractLsb' 26 6 = 0x01#6 ∧ (0x04020000#32).extractLsb' 16 5 = 0x02#5) ∧
    ((0x04130000#32).extractLsb' 26 6 = 0x01#6 ∧ (0x04130000#32).extractLsb' 16 5 = 0x13#5) ∧
    ((0x45030000#32).extractLsb' 26 6 = 0x11#6 ∧ (0x45030000#32).extractLsb' 21 5 = 0x08#5 ∧
      (0x45030000#32).getLsbD 17 = true) := by decide

theorem witness_OperandConstraints :
    (withFpu.ds = false ∧ withFpu.cu1 = true ∧ withFpu.userMode = false) ∧
    (Instr.clo 10 8 9).operandsOk = false ∧ (Instr.jalr 8 8).operandsOk = false ∧
    (Instr.bgezal 31 0).operandsOk = false ∧ (Instr.mfc0 8 9).operandsOk = false ∧
    (Instr.addD 2 4 1).operandsOk = false := by decide

theorem witness_InvariantKept :
    Inv (machine true) ∧ endsIn (step (machine true)) (fun _ => true) = true ∧
    endsIn (ran true 0x8D090004#32 (pointing · 0x2000#32)) (fun _ => true) = true :=
  ⟨⟨by decide, by decide, by decide, by decide, by decide, by decide, by decide, by decide, by decide, by decide⟩,
    by decide +kernel, by decide +kernel⟩

theorem witness_ParametersKept : endsIn (step (machine false)) (fun t => t.params == (machine false).params) = true :=
  by
  decide +kernel

theorem witness_StepRunsDecoded :
    (∀ s ∈ [placeWord user 0x01095020#32, placeWord { inState 0x401#32 true with pc := 0x11FC#32 } 0x01095020#32],
      interruptPending (sampleIrq s) = false ∧ s.pc.toNat % 4 = 0 ∧ AllowedAddress s s.pc ∧ Backed s s.pc 4 ∧
      (∀ k < 4, s.pc.toNat + k ∉ s.stored) ∧
      decodeBytes s.params.bigEndian ((bytesAt s.pc 4).map (Memory.read s.mem)) = .ok (.add 10 8 9)) := by
  decide +kernel

theorem witness_InterruptTaken :
    (∀ s ∈ [{ inState 0x401#32 false with irqInput := [1#6] }, { inState 0x8011#32 true with irqInput := [0x20#6] },
        { inState 0x101#32 false with cause := 0x100#32 }],
      s.ie = true ∧ s.exl = false ∧
      ∃ k < 8, (sampleIrq s).cause.getLsbD (8 + k) = true ∧ s.status.getLsbD (8 + k) = true) := by decide +kernel

theorem witness_InterruptMasked :
    (inState 0x400#32 false).ie = false ∧ (inState 0x403#32 false).exl = true ∧
    (let s := { inState 0xFB01#32 false with irqInput := [1#6] }
     ∀ k < 8, ¬ ((sampleIrq s).cause.getLsbD (8 + k) = true ∧ s.status.getLsbD (8 + k) = true)) := by decide +kernel

theorem witness_FetchAddressError :
    (∀ s ∈ [{ kernel with pc := 0x1001#32 }, { user with pc := 0x80000000#32 }, { user with pc := 0xFFFFFFFF#32 },
        { inState 0x10#32 true with pc := 0x80000000#32 }],
      interruptPending (sampleIrq s) = false ∧ ¬ (s.pc.toNat % 4 = 0 ∧ AllowedAddress s s.pc) ∧ s.exl = false) ∧
    (let s := { inState 0x12#32 false with pc := 0x1002#32 }
     interruptPending (sampleIrq s) = false ∧ ¬ (s.pc.toNat % 4 = 0 ∧ AllowedAddress s s.pc) ∧ s.exl = true) := by
  decide +kernel

/-- A delay slot at 0x80000000 in user mode: `EPC` and `BadVAddr` are the address itself and `BD` is 0 (R462). -/
theorem test_fetch_error_in_slot : endsIn
    (step { inState 0x10#32 true with pc := 0x80000000#32, cause := 0x80000000#32 })
    (fun t => t.epc == 0x80000000#32 && t.badVAddr == 0x80000000#32 && !t.bd && t.excCode == 4#5 &&
      t.pc == 0x80000180#32 && t.exl) = true := by decide +kernel

theorem witness_FetchStops :
    (let s := { kernel with pc := 0x1200#32 }
     interruptPending (sampleIrq s) = false ∧ s.pc.toNat % 4 = 0 ∧ AllowedAddress s s.pc ∧ ¬ Backed s s.pc 4) ∧
    (let s := { kernel with pc := 0x11FC#32, stored := [0x11FF] }
     interruptPending (sampleIrq s) = false ∧ s.pc.toNat % 4 = 0 ∧ AllowedAddress s s.pc ∧ Backed s s.pc 4 ∧
     ∃ k < 4, s.pc.toNat + k ∈ s.stored) ∧
    (let s := placeWord { kernel with stored := [0x1004] } 0x0000000F#32
     interruptPending (sampleIrq s) = false ∧ s.pc.toNat % 4 = 0 ∧ AllowedAddress s s.pc ∧ Backed s s.pc 4 ∧
     (∀ k < 4, s.pc.toNat + k ∉ s.stored) ∧
     decodeBytes s.params.bigEndian ((bytesAt s.pc 4).map (Memory.read s.mem)) =
       .error (.noSuchInstruction 0x0000000F#32)) := by decide +kernel

theorem witness_ExceptionEntry :
    (kernel.exl = false ∧ kernel.ds = false) ∧
    ((inState 0x10#32 true).exl = false ∧ (inState 0x10#32 true).ds = true) ∧ (inState 2#32 true).exl = true := by
  decide

theorem witness_ExceptionReturn :
    (inState 2#32 true).ds = true ∧ (user.ds = false ∧ user.userMode = true) ∧
    ((inState 0x12#32 false).ds = false ∧ (inState 0x12#32 false).userMode = false) := by decide

theorem witness_EntryThenReturn : user.exl = false ∧ (inState 0x10#32 true).exl = false := by decide

/-- The largest sum that fits, the first that does not, and the same below. -/
theorem witness_OverflowArithmetic :
    (let fits := fun n : Int => -2 ^ 31 ≤ n ∧ n ≤ 2 ^ 31 - 1
     let s := (kernel.writeGpr 8 0x7FFFFFFF#32).writeGpr 9 0x80000000#32
     let t := (kernel.writeGpr 8 0x7FFFFFFF#32).writeGpr 9 1#32
     let u := (kernel.writeGpr 8 0x80000000#32).writeGpr 9 1#32
     fits ((s.readGpr 8).toInt + (0#16).toInt) ∧ ¬ fits ((s.readGpr 8).toInt + (1#16).toInt) ∧
     ¬ fits ((u.readGpr 8).toInt + (0xFFFF#16).toInt) ∧
     fits ((s.readGpr 8).toInt + (s.readGpr 9).toInt) ∧ ¬ fits ((t.readGpr 8).toInt + (t.readGpr 9).toInt) ∧
     fits ((t.readGpr 8).toInt - (t.readGpr 9).toInt) ∧ ¬ fits ((u.readGpr 8).toInt - (u.readGpr 9).toInt) ∧
     ¬ fits ((s.readGpr 8).toInt - (s.readGpr 9).toInt)) := by decide +kernel

theorem witness_LeadingCounts :
    ((10 : Reg) = 10 ∨ (10 : Reg) = 0#5) ∧ ((0 : Reg) = 10 ∨ (0 : Reg) = 0#5) ∧
    ¬ ((9 : Reg) = 10 ∨ (9 : Reg) = 0#5) := by decide

/-- Every clause on the operands, and the two at the boundary: the least dividend and a divisor of -1. -/
theorem witness_Division :
    (let s := (kernel.writeGpr 8 0x80000000#32).writeGpr 9 0xFFFFFFFF#32
     s.readGpr 9 ≠ 0#32 ∧ ((s.readGpr 8).toInt < 0 ∨ (s.readGpr 9).toInt < 0) ∧ s.params.sdivNeg = .recommended) ∧
    (let s := (kernel.writeGpr 8 0x7FFFFFFF#32).writeGpr 9 1#32
     0 ≤ (s.readGpr 8).toInt ∧ 0 < (s.readGpr 9).toInt ∧ s.readGpr 9 ≠ 0#32) ∧
    kernel.readGpr 9 = 0#32 := by decide +kernel

/-- Each condition holds and fails, at 0, -1, 1 and the least number. -/
theorem witness_ConditionalBranches :
    (let s := ((kernel.writeGpr 8 0x80000000#32).writeGpr 9 0xFFFFFFFF#32).writeGpr 10 1#32
     s.ds = false ∧ (inState 0#32 true).ds = true ∧
     s.readGpr 0 = s.readGpr 11 ∧ s.readGpr 8 ≠ s.readGpr 9 ∧
     0 ≤ (s.readGpr 0).toInt ∧ ¬ 0 ≤ (s.readGpr 8).toInt ∧ 0 < (s.readGpr 10).toInt ∧ ¬ 0 < (s.readGpr 0).toInt ∧
     (s.readGpr 0).toInt ≤ 0 ∧ ¬ (s.readGpr 10).toInt ≤ 0 ∧ (s.readGpr 9).toInt < 0 ∧
     ¬ (s.readGpr 0).toInt < 0) := by decide +kernel

theorem witness_FlagBranches :
    (inState 0#32 true).ds = true ∧ (kernel.ds = false ∧ kernel.cu1 = false) ∧
    (withFpu.ds = false ∧ withFpu.cu1 = true ∧ withFpu.readFcc 7 = false ∧
      (withFpu.writeFcc 7 true).readFcc 7 = true) := by decide

theorem witness_LinkBranches :
    (inState 0#32 true).ds = true ∧ kernel.ds = false ∧ (8 : Reg) ≠ 31#5 ∧ (31 : Reg) = 31#5 ∧
    0 ≤ (kernel.readGpr 8).toInt ∧ ((kernel.writeGpr 8 0xFFFFFFFF#32).readGpr 8).toInt < 0 := by decide +kernel

theorem witness_Jumps :
    (inState 0#32 true).ds = true ∧ kernel.ds = false ∧ (8 : Reg) = 8 ∧ (31 : Reg) ≠ 8 ∧ (0 : Reg) ≠ 8 := by decide

/-- Each condition holds and fails: `$8` is -1, `$9` is 1 and `$0` is 0. -/
theorem witness_RegisterTraps :
    (let s := (kernel.writeGpr 8 0xFFFFFFFF#32).writeGpr 9 1#32
     let a := s.readGpr 8
     let b := s.readGpr 9
     a = s.readGpr 8 ∧ a ≠ b ∧ b.toInt ≥ a.toInt ∧ ¬ a.toInt ≥ b.toInt ∧ a.toNat ≥ b.toNat ∧ ¬ b.toNat ≥ a.toNat ∧
     a.toInt < b.toInt ∧ ¬ b.toInt < a.toInt ∧ b.toNat < a.toNat ∧ ¬ a.toNat < b.toNat) := by decide +kernel

/-- Each condition holds and fails: the register is -1 and the immediates are -1, 0 and 1. -/
theorem witness_ImmediateTraps :
    (let a := (kernel.writeGpr 8 0xFFFFFFFF#32).readGpr 8
     a.toInt = (0xFFFF#16).toInt ∧ a.toInt ≠ (0#16).toInt ∧ a.toInt ≥ (0xFFFF#16).toInt ∧ ¬ a.toInt ≥ (0#16).toInt ∧
     (a.toNat : Int) ≥ (0xFFFF#16).toInt % 2 ^ 32 ∧ ¬ (0 : Int) ≥ (1#16).toInt % 2 ^ 32 ∧
     a.toInt < (0#16).toInt ∧ ¬ a.toInt < (0xFFFF#16).toInt ∧ (1 : Int) < (0xFFFF#16).toInt % 2 ^ 32 ∧
     ¬ (a.toNat : Int) < (0xFFFF#16).toInt % 2 ^ 32) := by decide +kernel

/-- The three clauses of an access: raised (misaligned, and the first kernel address in user mode), stopped (just past
the memory, and a doubleword half in it), and done (the last byte, halfword, word and doubleword of the memory). -/
theorem witness_accesses :
    ¬ ((0x2001#32).toNat % 2 = 0 ∧ AllowedAddress kernel 0x2001#32) ∧
    ¬ ((0x80000000#32).toNat % 1 = 0 ∧ AllowedAddress user 0x80000000#32) ∧
    ((0x2040#32).toNat % 4 = 0 ∧ AllowedAddress kernel 0x2040#32 ∧ ¬ Backed kernel 0x2040#32 4) ∧
    ((0x2040#32).toNat % 1 = 0 ∧ AllowedAddress user 0x2040#32 ∧ ¬ Backed user 0x2040#32 1) ∧
    (pointing user 0x2040#32).readGpr 8 + (0xFFFF#16).signExtend 32 = 0x203F#32 ∧
    (∀ p ∈ [(0x203F#32, 1), (0x203E#32, 2), (0x203C#32, 4), (0x2038#32, 8)],
      p.1.toNat % p.2 = 0 ∧ AllowedAddress user p.1 ∧ Backed user p.1 p.2) := by decide +kernel

/-- The hypotheses of Loads and Stores are those of `witness_accesses`, for these instructions. -/
theorem witness_Loads :
    endsIn (exec (.lw 9 8 4) (pointing user 0x2038#32)) (fun t => t.pc == user.npc) = true ∧
    endsIn (exec (.lb 9 8 0) (pointing user 0x80000000#32)) (fun t => t.excCode == 4#5) = true := by decide +kernel

theorem witness_Stores :
    endsIn (exec (.sh 9 8 0xFFFF) (pointing user 0x203F#32)) (fun t => t.pc == user.npc) = true ∧
    endsIn (exec (.sw 9 8 0) (pointing kernel 0x2002#32)) (fun t => t.excCode == 5#5) = true := by decide +kernel

/-- The three clauses of an unaligned access, at each place in a word. -/
theorem witness_UnalignedLoads :
    ¬ AllowedAddress user 0x80000001#32 ∧ AllowedAddress kernel 0x2040#32 ∧
    (unalignedAddrs true true 0x2040#32).all (inRegions kernel.params) = false ∧
    ([0x203C#32, 0x203D#32, 0x203E#32, 0x203F#32] : List Word).all (fun a =>
      [true, false].all fun left => [true, false].all fun be =>
        !a.msb && (unalignedAddrs be left a).all (inRegions user.params)) = true := by decide +kernel

theorem witness_UnalignedStores :
    endsIn (exec (.swl 9 8 0) (pointing user 0x203D#32)) (fun t => t.pc == user.npc) = true ∧
    endsIn (exec (.swr 9 8 0) (pointing user 0x80000001#32)) (fun t => t.excCode == 5#5) = true := by decide +kernel

theorem witness_StoreConditional :
    (let linked := { kernel with llbit := true, lladdr := 0x203C#32 }
     let past := { kernel with llbit := true, lladdr := 0x2040#32 }
     let spurious := fun s : State => { s with params := { s.params with scSpuriousFail := true } }
     let allowed := fun (s : State) (a : Word) => a.toNat % 4 = 0 ∧ AllowedAddress s a
     (¬ ((0x2001#32).toNat % 4 = 0 ∧ AllowedAddress kernel 0x2001#32)) ∧
     (allowed linked 0x2038#32 ∧ linked.llbit = true ∧ linked.lladdr ≠ 0x2038#32) ∧
     (allowed kernel 0x203C#32 ∧ kernel.llbit = false) ∧
     (allowed linked 0x203C#32 ∧ linked.llbit = true ∧ linked.lladdr = 0x203C#32 ∧
       linked.params.scSpuriousFail = false ∧ Backed linked 0x203C#32 4) ∧
     (allowed past 0x2040#32 ∧ past.llbit = true ∧ past.lladdr = 0x2040#32 ∧
       past.params.scSpuriousFail = false ∧ ¬ Backed past 0x2040#32 4) ∧
     (allowed (spurious linked) 0x203C#32 ∧ (spurious linked).params.scSpuriousFail = true ∧
       Backed (spurious linked) 0x203C#32 4) ∧
     (allowed (spurious past) 0x2040#32 ∧ (spurious past).params.scSpuriousFail = true ∧
       ¬ Backed (spurious past) 0x2040#32 4)) := by decide +kernel

theorem witness_FloatingLoadsAndStores :
    kernel.cu1 = false ∧ withFpu.cu1 = true ∧ (∃ r ∈ [(31 : FReg)], r.toNat % 2 = 1) ∧
    (∀ r ∈ [(30 : FReg)], r.toNat % 2 = 0) ∧
    ¬ ((0x2004#32).toNat % 8 = 0 ∧ AllowedAddress withFpu 0x2004#32) ∧
    ((0x2040#32).toNat % 8 = 0 ∧ AllowedAddress withFpu 0x2040#32 ∧ ¬ Backed withFpu 0x2040#32 8) ∧
    ((0x2038#32).toNat % 8 = 0 ∧ AllowedAddress withFpu 0x2038#32 ∧ Backed withFpu 0x2038#32 8) := by decide +kernel

theorem witness_StoreThenLoad :
    (let s := pointing user 0x203C#32
     (s.readGpr 8 + (0#16).signExtend 32).toNat % 4 = 0 ∧ AllowedAddress s 0x203C#32 ∧ Backed s 0x203C#32 4 ∧
     endsIn (exec (.sw 9 8 0) s) (fun _ => true) = true) := by decide +kernel

/-- A store over the last word of the code, and the step at it. -/
theorem witness_StoredCodeRefused :
    (let s := pointing user 0x11FC#32
     (s.readGpr 8 + (0#16).signExtend 32).toNat % 4 = 0 ∧ AllowedAddress s 0x11FC#32 ∧ Backed s 0x11FC#32 4 ∧
     endsIn (exec (.sw 9 8 0) s) (fun t => !interruptPending (sampleIrq { t with pc := 0x11FC#32 })) = true) := by
  decide +kernel

theorem witness_CanonicalMemory :
    Memory.wf (machine true).mem ∧ Memory.wf [(0, 1#8), (0xFFFFFFFF, 0xFF#8)] ∧ ¬ Memory.wf [(0, 0#8)] ∧
    ¬ Memory.wf [(1, 1#8), (0, 1#8)] := by decide

theorem witness_PlainMoves :
    kernel.readGpr 9 = 0#32 ∧ (kernel.writeGpr 9 0x80000000#32).readGpr 9 ≠ 0#32 := by decide +kernel

theorem witness_Cp0Reads :
    user.userMode = true ∧ kernel.userMode = false ∧ (inState 0x12#32 false).userMode = false ∧
    (9 : BitVec 5) ∉ [8#5, 12#5, 13#5, 14#5] ∧ (15 : BitVec 5) ∉ [8#5, 12#5, 13#5, 14#5] := by decide

/-- All implemented bits of `Status` at once, the bits next to them, and the two bits of `Cause`. -/
theorem witness_Cp0Writes :
    user.userMode = true ∧ kernel.userMode = false ∧
    (0x2000FF13#32) &&& 0xDFFF00EC#32 = 0#32 ∧ (0x00000004#32) &&& 0xDFFF00EC#32 ≠ 0#32 ∧
    (0x00400000#32).getLsbD 22 = true ∧ (0x00800000#32).getLsbD 23 = true ∧
    ((0xFF3FFFFF#32).getLsbD 23 = false ∧ (0xFF3FFFFF#32).getLsbD 22 = false) := by decide

theorem witness_Cp1Moves :
    kernel.cu1 = false ∧ withFpu.cu1 = true ∧ withFpu.readFcc 7 = false ∧
    (withFpu.writeFcc 7 true).readFcc 7 = true := by decide

theorem witness_Coprocessor1Unusable :
    (usesCp1 (.addD 1 2 4) = true ∧ kernel.cu1 = false ∧ isTransfer (.addD 1 2 4) = false) ∧
    (usesCp1 (.bc1t 7 0) = true ∧ user.cu1 = false ∧ user.ds = false) := by decide

/-- Coprocessor 1 unusable and usable. -/
theorem witness_SingleArithmetic : kernel.cu1 = false ∧ withFpu.cu1 = true := by decide

/-- An odd register in each place, the last register among them, and even ones. -/
theorem witness_DoubleArithmetic :
    kernel.cu1 = false ∧ withFpu.cu1 = true ∧ (∃ r ∈ [(1 : FReg), 2, 4], r.toNat % 2 = 1) ∧
    (∃ r ∈ [(2 : FReg), 31, 4], r.toNat % 2 = 1) ∧ (∃ r ∈ [(2 : FReg), 4, 5], r.toNat % 2 = 1) ∧
    (∀ r ∈ [(0 : FReg), 2, 30], r.toNat % 2 = 0) := by decide

theorem witness_ConversionsToInteger :
    kernel.cu1 = false ∧ withFpu.cu1 = true ∧ (∃ r ∈ [(31 : FReg)], r.toNat % 2 = 1) ∧
    (∀ r ∈ [(30 : FReg)], r.toNat % 2 = 0) := by decide

theorem witness_ConversionsToFloat :
    user.cu1 = false ∧ withFpu.cu1 = true ∧ (∃ r ∈ [(1 : FReg)], r.toNat % 2 = 1) ∧
    (∀ r ∈ [(0 : FReg)], r.toNat % 2 = 0) := by decide

theorem witness_Comparisons :
    kernel.cu1 = false ∧ withFpu.cu1 = true ∧ (∃ r ∈ [(1 : FReg), 2], r.toNat % 2 = 1) ∧
    (∃ r ∈ [(2 : FReg), 31], r.toNat % 2 = 1) ∧ (∀ r ∈ [(0 : FReg), 30], r.toNat % 2 = 0) := by decide

/-- Also each condition, held and failed. -/
theorem witness_FloatingMoves :
    kernel.cu1 = false ∧ withFpu.cu1 = true ∧ (∃ r ∈ [(1 : FReg), 2], r.toNat % 2 = 1) ∧
    (∃ r ∈ [(2 : FReg), 31], r.toNat % 2 = 1) ∧ (∀ r ∈ [(0 : FReg), 30], r.toNat % 2 = 0) ∧
    withFpu.readFcc 0 = false ∧ (withFpu.writeFcc 7 true).readFcc 7 = true ∧ withFpu.readGpr 9 = 0#32 ∧
    (withFpu.writeGpr 9 0x80000000#32).readGpr 9 ≠ 0#32 := by decide +kernel

/-- The least and the largest pattern of a NaN, an infinity, and the largest number. -/
theorem witness_RecommendedFpu :
    0x7F800000 < (0x7F800001#32).toNat % 2 ^ 31 ∧ 0x7F800000 < (0xFFFFFFFF#32).toNat % 2 ^ 31 ∧
    ¬ 0x7F800000 < (0xFF800000#32).toNat % 2 ^ 31 ∧ (0x7F800000#32).toNat % 2 ^ 31 ≥ 0x7F800000 ∧
    0x7FF0000000000000 < (0x7FF0000000000001#64).toNat % 2 ^ 63 ∧
    (0xFFF0000000000000#64).toNat % 2 ^ 63 ≥ 0x7FF0000000000000 := by decide

theorem witness_WaysToEnd :
    endsIn (exec (.addu 10 8 9) kernel) (fun t => t.pc == kernel.npc) = true ∧
    endsIn (exec (.beq 0 0 1) kernel) (fun t => t.ds) = true ∧
    endsIn (exec .eret kernel) (fun t => t.pc == kernel.epc) = true ∧
    endsIn (exec (.syscall 0) kernel) (fun t => t.exl) = true := by decide +kernel

/-- A store in user mode to the last word that it may write, and a `syscall` that leaves it. -/
theorem witness_UserModeWrites :
    (let s := { pointing user 0x7FFFFFFC#32 with params := Config.defaultParams }
     s.userMode = true ∧ endsIn (step (placeWord s 0xAD080000#32)) (fun t => t.stored == [0x7FFFFFFC, 0x7FFFFFFD,
       0x7FFFFFFE, 0x7FFFFFFF]) = true) := by decide +kernel

theorem witness_UserModeLeft :
    user.userMode = true ∧ endsIn (step (placeWord user 0x0000000C#32)) (fun t => !t.userMode) = true ∧
    endsIn (step user) (fun t => t.userMode) = true := by decide +kernel

theorem witness_UserModeReads :
    (let t := { user with mem := user.mem ++ [(0x80000000, 1#8)] }
     user.userMode = true ∧ t ≠ user ∧ t = { user with mem := t.mem } ∧
     (user.mem.filter fun c => decide (c.1 < 2 ^ 31)) = t.mem.filter fun c => decide (c.1 < 2 ^ 31)) := by
  decide +kernel

end Sys2Proof.Tests
end

section
/-! PROOFS. Every state that an instruction can end in, said once: an inversion of `exec`, guards included, from which
the facts about all instructions follow. -/

namespace Sys2Proof.Machine

/-! ### What an instruction can end in -/

/-- Addresses that a store may write to: backed by memory (R61), and below 0x80000000 in user mode (R67). -/
def Writable (s : State) (addrs : List Nat) : Prop :=
  ∀ x ∈ addrs, x < 2 ^ 32 ∧ inRegions s.params x = true ∧ (s.userMode = true → x < 2 ^ 31)

/-- Neither a branch, nor a jump, nor `eret`: an instruction that completes by `advance`. -/
def isStraight : Instr → Bool
  | .eret => false
  | i => !isTransfer i

/-- What an instruction that advances has written before it does. -/
inductive Effect (s : State) : State → Prop
  | nothing : Effect s s
  | gpr (r : Reg) (v : Word) : Effect s (s.writeGpr r v)
  | fpr (r : FReg) (v : Word) : Effect s (s.writeFpr r v)
  | double (r : FReg) (v : Dword) : Effect s (s.writeDouble r v)
  | fcc (c : CC) (b : Bool) : Effect s (s.writeFcc c b)
  | hiLo (hi lo : Word) (draws : Nat) : Effect s { s with hi := hi, lo := lo, draws := draws }
  | gprForgetHiLo (r : Reg) (v : Word) : Effect s (s.forgetHiLo.writeGpr r v)
  | status (v : Word) (kernel : s.userMode = false) (implemented : v &&& statusUnimplemented = 0#32) :
      Effect s { s with status := v }
  | softIp (v : BitVec 2) (kernel : s.userMode = false) : Effect s (s.setSoftIp v)
  | epc (v : Word) (kernel : s.userMode = false) : Effect s { s with epc := v }
  | link (r : Reg) (v a : Word) (aligned : a.toNat % 4 = 0) :
      Effect s ({ s with llbit := true, lladdr := a }.writeGpr r v)
  | store (cells : List Host.Cell) (writable : Writable s (cells.map Prod.fst)) : Effect s (s.store cells)
  | conditionalStore (cells : List Host.Cell) (r : Reg) (v : Word) (draws : Nat)
      (writable : Writable s (cells.map Prod.fst)) :
      Effect s ({ s.store cells with llbit := false, draws := draws }.writeGpr r v)

/-- The next states of an instruction: an exception entry, the return from one, a branch with or without a link, or an
effect followed by `advance`. -/
inductive ExecEnds (i : Instr) (s : State) : State → Prop
  | raised (e : Exc) (ce : ∀ n, e = .cpU n → n = 0#2 ∨ n = 1#2) : ExecEnds i s (enterException e s)
  | returned (isEret : i = .eret) (outside : s.ds = false) (kernel : s.userMode = false) :
      ExecEnds i s (returnFromException s)
  | branched (transfer : isTransfer i = true) (outside : s.ds = false) (taken : Bool) (target : Word) :
      ExecEnds i s (s.branchIf taken target)
  | linked (transfer : isTransfer i = true) (outside : s.ds = false) (r : Reg) (v : Word) (taken : Bool)
      (target : Word) : ExecEnds i s ((s.writeGpr r v).branchIf taken target)
  | advanced (straight : isStraight i = true) {u : State} (effect : Effect s u) : ExecEnds i s u.advance

/-- A result that, when it is a next state, is one that `ExecEnds` lists. -/
def OnlyEnds (i : Instr) (s : State) (r : Result) : Prop := ∀ t, r = .next t → ExecEnds i s t

theorem isStraight_iff {i : Instr} : isStraight i = true ↔ isTransfer i = false ∧ i ≠ .eret := by
  unfold isStraight
  split
  · simp
  · simpa using fun _ => ‹i ≠ .eret›

/-! ### The addresses of the checked stores -/

theorem writable_nil (s : State) : Writable s [] := fun _ hx => absurd hx List.not_mem_nil

/-- An aligned access that starts below 0x80000000 ends below it. -/
theorem bytesAt_lt_of_aligned {a : Word} {n x : Nat} (hn : n ∣ 2 ^ 31) (ha : a.toNat % n = 0) (hlt : a.toNat < 2 ^ 31)
    (hx : x ∈ bytesAt a n) : x < 2 ^ 31 := by
  obtain ⟨i, hi, rfl⟩ := List.mem_map.mp hx
  obtain ⟨c, hc⟩ := hn
  obtain ⟨d, hd⟩ := Nat.dvd_of_mod_eq_zero ha
  have hdc : d < c := Nat.lt_of_mul_lt_mul_left (a := n) (by omega)
  have hle : n * (d + 1) ≤ n * c := Nat.mul_le_mul_left n hdc
  have hin : i < n := List.mem_range.mp hi
  rw [Nat.mul_succ] at hle
  omega

/-- An unaligned access stays inside the aligned word of its address (R317). -/
theorem unalignedAddrs_div {be left : Bool} {a : Word} {x : Nat} (hx : x ∈ unalignedAddrs be left a) :
    x / 4 = a.toNat / 4 := by
  obtain ⟨i, hi, rfl⟩ := List.mem_map.mp hx
  have ha := a.isLt
  simp only [List.mem_range, unalignedCount, wordOffset] at hi
  by_cases up : goesUp be left = true
  · rw [if_pos up] at hi
    rw [unalignedAddr, if_pos up, BitVec.toNat_add, BitVec.toNat_ofNat]
    omega
  · rw [if_neg up] at hi
    rw [unalignedAddr, if_neg up, BitVec.toNat_sub, BitVec.toNat_ofNat]
    omega

theorem writable_addrsFrom {s : State} {a : Word} {n : Nat} (hn : n ∣ 2 ^ 31) (ha : a.toNat % n = 0)
    (hm : AllowedAddress s a) (hb : ∀ x ∈ addrsFrom a n, inRegions s.params x = true) :
    Writable s (addrsFrom a n) := fun x hx => by
  refine ⟨addrsFrom_lt hx, hb x hx, fun hu => ?_⟩
  rw [addrsFrom_aligned (hn.trans (by decide)) ha (le_refl n)] at hx
  exact bytesAt_lt_of_aligned hn ha (hm hu) hx

theorem writable_unalignedAddrs {s : State} {be left : Bool} {a : Word} (hm : AllowedAddress s a)
    (hb : ∀ x ∈ unalignedAddrs be left a, inRegions s.params x = true) :
    Writable s (unalignedAddrs be left a) := fun x hx => by
  refine ⟨unalignedAddrs_lt hx, hb x hx, fun hu => ?_⟩
  have hdiv := unalignedAddrs_div hx
  have hlt := hm hu
  omega

/-! ### The shared operations: one rule each -/

namespace OnlyEnds

variable {i : Instr} {s : State} {k : Result}

theorem refused (r : Refusal) : OnlyEnds i s (.refused r) := fun _ h => by cases h

theorem raise {e : Exc} (ce : ∀ n, e = .cpU n → n = 0#2 ∨ n = 1#2) : OnlyEnds i s (raise e s) := fun t h => by
  rw [raise_next.mp h]
  exact .raised e ce

theorem advance (hi : isStraight i = true) {u : State} (hu : Effect s u) : OnlyEnds i s (.next u.advance) :=
  fun t h => by
    cases h
    exact .advanced hi hu

theorem ite {c : Prop} [Decidable c] {k' : Result} (hk : c → OnlyEnds i s k) (hk' : ¬ c → OnlyEnds i s k') :
    OnlyEnds i s (if c then k else k') := by
  split
  · exact hk ‹_›
  · exact hk' ‹_›

theorem outsideDelaySlot (hk : s.ds = false → OnlyEnds i s k) : OnlyEnds i s (outsideDelaySlot s k) := fun t h => by
  obtain ⟨hds, h⟩ := outsideDelaySlot_next.mp h
  exact hk hds t h

theorem withCp1 (hk : OnlyEnds i s k) : OnlyEnds i s (withCp1 s k) := fun t h => by
  obtain ⟨-, h⟩ | ⟨-, rfl⟩ := withCp1_next.mp h
  · exact hk t h
  · exact .raised _ fun n hn => by cases hn; exact .inr rfl

theorem withCp0 (hk : s.userMode = false → OnlyEnds i s k) : OnlyEnds i s (withCp0 s k) := fun t h => by
  obtain ⟨hu, h⟩ | ⟨-, rfl⟩ := withCp0_next.mp h
  · exact hk hu t h
  · exact .raised _ fun n hn => by cases hn; exact .inl rfl

theorem withEven {r : FReg} (hk : OnlyEnds i s k) : OnlyEnds i s (withEven r k) := fun t h =>
  hk t (withEven_next.mp h).2

theorem checkedAccess {e : Exc} {a : Word} {n : Nat} {touched : List Nat} (ce : ∀ m, e ≠ .cpU m)
    (hk : a.toNat % n = 0 → AllowedAddress s a → (∀ x ∈ touched, inRegions s.params x = true) → OnlyEnds i s k) :
    OnlyEnds i s (checkedAccess e a n touched s k) := fun t h => by
  obtain ⟨-, rfl⟩ | ⟨hn, hm, hb, h⟩ := checkedAccess_next.mp h
  · exact .raised e fun n hn => absurd hn (ce n)
  · exact hk hn (allowed_iff.mpr hm) hb t h

theorem checkedLoad {a : Word} {n : Nat} (hk : a.toNat % n = 0 → OnlyEnds i s k) :
    OnlyEnds i s (checkedLoad a n s k) :=
  checkedAccess nofun fun hn _ _ => hk hn

theorem checkedStore {a : Word} {n : Nat} (hn : n ∣ 2 ^ 31) (hk : Writable s (addrsFrom a n) → OnlyEnds i s k) :
    OnlyEnds i s (checkedStore a n s k) :=
  checkedAccess nofun fun ha hm hb => hk (writable_addrsFrom hn ha hm hb)

theorem storeCells (hi : isStraight i = true) {cells : List Host.Cell} {addrs : List Nat}
    (hc : cells.map Prod.fst = addrs) (hw : Writable s addrs) : OnlyEnds i s (storeCells cells s) :=
  advance hi (.store cells (hc ▸ hw))

theorem setGprOrOverflow (hi : isStraight i = true) {r : Reg} {v : BitVec 33} :
    OnlyEnds i s (setGprOrOverflow r v s) :=
  ite (fun _ => raise nofun) fun _ => advance hi (.gpr ..)

theorem trapIf (hi : isStraight i = true) {c : Bool} : OnlyEnds i s (trapIf c s) :=
  ite (fun _ => raise nofun) fun _ => advance hi .nothing

/-- A branch or a jump without a link. -/
theorem branch (hi : isTransfer i = true) (hd : s.ds = false) {c : Bool} {target : Word} :
    OnlyEnds i s (.next (s.branchIf c target)) := fun t h => by
  cases h
  exact .branched hi hd c target

/-- A branch or a jump with a link. -/
theorem branchAndLink (hi : isTransfer i = true) (hd : s.ds = false) {r : Reg} {v : Word} {c : Bool} {target : Word} :
    OnlyEnds i s (.next ((s.writeGpr r v).branchIf c target)) := fun t h => by
  cases h
  exact .linked hi hd r v c target

/-- The end of `sc`, with the bytes it has stored, if any. -/
theorem scEnd (hi : isStraight i = true) {cells : List Host.Cell} {r : Reg} {v : Word}
    (hw : Writable s (cells.map Prod.fst)) : OnlyEnds i s (scEnd r v (s.store cells)) :=
  advance hi (.conditionalStore cells r v _ hw)

end OnlyEnds

/-! ### The instructions with a meaning of their own shape -/

section
variable {i : Instr} {s : State}

theorem execDiv_ends (hi : isStraight i = true) {rs rt : Reg} : OnlyEnds i s (execDiv rs rt s) :=
  .ite (fun _ => .advance hi (.hiLo ..)) fun _ =>
    .ite (fun _ => .advance hi (.hiLo ..)) fun _ => .advance hi (.hiLo ..)

theorem execMfc0_ends (hi : isStraight i = true) {rt : Reg} {rd : BitVec 5} : OnlyEnds i s (execMfc0 rt rd s) :=
  .withCp0 fun _ => by
    split
    case h_1 | h_2 | h_3 | h_4 => exact .advance hi (.gpr ..)
    case h_5 => exact .refused _

theorem execMtc0_ends (hi : isStraight i = true) {rt : Reg} {rd : BitVec 5} : OnlyEnds i s (execMtc0 rt rd s) :=
  .withCp0 fun kernel => by
    dsimp only
    split
    · exact .advance hi .nothing
    · exact .ite (fun _ => .refused _) fun h => .advance hi (.status _ kernel (not_not.mp h))
    · exact .ite (fun _ => .refused _) fun _ => .advance hi (.softIp _ kernel)
    · exact .advance hi (.epc _ kernel)
    · exact .refused _

theorem execSc_ends (hi : isStraight i = true) {rt rs : Reg} {imm : Half} : OnlyEnds i s (execSc rt rs imm s) :=
  .ite (fun _ => .raise nofun) fun _ =>
  .ite (fun _ => .raise nofun) fun _ =>
  .ite (fun _ => .refused _) fun _ =>
  .ite (fun _ => .checkedStore (by decide) fun hw => .scEnd hi (wordCells_fst .. ▸ hw))
    fun _ => .scEnd (cells := []) hi (writable_nil s)

end

/-! ### Every instruction -/

/-- The inversion of `exec`: a completed instruction has ended in one of the ways of `ExecEnds`. -/
theorem exec_ends (i : Instr) (s : State) : OnlyEnds i s (exec i s) := by
  cases i
  case add | addi | sub => exact .setGprOrOverflow rfl
  case addu | addiu | and | andi | nor | or | ori | sll | sllv | sra | srav | srl | srlv | subu | xor | xori
      | lui | slt | sltu | slti | sltiu | mfhi | mflo =>
    exact .advance rfl (.gpr ..)
  case clo | clz => exact .ite (fun _ => .advance rfl (.gpr ..)) fun _ => .refused _
  case div => exact execDiv_ends rfl
  case divu => exact .ite (fun _ => .advance rfl (.hiLo ..)) fun _ => .advance rfl (.hiLo ..)
  case mult | multu | madd | maddu | msub | msubu | mthi | mtlo => exact .advance rfl (.hiLo ..)
  case mul => exact .advance rfl (.gprForgetHiLo ..)
  case bc1f | bc1t => exact .outsideDelaySlot fun hd => .withCp1 (.branch rfl hd)
  case beq | bgez | bgtz | blez | bltz | bne => exact .outsideDelaySlot fun hd => .branch rfl hd
  case bgezal | bltzal =>
    exact .outsideDelaySlot fun hd => .ite (fun _ => .refused _) fun _ => .branchAndLink rfl hd
  case j | jr => exact .outsideDelaySlot fun hd => .branch (c := true) rfl hd
  case jal => exact .outsideDelaySlot fun hd => .branchAndLink (c := true) rfl hd
  case jalr =>
    exact .outsideDelaySlot fun hd => .ite (fun _ => .refused _) fun _ => .branchAndLink (c := true) rfl hd
  case teq | teqi | tne | tnei | tge | tgeu | tgei | tgeiu | tlt | tltu | tlti | tltiu => exact .trapIf rfl
  case lb | lbu | lh | lhu | lw => exact .checkedLoad fun _ => .advance rfl (.gpr ..)
  case lwl | lwr => exact .checkedAccess nofun fun _ _ _ => .advance rfl (.gpr ..)
  case lwc1 => exact .withCp1 (.checkedLoad fun _ => .advance rfl (.fpr ..))
  case ldc1 => exact .withCp1 (.withEven (.checkedLoad fun _ => .advance rfl (.double ..)))
  case ll => exact .checkedLoad fun ha => .advance rfl (.link _ _ _ ha)
  case sb => exact .checkedStore (by decide) fun hw => .storeCells rfl (byteCells_fst ..) hw
  case sh => exact .checkedStore (by decide) fun hw => .storeCells rfl (halfCells_fst ..) hw
  case sw => exact .checkedStore (by decide) fun hw => .storeCells rfl (wordCells_fst ..) hw
  case swc1 => exact .withCp1 (.checkedStore (by decide) fun hw => .storeCells rfl (wordCells_fst ..) hw)
  case sdc1 =>
    exact .withCp1 (.withEven (.checkedStore (by decide) fun hw => .storeCells rfl (dwordCells_fst ..) hw))
  case swl | swr =>
    exact .checkedAccess nofun fun _ hm hb =>
      .storeCells rfl (unalignedCells_fst ..) (writable_unalignedAddrs hm hb)
  case sc => exact execSc_ends rfl
  case mfc0 => exact execMfc0_ends rfl
  case mtc0 => exact execMtc0_ends rfl
  case mfc1 => exact .withCp1 (.advance rfl (.gpr ..))
  case mtc1 => exact .withCp1 (.advance rfl (.fpr ..))
  case movn | movz => exact .ite (fun _ => .advance rfl (.gpr ..)) fun _ => .advance rfl .nothing
  case movf => exact .withCp1 (.ite (fun _ => .advance rfl .nothing) fun _ => .advance rfl (.gpr ..))
  case movt => exact .withCp1 (.ite (fun _ => .advance rfl (.gpr ..)) fun _ => .advance rfl .nothing)
  case absS | addS | subS | mulS | divS | sqrtS | negS | movS | cvtSW | cvtWS | ceilWS | floorWS | roundWS
      | truncWS =>
    exact .withCp1 (.advance rfl (.fpr ..))
  case cvtSD | cvtWD | ceilWD | floorWD | roundWD | truncWD => exact .withCp1 (.withEven (.advance rfl (.fpr ..)))
  case cvtDS | cvtDW => exact .withCp1 (.withEven (.advance rfl (.double ..)))
  case absD | sqrtD | negD | movD => exact .withCp1 (.withEven (.withEven (.advance rfl (.double ..))))
  case addD | subD | mulD | divD => exact .withCp1 (.withEven (.withEven (.withEven (.advance rfl (.double ..)))))
  case cEqS | cLeS | cLtS => exact .withCp1 (.advance rfl (.fcc ..))
  case cEqD | cLeD | cLtD => exact .withCp1 (.withEven (.withEven (.advance rfl (.fcc ..))))
  case movfS | movtS | movnS | movzS =>
    exact .withCp1 (.ite (fun _ => .advance rfl (.fpr ..)) fun _ => .advance rfl .nothing)
  case movfD | movtD | movnD | movzD =>
    exact .withCp1 (.withEven (.withEven
      (.ite (fun _ => .advance rfl (.double ..)) fun _ => .advance rfl .nothing)))
  case eret =>
    refine .outsideDelaySlot fun hd => .withCp0 fun kernel t h => ?_
    cases h
    exact .returned rfl hd kernel
  case syscall | brk => exact .raise nofun
  case nop => exact .advance rfl .nothing

end Sys2Proof.Machine
end

section
/-! PROOFS. The statements of 00_scope.md: the arguments of the run. -/

namespace Sys2Proof.Machine

/-- No effect of an advancing instruction reaches the arguments of the run (R5). -/
theorem Effect.params_eq {s u : State} (h : Effect s u) : u.params = s.params := by
  cases h <;> simp

theorem ExecEnds.params_eq {i : Instr} {s t : State} (h : ExecEnds i s t) : t.params = s.params := by
  cases h with
  | raised e => exact enterException_params s e
  | returned => exact returnFromException_params s
  | branched _ _ taken target => exact State.branchIf_params s taken target
  | linked _ _ r v taken target => simp
  | advanced _ effect => simpa using effect.params_eq

/-- Settles O9: each of the three kinds of step (interrupt, fetch error, instruction) starts from the sampled state and
keeps its arguments. -/
theorem parametersKept : Obligations.ParametersKept := by
  intro s t h
  obtain ⟨-, rfl⟩ | ⟨-, ⟨-, rfl⟩ | ⟨-, i, -, hexec⟩⟩ := step_next.mp h
  · simp
  · simp
  · calc t.params = (sampleIrq s).params := (exec_ends i _ t hexec).params_eq
      _ = s.params := sampleIrq_params s

end Sys2Proof.Machine
end

section
/-! PROOFS. The statements of 10_state.md: memory in canonical form, the ways in which an instruction ends, and the
invariant. -/

namespace Sys2Proof.Machine

/-! ### Memory in canonical form (R42, R60) -/

/-- An address that memory does not list reads as unlisted. -/
theorem Memory.read_of_not_mem {m : Memory} {a : Nat} (h : a ∉ m.map Prod.fst) :
    Memory.read m a = Memory.unlisted := by
  induction m with
  | nil => rfl
  | cons c rest ih =>
    rw [List.map_cons, List.mem_cons, not_or] at h
    rw [Memory.read_cons, if_neg h.1, ih h.2]

/-- An entry reads as its byte: an earlier entry is at a smaller address. -/
theorem Memory.read_of_mem {m : Memory} (hm : m.Pairwise fun c d => c.1 < d.1) {c : Host.Cell} (h : c ∈ m) :
    Memory.read m c.1 = c.2 := by
  induction hm with
  | nil => cases h
  | @cons d rest hd _ ih =>
    rw [Memory.read_cons]
    obtain rfl | hc := List.mem_cons.mp h
    · exact if_pos rfl
    · rw [if_neg (hd c hc).ne', ih hc]

/-- In canonical form the entries are what the reads say: each address that does not read as unlisted, with its byte. -/
theorem Memory.mem_iff_read {m : Memory} (hm : Memory.wf m) (c : Host.Cell) :
    c ∈ m ↔ Memory.read m c.1 = c.2 ∧ c.2 ≠ Memory.unlisted := by
  obtain ⟨sorted, entries⟩ := hm
  refine ⟨fun h => ⟨Memory.read_of_mem sorted h, (entries c h).2⟩, fun ⟨hr, hne⟩ => ?_⟩
  have listed : c.1 ∈ m.map Prod.fst := by
    by_contra h
    exact hne (hr.symm.trans (Memory.read_of_not_mem h))
  obtain ⟨d, hd, hdc⟩ := List.mem_map.mp listed
  have hbyte : d.2 = c.2 := by rw [← hr, ← hdc, Memory.read_of_mem sorted hd]
  rwa [Prod.ext hdc hbyte] at hd

/-- Settles O43: the reads fix the entries, and the rising addresses fix their order. -/
theorem canonicalMemory : Obligations.CanonicalMemory := by
  intro m n hm hn h
  have entries (c : Host.Cell) : c ∈ m ↔ c ∈ n := by
    rw [Memory.mem_iff_read hm, Memory.mem_iff_read hn, h]
  exact List.Pairwise.eq_of_mem_iff (r := InvImage (· < ·) Prod.fst) hm.1 hn.1 entries

/-! ### The ways in which an instruction ends (R473) -/

/-- What an advancing instruction writes does not reach `npc`. -/
theorem Effect.npc_eq {s u : State} (h : Effect s u) : u.npc = s.npc := by
  cases h <;> simp

/-- Settles O57: the cases of `ExecEnds`, the branches with and without a link together. -/
theorem waysToEnd : Obligations.WaysToEnd := by
  intro i s t h
  cases exec_ends i s t h with
  | raised e => exact .inr (.inr (.inr ⟨e, rfl⟩))
  | returned isEret outside => exact .inr (.inr (.inl ⟨isEret, outside, rfl⟩))
  | branched transfer outside taken target =>
    exact .inr (.inl ⟨transfer, outside, State.branchIf_pc .., State.branchIf_ds ..⟩)
  | linked transfer outside r v taken target =>
    exact .inr (.inl ⟨transfer, outside, State.branchIf_pc .., State.branchIf_ds ..⟩)
  | advanced straight effect =>
    obtain ⟨notTransfer, notEret⟩ := isStraight_iff.mp straight
    exact .inl ⟨notTransfer, notEret, advanced_advance s _ effect.npc_eq⟩

/-! ### `Cause` in the invariant (R38, R461) -/

/-- The clauses of `Inv` on `Cause`: the bits that read 0 are 0, and `ExcCode` and `CE` are ones that entry writes. -/
structure CauseOk (c : Word) : Prop where
  zeros : c &&& 0x4FFF0083#32 = 0#32
  excCode : c.extractLsb' 2 5 ∈ [0#5, 4#5, 5#5, 8#5, 9#5, 11#5, 12#5, 13#5]
  ce : c.extractLsb' 28 2 = 0#2 ∨ c.extractLsb' 28 2 = 1#2

namespace CauseOk

variable {c : Word}

theorem zero : CauseOk 0#32 := ⟨by decide, by decide, by decide⟩

/-- A write outside the zeros, `ExcCode` and `CE`: of `IP`, or of `BD`. -/
theorem setFree {n lo : Nat} (h : CauseOk c) (f : BitVec n) (hlo : 7 ≤ lo ∧ lo + n ≤ 32)
    (outsideCe : lo + n ≤ 28 ∨ 30 ≤ lo) (free : ∀ j, lo ≤ j → j < lo + n → (0x4FFF0083#32).getLsbD j = false) :
    CauseOk (setField c lo f) where
  zeros := setField_and_eq_zero _ _ _ _ hlo.2 h.zeros free
  excCode := by
    rw [extract_setField_other _ _ _ _ _ hlo.2 (.inl hlo.1)]
    exact h.excCode
  ce := by
    rw [extract_setField_other _ _ _ _ _ hlo.2 outsideCe.symm]
    exact h.ce

theorem setExcCode (h : CauseOk c) (e : Exc) : CauseOk (setField c 2 (excCodeOf e)) where
  zeros := setField_and_eq_zero _ _ _ _ (by decide) h.zeros (by decide)
  excCode := by
    rw [extract_setField _ _ _ (by decide)]
    cases e <;> simp [excCodeOf]
  ce := by
    rw [extract_setField_other _ _ _ _ _ (by decide) (by decide)]
    exact h.ce

theorem setCe (h : CauseOk c) {n : BitVec 2} (hn : n = 0#2 ∨ n = 1#2) : CauseOk (setField c 28 n) where
  zeros := setField_and_eq_zero _ _ _ _ (by decide) h.zeros (by decide)
  excCode := by
    rw [extract_setField_other _ _ _ _ _ (by decide) (by decide)]
    exact h.excCode
  ce := by
    rw [extract_setField _ _ _ (by decide)]
    exact hn

/-- What entry writes to `Cause` (R470). -/
theorem entryCause {s : State} {e : Exc} (ce : ∀ n, e = .cpU n → n = 0#2 ∨ n = 1#2) (h : CauseOk s.cause) :
    CauseOk (entryCause e s) := by
  have withBd : CauseOk (if s.exl then s.cause else setField s.cause 31 (BitVec.ofBool s.ds)) := by
    split
    · exact h
    · exact h.setFree _ (by decide) (by decide) (by decide)
  have withCode := withBd.setExcCode e
  cases e with
  | cpU n => exact withCode.setCe (ce n rfl)
  | int | adEL | adES | sys | bp | ov | tr => exact withCode

end CauseOk

/-! ### The clauses of the invariant that do not speak of the program counter -/

/-- `Inv` without its clause on `pc`, `npc` and `ds`, which every end of an instruction sets anew. -/
structure DataInv (s : State) : Prop where
  memory : Memory.wf s.mem
  storedSorted : s.stored.Pairwise (· < ·)
  storedBacked : ∀ a ∈ s.stored, inRegions s.params a = true
  status : s.status &&& statusUnimplemented = 0#32
  cause : CauseOk s.cause
  zero : s.gpr[0] = 0#32
  link : s.llbit = true → s.lladdr.toNat % 4 = 0

theorem inv_iff {s : State} : Inv s ↔ DataInv s ∧ (s.ds = false → s.npc = s.pc + 4#32) :=
  ⟨fun h => ⟨⟨h.memory, h.storedSorted, h.storedBacked, h.status, ⟨h.cause, h.excCode, h.ce⟩, h.zero, h.link⟩, h.next⟩,
    fun ⟨h, next⟩ => ⟨h.memory, h.storedSorted, h.storedBacked, h.status, h.cause.zeros, h.cause.excCode, h.cause.ce,
      h.zero, next, h.link⟩⟩

/-- A write to a general register does not reach slot 0 (R21). -/
theorem State.writeGpr_slot_zero (s : State) (r : Reg) (v : Word) : (s.writeGpr r v).gpr[0] = s.gpr[0] := by
  rw [State.writeGpr_gpr]
  split
  · rfl
  · have hr : r.toNat ≠ 0 := fun h => ‹r ≠ 0#5› (BitVec.eq_of_toNat_eq h)
    exact Vector.getElem_set_ne _ _ hr

namespace DataInv

variable {s : State}

theorem writeGpr (h : DataInv s) (r : Reg) (v : Word) : DataInv (s.writeGpr r v) :=
  { h with zero := (s.writeGpr_slot_zero r v).trans h.zero }

/-- A store to backed addresses keeps memory canonical and the list of stored addresses in order. -/
theorem store (h : DataInv s) {cells : List Host.Cell} (hw : Writable s (cells.map Prod.fst)) :
    DataInv (s.store cells) :=
  { h with
    memory := Memory.writeCells_wf cells h.memory fun _ hc => (hw _ (List.mem_map_of_mem hc)).1
    storedSorted := insertAddrs_pairwise _ h.storedSorted
    storedBacked := fun a ha => (mem_insertAddrs.mp ha).elim (fun hc => (hw a hc).2.1) (h.storedBacked a) }

theorem effect {u : State} (h : DataInv s) (hu : Effect s u) : DataInv u := by
  cases hu with
  | nothing => exact h
  | gpr r v => exact h.writeGpr r v
  | fpr | double | fcc | hiLo | epc => exact { h with }
  | gprForgetHiLo r v =>
    have forgot : DataInv s.forgetHiLo := { h with }
    exact forgot.writeGpr r v
  | status v _ implemented => exact { h with status := implemented }
  | softIp v => exact { h with cause := h.cause.setFree v (by decide) (by decide) (by decide) }
  | link r v a aligned =>
    have linked : DataInv { s with llbit := true, lladdr := a } := { h with link := fun _ => aligned }
    exact linked.writeGpr r v
  | store cells writable => exact h.store writable
  | conditionalStore cells r v draws writable =>
    have unlinked : DataInv { s.store cells with llbit := false, draws := draws } :=
      { h.store writable with link := nofun }
    exact unlinked.writeGpr r v

theorem sampleIrq (h : DataInv s) : DataInv (sampleIrq s) where
  memory := by simpa using h.memory
  storedSorted := by simpa using h.storedSorted
  storedBacked := by simpa using h.storedBacked
  status := by simpa using h.status
  cause := by
    rw [sampleIrq_cause]
    exact h.cause.setFree _ (by decide) (by decide) (by decide)
  zero := by simpa using h.zero
  link := by simpa using h.link

/-- Writing `EXL`, an implemented bit, keeps the zeros of `Status`. -/
theorem status_setExl (h : DataInv s) (b : BitVec 1) : setField s.status 1 b &&& statusUnimplemented = 0#32 :=
  setField_and_eq_zero _ _ _ _ (by decide) h.status (by decide)

theorem branchIf (h : DataInv s) (taken : Bool) (target : Word) : DataInv (s.branchIf taken target) := by
  cases taken <;> exact { h with }

end DataInv

/-! ### The invariant after each end of an instruction -/

theorem DataInv.enterException_inv {s : State} {e : Exc} (ce : ∀ n, e = .cpU n → n = 0#2 ∨ n = 1#2) (h : DataInv s) :
    Inv (enterException e s) :=
  inv_iff.mpr ⟨{ h with status := h.status_setExl _, cause := h.cause.entryCause ce, link := nofun }, fun _ => rfl⟩

theorem DataInv.returnFromException_inv {s : State} (h : DataInv s) : Inv (returnFromException s) :=
  inv_iff.mpr ⟨{ h with status := h.status_setExl _, link := nofun }, fun _ => rfl⟩

theorem DataInv.advance_inv {s : State} (h : DataInv s) : Inv s.advance :=
  inv_iff.mpr ⟨{ h with }, fun _ => rfl⟩

/-- After a branch the next instruction is in the delay slot, where `Inv` does not speak of `npc`. -/
theorem DataInv.branchIf_inv {s : State} (h : DataInv s) (taken : Bool) (target : Word) :
    Inv (s.branchIf taken target) :=
  inv_iff.mpr ⟨h.branchIf taken target, by simp⟩

theorem ExecEnds.inv {i : Instr} {s t : State} (h : DataInv s) (ht : ExecEnds i s t) : Inv t := by
  cases ht with
  | raised e ce => exact h.enterException_inv ce
  | returned => exact h.returnFromException_inv
  | branched _ _ taken target => exact h.branchIf_inv taken target
  | linked _ _ r v taken target => exact (h.writeGpr r v).branchIf_inv taken target
  | advanced _ effect => exact (h.effect effect).advance_inv

/-! ### The invariant at reset and after every step -/

/-- Every boot with a canonical load image has the invariant (R45). -/
theorem boot_inv (start : Word) (params : Params) {image : Memory} (h : Memory.wf image) :
    Inv (State.boot start params image) :=
  inv_iff.mpr ⟨⟨h, .nil, nofun, BitVec.zero_and, .zero, rfl, nofun⟩, fun _ => rfl⟩

/-- Settles O7: the empty load image is canonical. -/
theorem invariantAtReset : Obligations.InvariantAtReset := boot_inv _ _ ⟨.nil, nofun⟩

/-- Settles O8: sampling keeps every clause but the one on `npc`, and each of the three kinds of step ends in a state
with all of them. -/
theorem invariantKept : Obligations.InvariantKept := by
  intro s t hs h
  have sampled : DataInv (sampleIrq s) := (inv_iff.mp hs).1.sampleIrq
  obtain ⟨-, rfl⟩ | ⟨-, ⟨-, rfl⟩ | ⟨-, i, -, hexec⟩⟩ := step_next.mp h
  · exact sampled.enterException_inv nofun
  · have withoutSlot : DataInv { sampleIrq s with ds := false } := { sampled with }
    exact withoutSlot.enterException_inv nofun
  · exact (exec_ends i _ t hexec).inv sampled

end Sys2Proof.Machine
end

section
/-! PROOFS. The statements of 20_memory.md on the fetch, on words stored and then read or fetched, and on the bytes that
user mode can reach. -/

namespace Sys2Proof.Machine

/-! ### The address of the fetch (R66, R67) -/

theorem allowedAddress_sampleIrq {s : State} {a : Word} : AllowedAddress (sampleIrq s) a ↔ AllowedAddress s a := by
  simp [AllowedAddress]

/-- The fetch address is bad when it is misaligned or the mode forbids it. -/
theorem fetchAddressBad_iff {s : State} :
    fetchAddressBad s = true ↔ ¬ (s.pc.toNat % 4 = 0 ∧ AllowedAddress s s.pc) := by
  have aligned : s.pc.extractLsb' 0 2 = 0#2 ↔ s.pc.toNat % 4 = 0 := by
    simp [← BitVec.toNat_inj]
  rw [allowed_iff, ← aligned, fetchAddressBad]
  by_cases h : s.pc.extractLsb' 0 2 = 0#2 <;> simp [h]

/-- The check of the fetch address in the sampled state, in the terms of the state before the step. -/
theorem fetchAddressBad_sampleIrq_iff {s : State} :
    fetchAddressBad (sampleIrq s) = true ↔ ¬ (s.pc.toNat % 4 = 0 ∧ AllowedAddress s s.pc) := by
  rw [fetchAddressBad_iff, allowedAddress_sampleIrq, sampleIrq_pc]

/-! ### The address error of the fetch (R66, R462, R481) -/

/-- Sampling the interrupt lines leaves `Cause.BD` (R38, R473). -/
@[simp] theorem sampleIrq_bd (s : State) : (sampleIrq s).bd = s.bd := by
  rw [State.bd, sampleIrq_cause, getLsbD_setField _ _ _ _ (by decide)]
  rfl

theorem enterFetchError_excCode (s : State) : (enterFetchError s).excCode = 4#5 := by
  rw [State.excCode, enterFetchError_cause]
  exact extract_setField _ _ _ (by decide)

theorem enterFetchError_bd (s : State) : (enterFetchError s).bd = if s.exl then s.bd else false := by
  rw [State.bd, enterFetchError_cause, getLsbD_setField _ _ _ _ (by decide), if_neg (by decide)]
  by_cases exl : s.exl = true
  · rw [if_pos exl, if_pos exl, State.bd]
  · rw [if_neg exl, if_neg exl, getLsbD_setField _ _ _ _ (by decide)]
    rfl

/-- Settles O13: the step is the entry of a fetch error from the sampled state. -/
theorem fetchAddressError : Obligations.FetchAddressError := by
  intro s noInterrupt bad
  have taken : step s = .next (enterFetchError (sampleIrq s)) :=
    step_next.mpr (.inr ⟨noInterrupt, .inl ⟨fetchAddressBad_sampleIrq_iff.mpr bad, rfl⟩⟩)
  have entry : enterFetchError (sampleIrq s) = enterException (.adEL s.pc) { sampleIrq s with ds := false } :=
    congrArg (fun pc => enterException (.adEL pc) { sampleIrq s with ds := false }) (sampleIrq_pc s)
  refine ⟨_, taken, entry, ?_, enterFetchError_excCode _, rfl, fun exl => ?_, fun exl => ?_⟩
  · rw [enterFetchError_badVAddr, sampleIrq_pc]
  · simp [enterFetchError_bd, exl]
  · simp [enterFetchError_bd, exl]

/-! ### The stops of the fetch (R61, R66, R76, R123) -/

theorem fetchInstr_sampleIrq (s : State) : fetchInstr (sampleIrq s) = fetchInstr s := by
  simp [fetchInstr]

theorem fetchInstr_of_missing {s : State} (h : ¬ ∀ x ∈ addrsFrom s.pc 4, inRegions s.params x = true) :
    ∃ m : Word, fetchInstr s = .fault (.noMemoryAtAddress m) ∧ inRegions s.params m.toNat = false := by
  cases missing : firstMissing s.params (addrsFrom s.pc 4) with
  | none => exact absurd (firstMissing_none.mp missing) h
  | some m =>
    obtain ⟨touched, outside⟩ := firstMissing_some missing
    refine ⟨BitVec.ofNat 32 m, by rw [fetchInstr, missing], ?_⟩
    rwa [BitVec.toNat_ofNat, Nat.mod_eq_of_lt (addrsFrom_lt touched)]

theorem fetchInstr_of_stored {s : State} (backed : ∀ x ∈ addrsFrom s.pc 4, inRegions s.params x = true)
    (h : ∃ x ∈ addrsFrom s.pc 4, x ∈ s.stored) : fetchInstr s = .refused (.fetchOfStoredCode s.pc) := by
  have marked : (addrsFrom s.pc 4).any s.stored.contains = true := by simpa using h
  rw [fetchInstr, firstMissing_none.mpr backed]
  exact if_pos marked

theorem fetchInstr_of_decode_error {s : State} {e : DecodeError}
    (backed : ∀ x ∈ addrsFrom s.pc 4, inRegions s.params x = true) (fresh : ∀ x ∈ addrsFrom s.pc 4, x ∉ s.stored)
    (h : decode (s.readWord s.pc) = .error e) : fetchInstr s = .refused (.noSuchInstruction (s.readWord s.pc)) := by
  have unmarked : ¬ (addrsFrom s.pc 4).any s.stored.contains = true := by simpa using fresh
  rw [fetchInstr, firstMissing_none.mpr backed]
  dsimp only
  rw [if_neg unmarked, h]

/-- The only word that the decoder reports is the one it was given. -/
theorem eq_of_decode_error {v w : Word} (h : decode v = .error (.noSuchInstruction w)) : w = v := by
  unfold decode at h
  cases hd : decodeOp v <;> simp_all

/-- The bytes at an aligned address decode as the word there does (R63). -/
theorem decodeBytes_bytesAt (s : State) {a : Word} (ha : a.toNat % 4 = 0) :
    decodeBytes s.params.bigEndian ((bytesAt a 4).map (Memory.read s.mem)) = decode (s.readWord a) := by
  have k1 : (a + 1#32).toNat = a.toNat + 1 := toNat_add_ofNat (n := 4) (by decide) ha (by decide)
  have k2 : (a + 2#32).toNat = a.toNat + 2 := toNat_add_ofNat (n := 4) (by decide) ha (by decide)
  have k3 : (a + 3#32).toNat = a.toNat + 3 := toNat_add_ofNat (n := 4) (by decide) ha (by decide)
  simp only [State.readWord, State.readByte, k1, k2, k3]
  rfl

section
variable {s : State} (noInterrupt : interruptPending (sampleIrq s) = false) (aligned : s.pc.toNat % 4 = 0)
  (allowed : AllowedAddress s s.pc)
include aligned allowed

theorem fetchAddressBad_sampleIrq_eq_false : fetchAddressBad (sampleIrq s) = false := by
  rw [← Bool.not_eq_true, fetchAddressBad_sampleIrq_iff]
  exact not_not.mpr ⟨aligned, allowed⟩

include noInterrupt

theorem step_of_fetch_fault {f : Fault} (h : fetchInstr s = .fault f) : step s = .fault f := by
  have good := fetchAddressBad_sampleIrq_eq_false aligned allowed
  simp [step, stepWith, stepSampled, noInterrupt, good, fetchInstr_sampleIrq, h]

theorem step_of_fetch_refused {r : Refusal} (h : fetchInstr s = .refused r) : step s = .refused r := by
  have good := fetchAddressBad_sampleIrq_eq_false aligned allowed
  simp [step, stepWith, stepSampled, noInterrupt, good, fetchInstr_sampleIrq, h]

end

/-- Settles O14: the step stops as the fetch does, and the fetch stops in each of its three ways. -/
theorem fetchStops : Obligations.FetchStops := by
  intro s noInterrupt aligned allowed
  have bytes : addrsFrom s.pc 4 = bytesAt s.pc 4 := addrsFrom_aligned (by decide) aligned (le_refl 4)
  refine ⟨fun notBacked => ?_, fun backed ⟨k, hk, marked⟩ => ?_, fun backed fresh w bad => ?_⟩
  · obtain ⟨m, fetch, outside⟩ := fetchInstr_of_missing (by rwa [bytes, ← backed_iff])
    exact ⟨m, step_of_fetch_fault noInterrupt aligned allowed fetch, outside⟩
  · refine step_of_fetch_refused noInterrupt aligned allowed (fetchInstr_of_stored ?_ ⟨_, ?_, marked⟩)
    · rw [bytes]
      exact backed_iff.mp backed
    · rw [bytes]
      exact List.mem_map.mpr ⟨k, List.mem_range.mpr hk, rfl⟩
  · rw [decodeBytes_bytesAt s aligned] at bad
    obtain rfl := eq_of_decode_error bad
    refine step_of_fetch_refused noInterrupt aligned allowed (fetchInstr_of_decode_error ?_ ?_ bad)
    · rw [bytes]
      exact backed_iff.mp backed
    · rw [bytes]
      simpa [bytesAt] using fresh

/-! ### A word stored, and then read or fetched (R62, R76) -/

/-- The one next state of a `sw` that passes its checks (R322). -/
theorem exec_sw_next {s t : State} {rt rs : Reg} {imm : Half} (aligned : (effectiveAddress s rs imm).toNat % 4 = 0)
    (allowed : AllowedAddress s (effectiveAddress s rs imm)) (h : exec (.sw rt rs imm) s = .next t) :
    t = (s.store (wordCells s.params.bigEndian (effectiveAddress s rs imm) (s.readGpr rt))).advance := by
  obtain ⟨misaligned | forbidden, -⟩ | ⟨-, -, -, stored⟩ := checkedAccess_next.mp h
  · exact absurd aligned misaligned
  · exact absurd forbidden (allowed_iff.mp allowed)
  · cases stored
    rfl

/-- A `lw` that passes its checks ends in the word at its address (R307). -/
theorem exec_lw_of_ok {s : State} {rt rs : Reg} {imm : Half} (aligned : (effectiveAddress s rs imm).toNat % 4 = 0)
    (allowed : AllowedAddress s (effectiveAddress s rs imm)) (backed : Backed s (effectiveAddress s rs imm) 4) :
    exec (.lw rt rs imm) s = setGpr rt (s.readWord (effectiveAddress s rs imm)) s := by
  refine checkedAccess_ok aligned allowed ?_
  rw [addrsFrom_aligned (by decide) aligned (le_refl 4)]
  exact backed_iff.mp backed

/-- The word at an aligned address is the one just stored there (R62). -/
theorem readWord_store_wordCells (s : State) {a : Word} (v : Word) (aligned : a.toNat % 4 = 0) :
    (s.store (wordCells s.params.bigEndian a v)).readWord a = v := by
  apply BitVec.eq_of_toNat_eq
  rw [toNat_readWord _ aligned, wordCells, memValue_store s _ (by decide) aligned (splitWord_length ..),
    bytesValue_splitWord]

/-- Settles O41: the load passes the checks that the store has passed, and reads the word stored. -/
theorem storeThenLoad : Obligations.StoreThenLoad := by
  intro s t rt rs rd imm a aligned allowed backed stored
  obtain rfl := exec_sw_next aligned allowed stored
  have loaded : (s.store (wordCells s.params.bigEndian a (s.readGpr rt))).advance.readWord a = s.readGpr rt :=
    readWord_store_wordCells s _ aligned
  refine ⟨_, exec_lw_of_ok aligned allowed backed, fun r => ?_⟩
  rw [State.advance_readGpr, State.readGpr_writeGpr]
  exact if_congr Iff.rfl rfl (if_congr Iff.rfl loaded rfl)

/-- Settles O42: the store marks the first byte of the word, and a fetch of a marked word is one of the stops of the
fetch. -/
theorem storedCodeRefused : Obligations.StoredCodeRefused := by
  intro s t rt rs imm a aligned allowed backed stored u pc _ marks params status noInterrupt
  have next : t = (s.store (wordCells s.params.bigEndian a (s.readGpr rt))).advance :=
    exec_sw_next aligned allowed stored
  rw [← pc] at aligned allowed backed next ⊢
  have sameParams : u.params = s.params := by rw [params, next]; rfl
  have sameMode : u.userMode = s.userMode := by rw [State.userMode, State.um, State.exl, status, next]; rfl
  have backed' : Backed u u.pc 4 := by rw [Backed, sameParams]; exact backed
  have marked : u.pc.toNat + 0 ∈ u.stored := by
    rw [marks, next, State.advance_stored, State.store_stored, mem_insertAddrs, wordCells_fst]
    exact .inl List.mem_cons_self
  have allowed' : AllowedAddress u u.pc := fun mode => allowed (sameMode ▸ mode)
  exact (fetchStops u noInterrupt aligned allowed').2.1 backed' ⟨0, by decide, marked⟩

end Sys2Proof.Machine
end

section
/-! PROOFS. The statement of 20_memory.md on what user mode cannot write: from the inversion of `exec`. -/

namespace Sys2Proof.Machine

/-- No byte from 0x80000000 on has changed, and no bit of `Status` but `EXL` (R67, R491). -/
structure KernelKept (s t : State) : Prop where
  mem : ∀ a, 2 ^ 31 ≤ a → Memory.read t.mem a = Memory.read s.mem a
  status : ∀ j, j ≠ 1 → t.status.getLsbD j = s.status.getLsbD j

namespace KernelKept

variable {s t : State}

/-- A change of the state that reaches neither memory nor `Status`. -/
theorem of_eq (mem : t.mem = s.mem) (status : t.status = s.status) : KernelKept s t :=
  ⟨fun _ _ => by rw [mem], fun _ _ => by rw [status]⟩

theorem enterException (e : Exc) : KernelKept s (enterException e s) where
  mem _ _ := rfl
  status j hj := by
    rw [enterException_status, getLsbD_setField _ _ _ _ (by decide), if_neg (by omega)]

theorem enterFetchError : KernelKept s (enterFetchError s) :=
  have entered : KernelKept { s with ds := false } _ := enterException (.adEL s.pc)
  ⟨entered.mem, entered.status⟩

/-- The stores of user mode stay below 0x80000000. -/
theorem store (user : s.userMode = true) {cells : List Host.Cell} (writable : Writable s (cells.map Prod.fst)) :
    KernelKept s (s.store cells) where
  mem a ha := Memory.read_writeCells_of_not_mem _ _ _ fun h => by
    obtain ⟨-, -, low⟩ := writable a h
    have := low user
    omega
  status _ _ := rfl

theorem effect (user : s.userMode = true) (h : Effect s t) : KernelKept s t := by
  cases h with
  | nothing | gpr | fpr | double | fcc | hiLo | gprForgetHiLo | link => exact of_eq rfl rfl
  | status _ kernel | softIp _ kernel | epc _ kernel => simp [kernel] at user
  | store _ writable => exact store user writable
  | conditionalStore _ _ _ _ writable =>
    have stored := store user writable
    exact ⟨stored.mem, stored.status⟩

theorem execEnds (user : s.userMode = true) {i : Instr} (h : ExecEnds i s t) : KernelKept s t := by
  cases h with
  | raised e => exact enterException e
  | returned _ _ kernel => simp [kernel] at user
  | branched | linked => exact of_eq (by simp) (by simp)
  | advanced _ effect =>
    have kept := KernelKept.effect user effect
    exact ⟨kept.mem, kept.status⟩

end KernelKept

/-- Settles O58: sampling reaches neither memory nor `Status`, and each of the three kinds of step keeps them. -/
theorem userModeWrites : Obligations.UserModeWrites := by
  intro s t user h
  have sampledUser : (sampleIrq s).userMode = true := by rw [sampleIrq_userMode, user]
  have kept : KernelKept (sampleIrq s) t := by
    obtain ⟨-, rfl⟩ | ⟨-, ⟨-, rfl⟩ | ⟨-, i, -, hexec⟩⟩ := step_next.mp h
    · exact .enterException _
    · exact .enterFetchError
    · exact .execEnds sampledUser (exec_ends i _ t hexec)
  exact ⟨fun a ha => by rw [kept.mem a ha, sampleIrq_mem], fun j hj => by rw [kept.status j hj, sampleIrq_status]⟩

end Sys2Proof.Machine
end

section
/-! PROOFS. The statement of 20_memory.md on what user mode cannot read: two runs that differ in the memory of the kernel
go through the same checks, and read the same bytes. -/

namespace Sys2Proof.Machine

/-! ### A state with other bytes in the kernel's memory -/

/-- The state with another memory. -/
def State.withMem (s : State) (m : Memory) : State := { s with mem := m }

/-- The memory reads as the state's own below 0x80000000, where user mode may read (R67). -/
def SameUserBytes (s : State) (m : Memory) : Prop := ∀ a < 2 ^ 31, Memory.read m a = Memory.read s.mem a

theorem agreeInUserSpace_iff {s t : State} :
    AgreeInUserSpace s t ↔ ∃ m, t = s.withMem m ∧ SameUserBytes s m := by
  constructor
  · rintro ⟨same, bytes⟩
    exact ⟨t.mem, same, bytes⟩
  · rintro ⟨m, rfl, bytes⟩
    exact ⟨rfl, bytes⟩

/-- Bytes that agree still agree after the same writes to both memories. -/
theorem Memory.read_writeCells_congr {m n : Memory} {x : Nat} (h : Memory.read m x = Memory.read n x)
    (cells : List Host.Cell) :
    Memory.read (Memory.writeCells m cells) x = Memory.read (Memory.writeCells n cells) x := by
  induction cells generalizing m n with
  | nil => exact h
  | cons c cells ih => exact ih (by rw [Memory.read_write, Memory.read_write, h])

/-! ### Loads from below 0x80000000 -/

section
variable {s : State} {m : Memory} (h : SameUserBytes s m)
include h

theorem readByte_withMem {a : Word} (ha : a.toNat < 2 ^ 31) : (s.withMem m).readByte a = s.readByte a := h _ ha

/-- The bytes of an aligned access agree. -/
theorem readByte_withMem_of_aligned {a : Word} {n k : Nat} (hn : n ∣ 2 ^ 31) (aligned : a.toNat % n = 0)
    (ha : a.toNat < 2 ^ 31) (hk : k < n) :
    (s.withMem m).readByte (a + BitVec.ofNat 32 k) = s.readByte (a + BitVec.ofNat 32 k) := by
  apply readByte_withMem h
  rw [toNat_add_ofNat (hn.trans (by decide)) aligned hk]
  exact bytesAt_lt_of_aligned hn aligned ha (List.mem_map.mpr ⟨k, List.mem_range.mpr hk, rfl⟩)

theorem readHalf_withMem {a : Word} (aligned : a.toNat % 2 = 0) (ha : a.toNat < 2 ^ 31) :
    (s.withMem m).readHalf a = s.readHalf a := by
  have b0 := readByte_withMem h ha
  have b1 := readByte_withMem_of_aligned h (k := 1) (by decide) aligned ha (by decide)
  rw [State.readHalf, b0, b1]
  rfl

theorem readWord_withMem {a : Word} (aligned : a.toNat % 4 = 0) (ha : a.toNat < 2 ^ 31) :
    (s.withMem m).readWord a = s.readWord a := by
  have b0 := readByte_withMem h ha
  have b1 := readByte_withMem_of_aligned h (k := 1) (by decide) aligned ha (by decide)
  have b2 := readByte_withMem_of_aligned h (k := 2) (by decide) aligned ha (by decide)
  have b3 := readByte_withMem_of_aligned h (k := 3) (by decide) aligned ha (by decide)
  rw [State.readWord, b0, b1, b2, b3]
  rfl

theorem readDword_withMem {a : Word} (aligned : a.toNat % 8 = 0) (ha : a.toNat < 2 ^ 31) :
    (s.withMem m).readDword a = s.readDword a := by
  have second : (a + 4#32).toNat = a.toNat + 4 := toNat_add_ofNat (n := 8) (by decide) aligned (by decide)
  have low := readWord_withMem h (a := a) (by omega) ha
  have high := readWord_withMem h (a := a + 4#32) (by omega) (by omega)
  rw [State.readDword, low, high]
  rfl

/-- An unaligned load merges bytes of one aligned word (R317). -/
theorem unalignedLoad_withMem {left : Bool} {a old : Word} (ha : a.toNat < 2 ^ 31) :
    unalignedLoad (s.withMem m) left a old = unalignedLoad s left a old := by
  have merge (n : Nat) (hn : n ≤ unalignedCount s.params.bigEndian left a) :
      unalignedMerge (s.withMem m) left a old n = unalignedMerge s left a old n := by
    induction n with
    | zero => rfl
    | succ n ih =>
      have touched : (unalignedAddr s.params.bigEndian left a n).toNat ∈ unalignedAddrs s.params.bigEndian left a :=
        List.mem_map.mpr ⟨n, List.mem_range.mpr hn, rfl⟩
      have sameWord := unalignedAddrs_div touched
      have byte : (s.withMem m).readByte (unalignedAddr s.params.bigEndian left a n) = _ :=
        readByte_withMem h (by omega)
      rw [unalignedMerge, unalignedMerge, ih (by omega), ← byte]
      rfl
  exact merge _ le_rfl

end

/-! ### The shared operations: one rule each -/

namespace SameOutcome

variable {s : State} {m : Memory} {k k' l l' : Result}

theorem refused (r : Refusal) : SameOutcome (.refused r) (.refused r) := rfl

/-- Two next states that differ as the states before do. -/
theorem next (h : SameUserBytes s m) {u : State} (mem : u.mem = s.mem := by rfl) :
    SameOutcome (.next u) (.next (u.withMem m)) :=
  agreeInUserSpace_iff.mpr ⟨m, rfl, by rwa [SameUserBytes, mem]⟩

theorem raise (h : SameUserBytes s m) (e : Exc) : SameOutcome (raise e s) (raise e (s.withMem m)) := next h

theorem branchIf (h : SameUserBytes s m) {u : State} {c : Bool} {target : Word} (mem : u.mem = s.mem := by rfl) :
    SameOutcome (.next (u.branchIf c target)) (.next ((u.withMem m).branchIf c target)) := by
  cases c <;> exact next h mem

theorem setGpr (h : SameUserBytes s m) {u : State} {r : Reg} {v v' : Word} (same : v' = v)
    (mem : u.mem = s.mem := by rfl) :
    SameOutcome (setGpr r v u) (setGpr r v' (u.withMem m)) := same ▸ next h mem

theorem setFpr (h : SameUserBytes s m) {r : FReg} {v v' : Word} (same : v' = v) :
    SameOutcome (setFpr r v s) (setFpr r v' (s.withMem m)) := same ▸ next h

theorem setDouble (h : SameUserBytes s m) {r : FReg} {v v' : Dword} (same : v' = v) :
    SameOutcome (setDouble r v s) (setDouble r v' (s.withMem m)) := same ▸ next h

theorem ite {c : Prop} [Decidable c] (hk : c → SameOutcome k k') (hl : ¬ c → SameOutcome l l') :
    SameOutcome (if c then k else l) (if c then k' else l') := by
  split
  · exact hk ‹_›
  · exact hl ‹_›

theorem outsideDelaySlot (hk : SameOutcome k k') :
    SameOutcome (outsideDelaySlot s k) (outsideDelaySlot (s.withMem m) k') :=
  ite (fun _ => refused _) fun _ => hk

theorem withCp1 (h : SameUserBytes s m) (hk : SameOutcome k k') :
    SameOutcome (withCp1 s k) (withCp1 (s.withMem m) k') :=
  ite (fun _ => hk) fun _ => raise h _

theorem withEven {r : FReg} (hk : SameOutcome k k') : SameOutcome (withEven r k) (withEven r k') :=
  ite (fun _ => hk) fun _ => refused _

/-- User mode reaches nothing behind the check of coprocessor 0 (R491). -/
theorem withCp0 (h : SameUserBytes s m) (user : s.userMode = true) :
    SameOutcome (withCp0 s k) (withCp0 (s.withMem m) k') :=
  ite (fun _ => raise h _) fun kernel => absurd user kernel

/-- Behind the checks of an access user mode is at an address below 0x80000000 (R67). -/
theorem checkedAccess (h : SameUserBytes s m) (user : s.userMode = true) {e : Exc} {a : Word} {n : Nat}
    {touched : List Nat} (hk : a.toNat % n = 0 → a.toNat < 2 ^ 31 → SameOutcome k k') :
    SameOutcome (checkedAccess e a n touched s k) (checkedAccess e a n touched (s.withMem m) k') := by
  refine ite (fun _ => raise h e) fun aligned => ite (fun _ => raise h e) fun allowed => ?_
  have low : AllowedAddress s a := allowed_iff.mpr (by simpa using allowed)
  have same := hk (not_not.mp aligned) (low user)
  rw [show (s.withMem m).params = s.params from rfl]
  cases firstMissing s.params touched with
  | none => exact same
  | some x => rfl

/-- The same bytes stored. -/
theorem stored (h : SameUserBytes s m) {cells : List Host.Cell} {u : State}
    (mem : u.mem = (s.store cells).mem := by rfl) :
    SameOutcome (.next u) (.next (u.withMem (Memory.writeCells m cells))) :=
  agreeInUserSpace_iff.mpr ⟨_, rfl, fun a ha => by
    rw [mem]
    exact Memory.read_writeCells_congr (h a ha) cells⟩

end SameOutcome

/-! ### Every instruction -/

/-- In user mode an instruction does the same over another memory of the kernel: what it reads of memory is below
0x80000000. -/
theorem exec_sameOutcome (i : Instr) {s : State} {m : Memory} (h : SameUserBytes s m) (user : s.userMode = true) :
    SameOutcome (exec i s) (exec i (s.withMem m)) := by
  cases i
  case add | addi | sub => exact .ite (fun _ => .raise h _) fun _ => .next h
  case addu | addiu | and | andi | nor | or | ori | sll | sllv | sra | srav | srl | srlv | subu | xor | xori
      | lui | slt | sltu | slti | sltiu | mfhi | mflo =>
    exact .next h
  case clo | clz => exact .ite (fun _ => .next h) fun _ => .refused _
  case div => exact .ite (fun _ => .next h) fun _ => .ite (fun _ => .next h) fun _ => .next h
  case divu => exact .ite (fun _ => .next h) fun _ => .next h
  case mult | multu | madd | maddu | msub | msubu | mul | mthi | mtlo => exact .next h
  case bc1f | bc1t => exact .outsideDelaySlot (.withCp1 h (.branchIf h))
  case beq | bgez | bgtz | blez | bltz | bne => exact .outsideDelaySlot (.branchIf h)
  case bgezal | bltzal =>
    exact .outsideDelaySlot (.ite (fun _ => .refused _) fun _ => .branchIf h)
  case j | jr | jal => exact .outsideDelaySlot (.next h)
  case jalr => exact .outsideDelaySlot (.ite (fun _ => .refused _) fun _ => .next h)
  case teq | teqi | tne | tnei | tge | tgeu | tgei | tgeiu | tlt | tltu | tlti | tltiu =>
    exact .ite (fun _ => .raise h _) fun _ => .next h
  case lb =>
    exact .checkedAccess h user fun _ low =>
      .setGpr h (congrArg (BitVec.signExtend 32) (readByte_withMem h low))
  case lbu =>
    exact .checkedAccess h user fun _ low =>
      .setGpr h (congrArg (BitVec.zeroExtend 32) (readByte_withMem h low))
  case lh =>
    exact .checkedAccess h user fun aligned low =>
      .setGpr h (congrArg (BitVec.signExtend 32) (readHalf_withMem h aligned low))
  case lhu =>
    exact .checkedAccess h user fun aligned low =>
      .setGpr h (congrArg (BitVec.zeroExtend 32) (readHalf_withMem h aligned low))
  case lw | ll =>
    exact .checkedAccess h user fun aligned low => .setGpr h (readWord_withMem h aligned low)
  case lwl | lwr => exact .checkedAccess h user fun _ low => .setGpr h (unalignedLoad_withMem h low)
  case lwc1 =>
    exact .withCp1 h (.checkedAccess h user fun aligned low => .setFpr h (readWord_withMem h aligned low))
  case ldc1 =>
    exact .withCp1 h (.withEven (.checkedAccess h user fun aligned low =>
      .setDouble h (readDword_withMem h aligned low)))
  case sb | sh | sw | swl | swr => exact .checkedAccess h user fun _ _ => .stored h
  case swc1 => exact .withCp1 h (.checkedAccess h user fun _ _ => .stored h)
  case sdc1 => exact .withCp1 h (.withEven (.checkedAccess h user fun _ _ => .stored h))
  case sc =>
    exact .ite (fun _ => .raise h _) fun _ => .ite (fun _ => .raise h _) fun _ => .ite (fun _ => .refused _) fun _ =>
      .ite (fun _ => .checkedAccess h user fun _ _ => .stored h) fun _ => .next h
  case mfc0 | mtc0 => exact .withCp0 h user
  case mfc1 | mtc1 => exact .withCp1 h (.next h)
  case movn | movz => exact .ite (fun _ => .next h) fun _ => .next h
  case movf | movt => exact .withCp1 h (.ite (fun _ => .next h) fun _ => .next h)
  case absS | addS | subS | mulS | divS | sqrtS | negS | movS | cvtSW | cvtWS | ceilWS | floorWS | roundWS
      | truncWS | cEqS | cLeS | cLtS =>
    exact .withCp1 h (.next h)
  case cvtSD | cvtWD | ceilWD | floorWD | roundWD | truncWD | cvtDS | cvtDW =>
    exact .withCp1 h (.withEven (.next h))
  case absD | sqrtD | negD | movD | cEqD | cLeD | cLtD => exact .withCp1 h (.withEven (.withEven (.next h)))
  case addD | subD | mulD | divD => exact .withCp1 h (.withEven (.withEven (.withEven (.next h))))
  case movfS | movtS | movnS | movzS => exact .withCp1 h (.ite (fun _ => .next h) fun _ => .next h)
  case movfD | movtD | movnD | movzD =>
    exact .withCp1 h (.withEven (.withEven (.ite (fun _ => .next h) fun _ => .next h)))
  case eret => exact .outsideDelaySlot (.withCp0 h user)
  case syscall | brk => exact .raise h _
  case nop => exact .next h

/-! ### Every step -/

/-- Sampling the interrupt lines neither reads nor writes memory. -/
theorem sampleIrq_withMem (s : State) (m : Memory) : sampleIrq (s.withMem m) = (sampleIrq s).withMem m := by
  rw [sampleIrq, sampleIrq, show (s.withMem m).irqInput = s.irqInput from rfl]
  cases s.irqInput <;> rfl

/-- User mode fetches from below 0x80000000 (R66, R67). -/
theorem fetchInstr_withMem {s : State} {m : Memory} (h : SameUserBytes s m) (aligned : s.pc.toNat % 4 = 0)
    (low : s.pc.toNat < 2 ^ 31) : fetchInstr (s.withMem m) = fetchInstr s := by
  have word : (s.withMem m).readWord (s.withMem m).pc = s.readWord s.pc := readWord_withMem h aligned low
  rw [fetchInstr, word]
  rfl

/-- After the sampling, two steps take the same interrupt, or the same address error, or run the same instruction. -/
theorem stepSampled_sameOutcome {s : State} {m : Memory} (h : SameUserBytes s m) (user : s.userMode = true) :
    SameOutcome (stepSampled exec s) (stepSampled exec (s.withMem m)) := by
  refine .ite (fun _ => .raise h _) fun _ => .ite (fun _ => .next h) fun good => ?_
  rw [fetchAddressBad_iff, not_not] at good
  obtain ⟨aligned, allowed⟩ := good
  rw [fetchInstr_withMem h aligned (allowed user)]
  cases fetchInstr s with
  | next i => exact exec_sameOutcome i h user
  | fault f => rfl
  | refused r => rfl

/-- Settles O60: sampling does not see memory, and from there both steps go the same way. -/
theorem userModeReads : Obligations.UserModeReads := by
  intro s t user agree
  obtain ⟨m, rfl, h⟩ := agreeInUserSpace_iff.mp agree
  have sampled : SameUserBytes (sampleIrq s) m := by rwa [SameUserBytes, sampleIrq_mem]
  rw [step, stepWith, stepWith, sampleIrq_withMem]
  exact stepSampled_sameOutcome sampled (by rw [sampleIrq_userMode, user])

end Sys2Proof.Machine
end

section
/-! PROOFS. The statements of 30_encoding.md: decoding and encoding are inverse to each other, the branch-likely words
are refused, and so is an instruction that breaks an operand constraint. -/

namespace Sys2Proof

/-! ### The one term that is no decoded word (R120, R453) -/

/-- `sll` has the all-zero word, which is `nop`, exactly where it is not well formed. -/
theorem encode_sll_ne_zero_iff {rd rt sh : BitVec 5} :
    encode (.sll rd rt sh) ≠ 0#32 ↔ (Instr.sll rd rt sh).wf = true := by
  have word : encode (.sll rd rt sh) = 0#32 ↔ rd = 0#5 ∧ rt = 0#5 ∧ sh = 0#5 := by
    constructor
    · intro h
      have hrd := congrArg rdOf h
      have hrt := congrArg rtOf h
      have hsh := congrArg shamtOf h
      simp only [encode, rdOf_encodeR, rtOf_encodeR, shamtOf_encodeR] at hrd hrt hsh
      exact ⟨hrd, hrt, hsh⟩
    · rintro ⟨rfl, rfl, rfl⟩
      rfl
  rw [Ne, word]
  simp [Instr.wf, imp_iff_not_or, or_assoc]

/-! ### Where the decoder goes by the major opcode (R110) -/

section
variable {w : Word}

theorem decodeOp_special (op : opOf w = 0x00#6) : decodeOp w = decodeSpecial w := by
  simp [decodeOp, op]

theorem decodeOp_regimm (op : opOf w = 0x01#6) : decodeOp w = decodeRegimm w := by
  simp [decodeOp, op]

theorem decodeOp_cop0 (op : opOf w = 0x10#6) : decodeOp w = decodeCop0 w := by
  simp [decodeOp, op]

theorem decodeOp_cop1 (op : opOf w = 0x11#6) : decodeOp w = decodeCop1 w := by
  simp [decodeOp, op]

theorem decodeOp_special2 (op : opOf w = 0x1c#6) : decodeOp w = decodeSpecial2 w := by
  simp [decodeOp, op]

/-- Coprocessor 1 by `fmt` (R115). -/
theorem decodeOp_fpS (op : opOf w = 0x11#6) (fmt : rsOf w = 0x10#5) : decodeOp w = decodeFpS w := by
  simp [decodeOp_cop1 op, decodeCop1, fmt]

theorem decodeOp_fpD (op : opOf w = 0x11#6) (fmt : rsOf w = 0x11#5) : decodeOp w = decodeFpD w := by
  simp [decodeOp_cop1 op, decodeCop1, fmt]

theorem decodeOp_fpW (op : opOf w = 0x11#6) (fmt : rsOf w = 0x14#5) : decodeOp w = decodeFpW w := by
  simp [decodeOp_cop1 op, decodeCop1, fmt]

/-! ### A word with known fields -/

theorem encodeR_of_fields {op : BitVec 6} {rs rt rd sh : BitVec 5} {funct : BitVec 6} (hop : opOf w = op)
    (hrs : rsOf w = rs) (hrt : rtOf w = rt) (hrd : rdOf w = rd) (hsh : shamtOf w = sh) (hfunct : functOf w = funct) :
    encodeR op rs rt rd sh funct = w := by
  rw [← hop, ← hrs, ← hrt, ← hrd, ← hsh, ← hfunct, encodeR_fields]

theorem encodeI_of_fields {op : BitVec 6} {rs rt : BitVec 5} (hop : opOf w = op) (hrs : rsOf w = rs)
    (hrt : rtOf w = rt) : encodeI op rs rt (immOf w) = w := by
  rw [← hop, ← hrs, ← hrt, encodeI_fields]

theorem encodeJ_of_fields {op : BitVec 6} (hop : opOf w = op) : encodeJ op (targetOf w) = w := by
  rw [← hop, encodeJ_fields]

theorem encodeTR_of_fields {op funct : BitVec 6} (hop : opOf w = op) (hfunct : functOf w = funct) :
    encodeTR op (rsOf w) (rtOf w) (trapCodeOf w) funct = w := by
  rw [← hop, ← hfunct, encodeTR_fields]

theorem encodeSYS_of_fields {op funct : BitVec 6} (hop : opOf w = op) (hfunct : functOf w = funct) :
    encodeSYS op (sysCodeOf w) funct = w := by
  rw [← hop, ← hfunct, encodeSYS_fields]

end

/-! ### Decoding an encoded word -/

/-- Each instruction's word leads the decoder to its row, whose fields are the operands: the rows are grouped by the
part of the decoder that they stand in. -/
theorem decodeOp_encode {i : Instr} (wf : i.wf = true) : decodeOp (encode i) = some i := by
  cases i
  case sll rd rt sh =>
    have nonzero := encode_sll_ne_zero_iff.mpr wf
    rw [encode] at nonzero ⊢
    simp [decodeOp_special, decodeSpecial, when, nonzero]
  case add | addu | and | div | divu | mult | multu | nor | or | sllv | sra | srav | srl | srlv | sub | subu | xor
      | slt | sltu | jalr | jr | teq | tne | tge | tgeu | tlt | tltu | mfhi | mflo | mthi | mtlo | movn | movz
      | syscall | brk =>
    simp [encode, decodeOp_special, decodeSpecial, when]
  case movf | movt => simp [encode, decodeOp_special, decodeSpecial, when, tfOf_eq, ccOf_eq]
  case bgez | bgezal | bltzal | bltz | teqi | tnei | tgei | tgeiu | tlti | tltiu =>
    simp [encode, decodeOp_regimm, decodeRegimm]
  case clo | clz | mul | madd | maddu | msub | msubu => simp [encode, decodeOp_special2, decodeSpecial2, when]
  case j | jal | beq | bne | addi | addiu | slti | sltiu | andi | ori | xori | lb | lh | lwl | lw | lbu | lhu | lwr
      | sb | sh | swl | sw | swr | ll | lwc1 | ldc1 | sc | swc1 | sdc1 =>
    simp [encode, decodeOp]
  case blez | bgtz | lui => simp [encode, decodeOp, when]
  case mfc0 | mtc0 => simp [encode, decodeOp_cop0, decodeCop0, when]
  case mfc1 | mtc1 => simp [encode, decodeOp_cop1, decodeCop1, when]
  case bc1f | bc1t => simp [encode, decodeOp_cop1, decodeCop1, tfOf_eq, ccOf_eq]
  case absS | addS | ceilWS | cvtDS | cvtWS | divS | floorWS | movS | movnS | movzS | mulS | negS | roundWS | sqrtS
      | subS | truncWS =>
    simp [encode, decodeOp_fpS, decodeFpS, when]
  case movfS | movtS => simp [encode, decodeOp_fpS, decodeFpS, tfOf_eq, ccOf_eq]
  case cEqS | cLeS | cLtS => simp [encode, decodeOp_fpS, decodeFpS, when, fcZeroOf_eq, fcOf_eq]
  case absD | addD | ceilWD | cvtSD | cvtWD | divD | floorWD | movD | movnD | movzD | mulD | negD | roundWD | sqrtD
      | subD | truncWD =>
    simp [encode, decodeOp_fpD, decodeFpD, when]
  case movfD | movtD => simp [encode, decodeOp_fpD, decodeFpD, tfOf_eq, ccOf_eq]
  case cEqD | cLeD | cLtD => simp [encode, decodeOp_fpD, decodeFpD, when, fcZeroOf_eq, fcOf_eq]
  case cvtDW | cvtSW => simp [encode, decodeOp_fpW, decodeFpW, when]
  case eret | nop => rfl

/-! ### Encoding a decoded word -/

/-- A part of the decoder answers, if anything, a well-formed instruction whose word is `w`. -/
def Encodes (w : Word) (r : Option Instr) : Prop := ∀ i, r = some i → encode i = w ∧ i.wf = true

namespace Encodes

variable {w : Word} {i : Instr}

theorem none : Encodes w none := nofun

theorem some (word : encode i = w) (wf : i.wf = true := by rfl) : Encodes w (some i) := fun _ h => by
  cases h
  exact ⟨word, wf⟩

theorem when {fixed : Bool} (h : fixed = true → Encodes w (.some i)) : Encodes w (when fixed i) := fun j hj => by
  obtain ⟨holds, rfl⟩ := when_eq_some.mp hj
  exact h holds i rfl

/-- One must-be-zero field. -/
theorem zero {n : Nat} {a b : BitVec n} (word : a = b → encode i = w) (wf : i.wf = true := by rfl) :
    Encodes w (Sys2Proof.when (a == b) i) :=
  .when fun fixed => .some (word (eq_of_beq fixed)) wf

/-- Two must-be-zero fields. -/
theorem zero2 {m n : Nat} {a b : BitVec m} {c d : BitVec n} (word : a = b → c = d → encode i = w)
    (wf : i.wf = true := by rfl) : Encodes w (Sys2Proof.when (a == b && c == d) i) :=
  .when fun fixed => by
    obtain ⟨hab, hcd⟩ := Bool.and_eq_true_iff.mp fixed
    exact .some (word (eq_of_beq hab) (eq_of_beq hcd)) wf

/-- Three must-be-zero fields. -/
theorem zero3 {n : Nat} {a b c d e f : BitVec n} (word : a = b → c = d → e = f → encode i = w)
    (wf : i.wf = true := by rfl) : Encodes w (Sys2Proof.when (a == b && c == d && e == f) i) :=
  .when fun fixed => by
    obtain ⟨habcd, hef⟩ := Bool.and_eq_true_iff.mp fixed
    obtain ⟨hab, hcd⟩ := Bool.and_eq_true_iff.mp habcd
    exact .some (word (eq_of_beq hab) (eq_of_beq hcd) (eq_of_beq hef)) wf

end Encodes

section
variable {w : Word}

/-- The word of `nop`, and the words of `sll` with it left out (R453). -/
theorem decodeSll_encodes (op : opOf w = 0x00#6) (funct : functOf w = 0x00#6) :
    Encodes w (if w == 0 then some .nop else when (rsOf w == 0) (.sll (rdOf w) (rtOf w) (shamtOf w))) := by
  split
  case isTrue zero => exact .some (eq_of_beq zero).symm
  case isFalse nonzero =>
    refine .when fun rs => ?_
    have word : encode (.sll (rdOf w) (rtOf w) (shamtOf w)) = w :=
      encodeR_of_fields op (eq_of_beq rs) rfl rfl rfl funct
    exact .some word (encode_sll_ne_zero_iff.mp (by rw [word]; simpa using nonzero))

/-- SPECIAL (R111): the rows by the fields that must be 0. -/
theorem decodeSpecial_encodes (op : opOf w = 0x00#6) : Encodes w (decodeSpecial w) := by
  unfold decodeSpecial
  dsimp only
  split
  case h_1 => exact decodeSll_encodes op ‹_›
  case h_2 =>
    split
    case h_1 tf => exact .zero fun sh => encodeR_of_fields op rfl (encodeCC_fields_false tf).symm rfl sh ‹_›
    case h_2 tf => exact .zero fun sh => encodeR_of_fields op rfl (encodeCC_fields_true tf).symm rfl sh ‹_›
    case h_3 => exact .none
  case h_3 | h_4 => exact .zero fun rs => encodeR_of_fields op rs rfl rfl rfl ‹_›
  case h_5 | h_6 | h_7 | h_10 | h_11 | h_22 | h_23 | h_24 | h_25 | h_26 | h_27 | h_28 | h_29 | h_30 | h_31 =>
    exact .zero fun sh => encodeR_of_fields op rfl rfl rfl sh ‹_›
  case h_8 | h_15 | h_17 => exact .zero3 fun rt rd sh => encodeR_of_fields op rfl rt rd sh ‹_›
  case h_9 => exact .zero2 fun rt sh => encodeR_of_fields op rfl rt rfl sh ‹_›
  case h_12 | h_13 => exact .some (encodeSYS_of_fields op ‹_›)
  case h_14 | h_16 => exact .zero3 fun rs rt sh => encodeR_of_fields op rs rt rfl sh ‹_›
  case h_18 | h_19 | h_20 | h_21 => exact .zero2 fun rd sh => encodeR_of_fields op rfl rfl rd sh ‹_›
  case h_32 | h_33 | h_34 | h_35 | h_36 | h_37 => exact .some (encodeTR_of_fields op ‹_›)
  case h_38 => exact .none

/-- REGIMM (R112): every row has its `rt` and all other bits as operands. -/
theorem decodeRegimm_encodes (op : opOf w = 0x01#6) : Encodes w (decodeRegimm w) := by
  unfold decodeRegimm
  split
  case h_1 | h_2 | h_3 | h_4 | h_5 | h_6 | h_7 | h_8 | h_9 | h_10 => exact .some (encodeI_of_fields op rfl ‹_›)
  case h_11 => exact .none

/-- SPECIAL2 (R113): the products have `rd` and `shamt` 0, the others only `shamt`. -/
theorem decodeSpecial2_encodes (op : opOf w = 0x1c#6) : Encodes w (decodeSpecial2 w) := by
  unfold decodeSpecial2
  dsimp only
  split
  case h_1 | h_2 | h_4 | h_5 => exact .zero2 fun rd sh => encodeR_of_fields op rfl rfl rd sh ‹_›
  case h_3 | h_6 | h_7 => exact .zero fun sh => encodeR_of_fields op rfl rfl rfl sh ‹_›
  case h_8 => exact .none

/-- COP0 (R114): a word of `eret` is compared whole. -/
theorem decodeCop0_encodes (op : opOf w = 0x10#6) : Encodes w (decodeCop0 w) := by
  unfold decodeCop0
  split
  case h_1 | h_2 => exact .zero2 fun sh funct => encodeR_of_fields op ‹_› rfl rfl sh funct
  case h_3 => exact .zero fun word => word.symm

/-- COP1 with `fmt` = single (R115): three operands, two with `ft` 0, moves with a flag, and comparisons. -/
theorem decodeFpS_encodes (op : opOf w = 0x11#6) (fmt : rsOf w = 0x10#5) : Encodes w (decodeFpS w) := by
  unfold decodeFpS
  dsimp only
  split
  case h_1 | h_2 | h_3 | h_4 | h_14 | h_15 => exact .some (encodeR_of_fields op fmt rfl rfl rfl ‹_›)
  case h_5 | h_6 | h_7 | h_8 | h_9 | h_10 | h_11 | h_12 | h_16 | h_17 =>
    exact .zero fun ft => encodeR_of_fields op fmt ft rfl rfl ‹_›
  case h_13 =>
    split
    case h_1 tf => exact .some (encodeR_of_fields op fmt (encodeCC_fields_false tf).symm rfl rfl ‹_›)
    case h_2 tf => exact .some (encodeR_of_fields op fmt (encodeCC_fields_true tf).symm rfl rfl ‹_›)
    case h_3 => exact .none
  case h_18 | h_19 | h_20 =>
    exact .zero fun zero => encodeR_of_fields op fmt rfl rfl (encodeFC_fields zero).symm ‹_›
  case h_21 => exact .none

/-- COP1 with `fmt` = double (R115): the same shapes. -/
theorem decodeFpD_encodes (op : opOf w = 0x11#6) (fmt : rsOf w = 0x11#5) : Encodes w (decodeFpD w) := by
  unfold decodeFpD
  dsimp only
  split
  case h_1 | h_2 | h_3 | h_4 | h_14 | h_15 => exact .some (encodeR_of_fields op fmt rfl rfl rfl ‹_›)
  case h_5 | h_6 | h_7 | h_8 | h_9 | h_10 | h_11 | h_12 | h_16 | h_17 =>
    exact .zero fun ft => encodeR_of_fields op fmt ft rfl rfl ‹_›
  case h_13 =>
    split
    case h_1 tf => exact .some (encodeR_of_fields op fmt (encodeCC_fields_false tf).symm rfl rfl ‹_›)
    case h_2 tf => exact .some (encodeR_of_fields op fmt (encodeCC_fields_true tf).symm rfl rfl ‹_›)
    case h_3 => exact .none
  case h_18 | h_19 | h_20 =>
    exact .zero fun zero => encodeR_of_fields op fmt rfl rfl (encodeFC_fields zero).symm ‹_›
  case h_21 => exact .none

/-- COP1 with `fmt` = word (R115). -/
theorem decodeFpW_encodes (op : opOf w = 0x11#6) (fmt : rsOf w = 0x14#5) : Encodes w (decodeFpW w) := by
  unfold decodeFpW
  split
  case h_1 | h_2 => exact .zero fun ft => encodeR_of_fields op fmt ft rfl rfl ‹_›
  case h_3 => exact .none

/-- COP1 (R115). -/
theorem decodeCop1_encodes (op : opOf w = 0x11#6) : Encodes w (decodeCop1 w) := by
  unfold decodeCop1
  split
  case h_1 | h_2 => exact .zero2 fun sh funct => encodeR_of_fields op ‹_› rfl rfl sh funct
  case h_3 =>
    split
    case h_1 tf => exact .some (encodeI_of_fields op ‹_› (encodeCC_fields_false tf).symm)
    case h_2 tf => exact .some (encodeI_of_fields op ‹_› (encodeCC_fields_true tf).symm)
    case h_3 => exact .none
  case h_4 => exact decodeFpS_encodes op ‹_›
  case h_5 => exact decodeFpD_encodes op ‹_›
  case h_6 => exact decodeFpW_encodes op ‹_›
  case h_7 => exact .none

/-- The decoder (R110, R120): no bit of a word that it takes is dropped. -/
theorem decodeOp_encodes (w : Word) : Encodes w (decodeOp w) := by
  unfold decodeOp
  split
  case h_1 => exact decodeSpecial_encodes ‹_›
  case h_2 => exact decodeRegimm_encodes ‹_›
  case h_3 | h_4 => exact .some (encodeJ_of_fields ‹_›)
  case h_7 | h_8 => exact .zero fun rt => encodeI_of_fields ‹_› rfl rt
  case h_16 => exact .zero fun rs => encodeI_of_fields ‹_› rs rfl
  case h_17 => exact decodeCop0_encodes ‹_›
  case h_18 => exact decodeCop1_encodes ‹_›
  case h_19 => exact decodeSpecial2_encodes ‹_›
  case h_5 | h_6 | h_9 | h_10 | h_11 | h_12 | h_13 | h_14 | h_15 | h_20 | h_21 | h_22 | h_23 | h_24 | h_25 | h_26
      | h_27 | h_28 | h_29 | h_30 | h_31 | h_32 | h_33 | h_34 | h_35 | h_36 | h_37 =>
    exact .some (encodeI_of_fields ‹_› rfl rfl)
  case h_38 => exact .none

end

/-! ### Decoding and encoding -/

theorem decodeOp_eq_some_iff {w : Word} {i : Instr} : decodeOp w = some i ↔ encode i = w ∧ i.wf = true :=
  ⟨decodeOp_encodes w i, fun ⟨word, wf⟩ => word ▸ decodeOp_encode wf⟩

theorem decode_eq_ok_iff_decodeOp {w : Word} {i : Instr} : decode w = .ok i ↔ decodeOp w = some i := by
  rw [decode]
  cases decodeOp w <;> simp

/-- A word decodes to an instruction exactly when it is its word and the instruction is well formed. -/
theorem decode_eq_ok_iff {w : Word} {i : Instr} : decode w = .ok i ↔ encode i = w ∧ i.wf = true :=
  decode_eq_ok_iff_decodeOp.trans decodeOp_eq_some_iff

theorem decode_of_none {w : Word} (h : decodeOp w = none) : decode w = .error (.noSuchInstruction w) := by
  rw [decode, h]

/-- Settles O1: every row of the decoder is reached by its word. -/
theorem decodeOfEncode : Obligations.DecodeOfEncode := fun _ wf => decode_eq_ok_iff.mpr ⟨rfl, wf⟩

/-- Settles O2: every row of the decoder checks the bits that are no operand. -/
theorem encodeOfDecode : Obligations.EncodeOfDecode := fun _ _ => decode_eq_ok_iff.mp

/-- Settles O3: each word is the one that its instruction encodes to, and the last has a bit where `sll` must have 0. -/
theorem wordsOfTheSpec : Obligations.WordsOfTheSpec := by
  simp only [Obligations.WordsOfTheSpec, decode_eq_ok_iff]
  decide

/-! ### The branch-likely words (R124) -/

theorem decodeOp_branchLikely {w : Word} (op : opOf w ∈ [0x14#6, 0x15#6, 0x16#6, 0x17#6]) : decodeOp w = none := by
  simp only [List.mem_cons, List.not_mem_nil, or_false] at op
  obtain op | op | op | op := op <;> simp [decodeOp, op]

theorem decodeRegimm_branchLikely {w : Word} (rt : rtOf w ∈ [0x02#5, 0x03#5, 0x12#5, 0x13#5]) :
    decodeRegimm w = none := by
  simp only [List.mem_cons, List.not_mem_nil, or_false] at rt
  obtain rt | rt | rt | rt := rt <;> simp [decodeRegimm, rt]

/-- Bit 17 is the upper bit of the field that selects `bc1f` and `bc1t`. -/
theorem decodeCop1_branchLikely {w : Word} (fmt : rsOf w = 0x08#5) (bit : w.getLsbD 17 = true) :
    decodeCop1 w = none := by
  have upper : (tfOf w).getLsbD 1 = true := by
    rw [tfOf, BitVec.getLsbD_extractLsb']
    exact bit
  simp only [decodeCop1, fmt]
  split
  case h_1 tf | h_2 tf => simp [tf] at upper
  case h_3 => rfl

/-- Settles O4: the three kinds of branch-likely word each meet a part of the decoder that has no row for them. -/
theorem branchLikelyRefused : Obligations.BranchLikelyRefused := by
  rintro w (op | ⟨op, rt⟩ | ⟨op, fmt, bit⟩)
  · exact decode_of_none (decodeOp_branchLikely op)
  · exact decode_of_none ((decodeOp_regimm op).trans (decodeRegimm_branchLikely rt))
  · exact decode_of_none ((decodeOp_cop1 op).trans (decodeCop1_branchLikely fmt bit))

end Sys2Proof

namespace Sys2Proof.Machine

/-! ### The operand constraints (R121) -/

/-- The refusals of the operand constraints, each with the operand that it names. -/
def IsOperandRefusal (r : Refusal) : Prop :=
  r = .cloClzRtField ∨ r = .jalrRdEqualsRs ∨ r = .linkBranchReadsRa ∨
    (∃ q, r = .cp0RegisterNotModelled q ∧ q ∉ [8#5, 12#5, 13#5, 14#5]) ∨
    (∃ q, r = .oddDoubleRegister q ∧ q.toNat % 2 = 1)

/-- The result is the refusal of an operand constraint. -/
def RefusesOperand (k : Result) : Prop := ∃ r, k = .refused r ∧ IsOperandRefusal r

namespace RefusesOperand

variable {s : State} {k : Result}

theorem cloClz {c : Prop} [Decidable c] (hc : ¬ c) : RefusesOperand (if c then k else .refused .cloClzRtField) :=
  ⟨_, if_neg hc, .inl rfl⟩

theorem jalr {c : Prop} [Decidable c] (hc : c) : RefusesOperand (if c then .refused .jalrRdEqualsRs else k) :=
  ⟨_, if_pos hc, .inr (.inl rfl)⟩

theorem linkBranch {c : Prop} [Decidable c] (hc : c) : RefusesOperand (if c then .refused .linkBranchReadsRa else k) :=
  ⟨_, if_pos hc, .inr (.inr (.inl rfl))⟩

theorem cp0 {q : BitVec 5} (hq : q ∉ [8#5, 12#5, 13#5, 14#5]) :
    RefusesOperand (.refused (.cp0RegisterNotModelled q)) :=
  ⟨_, rfl, .inr (.inr (.inr (.inl ⟨q, rfl, hq⟩)))⟩

theorem outsideDelaySlot (ds : s.ds = false) (hk : RefusesOperand k) : RefusesOperand (outsideDelaySlot s k) := by
  rwa [Machine.outsideDelaySlot, ds]

theorem withCp1 (cu1 : s.cu1 = true) (hk : RefusesOperand k) : RefusesOperand (withCp1 s k) := by
  rwa [Machine.withCp1, if_pos cu1]

theorem withCp0 (kernel : s.userMode = false) (hk : RefusesOperand k) : RefusesOperand (withCp0 s k) := by
  rwa [Machine.withCp0, kernel]

/-- An odd register is refused, and behind an even one the rest must refuse. -/
theorem withEven {r : FReg} (hk : evenReg r = true → RefusesOperand k) : RefusesOperand (withEven r k) := by
  rw [Machine.withEven]
  split
  case isTrue even => exact hk even
  case isFalse odd =>
    rw [evenReg_iff] at odd
    exact ⟨_, rfl, .inr (.inr (.inr (.inr ⟨r, rfl, by omega⟩)))⟩

end RefusesOperand

/-- The coprocessor 0 registers of R36, as the operand constraint has them. -/
theorem modelledCp0_iff {q : BitVec 5} :
    (q == 8 || q == 12 || q == 13 || q == 14) = false ↔ q ∉ [8#5, 12#5, 13#5, 14#5] := by
  simp [and_assoc]

theorem execMfc0_refusesOperand {s : State} {rt rd : Reg} (kernel : s.userMode = false)
    (hrd : rd ∉ [8#5, 12#5, 13#5, 14#5]) : RefusesOperand (execMfc0 rt rd s) := by
  refine .withCp0 kernel ?_
  split
  case h_1 | h_2 | h_3 | h_4 => exact absurd (by decide) hrd
  case h_5 => exact .cp0 hrd

theorem execMtc0_refusesOperand {s : State} {rt rd : Reg} (kernel : s.userMode = false)
    (hrd : rd ∉ [8#5, 12#5, 13#5, 14#5]) : RefusesOperand (execMtc0 rt rd s) := by
  refine .withCp0 kernel ?_
  dsimp only
  split
  case h_1 | h_2 | h_3 | h_4 => exact absurd (by decide) hrd
  case h_5 => exact .cp0 hrd

/-- An instruction that breaks a constraint reaches the check of it; the instructions without constraints break none. -/
theorem exec_refusesOperand (i : Instr) {s : State} (bad : i.operandsOk = false) (ds : s.ds = false)
    (cu1 : s.cu1 = true) (kernel : s.userMode = false) : RefusesOperand (exec i s) := by
  cases i
  case clo | clz => exact .cloClz (by simpa [Instr.operandsOk] using bad)
  case jalr => exact .outsideDelaySlot ds (.jalr (by simpa [Instr.operandsOk] using bad))
  case bgezal | bltzal => exact .outsideDelaySlot ds (.linkBranch (by simpa [Instr.operandsOk] using bad))
  case mfc0 => exact execMfc0_refusesOperand kernel (modelledCp0_iff.mp bad)
  case mtc0 => exact execMtc0_refusesOperand kernel (modelledCp0_iff.mp bad)
  case ldc1 | sdc1 | ceilWD | cvtSD | cvtWD | floorWD | roundWD | truncWD | cvtDS | cvtDW =>
    exact .withCp1 cu1 (.withEven fun even => absurd (bad.symm.trans even) Bool.false_ne_true)
  case absD | movD | movfD | movtD | movnD | movzD | negD | sqrtD | cEqD | cLeD | cLtD =>
    exact .withCp1 cu1 (.withEven fun even => .withEven fun even' => by simp [Instr.operandsOk, even, even'] at bad)
  case addD | divD | mulD | subD =>
    exact .withCp1 cu1 (.withEven fun fd => .withEven fun fs => .withEven fun ft => by
      simp [Instr.operandsOk, fd, fs, ft] at bad)
  all_goals cases bad

/-- Settles O5: `RefusesOperand`, written out. -/
theorem operandConstraints : Obligations.OperandConstraints :=
  fun i _ bad ds cu1 kernel => exec_refusesOperand i bad ds cu1 kernel

end Sys2Proof.Machine
end

section
/-! PROOFS. The statements of 40_arith_logic.md and 41_const_compare.md on the instructions that write one general
register: what each operation on words is as a number or bit by bit, and then each instruction. -/

namespace Sys2Proof.Machine

/-! ### Immediates and comparisons (R8, R28) -/

/-- Sign extension keeps the signed value (R8). -/
@[simp] theorem immSigned_toInt (imm : Half) : (immSigned imm).toInt = imm.toInt :=
  BitVec.toInt_signExtend_of_le (by decide)

/-- The sign-extended immediate, read without sign (R205). -/
theorem immSigned_toNat (imm : Half) : ((immSigned imm).toNat : Int) = imm.toInt % 2 ^ 32 := by
  have := (immSigned imm).isLt
  rw [← immSigned_toInt, BitVec.toInt_eq_toNat_cond]
  split <;> omega

/-- Zero extension adds only zeros (R8). -/
@[simp] theorem immUnsigned_getLsbD (imm : Half) (j : Nat) : (immUnsigned imm).getLsbD j = imm.getLsbD j := by
  rw [immUnsigned, zext32, BitVec.getLsbD_setWidth]
  by_cases hj : j < 32
  · simp [hj]
  · simp [imm.getLsbD_of_ge j (by omega)]

/-- `lui` puts the immediate in the upper half (R200). -/
theorem immUpper_toNat (imm : Half) : (immUpper imm).toNat = imm.toNat * 2 ^ 16 := by
  rw [immUpper, BitVec.toNat_append]
  simp [Nat.shiftLeft_eq]

theorem boolWord_decide (p : Prop) [Decidable p] : boolWord (decide p) = if p then 1#32 else 0#32 := by
  simp [boolWord]

theorem boolWord_slt (a b : Word) : boolWord (a.slt b) = if a.toInt < b.toInt then 1#32 else 0#32 :=
  boolWord_decide _

theorem boolWord_ult (a b : Word) : boolWord (a.ult b) = if a.toNat < b.toNat then 1#32 else 0#32 :=
  boolWord_decide _

/-! ### Sums and differences modulo 2^32 (R144, R146, R184) -/

/-- A difference is what gives the minuend back when the subtrahend is added (R184). -/
theorem toNat_sub_add (a b : Word) : ((a - b).toNat + b.toNat) % 2 ^ 32 = a.toNat := by
  rw [← BitVec.toNat_add, BitVec.sub_add_cancel]

theorem add_eq_ofInt (a b : Word) : a + b = BitVec.ofInt 32 (a.toInt + b.toInt) := by
  rw [BitVec.ofInt_add, BitVec.ofInt_toInt, BitVec.ofInt_toInt]

/-! ### Shifts (R175 to R180) -/

theorem toNat_shiftLeft_eq_mul (b : Word) (n : Nat) : (b <<< n).toNat = b.toNat * 2 ^ n % 2 ^ 32 := by
  rw [BitVec.toNat_shiftLeft, Nat.shiftLeft_eq]

theorem toNat_ushiftRight_eq_div (b : Word) (n : Nat) : (b >>> n).toNat = b.toNat / 2 ^ n := by
  rw [BitVec.toNat_ushiftRight, Nat.shiftRight_eq_div_pow]

/-- An arithmetic shift divides and rounds down (R177). -/
theorem toInt_sshiftRight_eq_div (b : Word) (n : Nat) : (b.sshiftRight n).toInt = b.toInt / 2 ^ n := by
  rw [BitVec.toInt_sshiftRight, Int.shiftRight_eq_div_pow, Nat.cast_pow, Nat.cast_ofNat]

/-- The five low bits of the register are its value modulo 32 (R176). -/
theorem variableDistance_toNat (s : State) (rs : Reg) : (variableDistance s rs).toNat = (s.readGpr rs).toNat % 32 := by
  simp [variableDistance]

/-! ### The 33-bit results (R141) -/

/-- The numbers that a word holds as a signed number (R141). -/
def FitsWord (n : Int) : Prop := -2 ^ 31 ≤ n ∧ n ≤ 2 ^ 31 - 1

theorem fitsWord_toInt (a : Word) : FitsWord a.toInt := ⟨a.le_toInt, a.toInt_le⟩

theorem toInt_signExtend_33 (a : Word) : (a.signExtend 33).toInt = a.toInt := BitVec.toInt_signExtend_of_le (by decide)

/-- 33 bits hold every sum of two words (R141). -/
theorem sum33_toInt (a b : Word) : (sum33 a b).toInt = a.toInt + b.toInt := by
  obtain ⟨lowerA, upperA⟩ := fitsWord_toInt a
  obtain ⟨lowerB, upperB⟩ := fitsWord_toInt b
  rw [sum33, BitVec.toInt_add, toInt_signExtend_33, toInt_signExtend_33]
  exact Int.bmod_eq_of_le (by omega) (by omega)

/-- 33 bits hold every difference of two words (R141). -/
theorem difference33_toInt (a b : Word) : (difference33 a b).toInt = a.toInt - b.toInt := by
  obtain ⟨lowerA, upperA⟩ := fitsWord_toInt a
  obtain ⟨lowerB, upperB⟩ := fitsWord_toInt b
  rw [difference33, BitVec.toInt_sub, toInt_signExtend_33, toInt_signExtend_33]
  exact Int.bmod_eq_of_le (by omega) (by omega)

/-- Bits 32 and 31 of a 33-bit number are equal exactly when its value fits a word (R141). -/
theorem overflows_eq_false_iff (t : BitVec 33) : overflows t = false ↔ FitsWord t.toInt := by
  have ht := t.isLt
  rw [overflows, FitsWord, BitVec.toInt_eq_toNat_cond, bne_eq_false_iff_eq, BitVec.getLsbD, BitVec.getLsbD,
    Nat.testBit_eq_decide_div_mod_eq, Nat.testBit_eq_decide_div_mod_eq, decide_eq_decide]
  split <;> omega

/-- Dropping bit 32 keeps a value that fits a word. -/
theorem toInt_low_of_fitsWord {t : BitVec 33} (h : FitsWord t.toInt) : (t.extractLsb' 0 32).toInt = t.toInt := by
  have ht := t.isLt
  rw [FitsWord, BitVec.toInt_eq_toNat_cond] at h
  rw [BitVec.toInt_eq_toNat_cond, BitVec.toInt_eq_toNat_cond, BitVec.extractLsb'_toNat, Nat.shiftRight_zero]
  split <;> split <;> split at h <;> omega

/-- The end of `add`, `addi` and `sub` (R141), in terms of the exact result: written when it fits a word, else `Ov`. -/
theorem setsGprOrOverflow_of {i : Instr} {s : State} {d : Reg} {t : BitVec 33} {n : Int}
    (h : exec i s = setGprOrOverflow d t s) (ht : t.toInt = n) :
    (FitsWord n → SetsGpr i s d fun v => v.toInt = n) ∧ (¬ FitsWord n → Takes i s .ov) := by
  subst ht
  rw [setGprOrOverflow] at h
  constructor
  · intro fits
    rw [(overflows_eq_false_iff t).mpr fits] at h
    exact setsGpr_of _ h (toInt_low_of_fitsWord fits)
  · intro unfit
    rw [← overflows_eq_false_iff, Bool.not_eq_false] at unfit
    rwa [unfit] at h

/-! ### Leading ones and zeros (R149, R150) -/

theorem runBelow_le (bit : Bool) (w : Word) (i : Nat) : runBelow bit w i ≤ i := by
  induction i with
  | zero => exact le_refl 0
  | succ i ih =>
    rw [runBelow]
    split <;> omega

/-- The bits counted are equal to `bit`. -/
theorem getLsbD_of_lt_runBelow {bit : Bool} {w : Word} {i j : Nat} (hj : j < runBelow bit w i) :
    w.getLsbD (i - 1 - j) = bit := by
  induction i generalizing j with
  | zero => exact absurd hj (Nat.not_lt_zero j)
  | succ i ih =>
    rw [runBelow] at hj
    split at hj
    case isTrue first =>
      cases j with
      | zero => exact beq_iff_eq.mp first
      | succ j =>
        rw [show i + 1 - 1 - (j + 1) = i - 1 - j by omega]
        exact ih (by omega)
    case isFalse => exact absurd hj (Nat.not_lt_zero j)

/-- The bit after the ones counted, if there is one, is not equal to `bit`. -/
theorem getLsbD_runBelow {bit : Bool} {w : Word} {i : Nat} (h : runBelow bit w i < i) :
    w.getLsbD (i - 1 - runBelow bit w i) = !bit := by
  induction i with
  | zero => exact absurd h (Nat.not_lt_zero _)
  | succ i ih =>
    rw [runBelow] at h ⊢
    split at h
    case isTrue first =>
      rw [if_pos first, show i + 1 - 1 - (runBelow bit w i + 1) = i - 1 - runBelow bit w i by omega]
      exact ih (by omega)
    case isFalse first =>
      rw [if_neg first]
      exact Bool.eq_not.mpr (by simpa using first)

/-- The number of leading bits of a word that are equal to `bit` (R149, R150). -/
def IsLeadingCount (bit : Bool) (w v : Word) : Prop :=
  v.toNat ≤ 32 ∧ (∀ j < v.toNat, w.getLsbD (31 - j) = bit) ∧ (v.toNat < 32 → w.getLsbD (31 - v.toNat) = !bit)

theorem leadingCount_isLeadingCount (bit : Bool) (w : Word) :
    IsLeadingCount bit w (BitVec.ofNat 32 (leadingCount bit w)) := by
  have le : leadingCount bit w ≤ 32 := runBelow_le bit w 32
  have count : (BitVec.ofNat 32 (leadingCount bit w)).toNat = leadingCount bit w := by
    rw [BitVec.toNat_ofNat]
    omega
  rw [IsLeadingCount, count]
  exact ⟨le, fun _ => getLsbD_of_lt_runBelow, getLsbD_runBelow⟩

/-- The shared end of `clo` and `clz`: the count, or the refusal of the `rt` field (R121). -/
theorem setsLeadingCount_of {i : Instr} {s : State} {d rt : Reg} {bit : Bool} {w : Word}
    (h : exec i s = if rt = d ∨ rt = 0#5 then setGpr d (BitVec.ofNat 32 (leadingCount bit w)) s
      else .refused .cloClzRtField) :
    (rt = d ∨ rt = 0#5 → SetsGpr i s d (IsLeadingCount bit w)) ∧
      (¬ (rt = d ∨ rt = 0#5) → exec i s = .refused .cloClzRtField) :=
  ⟨fun good => setsGpr_of _ (h.trans (if_pos good)) (leadingCount_isLeadingCount bit w),
    fun bad => h.trans (if_neg bad)⟩

/-! ### The instructions -/

/-- Settles O20: each result as a number or bit by bit. -/
theorem threeRegister : Obligations.ThreeRegister := fun s _ rs rt =>
  let a := s.readGpr rs
  let b := s.readGpr rt
  ⟨⟨rfl, setsGpr_of (a + b) rfl (BitVec.toNat_add a b)⟩,
   ⟨rfl, setsGpr_of (a - b) rfl (toNat_sub_add a b)⟩,
   ⟨rfl, setsGpr_of (a &&& b) rfl fun _ => BitVec.getLsbD_and⟩,
   ⟨rfl, setsGpr_of (a ||| b) rfl fun _ => BitVec.getLsbD_or⟩,
   ⟨rfl, setsGpr_of (a ^^^ b) rfl fun _ => BitVec.getLsbD_xor⟩,
   ⟨rfl, setsGpr_of (~~~(a ||| b)) rfl fun j hj => by simp [hj, a, b]⟩,
   ⟨rfl, setsGpr_of (boolWord (a.slt b)) rfl (boolWord_slt a b)⟩,
   ⟨rfl, setsGpr_of (boolWord (a.ult b)) rfl (boolWord_ult a b)⟩⟩

/-- Settles O21: the sign-extended immediates by their value, the zero-extended ones bit by bit. -/
theorem immediate : Obligations.Immediate := by
  intro s rt rs imm a
  refine ⟨⟨rfl, setsGpr_of _ rfl ?addiu⟩, ⟨rfl, setsGpr_of _ rfl ?andi⟩, ⟨rfl, setsGpr_of _ rfl ?ori⟩,
    ⟨rfl, setsGpr_of _ rfl ?xori⟩, ⟨rfl, setsGpr_of _ rfl (immUpper_toNat imm)⟩, ⟨rfl, setsGpr_of _ rfl ?slti⟩,
    ⟨rfl, setsGpr_of _ rfl ?sltiu⟩⟩
  case addiu => rw [add_eq_ofInt, immSigned_toInt]
  case andi => intro j; rw [BitVec.getLsbD_and, immUnsigned_getLsbD]
  case ori => intro j; rw [BitVec.getLsbD_or, immUnsigned_getLsbD]
  case xori => intro j; rw [BitVec.getLsbD_xor, immUnsigned_getLsbD]
  case slti => rw [boolWord_slt, immSigned_toInt]
  case sltiu => simp only [boolWord_ult, ← immSigned_toNat, Nat.cast_lt, a]

/-- Settles O22: multiplication and division by a power of 2; a variable distance is taken modulo 32. -/
theorem shifts : Obligations.Shifts := by
  intro s rd rt rs shamt b n
  have hn : (variableDistance s rs).toNat = n := variableDistance_toNat s rs
  rw [← hn]
  exact
    ⟨⟨rfl, setsGpr_of _ rfl (toNat_shiftLeft_eq_mul b _)⟩,
     ⟨rfl, setsGpr_of _ rfl (toNat_ushiftRight_eq_div b _)⟩,
     ⟨rfl, setsGpr_of _ rfl (toInt_sshiftRight_eq_div b _)⟩,
     ⟨rfl, setsGpr_of _ rfl (toNat_shiftLeft_eq_mul b _)⟩,
     ⟨rfl, setsGpr_of _ rfl (toNat_ushiftRight_eq_div b _)⟩,
     ⟨rfl, setsGpr_of _ rfl (toInt_sshiftRight_eq_div b _)⟩⟩

/-- Settles O23: the 33-bit result is exact, and its overflow test is `FitsWord`. -/
theorem overflowArithmetic : Obligations.OverflowArithmetic := fun _ _ _ _ imm =>
  ⟨⟨rfl, setsGprOrOverflow_of rfl (sum33_toInt _ _)⟩,
   ⟨rfl, setsGprOrOverflow_of rfl ((sum33_toInt _ _).trans (by rw [immSigned_toInt]))⟩,
   ⟨rfl, setsGprOrOverflow_of rfl (difference33_toInt _ _)⟩⟩

/-- Settles O24: `IsLeadingCount`, written out. -/
theorem leadingCounts : Obligations.LeadingCounts := fun _ _ _ _ =>
  ⟨⟨rfl, setsLeadingCount_of rfl⟩, ⟨rfl, setsLeadingCount_of rfl⟩⟩

end Sys2Proof.Machine
end

section
/-! PROOFS. The statements of 40_arith_logic.md on `hi` and `lo`: products and accumulators as 64-bit numbers, the
quotient and the remainder, and then each instruction. -/

namespace Sys2Proof.Machine

/-! ### A doubleword in two halves (R30, R158) -/

theorem toNat_append_words (hi lo : Word) : (hi ++ lo).toNat = hi.toNat * 2 ^ 32 + lo.toNat := by
  rw [BitVec.toNat_append, ← Nat.shiftLeft_add_eq_or_of_lt lo.isLt, Nat.shiftLeft_eq]

/-- The two halves of a doubleword, without sign. -/
theorem toNat_halves (v : Dword) : (v.extractLsb' 32 32).toNat * 2 ^ 32 + (v.extractLsb' 0 32).toNat = v.toNat := by
  rw [← toNat_append_words, append_extract]

/-- The two halves of a doubleword, the most significant one with sign. -/
theorem toInt_halves (v : Dword) : (v.extractLsb' 32 32).toInt * 2 ^ 32 + (v.extractLsb' 0 32).toNat = v.toInt := by
  conv_rhs => rw [← append_extract v, BitVec.toInt_append, if_neg (by decide), Int.mul_comm]

/-! ### Products (R156, R157) -/

theorem signedProduct_eq_ofInt (a b : Word) : signedProduct a b = BitVec.ofInt 64 (a.toInt * b.toInt) := by
  rw [BitVec.ofInt_mul]
  rfl

theorem unsignedProduct_toNat (a b : Word) : (unsignedProduct a b).toNat = a.toNat * b.toNat := by
  have lt : a.toNat * b.toNat < 2 ^ 64 := BitVec.toNat_mul_toNat_lt
  rw [unsignedProduct, BitVec.toNat_mul]
  simpa using Nat.mod_eq_of_lt lt

theorem unsignedProduct_eq_ofInt (a b : Word) : unsignedProduct a b = BitVec.ofInt 64 (a.toNat * b.toNat) := by
  rw [← Nat.cast_mul, BitVec.ofInt_natCast, ← unsignedProduct_toNat, BitVec.ofNat_toNat, BitVec.setWidth_eq]

/-- The low half of the product (R160). -/
theorem mul_eq_ofNat (a b : Word) : a * b = BitVec.ofNat 32 (a.toNat * b.toNat) := by
  rw [BitVec.ofNat_mul, BitVec.ofNat_toNat, BitVec.ofNat_toNat, BitVec.setWidth_eq, BitVec.setWidth_eq]

theorem signedProduct_toInt (a b : Word) : (signedProduct a b).toInt = a.toInt * b.toInt := by
  have upper : a.toInt * b.toInt ≤ 2 ^ 62 := BitVec.toInt_mul_toInt_le
  have lower : -2 ^ 62 ≤ a.toInt * b.toInt := BitVec.le_toInt_mul_toInt
  rw [signedProduct_eq_ofInt, BitVec.toInt_ofInt_eq_self (by decide) (by omega) (by omega)]

/-! ### The accumulator (R163 to R166) -/

/-- The value of `hi ++ lo` without sign. -/
def hiLoValue (hi lo : Word) : Int := (hi.toNat : Int) * 2 ^ 32 + lo.toNat

theorem hiLoValue_eq_toNat (hi lo : Word) : hiLoValue hi lo = (hi ++ lo).toNat := by
  rw [hiLoValue, toNat_append_words, Nat.cast_add, Nat.cast_mul, Nat.cast_pow, Nat.cast_ofNat]

theorem readHiLo_eq_ofInt (s : State) : s.readHiLo = BitVec.ofInt 64 (hiLoValue s.hi s.lo) := by
  rw [hiLoValue_eq_toNat, BitVec.ofInt_natCast, BitVec.ofNat_toNat, BitVec.setWidth_eq, State.readHiLo]

/-- `hi ++ lo` after the write of a doubleword that is a number modulo 2^64. -/
theorem setsHiLo_of_ofInt {i : Instr} {s : State} {n : Int} (v : Dword) (h : exec i s = setHiLo v s)
    (hv : v = BitVec.ofInt 64 n) : SetsHiLo i s fun hi lo => hiLoValue hi lo = n % 2 ^ 64 := by
  refine setsHiLo_of v h ?_
  rw [hiLoValue_eq_toNat, append_extract, hv, BitVec.toNat_ofInt]
  omega

/-- Adding to the accumulator a doubleword that is a number modulo 2^64. -/
theorem readHiLo_add_ofInt (s : State) (p : Int) :
    s.readHiLo + BitVec.ofInt 64 p = BitVec.ofInt 64 (hiLoValue s.hi s.lo + p) := by
  rw [readHiLo_eq_ofInt, BitVec.ofInt_add]

theorem readHiLo_sub_ofInt (s : State) (p : Int) :
    s.readHiLo - BitVec.ofInt 64 p = BitVec.ofInt 64 (hiLoValue s.hi s.lo - p) := by
  rw [readHiLo_eq_ofInt, Int.sub_eq_add_neg, BitVec.ofInt_add, BitVec.ofInt_neg, BitVec.sub_eq_add_neg]

/-! ### The ends of `mul` and of a division (R151, R160) -/

theorem changesOnly_forgetHiLo (s : State) : ChangesOnly [.hiLo] s s.forgetHiLo.advance :=
  changesOnly_iff.mpr (by simp [Unchanged])

/-- A division by 0 leaves values of `hi` and `lo` of which nothing is said (R151). -/
theorem setsHiLo_of_forgetHiLo {i : Instr} {s : State} (h : exec i s = .next s.forgetHiLo.advance) :
    SetsHiLo i s fun _ _ => True :=
  ⟨_, h, trivial, changesOnly_forgetHiLo s, advanced_advance s _ rfl⟩

/-- The end of a division is a write of the pair. -/
theorem setQuotientRemainder_eq_setHiLo (q r : Word) (s : State) : setQuotientRemainder q r s = setHiLo (r ++ q) s := by
  rw [setHiLo, State.writeHiLo, BitVec.extractLsb'_append_eq_left, BitVec.extractLsb'_append_eq_right]
  rfl

theorem setsHiLo_of_quotientRemainder {i : Instr} {s : State} {P : Word → Word → Prop} (q r : Word)
    (h : exec i s = setQuotientRemainder q r s) (hP : P r q) : SetsHiLo i s P := by
  refine setsHiLo_of _ (h.trans (setQuotientRemainder_eq_setHiLo q r s)) ?_
  rwa [BitVec.extractLsb'_append_eq_left, BitVec.extractLsb'_append_eq_right]

/-! ### Quotient and remainder (R151 to R153) -/

theorem toNat_eq_udiv_mul_add_umod (a b : Word) : a.toNat = (a / b).toNat * b.toNat + (a % b).toNat := by
  rw [BitVec.toNat_udiv, BitVec.toNat_umod, Nat.div_add_mod']

theorem toNat_umod_lt (a : Word) {b : Word} (hb : b ≠ 0#32) : (a % b).toNat < b.toNat := by
  rw [BitVec.toNat_umod]
  exact Nat.mod_lt _ (Nat.pos_of_ne_zero (BitVec.toNat_ne.mp hb))

/-- `SDIV_NEG` gives a pair with `q*b + r = a` modulo 2^32, truncating or not (R151). -/
theorem sdivNeg_mul_add (p : Params) (a b : Word) : (sdivNeg p a b).1 * b + (sdivNeg p a b).2 = a := by
  rw [sdivNeg]
  cases p.sdivNeg with
  | recommended =>
    calc BitVec.ofInt 32 (a.toInt.tdiv b.toInt) * b + BitVec.ofInt 32 (a.toInt.tmod b.toInt)
        = BitVec.ofInt 32 (a.toInt.tdiv b.toInt * b.toInt + a.toInt.tmod b.toInt) := by
          rw [BitVec.ofInt_add, BitVec.ofInt_mul, BitVec.ofInt_toInt]
      _ = a := by rw [Int.tdiv_mul_add_tmod, BitVec.ofInt_toInt]
  | implementation => exact add_sub_cancel ..

/-- The recommended `SDIV_NEG` truncates (R151). -/
theorem sdivNeg_recommended {p : Params} (hp : p.sdivNeg = .recommended) (a b : Word) :
    sdivNeg p a b =
      (BitVec.ofInt 32 (a.toInt.tdiv b.toInt), BitVec.ofInt 32 (a.toInt - a.toInt.tdiv b.toInt * b.toInt)) := by
  rw [sdivNeg, hp, Int.tmod_def, Int.mul_comm]

section
variable {s : State} {rs rt : Reg}

theorem execDiv_of_eq_zero (hb : s.readGpr rt = 0#32) : execDiv rs rt s = .next s.forgetHiLo.advance := if_pos hb

theorem execDiv_of_nonneg (hb : s.readGpr rt ≠ 0#32) (ha0 : 0 ≤ (s.readGpr rs).toInt)
    (hb0 : 0 ≤ (s.readGpr rt).toInt) :
    execDiv rs rt s =
      setQuotientRemainder (s.readGpr rs / s.readGpr rt) (s.readGpr rs % s.readGpr rt) s := by
  simp [execDiv, hb, BitVec.msb_eq_toInt, ha0, hb0]

theorem execDiv_of_neg (hb : s.readGpr rt ≠ 0#32) (neg : (s.readGpr rs).toInt < 0 ∨ (s.readGpr rt).toInt < 0) :
    execDiv rs rt s =
      setQuotientRemainder (sdivNeg s.params (s.readGpr rs) (s.readGpr rt)).1
        (sdivNeg s.params (s.readGpr rs) (s.readGpr rt)).2 s := by
  have msb : ¬ ((!(s.readGpr rs).msb && !(s.readGpr rt).msb) = true) := by
    simp only [BitVec.msb_eq_toInt, Bool.and_eq_true, Bool.not_eq_true', decide_eq_false_iff_not]
    omega
  rw [execDiv, if_neg hb, if_neg msb]

theorem execDivu_of_eq_zero (hb : s.readGpr rt = 0#32) : execDivu rs rt s = .next s.forgetHiLo.advance := if_pos hb

theorem execDivu_of_ne_zero (hb : s.readGpr rt ≠ 0#32) :
    execDivu rs rt s =
      setQuotientRemainder (s.readGpr rs / s.readGpr rt) (s.readGpr rs % s.readGpr rt) s := if_neg hb

end

/-! ### The instructions -/

/-- Settles O25: the exact product, in its two halves. -/
theorem multiply : Obligations.Multiply := by
  intro s rs rt a b
  refine ⟨⟨rfl, setsHiLo_of (signedProduct a b) rfl ?signed⟩,
    ⟨rfl, setsHiLo_of (unsignedProduct a b) rfl ?unsigned⟩⟩
  case signed => rw [toInt_halves, signedProduct_toInt]
  case unsigned => rw [toNat_halves, unsignedProduct_toNat]

/-- Settles O26: the accumulator and the product as numbers modulo 2^64. -/
theorem multiplyAccumulate : Obligations.MultiplyAccumulate := by
  intro s rs rt a b pair acc
  refine ⟨⟨rfl, setsHiLo_of_ofInt (s.readHiLo + signedProduct a b) rfl ?madd⟩,
    ⟨rfl, setsHiLo_of_ofInt (s.readHiLo + unsignedProduct a b) rfl ?maddu⟩,
    ⟨rfl, setsHiLo_of_ofInt (s.readHiLo - signedProduct a b) rfl ?msub⟩,
    ⟨rfl, setsHiLo_of_ofInt (s.readHiLo - unsignedProduct a b) rfl ?msubu⟩⟩
  case madd => rw [signedProduct_eq_ofInt]; exact readHiLo_add_ofInt ..
  case maddu => rw [unsignedProduct_eq_ofInt]; exact readHiLo_add_ofInt ..
  case msub => rw [signedProduct_eq_ofInt]; exact readHiLo_sub_ofInt ..
  case msubu => rw [unsignedProduct_eq_ofInt]; exact readHiLo_sub_ofInt ..

/-- Settles O27: the register write after `hi` and `lo` are forgotten. -/
theorem multiplyLow : Obligations.MultiplyLow := by
  intro s rd rs rt
  refine ⟨rfl, _, rfl, fun r => ?value, changesOnly_iff.mpr ?frame, advanced_advance s _ rfl⟩
  case value =>
    rw [State.advance_readGpr, State.readGpr_writeGpr, State.forgetHiLo_readGpr, mul_eq_ofNat]
  case frame => simp [Unchanged]

/-- Settles O28: by the divisor and the signs, as R151 and R152 distinguish them. -/
theorem division : Obligations.Division := by
  intro s rs rt a b exactPair
  have isExact (hb : b ≠ 0#32) : exactPair (a % b) (a / b) := ⟨toNat_eq_udiv_mul_add_umod a b, toNat_umod_lt a hb⟩
  refine ⟨⟨rfl, fun hb => ?divu, fun hb => setsHiLo_of_forgetHiLo (execDivu_of_eq_zero hb)⟩,
    ⟨rfl, fun ha0 hb0 => ?nonneg, fun hb neg => ?neg, fun hb => setsHiLo_of_forgetHiLo (execDiv_of_eq_zero hb)⟩⟩
  case divu => exact setsHiLo_of_quotientRemainder _ _ (execDivu_of_ne_zero hb) (isExact hb)
  case nonneg =>
    have hb : b ≠ 0#32 := fun h => by simp [h] at hb0
    exact setsHiLo_of_quotientRemainder _ _ (execDiv_of_nonneg hb ha0 hb0.le) (isExact hb)
  case neg =>
    refine setsHiLo_of_quotientRemainder _ _ (execDiv_of_neg hb neg) ⟨sdivNeg_mul_add s.params a b, fun hp => ?_⟩
    rw [sdivNeg_recommended hp]
    exact ⟨rfl, rfl⟩

end Sys2Proof.Machine
end

section
/-! PROOFS. The statements of 42_branch_jump.md: the targets as numbers, what a branch or a jump changes besides the
program counter, and then each instruction by the shape of its meaning. -/

namespace Sys2Proof.Machine

/-! ### Targets (R231, R232) -/

/-- The target of a branch, as a number modulo 2^32 (R231). -/
def numericTarget (s : State) (imm : Half) : Word := BitVec.ofInt 32 (s.pc.toNat + 4 + 4 * imm.toInt)

theorem branchTarget_eq_numericTarget (s : State) (imm : Half) : branchTarget s imm = numericTarget s imm := by
  have scaled : immSigned imm <<< 2 = BitVec.ofInt 32 (4 * imm.toInt) := by
    rw [BitVec.shiftLeft_eq_mul_twoPow, BitVec.mul_comm, BitVec.ofInt_mul, ← immSigned_toInt, BitVec.ofInt_toInt]
    rfl
  rw [branchTarget, numericTarget, scaled, BitVec.ofInt_add, BitVec.ofInt_add, BitVec.ofInt_natCast,
    BitVec.ofNat_toNat, BitVec.setWidth_eq]
  rfl

/-- The target of `j` and `jal`, as a number: the region of the delay slot and the field times 4 (R232). -/
theorem jumpTarget_eq_ofNat (s : State) (target : BitVec 26) :
    jumpTarget s target =
      BitVec.ofNat 32 ((s.pc + 4#32).toNat / 2 ^ 28 * 2 ^ 28 + 4 * target.toNat) := by
  have region := (s.pc + 4#32).isLt
  have field := target.isLt
  apply BitVec.eq_of_toNat_eq
  rw [jumpTarget, toNat_append, toNat_append, BitVec.extractLsb'_toNat, Nat.shiftRight_eq_div_pow, BitVec.toNat_ofNat,
    BitVec.toNat_ofNat]
  omega

/-! ### What a branch changes (R9) -/

theorem changedNothing_branchIf (s : State) (taken : Bool) (target : Word) :
    ChangedNothing s (s.branchIf taken target) :=
  changesOnly_iff.mpr (by simp [Unchanged])

theorem wroteGpr_branchIf (s : State) (d : Reg) (v : Word) (taken : Bool) (target : Word) :
    WroteGpr d v s ((s.writeGpr d v).branchIf taken target) := by
  refine ⟨fun r => ?value, changesOnly_iff.mpr ?frame⟩
  case value => rw [State.branchIf_readGpr, State.readGpr_writeGpr]
  case frame => simp [Unchanged]

/-! ### From the shape of a meaning to its two ends -/

/-- The two ends of a conditional branch: to `target` or past the delay slot, with `Q` of the next state in both. -/
def BranchesWhen (i : Instr) (s : State) (c : Prop) (target : Word) (Q : State → Prop) : Prop :=
  (c → Completes i s fun t => BranchedTo target s t ∧ Q t) ∧
  (¬ c → Completes i s fun t => FellThrough s t ∧ Q t)

section
variable {i : Instr} {s : State} {c : Prop} {taken : Bool} {imm : Half}

/-- A branch from a state `u` that has the program counters of `s`. -/
theorem branchesWhen_of {u : State} {target : Word} {Q : State → Prop}
    (h : exec i s = .next (u.branchIf taken target)) (npc : u.npc = s.npc) (cond : taken = true ↔ c)
    (frame : Q (u.branchIf taken target)) : BranchesWhen i s c target Q := by
  constructor
  · intro hc
    obtain rfl := cond.mpr hc
    exact ⟨_, h, ⟨npc, rfl, rfl⟩, frame⟩
  · intro hc
    obtain rfl := Bool.eq_false_iff.mpr fun ht => hc (cond.mp ht)
    exact ⟨_, h, ⟨npc, congrArg (· + 4#32) npc, rfl⟩, frame⟩

theorem branchesWhen_of_branchIf (h : exec i s = .next (s.branchIf taken (branchTarget s imm)))
    (cond : taken = true ↔ c) :
    BranchesWhen i s c (numericTarget s imm) (ChangedNothing s) := by
  rw [← branchTarget_eq_numericTarget]
  exact branchesWhen_of h rfl cond (changedNothing_branchIf s taken _)

/-- The meaning of `beq`, `bne` and the comparisons with 0: the refusal in a delay slot, then the branch (R233). -/
theorem conditionalBranch_of
    (h : exec i s = outsideDelaySlot s (.next (s.branchIf taken (branchTarget s imm)))) (cond : taken = true ↔ c) :
    OutsideSlot i s (BranchesWhen i s c (numericTarget s imm) (ChangedNothing s)) :=
  outsideSlot_of h fun _ h => branchesWhen_of_branchIf h cond

/-- The meaning of `bc1f` and `bc1t`: `CpU` comes after the delay slot (R472). -/
theorem flagBranch_of
    (h : exec i s = outsideDelaySlot s (withCp1 s (.next (s.branchIf taken (branchTarget s imm)))))
    (cond : taken = true ↔ c) :
    OutsideSlot i s (NeedsCp1 i s (BranchesWhen i s c (numericTarget s imm) (ChangedNothing s))) :=
  outsideSlot_of h fun _ h => needsCp1_of h fun _ h => branchesWhen_of_branchIf h cond

/-- The meaning of `bgezal` and `bltzal`: the operand constraint, then the link and the branch (R121, R234). -/
theorem linkBranch_of {rs : Reg}
    (h : exec i s = outsideDelaySlot s (if rs = 31#5 then .refused .linkBranchReadsRa
      else .next ((s.writeGpr 31#5 (linkValue s)).branchIf taken (branchTarget s imm)))) (cond : taken = true ↔ c) :
    OutsideSlot i s
      ((rs = 31#5 → exec i s = .refused .linkBranchReadsRa) ∧
       (rs ≠ 31#5 → c → Completes i s fun t =>
         BranchedTo (numericTarget s imm) s t ∧ WroteGpr 31#5 (s.pc + 8#32) s t) ∧
       (rs ≠ 31#5 → ¬ c → Completes i s fun t => FellThrough s t ∧ WroteGpr 31#5 (s.pc + 8#32) s t)) := by
  refine outsideSlot_of h fun _ h => ?_
  have ends (good : rs ≠ 31#5) :
      BranchesWhen i s c (numericTarget s imm) (WroteGpr 31#5 (s.pc + 8#32) s) := by
    rw [← branchTarget_eq_numericTarget]
    exact branchesWhen_of (h.trans (if_neg good)) rfl cond (wroteGpr_branchIf s 31#5 _ taken _)
  exact ⟨fun bad => h.trans (if_pos bad), fun good => (ends good).1, fun good => (ends good).2⟩

/-- The end of `j` and `jr`, which is a branch that is taken. -/
theorem jump_of {target target' : Word} (h : exec i s = .next (s.branchTo target)) (eq : target = target') :
    Completes i s fun t => BranchedTo target' s t ∧ ChangedNothing s t :=
  ⟨_, h, ⟨rfl, eq, rfl⟩, changedNothing_branchIf s true target⟩

/-- The end of `jal` and `jalr`: the target is the one before the link is written. -/
theorem jumpAndLink_of {rd : Reg} {target target' : Word}
    (h : exec i s = .next ((s.writeGpr rd (linkValue s)).branchTo target)) (eq : target = target') :
    Completes i s fun t => BranchedTo target' s t ∧ WroteGpr rd (s.pc + 8#32) s t :=
  ⟨_, h, ⟨rfl, eq, rfl⟩, wroteGpr_branchIf s rd _ true target⟩

end

/-! ### The conditions (R239 to R244) -/

theorem zero_sle_iff (a : Word) : (0#32).sle a = true ↔ 0 ≤ a.toInt := by
  rw [BitVec.sle_iff_toInt_le, BitVec.toInt_zero]

theorem zero_slt_iff (a : Word) : (0#32).slt a = true ↔ 0 < a.toInt := by
  rw [BitVec.slt_iff_toInt_lt, BitVec.toInt_zero]

theorem sle_zero_iff (a : Word) : a.sle 0#32 = true ↔ a.toInt ≤ 0 := by
  rw [BitVec.sle_iff_toInt_le, BitVec.toInt_zero]

theorem slt_zero_iff (a : Word) : a.slt 0#32 = true ↔ a.toInt < 0 := by
  rw [BitVec.slt_iff_toInt_lt, BitVec.toInt_zero]

/-! ### The instructions -/

/-- Settles O29: each is a branch on its own condition. -/
theorem conditionalBranches : Obligations.ConditionalBranches := fun s rs _ _ =>
  let a := s.readGpr rs
  ⟨⟨rfl, conditionalBranch_of rfl beq_iff_eq⟩,
   ⟨rfl, conditionalBranch_of rfl bne_iff_ne⟩,
   ⟨rfl, conditionalBranch_of rfl (zero_sle_iff a)⟩,
   ⟨rfl, conditionalBranch_of rfl (zero_slt_iff a)⟩,
   ⟨rfl, conditionalBranch_of rfl (sle_zero_iff a)⟩,
   ⟨rfl, conditionalBranch_of rfl (slt_zero_iff a)⟩⟩

/-- Settles O30: `bc1f` branches on the flag negated. -/
theorem flagBranches : Obligations.FlagBranches := fun s cc _ =>
  ⟨⟨rfl, flagBranch_of rfl (Bool.not_eq_true' (s.readFcc cc)).to_iff⟩,
   ⟨rfl, flagBranch_of rfl Iff.rfl⟩⟩

/-- Settles O31: the link is written before the branch, taken or not. -/
theorem linkBranches : Obligations.LinkBranches := fun s rs _ =>
  let a := s.readGpr rs
  ⟨⟨rfl, linkBranch_of rfl (zero_sle_iff a)⟩,
   ⟨rfl, linkBranch_of rfl (slt_zero_iff a)⟩⟩

/-- Settles O32: the targets of `j` and `jal` as numbers, and the operand constraint of `jalr` (R121). -/
theorem jumps : Obligations.Jumps := by
  intro s rs rd target inRegion
  have region : jumpTarget s target = inRegion := jumpTarget_eq_ofNat s target
  refine ⟨⟨rfl, outsideSlot_of rfl fun _ h => jump_of h region⟩,
    ⟨rfl, outsideSlot_of rfl fun _ h => jumpAndLink_of h region⟩,
    ⟨rfl, outsideSlot_of rfl fun _ h => jump_of h rfl⟩,
    ⟨rfl, outsideSlot_of rfl fun _ h => ⟨fun same => h.trans (if_pos same), fun other => ?jalr⟩⟩⟩
  case jalr => exact jumpAndLink_of (h.trans (if_neg other)) rfl

end Sys2Proof.Machine
end

section
/-! PROOFS. The statements of 43_trap.md: the two ends of a trap, the six conditions as comparisons of numbers, and then
each instruction. -/

namespace Sys2Proof.Machine

/-! ### The two ends of a trap (R280) -/

/-- The two ends of a trap instruction: `Tr`, or only `advance`. -/
def TrapsWhen (i : Instr) (s : State) (c : Prop) : Prop := (c → Takes i s .tr) ∧ (¬ c → OnlyAdvances i s)

theorem trapsWhen_of {i : Instr} {s : State} {c : Prop} {b : Bool} (h : exec i s = trapIf b s) (cond : b = true ↔ c) :
    TrapsWhen i s c := by
  constructor
  · intro hc
    exact h.trans (if_pos (cond.mpr hc))
  · intro hc
    exact onlyAdvances_of (h.trans (if_neg (mt cond.mp hc)))

/-! ### Comparisons with the immediate (R280) -/

theorem eq_immSigned_iff (a : Word) (imm : Half) : a = immSigned imm ↔ a.toInt = imm.toInt := by
  rw [← BitVec.toInt_inj, immSigned_toInt]

theorem immSigned_sle_iff (a : Word) (imm : Half) : (immSigned imm).sle a = true ↔ imm.toInt ≤ a.toInt := by
  rw [BitVec.sle_iff_toInt_le, immSigned_toInt]

theorem slt_immSigned_iff (a : Word) (imm : Half) : a.slt (immSigned imm) = true ↔ a.toInt < imm.toInt := by
  rw [BitVec.slt_iff_toInt_lt, immSigned_toInt]

/-- The unsigned comparison is with the sign-extended immediate, read without sign. -/
theorem immSigned_ule_iff (a : Word) (imm : Half) :
    (immSigned imm).ule a = true ↔ imm.toInt % 2 ^ 32 ≤ (a.toNat : Int) := by
  rw [BitVec.ule_iff_toNat_le, ← immSigned_toNat, Nat.cast_le]

theorem ult_immSigned_iff (a : Word) (imm : Half) :
    a.ult (immSigned imm) = true ↔ (a.toNat : Int) < imm.toInt % 2 ^ 32 := by
  rw [BitVec.ult_iff_toNat_lt, ← immSigned_toNat, Nat.cast_lt]

/-! ### The instructions -/

/-- Settles O33: each traps on its own comparison of two registers. -/
theorem registerTraps : Obligations.RegisterTraps := fun _ _ _ _ =>
  ⟨⟨rfl, trapsWhen_of rfl beq_iff_eq⟩,
   ⟨rfl, trapsWhen_of rfl bne_iff_ne⟩,
   ⟨rfl, trapsWhen_of rfl BitVec.sle_iff_toInt_le⟩,
   ⟨rfl, trapsWhen_of rfl BitVec.ule_iff_toNat_le⟩,
   ⟨rfl, trapsWhen_of rfl BitVec.slt_iff_toInt_lt⟩,
   ⟨rfl, trapsWhen_of rfl BitVec.ult_iff_toNat_lt⟩⟩

/-- Settles O34: each traps on its own comparison of a register with the sign-extended immediate. -/
theorem immediateTraps : Obligations.ImmediateTraps := fun s rs imm =>
  let a := s.readGpr rs
  ⟨⟨rfl, trapsWhen_of rfl (beq_iff_eq.trans (eq_immSigned_iff a imm))⟩,
   ⟨rfl, trapsWhen_of rfl (bne_iff_ne.trans (eq_immSigned_iff a imm).not)⟩,
   ⟨rfl, trapsWhen_of rfl (immSigned_sle_iff a imm)⟩,
   ⟨rfl, trapsWhen_of rfl (immSigned_ule_iff a imm)⟩,
   ⟨rfl, trapsWhen_of rfl (slt_immSigned_iff a imm)⟩,
   ⟨rfl, trapsWhen_of rfl (ult_immSigned_iff a imm)⟩⟩

end Sys2Proof.Machine
end

section
/-! PROOFS. The statements of 44_load_store.md on aligned accesses, of general and of floating-point registers, and
on `sc`: what a load reads and a store leaves as numbers, and then each instruction. -/

namespace Sys2Proof.Machine

/-! ### The values of loads (R62, R303 to R308) -/

/-- A sign-extended value is the two's complement reading of the narrow one (R303, R305). -/
theorem toInt_signExtend_eq_ite {w : Nat} (hw : w < 32) (v : BitVec (w + 1)) :
    (v.signExtend 32).toInt = if v.toNat < 2 ^ w then (v.toNat : Int) else v.toNat - 2 ^ (w + 1) := by
  have negative : 2 * v.toNat < 2 ^ (w + 1) ↔ v.toNat < 2 ^ w := by omega
  rw [BitVec.toInt_signExtend_of_le hw, BitVec.toInt_eq_toNat_cond, Nat.cast_pow, Nat.cast_ofNat]
  exact if_congr negative rfl rfl

theorem readWord_eq_ofNat (s : State) {a : Word} (aligned : a.toNat % 4 = 0) :
    s.readWord a = BitVec.ofNat 32 (s.memValue a 4) := by
  rw [← toNat_readWord s aligned, BitVec.ofNat_toNat, BitVec.setWidth_eq]

theorem readDword_eq_ofNat (s : State) {a : Word} (aligned : a.toNat % 8 = 0) :
    s.readDword a = BitVec.ofNat 64 (s.memValue a 8) := by
  rw [← toNat_readDword s aligned, BitVec.ofNat_toNat, BitVec.setWidth_eq]

/-! ### The link (R331, R332) -/

/-- The state with another link, and the counter of free choices that `sc` moves on. -/
def State.setLink (s : State) (linked : Bool) (a : Word) (draws : Nat) : State :=
  { s with llbit := linked, lladdr := a, draws := draws }

section
variable {s : State} {linked : Bool} {a : Word} {draws : Nat} {rt : Reg} {v : Word}

/-- The general registers after `ll` and `sc`. -/
theorem readGpr_setLink_writeGpr (r : Reg) :
    ((s.setLink linked a draws).writeGpr rt v).advance.readGpr r =
      if r = 0#5 then 0#32 else if r = rt then v else s.readGpr r := by
  rw [State.advance_readGpr, State.readGpr_writeGpr]
  rfl

theorem changesOnly_setLink_writeGpr :
    ChangesOnly [.gpr, .link] s ((s.setLink linked a draws).writeGpr rt v).advance := by
  intro p other
  cases p with
  | gpr | link => simp at other
  | fpr | fcc => exact fun _ => rfl
  | hiLo | inputs => exact ⟨rfl, rfl⟩
  | cp0 => exact ⟨rfl, rfl, rfl, rfl⟩
  | mem => exact ⟨fun _ => rfl, rfl⟩

end

/-- The end of `ll`: the register and the link (R331). -/
theorem loadLinked_of {i : Instr} {s : State} {rt : Reg} {a v v' : Word}
    (h : exec i s = setGpr rt v (s.setLink true a s.draws)) (value : v = v') :
    Completes i s fun t =>
      (∀ r : Reg, t.readGpr r = if r = 0#5 then 0#32 else if r = rt then v' else s.readGpr r) ∧
      t.llbit = true ∧ t.lladdr = a ∧ ChangesOnly [.gpr, .link] s t ∧ Advanced s t :=
  ⟨_, h, value ▸ readGpr_setLink_writeGpr, rfl, rfl, changesOnly_setLink_writeGpr, advanced_advance s _ rfl⟩

/-! ### The bytes of stores (R62, R320 to R324) -/

/-- The end of a store of `n` bytes at `a`: the number that memory then holds there, and what is kept. -/
def StoresValue (i : Instr) (s : State) (a : Word) (n v : Nat) : Prop :=
  Completes i s fun t => t.memValue a n = v ∧ StoredOnly (bytesAt a n) s t ∧ Advanced s t

/-- A store at an aligned address stores to the bytes from there on, and to no other. -/
theorem storedOnly_bytesAt (s : State) {a : Word} {n : Nat} {bytes : List Byte} (hn : n ∣ 2 ^ 32)
    (aligned : a.toNat % n = 0) (length : bytes.length = n) :
    StoredOnly (bytesAt a n) s (s.store (cellsAt a bytes)).advance := by
  rw [← addrsFrom_aligned hn aligned le_rfl, ← length, ← cellsAt_fst]
  exact storedOnly_advance s _

theorem storesValue_of {i : Instr} {s : State} {a : Word} {n v : Nat} {bytes : List Byte} (hn : n ∣ 2 ^ 32)
    (aligned : a.toNat % n = 0) (length : bytes.length = n) (value : bytesValue s.params.bigEndian bytes = v)
    (h : exec i s = storeCells (cellsAt a bytes) s) : StoresValue i s a n v :=
  ⟨_, h, (memValue_store s bytes hn aligned length).trans value, storedOnly_bytesAt s hn aligned length,
    advanced_advance s _ rfl⟩

theorem bytesValue_singleton (be : Bool) (b : Byte) : bytesValue be [b] = b.toNat := by
  cases be <;> rfl

/-- The low bits of a word, as a number (R320, R321). -/
theorem toNat_extract_low (v : Word) (w : Nat) : (v.extractLsb' 0 w).toNat = v.toNat % 2 ^ w := by
  rw [BitVec.extractLsb'_toNat, Nat.shiftRight_zero]

/-- The double of a register and the next one, as a number (R33). -/
theorem toNat_readDouble (s : State) (r : FReg) :
    (s.readDouble r).toNat = (s.readFpr r).toNat + 2 ^ 32 * (s.readFpr (r + 1#5)).toNat := by
  rw [State.readDouble, toNat_append_words]
  omega

/-! ### The instructions -/

/-- Settles O35: each loads the number that memory holds at the address, extended in its own way. -/
theorem loads : Obligations.Loads := by
  intro s rt rs imm a signed
  refine
    ⟨⟨rfl, accesses_of (by decide) rfl fun _ h => setsGpr_of _ h ?lb⟩,
     ⟨rfl, accesses_of (by decide) rfl fun _ h => setsGpr_of _ h ?lbu⟩,
     ⟨rfl, accesses_of (by decide) rfl fun aligned h => setsGpr_of _ h ?lh⟩,
     ⟨rfl, accesses_of (by decide) rfl fun aligned h => setsGpr_of _ h ?lhu⟩,
     ⟨rfl, accesses_of (by decide) rfl fun aligned h => setsGpr_of _ h (toNat_readWord s aligned)⟩,
     ⟨rfl, accesses_of (by decide) rfl fun aligned h => loadLinked_of h (readWord_eq_ofNat s aligned)⟩⟩
  case lb => rw [← toNat_readByte s a]; exact toInt_signExtend_eq_ite (by decide) _
  case lbu => rw [← toNat_readByte s a]; exact BitVec.toNat_setWidth_of_le (by decide)
  case lh => rw [← toNat_readHalf s aligned]; exact toInt_signExtend_eq_ite (by decide) _
  case lhu => rw [← toNat_readHalf s aligned]; exact BitVec.toNat_setWidth_of_le (by decide)

/-- Settles O37: each stores the low bytes of the register, split in the byte order of the run. -/
theorem stores : Obligations.Stores := by
  intro s rt rs imm a _
  let v := s.readGpr rt
  refine
    ⟨⟨rfl, accesses_of (by decide) rfl fun aligned h => storesValue_of (by decide) aligned rfl ?sb h⟩,
     ⟨rfl, accesses_of (by decide) rfl fun aligned h => storesValue_of (by decide) aligned (splitHalf_length ..) ?sh h⟩,
     ⟨rfl, accesses_of (by decide) rfl fun aligned h => storesValue_of (by decide) aligned (splitWord_length ..) ?sw h⟩⟩
  case sb => exact (bytesValue_singleton ..).trans (toNat_extract_low v 8)
  case sh => exact (bytesValue_splitHalf ..).trans (toNat_extract_low v 16)
  case sw => exact (bytesValue_splitWord ..).trans (Nat.mod_eq_of_lt v.isLt).symm

/-- Settles O40: the check of coprocessor 1, that of the register, and then an access as of a general register. -/
theorem floatingLoadsAndStores : Obligations.FloatingLoadsAndStores := by
  intro s ft rs imm a _
  refine
    ⟨⟨rfl, needsCp1_of rfl fun _ h => accesses_of (by decide) h fun aligned h => ?lwc1⟩,
     ⟨rfl, needsCp1_of rfl fun _ h => needsEven_of h fun h => accesses_of (by decide) h fun aligned h => ?ldc1⟩,
     ⟨rfl, needsCp1_of rfl fun _ h => accesses_of (by decide) h fun aligned h =>
       storesValue_of (by decide) aligned (splitWord_length ..) (bytesValue_splitWord ..) h⟩,
     ⟨rfl, needsCp1_of rfl fun _ h => needsEven_of h fun h => accesses_of (by decide) h fun aligned h =>
       storesValue_of (by decide) aligned (splitDword_length ..) ?sdc1 h⟩⟩
  case lwc1 => rw [← readWord_eq_ofNat s aligned]; exact setsFpr_of h
  case ldc1 => rw [← readDword_eq_ofNat s aligned]; exact setsDouble_of h
  case sdc1 => exact (bytesValue_splitDword ..).trans (toNat_readDouble s ft)

/-! ### The conditional store (R332) -/

/-- `sc` after its address checks: the link to another address, the store, or the failure. -/
def scLinked (rt : Reg) (a : Word) (s : State) : Result :=
  if s.llbit && s.lladdr != a then .refused (.scAddressDiffersFromLl a)
  else if s.llbit && !spuriousFail s then
    checkedStore a 4 s (scEnd rt 1#32 (s.store (wordCells s.params.bigEndian a (s.readGpr rt))))
  else scEnd rt 0#32 s

/-- The address checks of `sc` are those of an access that touches no byte. -/
theorem exec_sc_eq_checkedAccess (rt rs : Reg) (imm : Half) (s : State) :
    exec (.sc rt rs imm) s = checkedAccess (.adES (effectiveAddress s rs imm)) (effectiveAddress s rs imm) 4 [] s
      (scLinked rt (effectiveAddress s rs imm) s) := rfl

/-- What an `sc` leaves, whether it stores or not: `v` in the register, and no link. -/
def ScEnds (rt : Reg) (v : Word) (s t : State) : Prop :=
  Advanced s t ∧ t.llbit = false ∧ t.lladdr = s.lladdr ∧
    ∀ r : Reg, t.readGpr r = if r = 0#5 then 0#32 else if r = rt then v else s.readGpr r

/-- An `sc` that fails writes 0 and stores nothing. -/
def ScFails (i : Instr) (s : State) (rt : Reg) : Prop :=
  Completes i s fun t => ScEnds rt 0#32 s t ∧ ChangesOnly [.gpr, .link] s t

/-- An `sc` that succeeds writes 1 and stores the register. -/
def ScSucceeds (i : Instr) (s : State) (rt : Reg) (a : Word) : Prop :=
  Completes i s fun t => ScEnds rt 1#32 s t ∧ t.memValue a 4 = (s.readGpr rt).toNat ∧
    (∀ x : Nat, x ∉ bytesAt a 4 → Memory.read t.mem x = Memory.read s.mem x) ∧
    (∀ x : Nat, x ∈ t.stored ↔ x ∈ bytesAt a 4 ∨ x ∈ s.stored) ∧ ChangesOnly [.gpr, .link, .mem] s t

/-- A store changes memory besides what changes after it. -/
theorem ChangesOnly.of_store {parts : List Part} {s t : State} {cells : List Host.Cell}
    (h : ChangesOnly parts (s.store cells) t) : ChangesOnly (parts ++ [.mem]) s t := by
  intro p other
  obtain ⟨others, notMem⟩ := not_or.mp (mt List.mem_append.mpr other)
  cases p with
  | mem => simp at notMem
  | gpr | fpr | fcc | hiLo | cp0 | link | inputs => exact h _ others

section
variable {i : Instr} {s : State} {rt : Reg} {a : Word}

theorem scEnds_setLink (s : State) (rt : Reg) (v : Word) (draws : Nat) :
    ScEnds rt v s ((s.setLink false s.lladdr draws).writeGpr rt v).advance :=
  ⟨advanced_advance s _ rfl, rfl, rfl, readGpr_setLink_writeGpr⟩

theorem scFails_of (h : exec i s = scEnd rt 0#32 s) : ScFails i s rt :=
  ⟨_, h, scEnds_setLink .., changesOnly_setLink_writeGpr⟩

theorem scSucceeds_of (aligned : a.toNat % 4 = 0)
    (h : exec i s = scEnd rt 1#32 (s.store (wordCells s.params.bigEndian a (s.readGpr rt)))) :
    ScSucceeds i s rt a := by
  have length := splitWord_length s.params.bigEndian (s.readGpr rt)
  have value := (memValue_store s _ (by decide) aligned length).trans (bytesValue_splitWord ..)
  obtain ⟨kept, marked, -⟩ := storedOnly_bytesAt s (by decide) aligned length
  exact ⟨_, h, scEnds_setLink (s.store _) .., value, kept, marked,
    changesOnly_setLink_writeGpr.of_store⟩

theorem scLinked_of_other (linked : s.llbit = true) (other : s.lladdr ≠ a) :
    scLinked rt a s = .refused (.scAddressDiffersFromLl a) := by
  simp [scLinked, linked, other]

theorem scLinked_of_unlinked (unlinked : s.llbit = false) : scLinked rt a s = scEnd rt 0#32 s := by
  simp [scLinked, unlinked]

/-- With the link to its address only a spurious failure keeps an `sc` from storing. -/
theorem scLinked_of_linked (linked : s.llbit = true) (same : s.lladdr = a) :
    scLinked rt a s =
      if spuriousFail s then scEnd rt 0#32 s
      else checkedStore a 4 s (scEnd rt 1#32 (s.store (wordCells s.params.bigEndian a (s.readGpr rt)))) := by
  cases spurious : spuriousFail s <;> simp [scLinked, linked, same, spurious]

end

/-- Settles O39: with the link to its address an `sc` is a store, or else, where it may, fails. -/
theorem storeConditional : Obligations.StoreConditional := by
  intro s rt rs imm a i allowed ends fails succeeds
  have checks : exec i s = checkedAccess (.adES a) a 4 [] s (scLinked rt a s) := exec_sc_eq_checkedAccess rt rs imm s
  have goesOn (h : allowed) : exec i s = scLinked rt a s := checks.trans (checkedAccess_ok h.1 h.2 (by simp))
  refine ⟨rfl, fun h => checks.trans (checkedAccess_bad h),
    fun h linked other => (goesOn h).trans (scLinked_of_other linked other),
    fun h unlinked => scFails_of ((goesOn h).trans (scLinked_of_unlinked unlinked)), fun h linked same => ?_⟩
  have either := (goesOn h).trans (scLinked_of_linked linked same)
  obtain ⟨aligned, user⟩ := h
  cases spurious : spuriousFail s with
  | true =>
    obtain ⟨may, -⟩ := (Bool.and_eq_true ..).mp spurious
    have failed : fails := scFails_of (either.trans (if_pos spurious))
    exact ⟨by simp [may], by simp [may], fun _ _ => .inr failed, fun _ _ => .inr failed⟩
  | false =>
    have store : Accesses i s (.adES a) a 4 succeeds :=
      accesses_of (by decide) (either.trans (if_neg (by simp [spurious]))) fun _ => scSucceeds_of aligned
    obtain ⟨-, missing, stored⟩ := store
    have succeeded (backed : Backed s a 4) : succeeds := stored ⟨aligned, user, backed⟩
    have stopped (unbacked : ¬ Backed s a 4) : NoMemory i s := missing ⟨aligned, user, unbacked⟩
    exact ⟨fun _ => succeeded, fun _ => stopped, fun _ b => .inl (succeeded b), fun _ b => .inl (stopped b)⟩

end Sys2Proof.Machine
end

section
/-! PROOFS. The statements of 44_load_store.md on unaligned accesses: which byte of the register goes with which byte of
the aligned word, and that the tables of R317 list these pairs. -/

namespace Sys2Proof.Machine

/-! ### The bytes that an unaligned access moves, going up or down from place `b` of the aligned word (R317) -/

/-- How many bytes are moved. -/
def movedCount : Bool → Nat → Nat
  | true, b => 4 - b
  | false, b => b + 1

/-- The place in the aligned word of the `i`-th byte moved. -/
def movedPlace : Bool → Nat → Nat → Nat
  | true, b, i => b + i
  | false, b, i => b - i

/-- Which of the bytes moved is at place `j` of the aligned word. -/
def movedIndex : Bool → Nat → Nat → Nat
  | true, b, j => j - b
  | false, b, j => b - j

/-- Whether the byte at place `j` of the aligned word is moved. -/
def isMoved : Bool → Nat → Nat → Bool
  | true, b, j => decide (b ≤ j)
  | false, b, j => decide (j ≤ b)

theorem unalignedCount_eq_movedCount (be left : Bool) (a : Word) :
    unalignedCount be left a = movedCount (goesUp be left) (wordOffset a) := by
  unfold unalignedCount
  cases goesUp be left <;> rfl

theorem wordOffset_lt (a : Word) : wordOffset a < 4 := Nat.mod_lt _ (by decide)

section
variable {up : Bool} {b i j : Nat}

theorem movedCount_le (hb : b < 4) : movedCount up b ≤ 4 := by
  cases up with
  | true => exact Nat.sub_le 4 b
  | false => exact hb

theorem movedPlace_injective (hi : i < movedCount up b) (hj : j < movedCount up b)
    (h : movedPlace up b i = movedPlace up b j) : i = j := by
  cases up <;> simp only [movedCount, movedPlace] at hi hj h <;> omega

theorem isMoved_movedPlace : isMoved up b (movedPlace up b i) = true := by
  cases up with
  | true => exact decide_eq_true (Nat.le_add_right b i)
  | false => exact decide_eq_true (Nat.sub_le b i)

/-- The bytes counted are those moved. -/
theorem movedPlace_movedIndex (hj : j < 4) (moved : isMoved up b j = true) :
    movedIndex up b j < movedCount up b ∧ movedPlace up b (movedIndex up b j) = j := by
  cases up <;> simp only [isMoved, decide_eq_true_eq] at moved <;>
    simp only [movedIndex, movedCount, movedPlace] <;> omega

end

/-- The addresses moved are places of the aligned word of the effective address. -/
theorem unalignedAddr_toNat {be left : Bool} {a : Word} {i : Nat}
    (hi : i < movedCount (goesUp be left) (wordOffset a)) :
    (unalignedAddr be left a i).toNat = a.toNat / 4 * 4 + movedPlace (goesUp be left) (wordOffset a) i := by
  have := a.isLt
  rw [wordOffset] at hi
  rw [unalignedAddr, wordOffset]
  cases up : goesUp be left with
  | true =>
    rw [up, movedCount] at hi
    rw [if_pos rfl, movedPlace, BitVec.toNat_add, BitVec.toNat_ofNat]
    omega
  | false =>
    rw [up, movedCount] at hi
    rw [if_neg Bool.false_ne_true, movedPlace, BitVec.toNat_sub, BitVec.toNat_ofNat]
    omega

theorem unalignedAddrs_eq (be left : Bool) (a : Word) :
    unalignedAddrs be left a = (List.range (movedCount (goesUp be left) (wordOffset a))).map fun i =>
      a.toNat / 4 * 4 + movedPlace (goesUp be left) (wordOffset a) i := by
  rw [unalignedAddrs, unalignedCount_eq_movedCount]
  exact List.map_congr_left fun i hi => unalignedAddr_toNat (List.mem_range.mp hi)

theorem unalignedAddrs_nodup (be left : Bool) (a : Word) : (unalignedAddrs be left a).Nodup := by
  rw [unalignedAddrs_eq]
  refine List.Nodup.map_on (fun i hi j hj same => ?_) List.nodup_range
  exact movedPlace_injective (List.mem_range.mp hi) (List.mem_range.mp hj) (Nat.add_left_cancel same)

/-! ### The bytes of a register (R317) -/

/-- A word is its four bytes, joined. -/
theorem eq_append_getByte (w : Word) : w = getByte w 3 ++ getByte w 2 ++ getByte w 1 ++ getByte w 0 := by
  have upper : getByte w 3 ++ getByte w 2 = w.extractLsb' 16 16 := join_fields w 8 8 16
  have upper' : w.extractLsb' 16 16 ++ getByte w 1 = w.extractLsb' 8 24 := join_fields w 16 8 8
  have whole : w.extractLsb' 8 24 ++ getByte w 0 = w.extractLsb' 0 32 := join_fields w 24 8 0
  rw [upper, upper', whole, BitVec.extractLsb'_eq_self]

theorem getByte_setByte (w : Word) (b : Byte) {j k : Nat} (hj : j < 4) :
    getByte (setByte w j b) k = if k = j then b else getByte w k := by
  have inside : 8 * j + 8 ≤ 32 := by omega
  split
  next same => rw [same]; exact extract_setField w (8 * j) b inside
  next other => exact extract_setField_other w (8 * j) b _ _ inside (by omega)

theorem unalignedByte_lt (left : Bool) {i : Nat} (hi : i < 4) : unalignedByte left i < 4 := by
  cases left with
  | true => exact Nat.lt_succ_of_le (Nat.sub_le 3 i)
  | false => exact hi

theorem eq_unalignedByte_iff (left : Bool) {i k : Nat} (hi : i < 4) (hk : k < 4) :
    k = unalignedByte left i ↔ unalignedByte left k = i := by
  cases left with
  | true => simp only [unalignedByte, if_true]; omega
  | false => simp only [unalignedByte, Bool.false_eq_true, if_false]

/-! ### Loads (R309, R310) -/

/-- The bytes of the register while bytes are merged: byte `k` is the one moved as number `k` or `3 - k`. -/
theorem getByte_unalignedMerge (s : State) (left : Bool) (a old : Word) {n k : Nat} (hn : n ≤ 4) (hk : k < 4) :
    getByte (unalignedMerge s left a old n) k =
      if unalignedByte left k < n then s.readByte (unalignedAddr s.params.bigEndian left a (unalignedByte left k))
      else getByte old k := by
  induction n with
  | zero => rfl
  | succ n ih =>
    rw [unalignedMerge, getByte_setByte _ _ (unalignedByte_lt left (by omega)), ih (by omega)]
    have last := eq_unalignedByte_iff left (i := n) (by omega) hk
    by_cases moved : unalignedByte left k = n
    · rw [if_pos (last.mpr moved), if_pos (by omega), moved]
    · rw [if_neg (mt last.mp moved)]
      exact if_congr (by omega) rfl rfl

/-- Byte `k` of the register after an unaligned load, from the bytes `m` of the aligned word and `r` of the register. -/
def loadedByte (be left : Bool) (m r : Nat → Byte) (b k : Nat) : Byte :=
  if unalignedByte left k < movedCount (goesUp be left) b then m (movedPlace (goesUp be left) b (unalignedByte left k))
  else r k

theorem unalignedLoadTable_eq (be left : Bool) (m r : Nat → Byte) {b : Nat} (hb : b < 4) :
    unalignedLoadTable be left m r b =
      loadedByte be left m r b 3 ++ loadedByte be left m r b 2 ++ loadedByte be left m r b 1 ++
        loadedByte be left m r b 0 := by
  interval_cases b <;> cases be <;> cases left <;> rfl

theorem getByte_unalignedLoad (s : State) (left : Bool) (a old : Word) {k : Nat} (hk : k < 4) :
    getByte (unalignedLoad s left a old) k =
      loadedByte s.params.bigEndian left (s.alignedByte a) (getByte old) (wordOffset a) k := by
  rw [unalignedLoad, unalignedCount_eq_movedCount,
    getByte_unalignedMerge s left a old (movedCount_le (wordOffset_lt a)) hk, loadedByte]
  refine ite_congr rfl (fun moved => ?_) fun _ => rfl
  rw [State.readByte, unalignedAddr_toNat moved, State.alignedByte]

/-- An unaligned load is the table of R317. -/
theorem unalignedLoad_eq_table (s : State) (left : Bool) (a old : Word) :
    unalignedLoad s left a old =
      unalignedLoadTable s.params.bigEndian left (s.alignedByte a) (getByte old) (wordOffset a) := by
  rw [unalignedLoadTable_eq _ _ _ _ (wordOffset_lt a), eq_append_getByte (unalignedLoad s left a old),
    getByte_unalignedLoad s left a old (by decide), getByte_unalignedLoad s left a old (by decide),
    getByte_unalignedLoad s left a old (by decide), getByte_unalignedLoad s left a old (by decide)]

/-- Settles O36: the register after the load, byte by byte. -/
theorem unalignedLoads : Obligations.UnalignedLoads := fun s rt rs imm =>
  let a := s.readGpr rs + imm.signExtend 32
  ⟨⟨rfl, accessesUnaligned_of rfl fun h => setsGpr_of _ h (unalignedLoad_eq_table s true a (s.readGpr rt))⟩,
   ⟨rfl, accessesUnaligned_of rfl fun h => setsGpr_of _ h (unalignedLoad_eq_table s false a (s.readGpr rt))⟩⟩

/-! ### Stores (R325, R326) -/

/-- The byte at place `j` of the aligned word after an unaligned store, from the bytes `m` of the aligned word and `r`
of the register. -/
def storedByte (be left : Bool) (m r : Nat → Byte) (b j : Nat) : Byte :=
  if isMoved (goesUp be left) b j then r (unalignedByte left (movedIndex (goesUp be left) b j)) else m j

theorem unalignedStoreTable_eq (be left : Bool) (m r : Nat → Byte) {b : Nat} (hb : b < 4) :
    unalignedStoreTable be left m r b = (List.range 4).map (storedByte be left m r b) := by
  interval_cases b <;> cases be <;> cases left <;> rfl

/-- A byte that is moved is written with its byte of the register. -/
theorem mem_unalignedCells {be left : Bool} {a v : Word} {j : Nat} (hj : j < 4)
    (moved : isMoved (goesUp be left) (wordOffset a) j = true) :
    (a.toNat / 4 * 4 + j, getByte v (unalignedByte left (movedIndex (goesUp be left) (wordOffset a) j))) ∈
      unalignedCells be left a v := by
  obtain ⟨counted, place⟩ := movedPlace_movedIndex hj moved
  rw [unalignedCells, unalignedCount_eq_movedCount]
  exact List.mem_map.mpr ⟨_, List.mem_range.mpr counted, by rw [unalignedAddr_toNat counted, place]⟩

/-- The address of a byte that is not moved is not written. -/
theorem not_mem_unalignedAddrs {be left : Bool} {a : Word} {j : Nat}
    (kept : ¬ isMoved (goesUp be left) (wordOffset a) j = true) : a.toNat / 4 * 4 + j ∉ unalignedAddrs be left a := by
  rw [unalignedAddrs_eq, List.mem_map]
  rintro ⟨i, -, same⟩
  rw [← Nat.add_left_cancel same] at kept
  exact kept isMoved_movedPlace

theorem alignedByte_store (s : State) (be left : Bool) (a v : Word) {j : Nat} (hj : j < 4) :
    (s.store (unalignedCells be left a v)).alignedByte a j =
      storedByte be left (s.alignedByte a) (getByte v) (wordOffset a) j := by
  rw [State.alignedByte, State.store_mem, storedByte]
  split
  next moved =>
    have once : ((unalignedCells be left a v).map Prod.fst).Nodup := by
      rw [unalignedCells_fst]
      exact unalignedAddrs_nodup be left a
    exact Memory.read_writeCells_of_mem _ _ _ once (mem_unalignedCells hj moved)
  next kept =>
    refine Memory.read_writeCells_of_not_mem _ _ _ ?_
    rw [unalignedCells_fst]
    exact not_mem_unalignedAddrs kept

/-- The aligned word after an unaligned store is the table of R317. -/
theorem alignedBytes_store_eq_table (s : State) (be left : Bool) (a v : Word) :
    (List.range 4).map ((s.store (unalignedCells be left a v)).alignedByte a) =
      unalignedStoreTable be left (s.alignedByte a) (getByte v) (wordOffset a) := by
  rw [unalignedStoreTable_eq _ _ _ _ (wordOffset_lt a)]
  exact List.map_congr_left fun j hj => alignedByte_store s be left a v (List.mem_range.mp hj)

theorem storesUnaligned_of {i : Instr} {s : State} {left : Bool} {a v : Word}
    (h : exec i s = storeCells (unalignedCells s.params.bigEndian left a v) s) :
    Completes i s fun t =>
      (List.range 4).map (t.alignedByte a) =
        unalignedStoreTable s.params.bigEndian left (s.alignedByte a) (getByte v) (wordOffset a) ∧
      StoredOnly (unalignedAddrs s.params.bigEndian left a) s t ∧ Advanced s t :=
  ⟨_, h, alignedBytes_store_eq_table .., unalignedCells_fst .. ▸ storedOnly_advance s _, advanced_advance s _ rfl⟩

/-- Settles O38: the aligned word after the store, byte by byte. -/
theorem unalignedStores : Obligations.UnalignedStores := fun _ _ _ _ =>
  ⟨⟨rfl, accessesUnaligned_of rfl storesUnaligned_of⟩, ⟨rfl, accessesUnaligned_of rfl storesUnaligned_of⟩⟩

end Sys2Proof.Machine
end

section
/-! PROOFS. The statements of 45_data_move.md: what a write to coprocessor 0 leaves unchanged, the bits of `Cause` that
software writes, and then each instruction. -/

namespace Sys2Proof.Machine

/-! ### Writes to coprocessor 0 (R358) -/

/-- The state with other values in the registers of coprocessor 0 that software writes. -/
def State.setCp0 (s : State) (status cause epc : Word) : State :=
  { s with status := status, cause := cause, epc := epc }

theorem changesOnly_setCp0_advance (s : State) (status cause epc : Word) :
    ChangesOnly [.cp0] s (s.setCp0 status cause epc).advance := by
  intro p other
  cases p with
  | cp0 => simp at other
  | gpr | fpr | fcc => exact fun _ => rfl
  | hiLo | link | inputs => exact ⟨rfl, rfl⟩
  | mem => exact ⟨fun _ => rfl, rfl⟩

/-- The end of `mtc0`: one of the three registers written, the other two as they were. -/
theorem writesCp0_of {i : Instr} {s : State} {status cause epc : Word}
    (h : exec i s = .next (s.setCp0 status cause epc).advance) :
    Completes i s fun t =>
      t.status = status ∧ t.cause = cause ∧ t.epc = epc ∧ t.badVAddr = s.badVAddr ∧ ChangesOnly [.cp0] s t ∧
      Advanced s t :=
  ⟨_, h, rfl, rfl, rfl, rfl, changesOnly_setCp0_advance s status cause epc, advanced_advance s _ rfl⟩

/-- The mask of `IP1:IP0`, bit by bit (R38). -/
theorem softIpMask_getLsbD : ∀ j < 32, (0x00000300#32).getLsbD j = decide (8 ≤ j ∧ j < 10) := by decide

/-- The mask of the bits of `Cause` that `mtc0` keeps is the complement of that of `IP1:IP0` (R358). -/
theorem keptCauseMask_eq_not : 0xFFFFFCFF#32 = ~~~0x00000300#32 := by decide

/-- A write of the field `IP1:IP0` from the same bits of a word, as masks (R358). -/
theorem setField_softIp_eq_masks (c v : Word) :
    setField c 8 (v.extractLsb' 8 2) = c &&& 0xFFFFFCFF#32 ||| v &&& 0x00000300#32 := by
  apply BitVec.eq_of_getLsbD_eq
  intro j hj
  rw [getLsbD_setField _ _ _ _ (by decide), keptCauseMask_eq_not, BitVec.getLsbD_or, BitVec.getLsbD_and,
    BitVec.getLsbD_and, BitVec.getLsbD_not, softIpMask_getLsbD j hj]
  split
  next inside =>
    have place : 8 + (j - 8) = j := by omega
    have offset : j - 8 < 2 := by omega
    simp [inside, place, offset]
  next outside => simp [outside, hj]

/-! ### The instructions -/

/-- Settles O44: a write of `hi` or `lo` is one of the pair that keeps the other half. -/
theorem plainMoves : Obligations.PlainMoves := fun s _ rs _ =>
  ⟨⟨rfl, setsGpr_of s.hi rfl rfl⟩,
   ⟨rfl, setsGpr_of s.lo rfl rfl⟩,
   ⟨rfl, setsHiLo_of_quotientRemainder s.lo (s.readGpr rs) rfl ⟨rfl, rfl⟩⟩,
   ⟨rfl, setsHiLo_of_quotientRemainder (s.readGpr rs) s.hi rfl ⟨rfl, rfl⟩⟩,
   ⟨rfl, fun moves => setsGpr_of _ (if_pos moves) rfl, fun zero => onlyAdvances_of (if_neg (not_not.mpr zero))⟩,
   ⟨rfl, fun moves => setsGpr_of _ (if_pos moves) rfl, fun nonzero => onlyAdvances_of (if_neg nonzero)⟩⟩

/-- Settles O45: the mode, then the number of the register. -/
theorem cp0Reads : Obligations.Cp0Reads := by
  intro s rt rd i
  refine ⟨rfl, needsKernel_of rfl fun _ h => ⟨?badVAddr, ?status, ?cause, ?epc, fun other => ?other⟩⟩
  case badVAddr | status | cause | epc =>
    rintro rfl
    exact setsGpr_of _ h rfl
  case other =>
    rw [h]
    split
    case h_1 | h_2 | h_3 | h_4 => exact absurd (by decide) other
    case h_5 => rfl

/-- Settles O46: the mode, the number of the register, and then what that register takes or refuses. -/
theorem cp0Writes : Obligations.Cp0Writes := by
  intro s rt rd i v writes
  refine ⟨rfl, needsKernel_of rfl fun _ h =>
    ⟨?badVAddr, ?statusBit, ?status, ?causeBit, ?cause, ?epc, fun other => ?other⟩⟩
  case badVAddr => rintro rfl; exact onlyAdvances_of h
  case statusBit => rintro rfl unimplemented; exact h.trans (if_pos unimplemented)
  case status => rintro rfl implemented; exact writesCp0_of (h.trans (if_neg (not_not.mpr implemented)))
  case causeBit => rintro rfl bad; exact h.trans (if_pos ((Bool.or_eq_true ..).mpr bad))
  case cause =>
    rintro rfl bit23 bit22
    rw [← setField_softIp_eq_masks]
    exact writesCp0_of (h.trans (if_neg (Bool.eq_false_iff.mp (Bool.or_eq_false_iff.mpr ⟨bit23, bit22⟩))))
  case epc => rintro rfl; exact writesCp0_of h
  case other =>
    rw [h]
    split
    case h_1 | h_2 | h_3 | h_4 => exact absurd (by decide) other
    case h_5 => rfl

/-- Settles O47: coprocessor 1, and then the move, which for `movf` and `movt` depends on the flag. -/
theorem cp1Moves : Obligations.Cp1Moves := fun s _ _ rs fs _ =>
  ⟨⟨rfl, needsCp1_of rfl fun _ h => setsGpr_of (s.readFpr fs) h rfl⟩,
   ⟨rfl, needsCp1_of rfl fun _ h => setsFpr_of h⟩,
   ⟨rfl, needsCp1_of rfl fun _ h =>
     ⟨fun clear => setsGpr_of (s.readGpr rs) (h.trans (if_neg (Bool.eq_false_iff.mp clear))) rfl,
      fun set => onlyAdvances_of (h.trans (if_pos set))⟩⟩,
   ⟨rfl, needsCp1_of rfl fun _ h =>
     ⟨fun set => setsGpr_of (s.readGpr rs) (h.trans (if_pos set)) rfl,
      fun clear => onlyAdvances_of (h.trans (if_neg (Bool.eq_false_iff.mp clear)))⟩⟩⟩

end Sys2Proof.Machine
end

section
/-! PROOFS. The statements of 46_float.md on the instructions: one rule for each shape that they share (R380), and then
each instruction. -/

namespace Sys2Proof.Machine

/-! ### The shapes of the floating-point instructions (R380) -/

section
variable {i : Instr} {s : State} {fd fs ft : FReg}

theorem needsCp1_of_fpSingle {v : Word} (h : exec i s = fpSingle fd v s) : NeedsCp1 i s (SetsFpr i s fd v) :=
  needsCp1_of h fun _ => setsFpr_of

theorem needsCp1_of_fpWordOfDouble {op : Dword → Word} (h : exec i s = fpWordOfDouble fd fs op s) :
    NeedsCp1 i s (NeedsEven i s [fs] (SetsFpr i s fd (op (s.readDouble fs)))) :=
  needsCp1_of h fun _ h => needsEven_of h setsFpr_of

theorem needsCp1_of_fpDoubleOfWord {v : Dword} (h : exec i s = fpDoubleOfWord fd v s) :
    NeedsCp1 i s (NeedsEven i s [fd] (SetsDouble i s fd v)) :=
  needsCp1_of h fun _ h => needsEven_of h setsDouble_of

theorem needsCp1_of_fpDouble1 {op : Dword → Dword} (h : exec i s = fpDouble1 fd fs op s) :
    NeedsCp1 i s (NeedsEven i s [fd, fs] (SetsDouble i s fd (op (s.readDouble fs)))) :=
  needsCp1_of h fun _ h => needsEven_of h setsDouble_of

theorem needsCp1_of_fpDouble2 {op : Dword → Dword → Dword} (h : exec i s = fpDouble2 fd fs ft op s) :
    NeedsCp1 i s (NeedsEven i s [fd, fs, ft] (SetsDouble i s fd (op (s.readDouble fs) (s.readDouble ft)))) :=
  needsCp1_of h fun _ h => needsEven_of h setsDouble_of

theorem needsCp1_of_fpCompareSingle {cc : CC} {op : Word → Word → Bool} (h : exec i s = fpCompareSingle cc fs ft op s) :
    NeedsCp1 i s (SetsFcc i s cc (op (s.readFpr fs) (s.readFpr ft))) :=
  needsCp1_of h fun _ => setsFcc_of

theorem needsCp1_of_fpCompareDouble {cc : CC} {op : Dword → Dword → Bool}
    (h : exec i s = fpCompareDouble cc fs ft op s) :
    NeedsCp1 i s (NeedsEven i s [fs, ft] (SetsFcc i s cc (op (s.readDouble fs) (s.readDouble ft)))) :=
  needsCp1_of h fun _ h => needsEven_of h setsFcc_of

variable {moves : Bool} {c : Prop}

theorem needsCp1_of_fpMoveSingleIf (h : exec i s = fpMoveSingleIf moves fd fs s) (cond : moves = true ↔ c) :
    NeedsCp1 i s ((c → SetsFpr i s fd (s.readFpr fs)) ∧ (¬ c → OnlyAdvances i s)) := by
  rw [← cond]
  exact needsCp1_of h fun _ h =>
    ⟨fun taken => setsFpr_of (h.trans (if_pos taken)), fun untaken => onlyAdvances_of (h.trans (if_neg untaken))⟩

/-- The registers are checked before the condition is: log entry 14. -/
theorem needsCp1_of_fpMoveDoubleIf (h : exec i s = fpMoveDoubleIf moves fd fs s) (cond : moves = true ↔ c) :
    NeedsCp1 i s (NeedsEven i s [fd, fs]
      ((c → SetsDouble i s fd (s.readDouble fs)) ∧ (¬ c → OnlyAdvances i s))) := by
  rw [← cond]
  exact needsCp1_of h fun _ h => needsEven_of h fun h =>
    ⟨fun taken => setsDouble_of (h.trans (if_pos taken)), fun untaken => onlyAdvances_of (h.trans (if_neg untaken))⟩

end

/-! ### The instructions -/

/-- Settles O49: all seven have the shape `fpSingle`. -/
theorem singleArithmetic : Obligations.SingleArithmetic := fun _ _ _ _ =>
  ⟨⟨rfl, needsCp1_of_fpSingle rfl⟩, ⟨rfl, needsCp1_of_fpSingle rfl⟩, ⟨rfl, needsCp1_of_fpSingle rfl⟩,
   ⟨rfl, needsCp1_of_fpSingle rfl⟩, ⟨rfl, needsCp1_of_fpSingle rfl⟩, ⟨rfl, needsCp1_of_fpSingle rfl⟩,
   ⟨rfl, needsCp1_of_fpSingle rfl⟩⟩

/-- Settles O50: four have the shape `fpDouble2` and three the shape `fpDouble1`. -/
theorem doubleArithmetic : Obligations.DoubleArithmetic := fun _ _ _ _ =>
  ⟨⟨rfl, needsCp1_of_fpDouble2 rfl⟩, ⟨rfl, needsCp1_of_fpDouble2 rfl⟩, ⟨rfl, needsCp1_of_fpDouble2 rfl⟩,
   ⟨rfl, needsCp1_of_fpDouble2 rfl⟩, ⟨rfl, needsCp1_of_fpDouble1 rfl⟩, ⟨rfl, needsCp1_of_fpDouble1 rfl⟩,
   ⟨rfl, needsCp1_of_fpDouble1 rfl⟩⟩

/-- Settles O51: the shape is `fpSingle` from a single and `fpWordOfDouble` from a double. -/
theorem conversionsToInteger : Obligations.ConversionsToInteger := fun _ _ _ =>
  ⟨⟨rfl, needsCp1_of_fpSingle rfl⟩, ⟨rfl, needsCp1_of_fpWordOfDouble rfl⟩,
   ⟨rfl, needsCp1_of_fpSingle rfl⟩, ⟨rfl, needsCp1_of_fpWordOfDouble rfl⟩,
   ⟨rfl, needsCp1_of_fpSingle rfl⟩, ⟨rfl, needsCp1_of_fpWordOfDouble rfl⟩,
   ⟨rfl, needsCp1_of_fpSingle rfl⟩, ⟨rfl, needsCp1_of_fpWordOfDouble rfl⟩,
   ⟨rfl, needsCp1_of_fpSingle rfl⟩, ⟨rfl, needsCp1_of_fpWordOfDouble rfl⟩⟩

/-- Settles O52: the shape says which register is a double. -/
theorem conversionsToFloat : Obligations.ConversionsToFloat := fun _ _ _ =>
  ⟨⟨rfl, needsCp1_of_fpDoubleOfWord rfl⟩, ⟨rfl, needsCp1_of_fpDoubleOfWord rfl⟩,
   ⟨rfl, needsCp1_of_fpWordOfDouble rfl⟩, ⟨rfl, needsCp1_of_fpSingle rfl⟩⟩

/-- Settles O53: the shape is `fpCompareSingle` of singles and `fpCompareDouble` of doubles. -/
theorem comparisons : Obligations.Comparisons := fun _ _ _ _ =>
  ⟨⟨rfl, needsCp1_of_fpCompareSingle rfl⟩, ⟨rfl, needsCp1_of_fpCompareDouble rfl⟩,
   ⟨rfl, needsCp1_of_fpCompareSingle rfl⟩, ⟨rfl, needsCp1_of_fpCompareDouble rfl⟩,
   ⟨rfl, needsCp1_of_fpCompareSingle rfl⟩, ⟨rfl, needsCp1_of_fpCompareDouble rfl⟩⟩

/-- Settles O54: `mov.s` and `mov.d` are the moves whose condition always holds. -/
theorem floatingMoves : Obligations.FloatingMoves := by
  intro s fd fs rt cc d single double
  have always : true = true ↔ True := iff_true_intro rfl
  have clear : (!s.readFcc cc) = true ↔ s.readFcc cc = false := .of_eq (Bool.not_eq_true' _)
  have nonzero : (s.readGpr rt != 0#32) = true ↔ s.readGpr rt ≠ 0#32 := bne_iff_ne
  have zero : (s.readGpr rt == 0#32) = true ↔ s.readGpr rt = 0#32 := beq_iff_eq
  exact
    ⟨⟨rfl, needsCp1_of_fpMoveSingleIf rfl always⟩, ⟨rfl, needsCp1_of_fpMoveDoubleIf rfl always⟩,
     ⟨rfl, needsCp1_of_fpMoveSingleIf rfl clear⟩, ⟨rfl, needsCp1_of_fpMoveDoubleIf rfl clear⟩,
     ⟨rfl, needsCp1_of_fpMoveSingleIf rfl Iff.rfl⟩, ⟨rfl, needsCp1_of_fpMoveDoubleIf rfl Iff.rfl⟩,
     ⟨rfl, needsCp1_of_fpMoveSingleIf rfl nonzero⟩, ⟨rfl, needsCp1_of_fpMoveDoubleIf rfl nonzero⟩,
     ⟨rfl, needsCp1_of_fpMoveSingleIf rfl zero⟩, ⟨rfl, needsCp1_of_fpMoveDoubleIf rfl zero⟩⟩

end Sys2Proof.Machine
end

section
/-! PROOFS. The statement of 46_float.md on the recommended `FPU` (R382): how the pattern of a NaN or of an infinity is
read, and what the operations then answer. -/

namespace Sys2Proof.Machine

/-! ### Reading a NaN or an infinity -/

/-- The pattern without its sign is the fraction and, above it, the exponent. -/
theorem mod_floatSign (F : FloatFormat) (n : Nat) :
    n % floatSign F = n % 2 ^ F.fracBits + 2 ^ F.fracBits * (n / 2 ^ F.fracBits % 2 ^ F.expBits) := by
  rw [floatSign, Nat.add_comm, Nat.pow_add, Nat.mod_mul]

/-- From the pattern of plus infinity on, the exponent is all ones. -/
theorem exponent_eq_of_floatInf_le {F : FloatFormat} {n : Nat} (h : floatInf F ≤ n % floatSign F) :
    n / 2 ^ F.fracBits % 2 ^ F.expBits = 2 ^ F.expBits - 1 := by
  rw [mod_floatSign, floatInf, Nat.mul_comm] at h
  have fraction : n % 2 ^ F.fracBits < 2 ^ F.fracBits := Nat.mod_lt _ (by positivity)
  have exponent : n / 2 ^ F.fracBits % 2 ^ F.expBits < 2 ^ F.expBits := Nat.mod_lt _ (by positivity)
  by_contra other
  have := Nat.mul_le_mul_left (2 ^ F.fracBits)
    (show n / 2 ^ F.fracBits % 2 ^ F.expBits + 1 ≤ 2 ^ F.expBits - 1 by omega)
  rw [Nat.mul_succ] at this
  omega

theorem floatUnpack_of_floatInf_le {F : FloatFormat} {n : Nat} (h : floatInf F ≤ n % floatSign F) :
    floatUnpack F n = if n % 2 ^ F.fracBits = 0 then .inf (n / floatSign F % 2 == 1) else .nan :=
  if_pos (exponent_eq_of_floatInf_le h)

theorem floatUnpack_of_floatIsNan {F : FloatFormat} {n : Nat} (h : floatIsNan F n = true) : floatUnpack F n = .nan := by
  have lt : floatInf F < n % floatSign F := of_decide_eq_true h
  have exponent := exponent_eq_of_floatInf_le lt.le
  rw [floatUnpack_of_floatInf_le lt.le, if_neg]
  intro fraction
  rw [mod_floatSign, fraction, exponent, floatInf, Nat.mul_comm, Nat.zero_add] at lt
  exact lt.false

/-! ### The operations on a NaN (R382) -/

theorem datumAdd_nan_right (F : FloatFormat) (d : Datum) : datumAdd F d .nan = floatNan F := by cases d <;> rfl

theorem datumMul_nan_right (F : FloatFormat) (d : Datum) : datumMul F d .nan = floatNan F := by cases d <;> rfl

theorem datumDiv_nan_right (F : FloatFormat) (d : Datum) : datumDiv F d .nan = floatNan F := by cases d <;> rfl

/-- A NaN on either side. -/
theorem datum_nan {F : FloatFormat} {d e : Datum} (h : d = .nan ∨ e = .nan) :
    datumAdd F d e = floatNan F ∧ datumAdd F d (datumNeg e) = floatNan F ∧ datumMul F d e = floatNan F ∧
    datumDiv F d e = floatNan F := by
  obtain rfl | rfl := h
  · exact ⟨rfl, rfl, rfl, rfl⟩
  · exact ⟨datumAdd_nan_right F d, datumAdd_nan_right F d, datumMul_nan_right F d, datumDiv_nan_right F d⟩

theorem floatCompare_of_floatIsNan {F : FloatFormat} {a b : Nat} (rel : Int → Int → Bool)
    (h : floatIsNan F a = true ∨ floatIsNan F b = true) : floatCompare F rel a b = false := by
  obtain h | h := h <;> simp [floatCompare, h]

theorem floatCompare_self {F : FloatFormat} {a : Nat} (rel : Int → Int → Bool) (h : floatIsNan F a = false) :
    floatCompare F rel a a = rel (floatKey F a) (floatKey F a) := by
  simp [floatCompare, h]

theorem datumToWord_of_floatInf_le {F : FloatFormat} {n : Nat} (mode : IntRounding)
    (h : floatInf F ≤ n % floatSign F) : datumToWord mode (floatUnpack F n) = 0x7FFFFFFF#32 := by
  rw [floatUnpack_of_floatInf_le h]
  split <;> rfl

/-! ### Signs (R382) -/

/-- All bits but the sign are kept by the mask of `abs`. -/
theorem toNat_and_mask {w : Nat} (a : BitVec (w + 1)) :
    (a &&& BitVec.ofNat (w + 1) (2 ^ w - 1)).toNat = a.toNat % 2 ^ w := by
  have : 2 ^ w - 1 < 2 ^ (w + 1) := by
    have := Nat.two_pow_pos w
    rw [Nat.pow_succ]
    omega
  rw [BitVec.toNat_and, BitVec.toNat_ofNat, Nat.mod_eq_of_lt this, Nat.and_two_pow_sub_one_eq_mod]

/-- What is exclusive-ored outside a mask is not seen through it. -/
theorem xor_and_of_and_eq_zero {w : Nat} {a m n : BitVec w} (h : m &&& n = 0#w) : (a ^^^ m) &&& n = a &&& n := by
  ext j hj
  have outside : (m[j] && n[j]) = false := by rw [← BitVec.getElem_and, h, BitVec.getElem_zero]
  rw [BitVec.getElem_and, BitVec.getElem_xor, BitVec.getElem_and, Bool.and_xor_distrib_right, outside, Bool.xor_false]

/-- Settles O55: a NaN is an exponent of ones with a fraction, and an infinity one without. -/
theorem recommendedFpu : Obligations.RecommendedFpu := by
  intro a b c d nanS nanD
  refine ⟨toNat_and_mask (w := 31) a, toNat_and_mask (w := 63) c, ?negS, xor_and_of_and_eq_zero (by decide), ?negD,
    xor_and_of_and_eq_zero (by decide), fun nan => ?nanS, fun nan => ?nanD, fun number => ?self, by decide, by decide,
    fun big => ?toWordS, fun big => ?toWordD⟩
  case negS | negD => exact (BitVec.msb_xor ..).trans (Bool.xor_true _)
  case nanS =>
    have isNan := nan.imp (decide_eq_true (p := floatInf binary32 < a.toNat % floatSign binary32))
      (decide_eq_true (p := floatInf binary32 < b.toNat % floatSign binary32))
    obtain ⟨hadd, hsub, hmul, hdiv⟩ :=
      datum_nan (F := binary32) (isNan.imp floatUnpack_of_floatIsNan floatUnpack_of_floatIsNan)
    have unordered := fun rel => floatCompare_of_floatIsNan rel isNan
    exact ⟨unordered (· == ·), unordered (decide <| · < ·), unordered (decide <| · ≤ ·),
      congrArg ofSingle hadd, congrArg ofSingle hsub, congrArg ofSingle hmul, congrArg ofSingle hdiv⟩
  case nanD =>
    have isNan := nan.imp (decide_eq_true (p := floatInf binary64 < c.toNat % floatSign binary64))
      (decide_eq_true (p := floatInf binary64 < d.toNat % floatSign binary64))
    obtain ⟨hadd, hsub, hmul, hdiv⟩ :=
      datum_nan (F := binary64) (isNan.imp floatUnpack_of_floatIsNan floatUnpack_of_floatIsNan)
    have unordered := fun rel => floatCompare_of_floatIsNan rel isNan
    exact ⟨unordered (· == ·), unordered (decide <| · < ·), unordered (decide <| · ≤ ·),
      congrArg ofDouble hadd, congrArg ofDouble hsub, congrArg ofDouble hmul, congrArg ofDouble hdiv⟩
  case self =>
    have self := fun rel => floatCompare_self (F := binary32) rel (decide_eq_false number)
    exact ⟨(self (· == ·)).trans (beq_self_eq_true _), (self (decide <| · ≤ ·)).trans (decide_eq_true (le_refl _)),
      (self (decide <| · < ·)).trans (decide_eq_false (lt_irrefl _))⟩
  case toWordS =>
    have saturates := fun mode => datumToWord_of_floatInf_le (F := binary32) mode big
    exact ⟨saturates _, saturates _, saturates _, saturates _, saturates _⟩
  case toWordD =>
    have saturates := fun mode => datumToWord_of_floatInf_le (F := binary64) mode big
    exact ⟨saturates _, saturates _, saturates _, saturates _, saturates _⟩

end Sys2Proof.Machine
end

section
/-! PROOFS. The statement of 46_float.md on words as doubles (R396): the double that a word is converted to holds the
word with its leading one moved to bit 52, and every rounding gives it back. -/

namespace Sys2Proof.Machine

/-! ### From a double to a word -/

theorem roundMagnitude_mul_two_pow (mode : IntRounding) (neg : Bool) (m k : Nat) :
    roundMagnitude mode neg (m * 2 ^ k) k = m := by
  have quotient : m * 2 ^ k / 2 ^ k = m := Nat.mul_div_cancel m (Nat.two_pow_pos k)
  cases mode <;> simp [roundMagnitude, divPow2Even, quotient, (Nat.two_pow_pos k).ne]

theorem signedNat_natAbs (i : Int) : signedNat (decide (i < 0)) i.natAbs = i := by
  rw [signedNat]
  split
  case isTrue negative => rw [decide_eq_true_iff] at negative; omega
  case isFalse nonneg => rw [decide_eq_true_iff] at nonneg; omega

/-- A number that is an integer is not rounded, whatever the mode. -/
theorem datumToWord_of_fitsWord (mode : IntRounding) {neg : Bool} {m : Nat} (k : Nat)
    (fits : FitsWord (signedNat neg m)) :
    datumToWord mode (.fin neg (m * 2 ^ k) (-k)) = BitVec.ofInt 32 (signedNat neg m) := by
  have rounded : roundToInt mode neg (m * 2 ^ k) (-k) = signedNat neg m := by
    rw [roundToInt]
    cases k with
    | zero => simp
    | succ k => rw [if_neg (by omega), neg_neg, Int.toNat_natCast, roundMagnitude_mul_two_pow]
  simp only [datumToWord, rounded]
  exact if_pos fits

/-! ### From a word to a double -/

theorem minExp_binary64 : floatMinExp binary64 = -1074 := by decide

/-- The bit pattern of a double with a sign, as a number. -/
theorem toNat_ofDouble_withSign (neg : Bool) {n : Nat} (h : n < 2 ^ 63) :
    (ofDouble (floatWithSign binary64 neg n)).toNat = neg.toNat * 2 ^ 63 + n := by
  have pattern : floatWithSign binary64 neg n = neg.toNat * 2 ^ 63 + n := by
    cases neg
    · exact (Nat.zero_add n).symm
    · rfl
  have := neg.toNat_lt
  rw [pattern, ofDouble, BitVec.toNat_ofNat, Nat.mod_eq_of_lt (by omega)]

theorem floatUnpack_of_normal {F : FloatFormat} {n e : Nat} (exponent : n / 2 ^ F.fracBits % 2 ^ F.expBits = e + 1)
    (normal : e + 1 ≠ 2 ^ F.expBits - 1) :
    floatUnpack F n =
      .fin (n / floatSign F % 2 == 1) (2 ^ F.fracBits + n % 2 ^ F.fracBits) (floatMinExp F + e) := by
  simp only [floatUnpack, exponent]
  rw [if_neg normal, if_neg (Nat.succ_ne_zero e), Nat.add_sub_cancel]

/-- A normal double, with exponent field `e + 1` and the leading one of the mantissa `r` not stored. -/
theorem double_of_normal (neg : Bool) {e r : Nat} (normal : e < 2046) (lower : 2 ^ 52 ≤ r) (upper : r < 2 ^ 53) :
    double (ofDouble (floatWithSign binary64 neg (e * 2 ^ 52 + r))) = .fin neg r (e - 1074) := by
  have := neg.toNat_lt
  have pattern := toNat_ofDouble_withSign neg (n := e * 2 ^ 52 + r) (by omega)
  generalize (ofDouble (floatWithSign binary64 neg (e * 2 ^ 52 + r))) = d at pattern
  have sign : (d.toNat / floatSign binary64 % 2 == 1) = neg := by
    have bit : d.toNat / floatSign binary64 % 2 = neg.toNat := by
      change d.toNat / 2 ^ 63 % 2 = neg.toNat
      omega
    rw [bit]
    cases neg <;> rfl
  have exponent : d.toNat / 2 ^ 52 % 2 ^ 11 = e + 1 := by omega
  have fraction : 2 ^ 52 + d.toNat % 2 ^ 52 = r := by omega
  have finite : e + 1 ≠ 2 ^ 11 - 1 := by omega
  have ulp : floatMinExp binary64 + e = e - 1074 := by rw [minExp_binary64]; omega
  calc floatUnpack binary64 d.toNat
    _ = .fin _ (2 ^ 52 + d.toNat % 2 ^ 52) _ := floatUnpack_of_normal (F := binary64) exponent finite
    _ = .fin neg r (e - 1074) := by rw [sign, fraction, ulp]

/-- The mantissa with its leading one moved to bit 52. -/
theorem mul_two_pow_log2_bounds {m : Nat} (pos : m ≠ 0) (small : Nat.log2 m ≤ 52) :
    2 ^ 52 ≤ m * 2 ^ (52 - Nat.log2 m) ∧ m * 2 ^ (52 - Nat.log2 m) < 2 ^ 53 := by
  constructor
  · calc 2 ^ 52 = 2 ^ Nat.log2 m * 2 ^ (52 - Nat.log2 m) := by rw [← Nat.pow_add]; congr 1; omega
      _ ≤ m * 2 ^ (52 - Nat.log2 m) := Nat.mul_le_mul_right _ (Nat.log2_self_le pos)
  · calc m * 2 ^ (52 - Nat.log2 m) < 2 ^ (Nat.log2 m + 1) * 2 ^ (52 - Nat.log2 m) :=
          Nat.mul_lt_mul_of_pos_right Nat.lt_log2_self (Nat.two_pow_pos _)
      _ = 2 ^ 53 := by rw [← Nat.pow_add]; congr 1; omega

/-- An integer of at most 53 bits is a normal double: nothing of it is rounded. -/
theorem floatRound_of_log2_le (neg : Bool) {m : Nat} (pos : m ≠ 0) (small : Nat.log2 m ≤ 52) :
    floatRound binary64 neg m 0 =
      floatWithSign binary64 neg ((Nat.log2 m + 1022) * 2 ^ 52 + m * 2 ^ (52 - Nat.log2 m)) := by
  have upper := (mul_two_pow_log2_bounds pos small).2
  have inf : floatInf binary64 = 2047 * 2 ^ 52 := rfl
  have unit : max ((0 : Int) + Nat.log2 m - binary64.fracBits) (-1074) = Nat.log2 m - 52 := by
    change max ((0 : Int) + Nat.log2 m - 52) (-1074) = _
    omega
  have shift : ((0 : Int) - (Nat.log2 m - 52)).toNat = 52 - Nat.log2 m := by omega
  have biased : (Nat.log2 m - 52 - (-1074 : Int)).toNat = Nat.log2 m + 1022 := by omega
  rw [floatRound, if_neg pos, minExp_binary64, unit, inf]
  dsimp only [binary64]
  rw [if_pos (by omega), shift, biased, Nat.min_eq_left (by omega)]

/-- The double of a word is exactly its value. -/
theorem double_cvtDW (a : Word) : ∃ k : Nat,
    double (ieeeFpu.cvtDW a) = .fin (decide (a.toInt < 0)) (a.toInt.natAbs * 2 ^ k) (-k) := by
  change ∃ k : Nat, double (ofDouble (floatRoundInt binary64 false a.toInt 0)) = _
  rw [floatRoundInt]
  split
  case isTrue zero =>
    have plusZero : double (ofDouble (floatWithSign binary64 false 0)) = .fin false 0 (-1074) := by decide
    refine ⟨1074, ?_⟩
    rw [plusZero, zero, Int.natAbs_zero, Nat.zero_mul]
    rfl
  case isFalse nonzero =>
    have pos : a.toInt.natAbs ≠ 0 := Int.natAbs_ne_zero.mpr nonzero
    have small : Nat.log2 a.toInt.natAbs < 32 := by
      obtain ⟨lower, upper⟩ := fitsWord_toInt a
      rw [Nat.log2_lt pos]
      omega
    obtain ⟨lower, upper⟩ := mul_two_pow_log2_bounds pos (by omega)
    have ulp : ((Nat.log2 a.toInt.natAbs + 1022 : Nat) : Int) - 1074 = -(52 - Nat.log2 a.toInt.natAbs : Nat) := by
      omega
    refine ⟨52 - Nat.log2 a.toInt.natAbs, ?_⟩
    rw [floatRound_of_log2_le _ pos (by omega), double_of_normal _ (by omega) lower upper, ulp]

/-! ### There and back -/

theorem datumToWord_cvtDW (mode : IntRounding) (a : Word) : datumToWord mode (double (ieeeFpu.cvtDW a)) = a := by
  obtain ⟨k, hk⟩ := double_cvtDW a
  have value := signedNat_natAbs a.toInt
  rw [hk, datumToWord_of_fitsWord mode k (value.symm ▸ fitsWord_toInt a), value, BitVec.ofInt_toInt]

/-- Settles O56: no rounding moves a number that is an integer. -/
theorem integersAreDoubles : Obligations.IntegersAreDoubles := fun a =>
  ⟨datumToWord_cvtDW _ a, datumToWord_cvtDW _ a, datumToWord_cvtDW _ a, datumToWord_cvtDW _ a, datumToWord_cvtDW _ a⟩

end Sys2Proof.Machine
end

section
/-! PROOFS. The statements of 47_exception_instr.md: what exception entry and the return from it make of `Status`, what
a step does at the address that an `eret` returns to, and then each instruction. -/

namespace Sys2Proof.Machine

/-! ### `Status.EXL` after entry and return (R37, R450, R470) -/

/-- A write of `EXL` leaves every other bit of `Status`. -/
theorem getLsbD_setField_exl_of_ne (v : Word) (b : BitVec 1) {j : Nat} (other : j ≠ 1) :
    (setField v 1 b).getLsbD j = v.getLsbD j := by
  rw [getLsbD_setField _ _ _ _ (by decide), if_neg (by omega)]

/-- The bit `EXL` of a `Status` that it was written to. -/
theorem getLsbD_setField_exl (v : Word) (b : BitVec 1) : (setField v 1 b).getLsbD 1 = b.getLsbD 0 := by
  rw [getLsbD_setField _ _ _ _ (by decide), if_pos (by decide)]

@[simp] theorem enterException_exl (s : State) (e : Exc) : (enterException e s).exl = true :=
  getLsbD_setField_exl s.status 1#1

/-- A handler runs in kernel mode (R490). -/
@[simp] theorem enterException_userMode (s : State) (e : Exc) : (enterException e s).userMode = false := by
  simp [State.userMode]

@[simp] theorem returnFromException_exl (s : State) : (returnFromException s).exl = false :=
  getLsbD_setField_exl s.status 0#1

@[simp] theorem returnFromException_um (s : State) : (returnFromException s).um = s.um :=
  getLsbD_setField_exl_of_ne s.status 0#1 (by decide)

/-- After the return the mode is the one that `UM` gives (R490). -/
@[simp] theorem returnFromException_userMode (s : State) : (returnFromException s).userMode = s.um := by
  simp [State.userMode]

/-- `EXL` set and then cleared, in a `Status` where it was 0. -/
theorem setField_exl_set_clear {v : Word} (exl : v.getLsbD 1 = false) : setField (setField v 1 1#1) 1 0#1 = v := by
  apply BitVec.eq_of_getLsbD_eq
  intro j _
  by_cases isExl : j = 1
  · rw [isExl, getLsbD_setField_exl, exl]
    rfl
  · rw [getLsbD_setField_exl_of_ne _ _ isExl, getLsbD_setField_exl_of_ne _ _ isExl]

/-! ### The return from an exception (R450) -/

theorem changesOnly_returnFromException (s : State) : ChangesOnly [.cp0, .link] s (returnFromException s) :=
  changesOnly_iff.mpr (by simp [Unchanged])

theorem exec_eret {s : State} (outside : s.ds = false) (kernel : s.userMode = false) :
    exec .eret s = .next (returnFromException s) :=
  outsideDelaySlot_next.mpr ⟨outside, withCp0_next.mpr (.inl ⟨kernel, rfl⟩)⟩

/-! ### The step after the return (R66, R475) -/

theorem step_of_interruptPending {s : State} (pending : interruptPending (sampleIrq s) = true) :
    step s = .next (enterException .int (sampleIrq s)) :=
  step_next.mpr (.inl ⟨pending, rfl⟩)

/-- Outside a delay slot the entry of a fetch error is plain exception entry (R462). -/
theorem enterFetchError_of_outside {s : State} (outside : s.ds = false) :
    enterFetchError s = enterException (.adEL s.pc) s := by
  have sameState : { s with ds := false } = s := by rw [← outside]
  rw [enterFetchError, sameState]

theorem step_of_misaligned {s : State} (outside : s.ds = false) (noInterrupt : interruptPending (sampleIrq s) = false)
    (misaligned : s.pc.toNat % 4 ≠ 0) : step s = .next (enterException (.adEL s.pc) (sampleIrq s)) := by
  have bad : fetchAddressBad (sampleIrq s) = true := fetchAddressBad_sampleIrq_iff.mpr fun good => misaligned good.1
  have entry : enterFetchError (sampleIrq s) = enterException (.adEL s.pc) (sampleIrq s) := by
    rw [enterFetchError_of_outside (by rw [sampleIrq_ds, outside]), sampleIrq_pc]
  exact step_next.mpr (.inr ⟨noInterrupt, .inl ⟨bad, entry.symm⟩⟩)

/-! ### Register 0 as a destination (R21) -/

/-- A result written to register 0 is discarded, which leaves only `advance`. -/
theorem setGpr_zero (v : Word) (s : State) : setGpr 0#5 v s = .next s.advance := rfl

/-! ### The instructions -/

/-- Settles O16: the delay slot, then the mode, then the return and the two ways in which the step after it can fail to
reach the instruction at `EPC`. -/
theorem exceptionReturn : Obligations.ExceptionReturn := by
  refine ⟨rfl, fun s => outsideSlot_of rfl fun _ h => needsKernel_of h fun _ h => ⟨_, h, ?_⟩⟩
  exact ⟨returnFromException_exl s, fun _ other => getLsbD_setField_exl_of_ne s.status 0#1 other, rfl, rfl, rfl, rfl,
    rfl, rfl, rfl, rfl, changesOnly_returnFromException s, returnFromException_userMode s,
    step_of_interruptPending, step_of_misaligned rfl⟩

/-- Settles O17: entry leaves a state in which `eret` returns, saves where to, and sets the bit that `eret` clears. -/
theorem entryThenReturn : Obligations.EntryThenReturn := by
  intro e s exl
  have returns : exec .eret (enterException e s) = .next (returnFromException (enterException e s)) :=
    exec_eret rfl (enterException_userMode s e)
  have status : (returnFromException (enterException e s)).status = s.status := setField_exl_set_clear exl
  refine ⟨_, returns, ?pc, status, ?mode, rfl⟩
  case pc => simp [entryEpc, exl]
  case mode => simp only [State.userMode, State.um, State.exl, status]

/-- Settles O18: neither meaning reads the code or the mode. -/
theorem systemCallAndBreak : Obligations.SystemCallAndBreak := fun _ _ => ⟨⟨rfl, rfl⟩, ⟨rfl, rfl⟩⟩

/-- Settles O19: the word decodes as `nop` and not as the `sll` that shares it (R120), which discards its result. -/
theorem nopOnlyAdvances : Obligations.NopOnlyAdvances :=
  ⟨rfl, rfl, decode_eq_ok_iff.mpr ⟨rfl, rfl⟩, fun s => ⟨onlyAdvances_of rfl, setGpr_zero _ s⟩⟩

end Sys2Proof.Machine
end

section
/-! PROOFS. The statements of 60_exceptions.md and 70_reset_and_hazards.md: what sampling and a pending interrupt are
bit by bit, the fields of `Cause` after exception entry, who needs coprocessor 1, how user mode ends, and reset. -/

namespace Sys2Proof.Machine

/-! ### The interrupt lines and the instruction of a step (R473) -/

/-- Sampling writes `Cause.IP7:2` and takes the sample off the input. -/
theorem sampleIrq_eq (s : State) :
    sampleIrq s = { s with cause := (sampleIrq s).cause, irqInput := s.irqInput.tail } := by
  rw [sampleIrq_cause, sampleIrq]
  split
  next used => simp [State.setHardIp, used]
  next sampled => simp [State.setHardIp, sampled]

theorem step_of_fetch_next {s : State} {i : Instr} (noInterrupt : interruptPending (sampleIrq s) = false)
    (aligned : s.pc.toNat % 4 = 0) (allowed : AllowedAddress s s.pc) (h : fetchInstr s = .next i) :
    step s = exec i (sampleIrq s) := by
  have good := fetchAddressBad_sampleIrq_eq_false aligned allowed
  simp [step, stepWith, stepSampled, noInterrupt, good, fetchInstr_sampleIrq, h]

/-- A fetch that no check stops gives the instruction that the four bytes decode to (R63, R66). -/
theorem fetchInstr_of_decodeBytes {s : State} {i : Instr} (aligned : s.pc.toNat % 4 = 0) (backed : Backed s s.pc 4)
    (fresh : ∀ k < 4, s.pc.toNat + k ∉ s.stored)
    (h : decodeBytes s.params.bigEndian ((bytesAt s.pc 4).map (Memory.read s.mem)) = .ok i) :
    fetchInstr s = .next i := by
  have bytes : addrsFrom s.pc 4 = bytesAt s.pc 4 := addrsFrom_aligned (by decide) aligned (le_refl 4)
  refine fetchInstr_next.mpr ⟨fun x hx => ?_, (decodeBytes_bytesAt s aligned).symm.trans h⟩
  rw [bytes] at hx
  obtain ⟨k, hk, rfl⟩ := List.mem_map.mp hx
  exact ⟨backed k (List.mem_range.mp hk), fresh k (List.mem_range.mp hk)⟩

/-- Settles O10: sampling replaces one field of `Cause`, and the fetch does not see it. -/
theorem stepRunsDecoded : Obligations.StepRunsDecoded := by
  intro s
  refine ⟨⟨?lines, fun j outside => ?others, sampleIrq_eq s⟩,
    fun i noInterrupt aligned allowed backed fresh h => ?run⟩
  case lines => rw [sampleIrq_cause, extract_setField _ _ _ (by decide)]
  case others => rw [sampleIrq_cause, getLsbD_setField _ _ _ _ (by decide), if_neg (by omega)]
  case run =>
    exact step_of_fetch_next noInterrupt aligned allowed (fetchInstr_of_decodeBytes aligned backed fresh h)

/-! ### Pending interrupts (R475, R477) -/

theorem and_ne_zero_iff_getLsbD {w : Nat} {a b : BitVec w} :
    a &&& b ≠ 0#w ↔ ∃ k < w, a.getLsbD k = true ∧ b.getLsbD k = true := by
  constructor
  · intro h
    by_contra none
    refine h (BitVec.eq_of_getLsbD_eq fun k hk => ?_)
    simpa using fun ha hb => none ⟨k, hk, ha, hb⟩
  · rintro ⟨k, -, ha, hb⟩ h
    simpa [ha, hb] using congrArg (·.getLsbD k) h

/-- An interrupt is pending when interrupts are enabled and a request has its mask bit set. -/
theorem interruptPending_iff {s : State} :
    interruptPending s = true ↔
      s.ie = true ∧ s.exl = false ∧ ∃ k < 8, s.cause.getLsbD (8 + k) = true ∧ s.status.getLsbD (8 + k) = true := by
  have requested : s.ip &&& s.im ≠ 0#8 ↔
      ∃ k < 8, s.cause.getLsbD (8 + k) = true ∧ s.status.getLsbD (8 + k) = true := by
    rw [and_ne_zero_iff_getLsbD]
    refine exists_congr fun k => and_congr_right fun hk => ?_
    simp [State.ip, State.im, hk]
  simp [interruptPending, requested, and_assoc]

theorem interruptPending_sampleIrq_iff {s : State} :
    interruptPending (sampleIrq s) = true ↔
      s.ie = true ∧ s.exl = false ∧
        ∃ k < 8, (sampleIrq s).cause.getLsbD (8 + k) = true ∧ s.status.getLsbD (8 + k) = true := by
  rw [interruptPending_iff, sampleIrq_ie, sampleIrq_exl, sampleIrq_status]

/-- Settles O11: such an interrupt is pending, and that is what a step looks at first. -/
theorem interruptTaken : Obligations.InterruptTaken := fun _ ie exl request =>
  step_of_interruptPending (interruptPending_sampleIrq_iff.mpr ⟨ie, exl, request⟩)

/-- Settles O12: each of the three conditions contradicts one that a pending interrupt needs. -/
theorem interruptMasked : Obligations.InterruptMasked := by
  intro s masked
  rw [← Bool.not_eq_true, interruptPending_sampleIrq_iff]
  rintro ⟨ie, exl, k, hk, request⟩
  obtain disabled | level | unmasked := masked
  · simp [disabled] at ie
  · simp [level] at exl
  · exact unmasked k hk request

/-! ### `Cause` after exception entry (R470, R481) -/

/-- `Cause.BD` after an exception. -/
def entryBd (s : State) : Bool := if s.exl then s.bd else s.ds

/-- `Cause.CE` after an exception. -/
def entryCe (e : Exc) (s : State) : BitVec 2 :=
  match e with
  | .cpU n => n
  | .int | .adEL _ | .adES _ | .sys | .bp | .ov | .tr => s.ce

/-- A field replaced by the value it has. -/
theorem setField_extract (v : Word) (lo n : Nat) (h : lo + n ≤ 32) : setField v lo (v.extractLsb' lo n) = v := by
  apply BitVec.eq_of_getLsbD_eq
  intro j hj
  rw [getLsbD_setField _ _ _ _ h]
  split
  next inside =>
    have inField : j - lo < n := by omega
    have place : lo + (j - lo) = j := by omega
    rw [BitVec.getLsbD_extractLsb', place]
    simp [inField]
  next => rfl

theorem setField_bd (s : State) : setField s.cause 31 (BitVec.ofBool s.bd) = s.cause := by
  have field : BitVec.ofBool s.bd = s.cause.extractLsb' 31 1 := by
    apply BitVec.eq_of_getLsbD_eq
    intro j hj
    obtain rfl : j = 0 := by omega
    simp [State.bd]
  rw [field, setField_extract _ _ _ (by decide)]

/-- Entry writes three fields of `Cause`, of which `BD` and `CE` may keep their values. -/
theorem entryCause_eq (e : Exc) (s : State) :
    entryCause e s =
      setField (setField (setField s.cause 31 (BitVec.ofBool (entryBd s))) 2 (excCodeOf e)) 28 (entryCe e s) := by
  have withBd : (if s.exl then s.cause else setField s.cause 31 (BitVec.ofBool s.ds)) =
      setField s.cause 31 (BitVec.ofBool (entryBd s)) := by
    unfold entryBd
    split
    · exact (setField_bd s).symm
    · rfl
  have keptCe :
      (setField (setField s.cause 31 (BitVec.ofBool (entryBd s))) 2 (excCodeOf e)).extractLsb' 28 2 = s.ce := by
    rw [extract_setField_other _ _ _ _ _ (by decide) (by decide),
      extract_setField_other _ _ _ _ _ (by decide) (by decide), State.ce]
  unfold entryCause
  rw [withBd]
  cases e with
  | cpU n => rfl
  | int | adEL | adES | sys | bp | ov | tr =>
    rw [entryCe, ← keptCe, setField_extract _ _ _ (by decide)]

@[simp] theorem enterException_bd (s : State) (e : Exc) : (enterException e s).bd = entryBd s := by
  rw [State.bd, enterException_cause, entryCause_eq, getLsbD_setField _ _ _ _ (by decide), if_neg (by decide),
    getLsbD_setField _ _ _ _ (by decide), if_neg (by decide), getLsbD_setField _ _ _ _ (by decide),
    if_pos (by decide)]
  simp

@[simp] theorem enterException_excCode (s : State) (e : Exc) : (enterException e s).excCode = excCodeOf e := by
  rw [State.excCode, enterException_cause, entryCause_eq, extract_setField_other _ _ _ _ _ (by decide) (by decide),
    extract_setField _ _ _ (by decide)]

@[simp] theorem enterException_ce (s : State) (e : Exc) : (enterException e s).ce = entryCe e s := by
  rw [State.ce, enterException_cause, entryCause_eq, extract_setField _ _ _ (by decide)]

@[simp] theorem enterException_ip (s : State) (e : Exc) : (enterException e s).ip = s.ip := by
  rw [State.ip, enterException_cause, entryCause_eq, extract_setField_other _ _ _ _ _ (by decide) (by decide),
    extract_setField_other _ _ _ _ _ (by decide) (by decide),
    extract_setField_other _ _ _ _ _ (by decide) (by decide), State.ip]

theorem changesOnly_enterException (s : State) (e : Exc) : ChangesOnly [.cp0, .link] s (enterException e s) :=
  changesOnly_iff.mpr (by simp [Unchanged])

/-- Settles O15: the fields of `Cause` and of `Status` one by one. -/
theorem exceptionEntry : Obligations.ExceptionEntry := by
  intro e s
  refine ⟨fun exl => ?outer, fun exl => ?nested, ?code, ?address, ?coprocessor, enterException_ip s e,
    enterException_exl s e, fun _ other => getLsbD_setField_exl_of_ne s.status 1#1 other, rfl, rfl, rfl, rfl, rfl,
    changesOnly_enterException s e⟩
  case outer => simp [entryEpc, entryBd, exl]
  case nested => simp [entryEpc, entryBd, exl]
  case code => exact enterException_excCode s e
  case address => exact enterException_badVAddr s e
  case coprocessor => exact enterException_ce s e

/-! ### Coprocessor 1 (R472, R492) -/

/-- The check of coprocessor 1 is the first of every instruction that needs it, but for that of the delay slot. -/
theorem exec_eq_withCp1 {i : Instr} {s : State} (uses : usesCp1 i = true)
    (outside : isTransfer i = true → s.ds = false) : ∃ k, exec i s = withCp1 s k := by
  cases i
  case bc1f | bc1t => exact ⟨_, if_neg (Bool.not_eq_true _ ▸ outside rfl)⟩
  case lwc1 | ldc1 | swc1 | sdc1 | mfc1 | mtc1 | movf | movt => exact ⟨_, rfl⟩
  case absS | addS | subS | mulS | divS | sqrtS | negS | movS | movfS | movtS | movnS | movzS => exact ⟨_, rfl⟩
  case absD | addD | subD | mulD | divD | sqrtD | negD | movD | movfD | movtD | movnD | movzD => exact ⟨_, rfl⟩
  case cEqS | cLeS | cLtS | cEqD | cLeD | cLtD => exact ⟨_, rfl⟩
  case cvtDS | cvtDW | cvtSD | cvtSW | cvtWD | cvtWS => exact ⟨_, rfl⟩
  case ceilWD | ceilWS | floorWD | floorWS | roundWD | roundWS | truncWD | truncWS => exact ⟨_, rfl⟩
  all_goals cases uses

/-- Settles O48: the check fails. -/
theorem coprocessor1Unusable : Obligations.Coprocessor1Unusable := by
  refine ⟨fun _ _ _ => BitVec.getLsbD_zero, fun i s uses unusable outside => ?_⟩
  obtain ⟨k, checked⟩ := exec_eq_withCp1 uses outside
  exact checked.trans (withCp1_next.mpr (.inr ⟨unusable, rfl⟩))

/-! ### How user mode ends (R490) -/

/-- What an advancing instruction writes in user mode does not reach `Status`. -/
theorem Effect.userMode {s u : State} (h : Effect s u) (user : s.userMode = true) : u.userMode = true := by
  cases h with
  | nothing | gpr | fpr | double | fcc | hiLo | gprForgetHiLo | link | store | conditionalStore => exact user
  | softIp _ kernel | status _ kernel | epc _ kernel => simp [kernel] at user

/-- An instruction leaves user mode only by raising an exception: `eret` needs kernel mode (R491). -/
theorem ExecEnds.userMode_or_raised {i : Instr} {s t : State} (h : ExecEnds i s t) (user : s.userMode = true) :
    t.userMode = true ∨ ∃ e, t = enterException e s := by
  cases h with
  | raised e => exact .inr ⟨e, rfl⟩
  | returned _ _ kernel => simp [kernel] at user
  | branched _ _ taken target => exact .inl (by simpa using user)
  | linked _ _ r v taken target => exact .inl (by simpa using user)
  | advanced _ effect => exact .inl (effect.userMode user)

/-- Sampling leaves `pc`, the address that the entry of a fetch error records (R462). -/
theorem enterFetchError_sampleIrq (s : State) :
    enterFetchError (sampleIrq s) = enterException (.adEL s.pc) { sampleIrq s with ds := false } :=
  congrArg (fun pc => enterException (.adEL pc) { sampleIrq s with ds := false }) (sampleIrq_pc s)

/-- Settles O59: an interrupt and a fetch error are exceptions, and an instruction runs in the mode before the step. -/
theorem userModeLeft : Obligations.UserModeLeft := by
  intro s t user h
  have sampledUser : (sampleIrq s).userMode = true := by rw [sampleIrq_userMode, user]
  obtain ⟨-, rfl⟩ | ⟨-, ⟨-, rfl⟩ | ⟨-, i, -, ends⟩⟩ := step_next.mp h
  · exact .inr (.inl ⟨.int, rfl⟩)
  · exact .inr (.inr (enterFetchError_sampleIrq s))
  · exact ((exec_ends i _ t ends).userMode_or_raised sampledUser).imp_right .inl

/-! ### Reset (R45, R520) -/

/-- Settles O6: after reset `Status` and `Cause` are 0, and so is every bit and field of them. -/
theorem resetState : Obligations.ResetState := by
  refine ⟨fun start p image => ?_, Config.defaultParams, rfl⟩
  have bit (j : Nat) : (0#32).getLsbD j = false := BitVec.getLsbD_zero
  have field (lo n : Nat) : (0#32).extractLsb' lo n = 0#n := BitVec.extractLsb'_zero
  have kernel : (State.boot start p image).userMode = false := Bool.and_eq_false_iff.mpr (.inl (bit 4))
  exact ⟨rfl, rfl, rfl, rfl, bit 0, bit 1, bit 4, field 8 8, bit 29, kernel, field 2 5, bit 31, field 28 2, field 8 2,
    rfl, rfl, rfl⟩

end Sys2Proof.Machine
end
